-- ==== Sys2Proof/Word.lean ====
section
/-! DEFINITION. The fixed-width words of spec/00_scope.md R9 (`u8`, `u16`, `u32`; the signed types
are the same bits read in two's complement). Offsets, positions, counts and products are `Nat`,
because R12 computes them without wrap-around. -/

namespace Sys2Proof

/-- `u8` of R9. -/
abbrev Byte := BitVec 8

/-- `u16` of R9. -/
abbrev U16 := BitVec 16

/-- `u32` of R9. -/
abbrev U32 := BitVec 32

end Sys2Proof
end

