-- ==== Sys2Proof/Config.lean ====
section
/-! DEFINITION. The implementation parameters of spec/00_scope.md R7 and the free values.

A parameter that the spec decides is a definition. A parameter the spec leaves OPEN, with a default
or without, and every value the spec calls unspecified, is an opaque constant: nothing in Lean can
tell what it is, so a proved claim holds for each of its values. -/

namespace Sys2Proof.Config

/-- Smallest `bitsPerChannel` (R7). -/
abbrev bpcMin : Nat := 1
/-- Largest `bitsPerChannel` (R7). -/
abbrev bpcMax : Nat := 8
/-- `PLANES_MAX` (R7, D4). -/
abbrev planesMax : Nat := 8
/-- `PAL_MAX` (R7, D4). -/
abbrev palMax : Nat := 256
/-- `NPAL` (R7, D4). -/
abbrev npal : Nat := 4
/-- `CK_DEPTH` (R7, D4). -/
abbrev ckDepth : Nat := 8
/-- `2 ^ AW` with `AW = 32` (R7): every buffer length is below it. -/
abbrev bufLimit : Nat := 4294967296

/-- The format's codes that the spec leaves OPEN with defaults (R7 `TAG_*`, `TYPE_*`, `COMP_STRIP`;
R104): the words that name the chunks, and the header's code of strip RLE. -/
structure Codes where
  /-- `TAG_OUTER` -/
  outer : U32
  /-- `TYPE_LINE` -/
  typeLine : U32
  /-- `TYPE_CONTIG` -/
  typeContig : U32
  /-- `TAG_HDR` -/
  hdr : U32
  /-- `TAG_MODE` -/
  mode : U32
  /-- `TAG_PAL` -/
  pal : U32
  /-- `TAG_BODY_LINE` -/
  bodyLine : U32
  /-- `TAG_BODY_CONTIG` -/
  bodyContig : U32
  /-- `TAG_STRIP` -/
  strip : U32
  /-- `TAG_RAST_SIDE` -/
  rastSide : U32
  /-- `TAG_RAST_1`, which has no default (D29) -/
  rast1 : U32
  /-- `TAG_RAST_2`, which has no default (D29) -/
  rast2 : U32
  /-- `TAG_RAST_3`, which has no default (D29) -/
  rast3 : U32
  /-- `COMP_STRIP` -/
  compStrip : Byte
  deriving DecidableEq, Repr

/-- The open words of the chunks that can stand side by side in a container: any eight words that
differ from each other (R104, R317; log 11). -/
opaque tagWord : Equiv.Perm U32
/-- `TAG_OUTER`: OPEN (R7; log 12). -/
opaque tagOuter : U32
/-- `TYPE_LINE`: OPEN (R7; log 12). -/
opaque typeLine : U32
/-- `TYPE_CONTIG`: OPEN (R7; log 12). -/
opaque typeContig : U32
/-- `TAG_STRIP`: OPEN (R7; log 12). -/
opaque tagStrip : U32
/-- `TAG_RAST_SIDE`: OPEN (R7; log 12). -/
opaque tagRastSide : U32
/-- The open part of `COMP_STRIP`: a byte that is neither 0 (raw) nor 1 (generic RLE) (R7, R319, C3;
log 12). -/
opaque compStripBeyond2 : Fin 254

/-- The codes of the format, as the parameters of R7 give them. -/
def codes : Codes where
  outer := tagOuter
  typeLine := typeLine
  typeContig := typeContig
  hdr := tagWord 0
  mode := tagWord 1
  pal := tagWord 2
  bodyLine := tagWord 3
  bodyContig := tagWord 4
  strip := tagStrip
  rastSide := tagRastSide
  rast1 := tagWord 5
  rast2 := tagWord 6
  rast3 := tagWord 7
  compStrip := BitVec.ofNat 8 (compStripBeyond2.val + 2)

/-- The codes at R7's and R104's defaults ("FORM", "ILBM", "ACBM", "BMHD", "CAMG", "CMAP", "BODY",
"ABIT", "VDAT", "RAST", 2), with these raster tags. The model does not assume them; they are for
trying it out on the vectors of spec/95_test_vectors.md. -/
def defaultCodes (r1 r2 r3 : U32) : Codes where
  outer := 0x464F524D
  typeLine := 0x494C424D
  typeContig := 0x4143424D
  hdr := 0x424D4844
  mode := 0x43414D47
  pal := 0x434D4150
  bodyLine := 0x424F4459
  bodyContig := 0x41424954
  strip := 0x56444154
  rastSide := 0x52415354
  rast1 := r1
  rast2 := r2
  rast3 := r3
  compStrip := 2

/-- `RAST_SIDE_LEN`: a parameter whose default is the unaudited literal 3400, 200 * 17 (R7, R324, U5;
log 12). -/
opaque rastSideLen : Nat

/-- The open part of `RAST_MAX` (log 10). -/
opaque rastMaxBeyond200 : Nat
/-- `RAST_MAX`: OPEN, with R7's ">= 200 needed for the legacy side channel" kept (log 10). -/
def rastMax : Nat := rastMaxBeyond200 + 200

/-- The two source layouts of the strip decoder (R237). -/
inductive VdatLayout where
  | interleaved
  | split
  deriving DecidableEq, Repr, Inhabited

/-- `VDAT_LAYOUT`: OPEN, no default (R7, R237, D23; log 8). -/
opaque vdatLayout : VdatLayout

/-- The channels a Hold-and-Modify code can patch (R289; alpha never is). -/
inductive Channel where
  | red
  | green
  | blue
  deriving DecidableEq, Repr, Inhabited

/-- `HAM_SEL`: OPEN, "a bijection {1,2,3} to {red, green, blue}" (R7, R116, R289, D33 and the table of
open parameters in spec/92_eei_decisions.md; log 12), as a permutation of the default, which is 1 blue,
2 red, 3 green. -/
opaque hamSel : Equiv.Perm Channel
/-- `HAM_SEL[1]`. -/
def hamSel1 : Channel := hamSel .blue
/-- `HAM_SEL[2]`. -/
def hamSel2 : Channel := hamSel .red
/-- `HAM_SEL[3]`. -/
def hamSel3 : Channel := hamSel .green

/-- The three readings of "scaled to 0-255" (R292). -/
inductive HamScale where
  | linear
  | replicate
  | shift
  deriving DecidableEq, Repr, Inhabited

/-- `HAM_SCALE`: OPEN, no default, one of the three readings of R292 (D34; log 9). -/
opaque hamScale : HamScale

/-- `HAM_INIT`, the colour before the first base pixel: unspecified, fixed for the run
(R7, R286, D35, U8; log 7). -/
opaque hamInit : U32

/-- `EHB_HALVES_ALPHA` (R7, D20: false). -/
def ehbHalvesAlpha : Bool := false

/-- FREE VALUE. A byte of an output buffer after a failed pass (R314, R385, U3 "any value"; log 13).
The argument is a draw number, so that no two draws need be equal. -/
opaque freeByte : Nat → Byte

/-- FREE VALUE. What a 32-bit `FAULT.info` holds when the value a rule puts there does not fit in
32 bits: the spec does not say (R381; log 14). -/
opaque wideInfo : Nat → U32

end Sys2Proof.Config
end

