-- ==== Sys2Proof/Syntax.lean ====
section
/-! DEFINITION. The instructions: one constructor for each mnemonic of spec/opcode_table.json
(the table's two rows of each Hold-and-Modify pixel code, for 6 and 8 planes, are instances of one
constructor whose first field is the plane count: "for any plane count p in 3..8").

Host operations (R120) carry their typed operands; an operand the operation's rule lets the host
omit is an `Option`. A buffer operand is the number of a host buffer. The in-stream commands carry
the fields of their command byte; their data stay in the stream (R122). -/

namespace Sys2Proof

/-- The geometry descriptor (R170): pure configuration of a bit-plane pass. -/
structure Geometry where
  bytesPerBlock : Nat
  blockStep : Nat
  blocksPerLine : Nat
  lineStep : Nat
  planeStep : Nat
  planeCount : Nat
  deriving DecidableEq, Repr

/-- The format operand of `SEQ.DECODE` and `SEQ.ENCODE` (R173, R311). -/
inductive PlaneFormat where
  | contiguous
  | line
  | word
  deriving DecidableEq, Repr

/-- The unit whose LUT a raster selection replaces (R33, R295). -/
inductive Consumer where
  | none
  | pxw
  | ham
  deriving DecidableEq, Repr

/-- The plane layout that a body tag implies (R36, R327). -/
inductive BodyLayout where
  | line
  | contig
  deriving DecidableEq, Repr

/-- The `options` operand of `SEQ.ENCODEC` (R358). The spec gives no option names (N12); these are
everything the steps of R358 need and no other operand supplies (DESIGN CHOICE, log 21):
the image size, the plane count (omitted as in `SEQ.ENCODE`), the body layout, whether generic RLE
is requested, the mode flags if given, the header fields that no step computes, and the two work
buffers. -/
structure EncOptions where
  width : U16
  height : U16
  planes : Option Nat
  layout : BodyLayout
  compress : Bool
  modeFlags : Option U32
  xOrigin : U16
  yOrigin : U16
  mask : Byte
  pad : Byte
  transparentColor : U16
  xAspect : Byte
  yAspect : Byte
  pageWidth : U16
  pageHeight : U16
  workBuf : Nat
  packBuf : Nat
  deriving DecidableEq, Repr

/-- The instructions of the block. -/
inductive Instr where
  -- Packbits commands (R108 to R110); `n` is bits 6:0 of the control byte.
  | pbLit (n : BitVec 7)
  | pbRun (n : BitVec 7)
  | pbNop
  -- Strip RLE commands (R111 to R114); `n` is bits 6:0 of the command byte.
  | vdCopyx
  | vdCopy (n : BitVec 7)
  | vdRunx
  | vdRun (n : BitVec 7)
  -- Hold-and-Modify pixel codes (R115, R116) of `p` planes; `data` is the low `p - 2` bits.
  | hamBase (p data : Nat)
  | hamModb (p data : Nat)
  | hamModr (p data : Nat)
  | hamModg (p data : Nat)
  -- Host operations (R120).
  | sysReset
  | palCreate (slot count : Nat) (bpc : Option Nat)
  | palSet (slot i : Nat) (r g b : U32) (a : Option U32)
  | palGet (slot i : Nat)
  | palResample (sd ss newBpc : Nat)
  | palToval (slot : Nat) (alpha : Option Bool)
  | palFromval (slot : Nat) (values : List U32) (bpc : Option Nat) (alpha : Option Bool)
  | palFrompix (slot buf : Nat)
  | palMono (slot : Nat)
  | palEhb (sd ss : Nat)
  | palPlanes (slot : Nat)
  | bprInit (buf : Nat) (g : Geometry)
  | bprRead
  | bprAdv (n : Nat)
  | bprEof
  | bpwInit (buf : Nat) (g : Geometry)
  | bpwWrite (index : Nat)
  | bpwAdv (n : Nat)
  | bpwEof
  | pxrInit (buf slot : Nat)
  | pxrRead
  | pxrSetpal (slot : Nat)
  | pxrAdv (n : Nat)
  | pxwInit (buf slot : Nat)
  | pxwWrite (index : Nat)
  | pxwSetpal (slot : Nat)
  | pxwAdv (n : Nat)
  | pxwWritec (colour : U32)
  | pbdDepack (src sp0 dst dbase outSize : Nat)
  | vddDecode (src base len dst dbase bytesPerLine h : Nat)
  | ckrOpen (buf : Nat)
  | ckrReadchunk
  | ckrPeek
  | ckrEof
  | ckrEnter (base length : Nat)
  | ckrLeave
  | ckrRd8
  | ckrRd16
  | ckrRd32
  | hamInit (p slot : Nat)
  | hamRead
  | hamSetpal (slot : Nat)
  | hamAdv (n : Nat)
  | rpaConfig (height : Nat) (consumer : Consumer)
  | rpaLoad (k slot : Nat)
  | rpaSelect (y : Nat)
  | seqDecode (planeBuf slot w h p : Nat) (format : PlaneFormat) (pixBuf : Nat)
  | seqEncode (pixBuf slot w h : Nat) (p : Option Nat) (format : PlaneFormat) (planeBuf : Nat)
  | seqDecodec (container work pixBuf : Nat)
  | seqScan (container : Nat)
  | seqAssemble (container work pixBuf : Nat)
  | pbePack (src bytesPerLine dst : Nat)
  | ckwStart (tag : U32)
  | ckwEnd
  | seqEncodec (pixBuf slot : Nat) (options : EncOptions) (container : Nat)
  | ckwInit (buf : Nat)
  | ckwWr8 (v : Byte)
  | ckwWr16 (v : U16)
  | ckwWr32 (v : U32)
  deriving DecidableEq, Repr

end Sys2Proof
end

