-- ==== Sys2Proof/WellFormed.lean ====
section
/-! DEFINITION. Which instructions an encoding exists for. Operands of host operations are typed
values (R120) and are checked by the operations themselves, so every host operation is well formed.
The in-stream commands have the field ranges of spec/30_encoding.md. -/

namespace Sys2Proof

/-- A Hold-and-Modify pixel code has 3 to `PLANES_MAX` planes and `p - 2` data bits
(R115, R116, R286). -/
def pixelCodeOk (p data : Nat) : Bool :=
  decide (3 ≤ p) && decide (p ≤ Config.planesMax) && decide (data < 2 ^ (p - 2))

/-- The field ranges: `PB.RUN` is not control byte 0x80 (R109), `VD.RUN` starts at 0x02 (R114). -/
def WellFormed : Instr → Bool
  | .pbRun n => decide (n ≠ 0)
  | .vdRun n => decide (2 ≤ n.toNat)
  | .hamBase p data => pixelCodeOk p data
  | .hamModb p data => pixelCodeOk p data
  | .hamModr p data => pixelCodeOk p data
  | .hamModg p data => pixelCodeOk p data
  | .pbLit _ => true
  | .pbNop => true
  | .vdCopyx => true
  | .vdCopy _ => true
  | .vdRunx => true
  | .sysReset => true
  | .palCreate _ _ _ => true
  | .palSet _ _ _ _ _ _ => true
  | .palGet _ _ => true
  | .palResample _ _ _ => true
  | .palToval _ _ => true
  | .palFromval _ _ _ _ => true
  | .palFrompix _ _ => true
  | .palMono _ => true
  | .palEhb _ _ => true
  | .palPlanes _ => true
  | .bprInit _ _ => true
  | .bprRead => true
  | .bprAdv _ => true
  | .bprEof => true
  | .bpwInit _ _ => true
  | .bpwWrite _ => true
  | .bpwAdv _ => true
  | .bpwEof => true
  | .pxrInit _ _ => true
  | .pxrRead => true
  | .pxrSetpal _ => true
  | .pxrAdv _ => true
  | .pxwInit _ _ => true
  | .pxwWrite _ => true
  | .pxwSetpal _ => true
  | .pxwAdv _ => true
  | .pxwWritec _ => true
  | .pbdDepack _ _ _ _ _ => true
  | .vddDecode _ _ _ _ _ _ _ => true
  | .ckrOpen _ => true
  | .ckrReadchunk => true
  | .ckrPeek => true
  | .ckrEof => true
  | .ckrEnter _ _ => true
  | .ckrLeave => true
  | .ckrRd8 => true
  | .ckrRd16 => true
  | .ckrRd32 => true
  | .hamInit _ _ => true
  | .hamRead => true
  | .hamSetpal _ => true
  | .hamAdv _ => true
  | .rpaConfig _ _ => true
  | .rpaLoad _ _ => true
  | .rpaSelect _ => true
  | .seqDecode _ _ _ _ _ _ _ => true
  | .seqEncode _ _ _ _ _ _ _ => true
  | .seqDecodec _ _ _ => true
  | .seqScan _ => true
  | .seqAssemble _ _ _ => true
  | .pbePack _ _ _ => true
  | .ckwStart _ => true
  | .ckwEnd => true
  | .seqEncodec _ _ _ _ => true
  | .ckwInit _ => true
  | .ckwWr8 _ => true
  | .ckwWr16 _ => true
  | .ckwWr32 _ => true

end Sys2Proof
end

