-- ==== Sys2Proof/Decode.lean ====
section
/-! DEFINITION. The encoded forms and the decoder, then the encoder (spec/30_encoding.md).

The block has four encodings, each read by the unit it is for: the host operation `HOP` (an 8-bit
code and typed operands, R120, D2), the Packbits control byte `PB` (R108 to R110), the strip command
byte `VD` (R111 to R114) and the Hold-and-Modify pixel code `HAMPIX` (R115, R116). A `Packet` is one
encoded instruction with the format it is in: the same byte means different things to different
units, and nothing in the byte says which unit reads it. -/

namespace Sys2Proof

/-- A typed operand of a host operation (R120: "operands are passed as typed values, not as a
bit-packed word"). The `opt` forms are operands the host may omit. -/
inductive Operand where
  | nat (n : Nat)
  | u8 (v : Byte)
  | u16 (v : U16)
  | u32 (v : U32)
  | words (vs : List U32)
  | buf (id : Nat)
  | geometry (g : Geometry)
  | format (f : PlaneFormat)
  | consumer (c : Consumer)
  | options (o : EncOptions)
  | optNat (n : Option Nat)
  | optU32 (v : Option U32)
  | optFlag (b : Option Bool)
  deriving DecidableEq, Repr

/-- One encoded instruction: the format and its bits. -/
inductive Packet where
  | hop (code : Byte) (operands : List Operand)
  | pb (control : Byte)
  | vd (command : Byte)
  | ham (planes raw : Nat)
  deriving DecidableEq, Repr

/-- Why a packet is no instruction. -/
inductive DecodeError where
  /-- A host operation code outside the table of R120 (R121: refused, `E_PROG(BAD_OP, code)`). -/
  | badOp (code : Byte)
  /-- The operands are not of the number and types R120 gives the code: no host can pass them. -/
  | illTyped (code : Byte)
  /-- A pixel code of fewer than 3 or more than `PLANES_MAX` planes, or of more bits than planes. -/
  | badPixel (planes raw : Nat)
  deriving DecidableEq, Repr

/-- The commands of a Packbits stream (R220). -/
inductive PbCmd where
  | lit (n : BitVec 7)
  | run (n : BitVec 7)
  | nop
  deriving DecidableEq, Repr

/-- The commands of a strip RLE stream (R235). -/
inductive VdCmd where
  | copyx
  | copy (n : BitVec 7)
  | runx
  | run (n : BitVec 7)
  deriving DecidableEq, Repr

/-- The selector of a pixel code (R115, R116). -/
inductive HamSel where
  | base
  | modb
  | modr
  | modg
  deriving DecidableEq, Repr

/-- Bits 6:0 of a command byte. -/
def low7 (c : Byte) : BitVec 7 := c.extractLsb' 0 7

/-- R108 to R110: bit 7 clear is a literal, 0x80 the no-op, any other byte a run. -/
def decodePb (c : Byte) : PbCmd :=
  if c.msb = false then .lit (low7 c)
  else if c = 0x80 then .nop
  else .run (low7 c)

/-- R111 to R114: 0x00, a set bit 7, 0x01, and the rest. -/
def decodeVd (c : Byte) : VdCmd :=
  if c = 0x00 then .copyx
  else if c.msb = true then .copy (low7 c)
  else if c = 0x01 then .runx
  else .run (low7 c)

/-- The selector values of R115 and R116 (all four are defined, R121). -/
def hamSelOf (sel : Nat) : HamSel :=
  match sel with
  | 0 => .base
  | 1 => .modb
  | 2 => .modr
  | _ => .modg

/-- `sel = raw[p-1:p-2]`, `data = raw[p-3:0]` (30_encoding.md section 5). -/
def decodeHam (p raw : Nat) : HamSel × Nat :=
  (hamSelOf (raw / 2 ^ (p - 2)), raw % 2 ^ (p - 2))

/-- The instruction a Packbits command is. -/
def instrOfPb (c : PbCmd) : Instr :=
  match c with
  | .lit n => .pbLit n
  | .run n => .pbRun n
  | .nop => .pbNop

/-- The instruction a strip command is. -/
def instrOfVd (c : VdCmd) : Instr :=
  match c with
  | .copyx => .vdCopyx
  | .copy n => .vdCopy n
  | .runx => .vdRunx
  | .run n => .vdRun n

/-- The instruction a pixel code is. -/
def instrOfHam (p : Nat) (s : HamSel) (data : Nat) : Instr :=
  match s with
  | .base => .hamBase p data
  | .modb => .hamModb p data
  | .modr => .hamModr p data
  | .modg => .hamModg p data

/-- The host operations of R120, by unit nibble and function nibble. -/
def decodeHop (code : Byte) (ops : List Operand) : Except DecodeError Instr :=
  match code.toNat with
  | 0x00 => match ops with | [] => .ok .sysReset | _ => .error (.illTyped code)
  | 0x10 => match ops with
    | [.nat s, .nat n, .optNat b] => .ok (.palCreate s n b)
    | _ => .error (.illTyped code)
  | 0x11 => match ops with
    | [.nat s, .nat i, .u32 r, .u32 g, .u32 b, .optU32 a] => .ok (.palSet s i r g b a)
    | _ => .error (.illTyped code)
  | 0x12 => match ops with
    | [.nat s, .nat i] => .ok (.palGet s i)
    | _ => .error (.illTyped code)
  | 0x13 => match ops with
    | [.nat d, .nat s, .nat b] => .ok (.palResample d s b)
    | _ => .error (.illTyped code)
  | 0x14 => match ops with
    | [.nat s, .optFlag a] => .ok (.palToval s a)
    | _ => .error (.illTyped code)
  | 0x15 => match ops with
    | [.nat s, .words vs, .optNat b, .optFlag a] => .ok (.palFromval s vs b a)
    | _ => .error (.illTyped code)
  | 0x16 => match ops with
    | [.nat s, .buf x] => .ok (.palFrompix s x)
    | _ => .error (.illTyped code)
  | 0x17 => match ops with | [.nat s] => .ok (.palMono s) | _ => .error (.illTyped code)
  | 0x18 => match ops with
    | [.nat d, .nat s] => .ok (.palEhb d s)
    | _ => .error (.illTyped code)
  | 0x19 => match ops with | [.nat s] => .ok (.palPlanes s) | _ => .error (.illTyped code)
  | 0x20 => match ops with
    | [.buf b, .geometry g] => .ok (.bprInit b g)
    | _ => .error (.illTyped code)
  | 0x21 => match ops with | [] => .ok .bprRead | _ => .error (.illTyped code)
  | 0x22 => match ops with | [.nat n] => .ok (.bprAdv n) | _ => .error (.illTyped code)
  | 0x23 => match ops with | [] => .ok .bprEof | _ => .error (.illTyped code)
  | 0x30 => match ops with
    | [.buf b, .geometry g] => .ok (.bpwInit b g)
    | _ => .error (.illTyped code)
  | 0x31 => match ops with | [.nat i] => .ok (.bpwWrite i) | _ => .error (.illTyped code)
  | 0x32 => match ops with | [.nat n] => .ok (.bpwAdv n) | _ => .error (.illTyped code)
  | 0x33 => match ops with | [] => .ok .bpwEof | _ => .error (.illTyped code)
  | 0x40 => match ops with
    | [.buf b, .nat s] => .ok (.pxrInit b s)
    | _ => .error (.illTyped code)
  | 0x41 => match ops with | [] => .ok .pxrRead | _ => .error (.illTyped code)
  | 0x42 => match ops with | [.nat s] => .ok (.pxrSetpal s) | _ => .error (.illTyped code)
  | 0x43 => match ops with | [.nat n] => .ok (.pxrAdv n) | _ => .error (.illTyped code)
  | 0x50 => match ops with
    | [.buf b, .nat s] => .ok (.pxwInit b s)
    | _ => .error (.illTyped code)
  | 0x51 => match ops with | [.nat i] => .ok (.pxwWrite i) | _ => .error (.illTyped code)
  | 0x52 => match ops with | [.nat s] => .ok (.pxwSetpal s) | _ => .error (.illTyped code)
  | 0x53 => match ops with | [.nat n] => .ok (.pxwAdv n) | _ => .error (.illTyped code)
  | 0x54 => match ops with | [.u32 c] => .ok (.pxwWritec c) | _ => .error (.illTyped code)
  | 0x60 => match ops with
    | [.buf s, .nat sp0, .buf d, .nat dbase, .nat outSize] =>
      .ok (.pbdDepack s sp0 d dbase outSize)
    | _ => .error (.illTyped code)
  | 0x70 => match ops with
    | [.buf s, .nat base, .nat len, .buf d, .nat dbase, .nat bpl, .nat h] =>
      .ok (.vddDecode s base len d dbase bpl h)
    | _ => .error (.illTyped code)
  | 0x80 => match ops with | [.buf b] => .ok (.ckrOpen b) | _ => .error (.illTyped code)
  | 0x81 => match ops with | [] => .ok .ckrReadchunk | _ => .error (.illTyped code)
  | 0x82 => match ops with | [] => .ok .ckrPeek | _ => .error (.illTyped code)
  | 0x83 => match ops with | [] => .ok .ckrEof | _ => .error (.illTyped code)
  | 0x84 => match ops with
    | [.nat base, .nat length] => .ok (.ckrEnter base length)
    | _ => .error (.illTyped code)
  | 0x85 => match ops with | [] => .ok .ckrLeave | _ => .error (.illTyped code)
  | 0x86 => match ops with | [] => .ok .ckrRd8 | _ => .error (.illTyped code)
  | 0x87 => match ops with | [] => .ok .ckrRd16 | _ => .error (.illTyped code)
  | 0x88 => match ops with | [] => .ok .ckrRd32 | _ => .error (.illTyped code)
  | 0x90 => match ops with
    | [.nat p, .nat s] => .ok (.hamInit p s)
    | _ => .error (.illTyped code)
  | 0x91 => match ops with | [] => .ok .hamRead | _ => .error (.illTyped code)
  | 0x92 => match ops with | [.nat s] => .ok (.hamSetpal s) | _ => .error (.illTyped code)
  | 0x93 => match ops with | [.nat n] => .ok (.hamAdv n) | _ => .error (.illTyped code)
  | 0xA0 => match ops with
    | [.nat height, .consumer c] => .ok (.rpaConfig height c)
    | _ => .error (.illTyped code)
  | 0xA1 => match ops with
    | [.nat k, .nat s] => .ok (.rpaLoad k s)
    | _ => .error (.illTyped code)
  | 0xA2 => match ops with | [.nat y] => .ok (.rpaSelect y) | _ => .error (.illTyped code)
  | 0xB0 => match ops with
    | [.buf b, .nat s, .nat w, .nat h, .nat p, .format f, .buf x] =>
      .ok (.seqDecode b s w h p f x)
    | _ => .error (.illTyped code)
  | 0xB1 => match ops with
    | [.buf x, .nat s, .nat w, .nat h, .optNat p, .format f, .buf b] =>
      .ok (.seqEncode x s w h p f b)
    | _ => .error (.illTyped code)
  | 0xB2 => match ops with
    | [.buf c, .buf w, .buf x] => .ok (.seqDecodec c w x)
    | _ => .error (.illTyped code)
  | 0xB3 => match ops with | [.buf c] => .ok (.seqScan c) | _ => .error (.illTyped code)
  | 0xB4 => match ops with
    | [.buf c, .buf w, .buf x] => .ok (.seqAssemble c w x)
    | _ => .error (.illTyped code)
  | 0xC0 => match ops with
    | [.buf s, .nat bpl, .buf d] => .ok (.pbePack s bpl d)
    | _ => .error (.illTyped code)
  | 0xC1 => match ops with | [.u32 t] => .ok (.ckwStart t) | _ => .error (.illTyped code)
  | 0xC2 => match ops with | [] => .ok .ckwEnd | _ => .error (.illTyped code)
  | 0xC3 => match ops with
    | [.buf x, .nat s, .options o, .buf c] => .ok (.seqEncodec x s o c)
    | _ => .error (.illTyped code)
  | 0xC4 => match ops with | [.buf b] => .ok (.ckwInit b) | _ => .error (.illTyped code)
  | 0xC5 => match ops with | [.u8 v] => .ok (.ckwWr8 v) | _ => .error (.illTyped code)
  | 0xC6 => match ops with | [.u16 v] => .ok (.ckwWr16 v) | _ => .error (.illTyped code)
  | 0xC7 => match ops with | [.u32 v] => .ok (.ckwWr32 v) | _ => .error (.illTyped code)
  | _ => .error (.badOp code)

/-- The decoder: total on any packet, refusing by name. -/
def decode (pk : Packet) : Except DecodeError Instr :=
  match pk with
  | .hop code ops => decodeHop code ops
  | .pb c => .ok (instrOfPb (decodePb c))
  | .vd c => .ok (instrOfVd (decodeVd c))
  | .ham p raw =>
    if 3 ≤ p ∧ p ≤ Config.planesMax ∧ raw < 2 ^ p then
      .ok (instrOfHam p (decodeHam p raw).1 (decodeHam p raw).2)
    else .error (.badPixel p raw)

/-- A command byte with bit 7 clear. -/
def byteLow (n : BitVec 7) : Byte := n.setWidth 8

/-- A command byte with bit 7 set. -/
def byteHigh (n : BitVec 7) : Byte := 0x80 ||| n.setWidth 8

/-- The encoder: the packet of an instruction, from the same tables (R108 to R116, R120). -/
def encode (i : Instr) : Packet :=
  match i with
  | .pbLit n => .pb (byteLow n)
  | .pbRun n => .pb (byteHigh n)
  | .pbNop => .pb 0x80
  | .vdCopyx => .vd 0x00
  | .vdCopy n => .vd (byteHigh n)
  | .vdRunx => .vd 0x01
  | .vdRun n => .vd (byteLow n)
  | .hamBase p data => .ham p (0 * 2 ^ (p - 2) + data)
  | .hamModb p data => .ham p (1 * 2 ^ (p - 2) + data)
  | .hamModr p data => .ham p (2 * 2 ^ (p - 2) + data)
  | .hamModg p data => .ham p (3 * 2 ^ (p - 2) + data)
  | .sysReset => .hop 0x00 []
  | .palCreate s n b => .hop 0x10 [.nat s, .nat n, .optNat b]
  | .palSet s i r g b a => .hop 0x11 [.nat s, .nat i, .u32 r, .u32 g, .u32 b, .optU32 a]
  | .palGet s i => .hop 0x12 [.nat s, .nat i]
  | .palResample d s b => .hop 0x13 [.nat d, .nat s, .nat b]
  | .palToval s a => .hop 0x14 [.nat s, .optFlag a]
  | .palFromval s vs b a => .hop 0x15 [.nat s, .words vs, .optNat b, .optFlag a]
  | .palFrompix s x => .hop 0x16 [.nat s, .buf x]
  | .palMono s => .hop 0x17 [.nat s]
  | .palEhb d s => .hop 0x18 [.nat d, .nat s]
  | .palPlanes s => .hop 0x19 [.nat s]
  | .bprInit b g => .hop 0x20 [.buf b, .geometry g]
  | .bprRead => .hop 0x21 []
  | .bprAdv n => .hop 0x22 [.nat n]
  | .bprEof => .hop 0x23 []
  | .bpwInit b g => .hop 0x30 [.buf b, .geometry g]
  | .bpwWrite i => .hop 0x31 [.nat i]
  | .bpwAdv n => .hop 0x32 [.nat n]
  | .bpwEof => .hop 0x33 []
  | .pxrInit b s => .hop 0x40 [.buf b, .nat s]
  | .pxrRead => .hop 0x41 []
  | .pxrSetpal s => .hop 0x42 [.nat s]
  | .pxrAdv n => .hop 0x43 [.nat n]
  | .pxwInit b s => .hop 0x50 [.buf b, .nat s]
  | .pxwWrite i => .hop 0x51 [.nat i]
  | .pxwSetpal s => .hop 0x52 [.nat s]
  | .pxwAdv n => .hop 0x53 [.nat n]
  | .pxwWritec c => .hop 0x54 [.u32 c]
  | .pbdDepack s sp0 d dbase outSize =>
    .hop 0x60 [.buf s, .nat sp0, .buf d, .nat dbase, .nat outSize]
  | .vddDecode s base len d dbase bpl h =>
    .hop 0x70 [.buf s, .nat base, .nat len, .buf d, .nat dbase, .nat bpl, .nat h]
  | .ckrOpen b => .hop 0x80 [.buf b]
  | .ckrReadchunk => .hop 0x81 []
  | .ckrPeek => .hop 0x82 []
  | .ckrEof => .hop 0x83 []
  | .ckrEnter base length => .hop 0x84 [.nat base, .nat length]
  | .ckrLeave => .hop 0x85 []
  | .ckrRd8 => .hop 0x86 []
  | .ckrRd16 => .hop 0x87 []
  | .ckrRd32 => .hop 0x88 []
  | .hamInit p s => .hop 0x90 [.nat p, .nat s]
  | .hamRead => .hop 0x91 []
  | .hamSetpal s => .hop 0x92 [.nat s]
  | .hamAdv n => .hop 0x93 [.nat n]
  | .rpaConfig height c => .hop 0xA0 [.nat height, .consumer c]
  | .rpaLoad k s => .hop 0xA1 [.nat k, .nat s]
  | .rpaSelect y => .hop 0xA2 [.nat y]
  | .seqDecode b s w h p f x =>
    .hop 0xB0 [.buf b, .nat s, .nat w, .nat h, .nat p, .format f, .buf x]
  | .seqEncode x s w h p f b =>
    .hop 0xB1 [.buf x, .nat s, .nat w, .nat h, .optNat p, .format f, .buf b]
  | .seqDecodec c w x => .hop 0xB2 [.buf c, .buf w, .buf x]
  | .seqScan c => .hop 0xB3 [.buf c]
  | .seqAssemble c w x => .hop 0xB4 [.buf c, .buf w, .buf x]
  | .pbePack s bpl d => .hop 0xC0 [.buf s, .nat bpl, .buf d]
  | .ckwStart t => .hop 0xC1 [.u32 t]
  | .ckwEnd => .hop 0xC2 []
  | .seqEncodec x s o c => .hop 0xC3 [.buf x, .nat s, .options o, .buf c]
  | .ckwInit b => .hop 0xC4 [.buf b]
  | .ckwWr8 v => .hop 0xC5 [.u8 v]
  | .ckwWr16 v => .hop 0xC6 [.u16 v]
  | .ckwWr32 v => .hop 0xC7 [.u32 v]

/-! ### Reading an instruction from the opcode table's bits

The table's rows are one byte wide. Its four formats share the byte values, so a bare byte does not
tell its format; `packetOfByte` follows the table's own tie-break ("the row with the larger mask
wins"), a tie going to the host operation (DESIGN CHOICE, log 2). -/

/-- The geometry operand whose six numbers are zero. -/
def zeroGeometry : Geometry := ⟨0, 0, 0, 0, 0, 0⟩

/-- The options operand whose numbers are zero and whose optional parts are omitted. -/
def zeroOptions : EncOptions where
  width := 0
  height := 0
  planes := none
  layout := .line
  compress := false
  modeFlags := none
  xOrigin := 0
  yOrigin := 0
  mask := 0
  pad := 0
  transparentColor := 0
  xAspect := 0
  yAspect := 0
  pageWidth := 0
  pageHeight := 0
  workBuf := 0
  packBuf := 0

/-- The operands of a host operation whose operand words are zeros: every number and buffer is 0,
an omissible operand is omitted. `none` for a code outside the table of R120. -/
def zeroOperands (code : Nat) : Option (List Operand) :=
  match code with
  | 0x00 => some []
  | 0x10 => some [.nat 0, .nat 0, .optNat none]
  | 0x11 => some [.nat 0, .nat 0, .u32 0, .u32 0, .u32 0, .optU32 none]
  | 0x12 => some [.nat 0, .nat 0]
  | 0x13 => some [.nat 0, .nat 0, .nat 0]
  | 0x14 => some [.nat 0, .optFlag none]
  | 0x15 => some [.nat 0, .words [], .optNat none, .optFlag none]
  | 0x16 => some [.nat 0, .buf 0]
  | 0x17 => some [.nat 0]
  | 0x18 => some [.nat 0, .nat 0]
  | 0x19 => some [.nat 0]
  | 0x20 => some [.buf 0, .geometry zeroGeometry]
  | 0x21 => some []
  | 0x22 => some [.nat 0]
  | 0x23 => some []
  | 0x30 => some [.buf 0, .geometry zeroGeometry]
  | 0x31 => some [.nat 0]
  | 0x32 => some [.nat 0]
  | 0x33 => some []
  | 0x40 => some [.buf 0, .nat 0]
  | 0x41 => some []
  | 0x42 => some [.nat 0]
  | 0x43 => some [.nat 0]
  | 0x50 => some [.buf 0, .nat 0]
  | 0x51 => some [.nat 0]
  | 0x52 => some [.nat 0]
  | 0x53 => some [.nat 0]
  | 0x54 => some [.u32 0]
  | 0x60 => some [.buf 0, .nat 0, .buf 0, .nat 0, .nat 0]
  | 0x70 => some [.buf 0, .nat 0, .nat 0, .buf 0, .nat 0, .nat 0, .nat 0]
  | 0x80 => some [.buf 0]
  | 0x81 => some []
  | 0x82 => some []
  | 0x83 => some []
  | 0x84 => some [.nat 0, .nat 0]
  | 0x85 => some []
  | 0x86 => some []
  | 0x87 => some []
  | 0x88 => some []
  | 0x90 => some [.nat 0, .nat 0]
  | 0x91 => some []
  | 0x92 => some [.nat 0]
  | 0x93 => some [.nat 0]
  | 0xA0 => some [.nat 0, .consumer .none]
  | 0xA1 => some [.nat 0, .nat 0]
  | 0xA2 => some [.nat 0]
  | 0xB0 => some [.buf 0, .nat 0, .nat 0, .nat 0, .nat 0, .format .contiguous, .buf 0]
  | 0xB1 => some [.buf 0, .nat 0, .nat 0, .nat 0, .optNat none, .format .contiguous, .buf 0]
  | 0xB2 => some [.buf 0, .buf 0, .buf 0]
  | 0xB3 => some [.buf 0]
  | 0xB4 => some [.buf 0, .buf 0, .buf 0]
  | 0xC0 => some [.buf 0, .nat 0, .buf 0]
  | 0xC1 => some [.u32 0]
  | 0xC2 => some []
  | 0xC3 => some [.buf 0, .nat 0, .options zeroOptions, .buf 0]
  | 0xC4 => some [.buf 0]
  | 0xC5 => some [.u8 0]
  | 0xC6 => some [.u16 0]
  | 0xC7 => some [.u32 0]
  | _ => none

/-- The packet a byte of the opcode table stands for: the row that fixes the most of its bits.
A host operation and `VD.RUNX` fix eight; a pixel code of 6 planes fixes its two selector bits and
the two bits it has no planes for; a pixel code of 8 planes fixes two. -/
def packetOfByte (w : Nat) : Packet :=
  match zeroOperands w with
  | some ops => .hop (BitVec.ofNat 8 w) ops
  | none => if w = 1 then .vd 0x01 else if w < 64 then .ham 6 w else .ham 8 w

/-- The packet of an instruction of `nbits` bits `w`; the table has no row wider than a byte. -/
def packetOfWord (nbits w : Nat) : Option Packet :=
  if nbits ≤ 8 ∧ w < 256 then some (packetOfByte w) else none

/-- What the decoder reads from an instruction whose bits are `w`, numbered as the opcode table
numbers them. -/
def decodeTableWord (nbits w : Nat) : Option Instr :=
  match packetOfWord nbits w with
  | some pk => (decode pk).toOption
  | none => none

end Sys2Proof
end

