-- ==== Sys2Proof/Machine/State.lean ====
section
/-! DEFINITION. The state of the block as plain data: every register of spec/10_state.md, the
companion units' state of spec/48_companion_encode.md, the host's buffers, and three fields that are
the model's own (`pending`, `reply`, `draws`). Then the reasons a step can stop, and the state after
`SYS.RESET`.

Register files and buffers are sparse maps: lists of (key, value) pairs with strictly rising keys
and no entry equal to the value an unlisted key has (the operations are in Machine/Sparse.lean). -/

namespace Sys2Proof.Machine

/-- A fault register `U.FAULT` (R39). -/
structure FaultReg where
  valid : Bool
  cause : Byte
  sub : Byte
  info : U32
  deriving DecidableEq, Repr

/-- A palette entry (R20, R22). -/
structure Entry where
  set : Bool
  r : Byte
  g : Byte
  b : Byte
  a : Byte
  deriving DecidableEq, Repr

/-- A palette slot (R20); `ent` is keyed by the entry index. `bpcBits` are the stored bits of `bpc`, whose
eight values 1 to 8 take three bits, 8 being stored as 0 (log 33); `Slot.bpc` reads them. -/
structure Slot where
  made : Bool
  count : Nat
  bpcBits : BitVec 3
  ent : List (Nat × Entry)
  deriving DecidableEq, Repr

/-- The palette unit: its slots, keyed 0 to `NPAL - 1`, and its fault register. -/
structure Pal where
  slots : List (Nat × Slot)
  fault : FaultReg
  deriving DecidableEq, Repr

/-- An element of a look-up table (R28). -/
structure LutElem where
  set : Bool
  val : U32
  deriving DecidableEq, Repr

/-- A look-up table: `lutCount` and `lut[]` (R28), also the format of a raster palette (R33). -/
structure Lut where
  count : Nat
  elems : List (Nat × LutElem)
  deriving DecidableEq, Repr

/-- What a unit's buffer binding names: a window of a host buffer, `len` bytes from offset `base` of
buffer `id`. A whole buffer is the window with `base = 0` and the buffer's own length; R328 makes a
window of a buffer a buffer. -/
structure BufRef where
  id : Nat
  base : Nat
  len : Nat
  deriving DecidableEq, Repr

/-- The cursor of a bit-plane unit (R24). -/
structure Cursor where
  byte : Nat
  block : Nat
  line : Nat
  bit : Nat
  deriving DecidableEq, Repr

/-- The bit-plane reader (R23 to R26, R60). -/
structure Bpr where
  init : Bool
  geom : Geometry
  cur : Cursor
  buf : Option BufRef
  cache : List Byte
  fault : FaultReg
  deriving DecidableEq, Repr

/-- The bit-plane writer (R23 to R25, R60). -/
structure Bpw where
  init : Bool
  geom : Geometry
  cur : Cursor
  buf : Option BufRef
  fault : FaultReg
  deriving DecidableEq, Repr

/-- A pixel-bridge unit, PXR or PXW (R27, R28, R60). -/
structure PixUnit where
  init : Bool
  buf : Option BufRef
  pos : Nat
  lut : Lut
  fault : FaultReg
  deriving DecidableEq, Repr

/-- The Packbits decoder (R29). -/
structure Pbd where
  src : Option BufRef
  dst : Option BufRef
  sp : Nat
  dbase : Nat
  outSize : Nat
  produced : Nat
  fault : FaultReg
  deriving DecidableEq, Repr

/-- `VDD.status` (R30). -/
inductive VddStatus where
  | idle
  | full
  | srcEnd
  deriving DecidableEq, Repr

/-- The strip decoder (R30). `rend` is the end of the source region that R237 tests; the spec
names no register for it (log 26). -/
structure Vdd where
  src : Option BufRef
  dst : Option BufRef
  cp : Nat
  cend : Nat
  dp : Nat
  rend : Nat
  dbase : Nat
  bytesPerLine : Nat
  h : Nat
  x : Nat
  y : Nat
  status : VddStatus
  fault : FaultReg
  deriving DecidableEq, Repr

/-- A view of the chunk reader (R31). -/
structure View where
  base : Nat
  len : Nat
  pos : Nat
  deriving DecidableEq, Repr

/-- The chunk reader (R31, R60); `views` is keyed 0 to `CK_DEPTH - 1`. -/
structure Ckr where
  init : Bool
  src : Option BufRef
  depth : Nat
  views : List (Nat × View)
  fault : FaultReg
  deriving DecidableEq, Repr

/-- The Hold-and-Modify unit (R32, R28, R60). -/
structure Ham where
  init : Bool
  planes : Nat
  cur : U32
  curSet : Bool
  lut : Lut
  fault : FaultReg
  deriving DecidableEq, Repr

/-- The raster palette arbiter (R33, R60); `ras` is keyed 0 to `RAST_MAX - 1`. -/
structure Rpa where
  init : Bool
  count : Nat
  height : Nat
  ras : List (Nat × Lut)
  consumer : Consumer
  fault : FaultReg
  deriving DecidableEq, Repr

/-- The header registers (R34). -/
structure Hdr where
  width : U16
  height : U16
  xOrigin : U16
  yOrigin : U16
  planes : Byte
  mask : Byte
  compression : Byte
  pad : Byte
  transparentColor : U16
  xAspect : Byte
  yAspect : Byte
  pageWidth : U16
  pageHeight : U16
  bytesPerLine : Nat
  valid : Bool
  deriving DecidableEq, Repr

/-- `SEQ.state` (R36). -/
inductive SeqState where
  | idle
  | scan
  | assemble
  | done
  | faulted
  deriving DecidableEq, Repr

/-- The body descriptor `BODY` (R36). -/
structure BodyDesc where
  present : Bool
  base : Nat
  len : Nat
  layout : BodyLayout
  deriving DecidableEq, Repr

/-- A raster chunk descriptor `RDESC[j]` (R36). -/
structure RastDesc where
  present : Bool
  tag : U32
  base : Nat
  len : Nat
  deriving DecidableEq, Repr

/-- The side channel descriptor `SIDE` (R36). -/
structure SideDesc where
  present : Bool
  base : Nat
  len : Nat
  deriving DecidableEq, Repr

/-- The sequencer (R34 to R36). -/
structure Seq where
  state : SeqState
  hdr : Hdr
  mode : U32
  body : BodyDesc
  palPresent : Bool
  rdesc1 : RastDesc
  rdesc2 : RastDesc
  rdesc3 : RastDesc
  side : SideDesc
  fault : FaultReg
  deriving DecidableEq, Repr

/-- The Packbits compressor: no state survives an operation but its fault register
(48_companion_encode.md, R388). -/
structure Pbe where
  fault : FaultReg
  deriving DecidableEq, Repr

/-- The chunk writer (48_companion_encode.md, R355 to R357); `start` is keyed 0 to `CK_DEPTH - 1`. -/
structure Ckw where
  init : Bool
  dst : Option BufRef
  pos : Nat
  sd : Nat
  start : List (Nat × Nat)
  fault : FaultReg
  deriving DecidableEq, Repr

/-- A host buffer (R10): `len` bytes; `cells` lists those that are not zero. -/
structure Buffer where
  len : Nat
  cells : List Host.Cell
  deriving DecidableEq, Repr

/-- The host's buffers, keyed by buffer number. A number the host has supplied nothing under is the
empty buffer (log 5). -/
abbrev Mem := List (Nat × Buffer)

/-- The result of an operation (the result column of R120). -/
inductive Result where
  | unit
  | nat (n : Nat)
  | flag (b : Bool)
  | u8 (v : Byte)
  | u16 (v : U16)
  | u32 (v : U32)
  | colour (r g b a : Byte)
  | values (vs : List U32)
  | chunk (tag : U32) (length base : Nat)
  | peek (h : Option (U32 × Nat))
  | status (st : VddStatus)
  | depacked (sp produced : Nat)
  deriving DecidableEq, Repr

/-- What the host receives from an operation (R15, R121): a result, no result because the operation
faulted, no result because it was refused (R386), or `E_PROG(BAD_OP, code)`. -/
inductive Reply where
  | none
  | done (r : Result)
  | faulted
  | refused
  | badOp (code : Byte)
  deriving DecidableEq, Repr

/-- The state. The last three fields are the model's own: the host's requests not yet executed,
oldest first (log 1); what the host received last (log 4); how many free bytes have been drawn
(log 13). -/
structure State where
  pal : Pal
  bpr : Bpr
  bpw : Bpw
  pxr : PixUnit
  pxw : PixUnit
  pbd : Pbd
  vdd : Vdd
  ckr : Ckr
  ham : Ham
  rpa : Rpa
  seq : Seq
  pbe : Pbe
  ckw : Ckw
  mem : Mem
  pending : List Packet
  reply : Reply
  draws : Nat
  deriving DecidableEq, Repr

/-- Why the model stops. No operation of the block stops it: a fault of the spec is a value in a
`FAULT` register (R389), so the meanings raise none of these; `step` does, on a request that no host
of R120 can issue. -/
inductive Fault where
  /-- Raised by `step`: a host request whose operands are not of the number and types R120 gives its
  code. Safe: the model stops where the spec has no such request. -/
  | illTypedRequest (code : Byte)
  /-- Raised by `step`: a pixel code that no reader of 3 to `PLANES_MAX` planes delivers (R115,
  R286). Safe, for the same reason. -/
  | badPixelCode (planes raw : Nat)
  deriving DecidableEq, Repr

/-- The units that have a fault register (R39, R388). -/
inductive UnitId where
  | pal | bpr | bpw | pxr | pxw | pbd | vdd | ckr | ham | rpa | seq | pbe | ckw
  deriving DecidableEq, Repr

/-- Why the model gives no meaning. -/
inductive Refusal where
  /-- Raised by an arm of `exec` for an instruction without a meaning; no arm does. Safe. -/
  | notModelled (mnemonic : String)
  /-- Raised by an operation of an initialised unit whose buffer binding is dead: its pass has ended
  (R25, R422), or another writing unit has been bound to the same bytes since, or another unit has written
  one of them (R422, U10). The operation
  "reads whatever the binding then names, which a model refuses" (R422, U10, U11). Safe: the model
  stops where the spec gives no meaning (log 20). -/
  | deadBinding (u : UnitId)
  /-- Raised by a read of BPR inside a byte-column whose bytes no longer hold the cached indices: they
  were modified after the fetch (R88). "A model should refuse such a run rather than give it this
  meaning" (R88, U10). Safe: the model stops where the spec asks it to (log 20). -/
  | staleCache
  deriving DecidableEq, Repr

/-- R410: `FAULT <- {valid = false, cause = 0, sub = 0, info = 0}`. -/
def FaultReg.clear : FaultReg := ⟨false, 0, 0, 0⟩

/-- An unset palette entry (R22). Its channels are unspecified and never read; the model has zero
(DESIGN CHOICE, log 6). -/
def Entry.unset : Entry := ⟨false, 0, 0, 0, 0⟩

/-- A slot that holds no palette, with the reset values of R20 and R410. The 0 that R410 writes to `bpc`
is what the register stores for R20's 8 (log 33). -/
def Slot.empty : Slot := ⟨false, 0, 0, []⟩

/-- An unset LUT element (R28; its value is unspecified and never read, log 6). -/
def LutElem.unset : LutElem := ⟨false, 0⟩

/-- The LUT after reset (R28). -/
def Lut.empty : Lut := ⟨0, []⟩

/-- The view registers above `depth` are unspecified and never read (log 6). -/
def View.zero : View := ⟨0, 0, 0⟩

/-- The empty buffer. -/
def Buffer.empty : Buffer := ⟨0, []⟩

/-- The cursor at the first pixel (R24, D6). -/
def Cursor.zero : Cursor := ⟨0, 0, 0, 0⟩

/-- The pixel bridge after reset (R410). -/
def PixUnit.reset : PixUnit := ⟨false, none, 0, .empty, .clear⟩

/-- The header registers after reset (R34). -/
def Hdr.reset : Hdr := ⟨0, 0, 0, 0, 0, 0, 0, 0, 0, 0, 0, 0, 0, 0, false⟩

/-- A raster chunk descriptor after reset (R36). -/
def RastDesc.reset : RastDesc := ⟨false, 0, 0, 0⟩

/-- The sequencer after reset (R34 to R36, R410; the layout of an absent body is log 6's). -/
def Seq.reset : Seq where
  state := .idle
  hdr := .reset
  mode := 0
  body := ⟨false, 0, 0, .line⟩
  palPresent := false
  rdesc1 := .reset
  rdesc2 := .reset
  rdesc3 := .reset
  side := ⟨false, 0, 0⟩
  fault := .clear

/-- The machine right after `SYS.RESET` (R61, R410), no request waiting and no buffer supplied. -/
def State.reset : State where
  pal := ⟨[], .clear⟩
  bpr := ⟨false, ⟨0, 0, 0, 0, 0, 0⟩, .zero, none, [0, 0, 0, 0, 0, 0, 0, 0], .clear⟩
  bpw := ⟨false, ⟨0, 0, 0, 0, 0, 0⟩, .zero, none, .clear⟩
  pxr := .reset
  pxw := .reset
  pbd := ⟨none, none, 0, 0, 0, 0, .clear⟩
  vdd := ⟨none, none, 0, 0, 0, 0, 0, 0, 0, 0, 0, .idle, .clear⟩
  ckr := ⟨false, none, 0, [], .clear⟩
  ham := ⟨false, 0, Config.hamInit, false, .empty, .clear⟩
  rpa := ⟨false, 0, 0, [], .none, .clear⟩
  seq := .reset
  pbe := ⟨.clear⟩
  ckw := ⟨false, none, 0, 0, [], .clear⟩
  mem := []
  pending := []
  reply := .none
  draws := 0

end Sys2Proof.Machine
end

