-- ==== Sys2Proof/Machine/Flags.lean ====
section
/-! DEFINITION. The codes and flags. The block has no arithmetic condition codes (R38): its flags are
the fault registers' contents (R380, R381), the mode bits (R35, R106) and the computed end-of-buffer
and end-of-view results (R38, R180, R266). -/

namespace Sys2Proof.Machine

/-- The (cause, sub) pairs of R381, by the sub-code's name; a name that stands under two causes says
which. -/
inductive FaultCode where
  | chunkHdrTrunc
  | chunkOverrun
  | badTopTag
  | badSubtype
  | badHeader
  | badPlanes
  | badCompression
  | badMode
  | badPalette
  | noBody
  | noPalette
  | noHeader
  | bufSmall
  | badWidth
  | planesMissing
  | colour
  | pastEnd
  | rangeBadIndex
  | unset
  | palFull
  | indexWide
  | srcEnd
  | dstSmall
  | notInit
  | badSlot
  | badCount
  | badBpc
  | progBadIndex
  | badGeometry
  | overlap
  | stack
  deriving DecidableEq, Repr

/-- The cause codes of R380: 1 `E_FORMAT`, 2 `E_NOTFOUND`, 3 `E_RANGE`, 4 `E_PROG`. -/
def causeOf (c : FaultCode) : Byte :=
  match c with
  | .chunkHdrTrunc | .chunkOverrun | .badTopTag | .badSubtype | .badHeader | .badPlanes
  | .badCompression | .badMode | .badPalette | .noBody | .noPalette | .noHeader | .bufSmall
  | .badWidth | .planesMissing => 1
  | .colour => 2
  | .pastEnd | .rangeBadIndex | .unset | .palFull | .indexWide | .srcEnd | .dstSmall => 3
  | .notInit | .badSlot | .badCount | .badBpc | .progBadIndex | .badGeometry | .overlap
  | .stack => 4

/-- The sub-codes of R381. -/
def subOf (c : FaultCode) : Byte :=
  match c with
  | .chunkHdrTrunc => 1
  | .chunkOverrun => 2
  | .badTopTag => 3
  | .badSubtype => 4
  | .badHeader => 5
  | .badPlanes => 6
  | .badCompression => 7
  | .badMode => 8
  | .badPalette => 9
  | .noBody => 10
  | .noPalette => 11
  | .noHeader => 12
  | .bufSmall => 13
  | .badWidth => 14
  | .planesMissing => 15
  | .colour => 1
  | .pastEnd => 1
  | .rangeBadIndex => 2
  | .unset => 3
  | .palFull => 4
  | .indexWide => 5
  | .srcEnd => 6
  | .dstSmall => 7
  | .notInit => 1
  | .badSlot => 2
  | .badCount => 3
  | .badBpc => 4
  | .progBadIndex => 5
  | .badGeometry => 6
  | .overlap => 7
  | .stack => 8

/-- `FAULT.info` is 32 bits wide (R381); what it holds of a value that does not fit is a free value
(log 14). -/
def infoOf (n : Nat) : U32 :=
  if n < 2 ^ 32 then BitVec.ofNat 32 n else Config.wideInfo n

/-- What `raise` puts into a fault register (R385). -/
def raisedReg (c : FaultCode) (info : Nat) : FaultReg :=
  ⟨true, causeOf c, subOf c, infoOf info⟩

/-- `MODE[7]`, Extra-Half-Brite (R35, R106). -/
def modeEhb (mode : U32) : Bool := mode.getLsbD 7

/-- `MODE[11]`, Hold-and-Modify (R35, R106). -/
def modeHam (mode : U32) : Bool := mode.getLsbD 11

/-- "raster data present" (R325): `RPA.init and RPA.count > 0`. -/
def rasterPresent (r : Rpa) : Bool := r.init && decide (0 < r.count)

/-- The offset formula (R172). -/
def planeOffset (g : Geometry) (c : Cursor) (plane : Nat) : Nat :=
  c.byte + c.block * g.blockStep + c.line * g.lineStep + plane * g.planeStep

/-- The lowest plane `i` with `start ≤ i < start + n` whose byte lies at or beyond `len` at the
cursor (R176, R183: the lowest failing plane is reported). -/
def firstPlanePastEnd (g : Geometry) (c : Cursor) (len : Nat) : Nat → Nat → Option Nat
  | _, 0 => none
  | start, n + 1 =>
    if len ≤ planeOffset g c start then some start else firstPlanePastEnd g c len (start + 1) n

/-- `BPR.EOF`, `BPW.EOF` (R180): some plane's byte lies at or beyond the end of the buffer. -/
def planeEof (g : Geometry) (c : Cursor) (len : Nat) : Bool :=
  (firstPlanePastEnd g c len 0 g.planeCount).isSome

/-- `CKR.EOF` (R266). -/
def viewEof (v : View) : Bool := decide (v.len ≤ v.pos)

end Sys2Proof.Machine
end

