-- ==== Sys2Proof/Machine/Sparse.lean ====
section
/-! DEFINITION. Sparse maps in one canonical form: (key, value) pairs with strictly rising keys, no
value equal to the default `d` that an unlisted key has. Register files, tables and buffer contents
are held this way, so that equal contents are equal data. -/

namespace Sys2Proof.Machine

variable {α : Type}

/-- The value at key `i`. -/
def sget (d : α) : List (Nat × α) → Nat → α
  | [], _ => d
  | (k, v) :: m, i => if k = i then v else sget d m i

/-- `m` without any entry of key `i`. -/
def sdel : List (Nat × α) → Nat → List (Nat × α)
  | [], _ => []
  | (k, v) :: m, i => if k = i then sdel m i else (k, v) :: sdel m i

/-- `m` with the entry `(i, v)` before the first larger key. -/
def sins : List (Nat × α) → Nat → α → List (Nat × α)
  | [], i, v => [(i, v)]
  | (k, w) :: m, i, v => if i < k then (i, v) :: (k, w) :: m else (k, w) :: sins m i v

/-- `m` with `v` at key `i`; storing the default removes the entry. -/
def sput [DecidableEq α] (d : α) (m : List (Nat × α)) (i : Nat) (v : α) : List (Nat × α) :=
  if v = d then sdel m i else sins (sdel m i) i v

/-- The map that holds a list's values at `i`, `i + 1`, and so on. -/
def sofFrom [DecidableEq α] (d : α) : Nat → List α → List (Nat × α)
  | _, [] => []
  | i, v :: vs => if v = d then sofFrom d (i + 1) vs else (i, v) :: sofFrom d (i + 1) vs

/-- The map that holds `f 0` to `f (n - 1)`. -/
def stabulate [DecidableEq α] (d : α) (n : Nat) (f : Nat → α) : List (Nat × α) :=
  sofFrom d 0 ((List.range n).map f)

/-- The canonical form. -/
def swf [DecidableEq α] (d : α) : List (Nat × α) → Bool
  | [] => true
  | [(_, v)] => decide (v ≠ d)
  | (k, v) :: (k', v') :: m => decide (v ≠ d) && decide (k < k') && swf d ((k', v') :: m)

end Sys2Proof.Machine
end

