-- ==== Sys2Proof/Machine/Operands.lean ====
section
/-! DEFINITION. Operand forms: omitted operands and their defaults, signed readings, buffer operands
and windows, and the geometries a format operand stands for. -/

namespace Sys2Proof.Machine

/-- `as_i8` (R9). -/
def asI8 (c : Byte) : Int := c.toInt

/-- `2^b - 1`, the largest channel value at `b` bits per channel (40_palette.md). -/
def chanMax (b : Nat) : Nat := 2 ^ b - 1

/-- `clamp` of R142 on an `i32` operand (D15). -/
def clampChannel (m : Nat) (v : U32) : Nat :=
  if v.toInt < 0 then 0 else if v.toInt.toNat > m then m else v.toInt.toNat

/-- R141, R148: `bpc` is 8 when omitted. -/
def bpcOr8 (b : Option Nat) : Nat := b.getD 8

/-- R147, R148: `alpha` is true when omitted. -/
def alphaOrTrue (a : Option Bool) : Bool := a.getD true

/-- `ceil(a / b)`. -/
def ceilDiv (a b : Nat) : Nat := (a + (b - 1)) / b

/-- The buffer under a number: the empty one where the host has supplied none (log 5). -/
def bufAt (m : Mem) (id : Nat) : Buffer := sget Buffer.empty m id

/-- A buffer operand: the whole buffer (R10). -/
def wholeBuf (m : Mem) (id : Nat) : BufRef := ⟨id, 0, (bufAt m id).len⟩

/-- The window `r[base .. base + len - 1]`, a buffer itself (R328); of a window that runs past `r`
only the part inside `r` exists (log 23). -/
def windowOf (r : BufRef) (base len : Nat) : BufRef := ⟨r.id, r.base + base, min len (r.len - base)⟩

/-- An unbound unit reaches no byte (R10, R25). -/
def refOf (b : Option BufRef) : BufRef := b.getD ⟨0, 0, 0⟩

/-- Whether `[lo1, hi1)` of `r1` and `[lo2, hi2)` of `r2` are byte ranges of one host buffer that
meet (R87; windows compared by the bytes they cover, log 23). -/
def rangesMeet (r1 : BufRef) (lo1 hi1 : Nat) (r2 : BufRef) (lo2 hi2 : Nat) : Bool :=
  decide (r1.id = r2.id) &&
    decide (max (r1.base + lo1) (r2.base + lo2) < min (r1.base + hi1) (r2.base + hi2))

/-- The standard geometries (R173), with `rb = ceil(w/8)`. -/
def presetGeometry (f : PlaneFormat) (w h p : Nat) : Geometry :=
  match f with
  | .contiguous => ⟨ceilDiv w 8 * h, 0, 1, 0, ceilDiv w 8 * h, p⟩
  | .line => ⟨ceilDiv w 8, 0, 1, ceilDiv w 8 * p, ceilDiv w 8, p⟩
  | .word => ⟨2, 2 * p, ceilDiv w 16, ceilDiv w 16 * 2 * p, 2, p⟩

/-- Bytes per stored line of one plane, the `L` of R312. The buffer that a pass fills is `L * h * p`
bytes; R187's `rb * h * p` with `rb = ceil(w/8)` is read so, which for the word preset with `w mod 16`
in 1 to 8 is more (DEDUCED, log 34). -/
def presetLineBytes (f : PlaneFormat) (w : Nat) : Nat :=
  match f with
  | .contiguous => ceilDiv w 8
  | .line => ceilDiv w 8
  | .word => 2 * ceilDiv w 16

/-- `PadPixels = 8*L - w` (R312). -/
def padPixels (lineBytes w : Nat) : Nat := 8 * lineBytes - w

/-- The container geometries (R326): the presets with `rb` replaced by `L = HDR.bytesPerLine`. -/
def containerGeometry (l : BodyLayout) (lineBytes h p : Nat) : Geometry :=
  match l with
  | .line => ⟨lineBytes, 0, 1, lineBytes * p, lineBytes, p⟩
  | .contig => ⟨lineBytes * h, 0, 1, 0, lineBytes * h, p⟩

/-- A geometry BPR and BPW accept (R174, R23). -/
def geometryOk (g : Geometry) : Bool :=
  decide (g.bytesPerBlock ≠ 0) && decide (g.blocksPerLine ≠ 0) && decide (g.planeCount ≠ 0) &&
    decide (g.planeCount ≤ Config.planesMax)

/-- A value held in a register of `AW` bits: a value that does not fit saturates (R23, R12, R188;
log 24). -/
def atWidth (n : Nat) : Nat := min n (Config.bufLimit - 1)

/-- The geometry as the registers of BPR and BPW hold it (R23). -/
def registerGeometry (g : Geometry) : Geometry :=
  ⟨atWidth g.bytesPerBlock, atWidth g.blockStep, atWidth g.blocksPerLine, atWidth g.lineStep,
    atWidth g.planeStep, atWidth g.planeCount⟩

/-- `StepCursor` (R175): bit fastest, then byte, then block, then line. -/
def stepCursor (g : Geometry) (c : Cursor) : Cursor :=
  if c.bit + 1 = 8 then
    if c.byte + 1 = g.bytesPerBlock then
      if c.block + 1 = g.blocksPerLine then ⟨0, 0, c.line + 1, 0⟩
      else ⟨0, c.block + 1, c.line, 0⟩
    else ⟨c.byte + 1, c.block, c.line, 0⟩
  else ⟨c.byte, c.block, c.line, c.bit + 1⟩

end Sys2Proof.Machine
end

