-- ==== Sys2Proof/Machine/Ops.lean ====
section
/-! DEFINITION. The shared operations: how an operation ends (R15), raising and clearing a fault
(R385, R388: this block's taking of an exception and its undoing), refusal (R386, R387), reading and
writing buffers (R10), what a failed pass leaves in its output buffer (R385, U3), and one unit's use
of another (R314). -/

namespace Sys2Proof.Machine

/-- How an operation ends without a result (R15): faulted, refused by its unit (R386), or outside what
the spec describes, where the model refuses (R88, R422). -/
inductive Stop where
  | faulted
  | refused
  | outside (r : Refusal)
  deriving DecidableEq, Repr

/-- An operation of a unit: from a state to a result and a state, or to a stop and a state. -/
abbrev Op (α : Type) := EStateM Stop State α

/-- `U.FAULT` (R39). -/
def faultOf (u : UnitId) (s : State) : FaultReg :=
  match u with
  | .pal => s.pal.fault
  | .bpr => s.bpr.fault
  | .bpw => s.bpw.fault
  | .pxr => s.pxr.fault
  | .pxw => s.pxw.fault
  | .pbd => s.pbd.fault
  | .vdd => s.vdd.fault
  | .ckr => s.ckr.fault
  | .ham => s.ham.fault
  | .rpa => s.rpa.fault
  | .seq => s.seq.fault
  | .pbe => s.pbe.fault
  | .ckw => s.ckw.fault

/-- `s` with `U.FAULT` replaced. -/
def withFault (u : UnitId) (f : FaultReg) (s : State) : State :=
  match u with
  | .pal => { s with pal := { s.pal with fault := f } }
  | .bpr => { s with bpr := { s.bpr with fault := f } }
  | .bpw => { s with bpw := { s.bpw with fault := f } }
  | .pxr => { s with pxr := { s.pxr with fault := f } }
  | .pxw => { s with pxw := { s.pxw with fault := f } }
  | .pbd => { s with pbd := { s.pbd with fault := f } }
  | .vdd => { s with vdd := { s.vdd with fault := f } }
  | .ckr => { s with ckr := { s.ckr with fault := f } }
  | .ham => { s with ham := { s.ham with fault := f } }
  | .rpa => { s with rpa := { s.rpa with fault := f } }
  | .seq => { s with seq := { s.seq with fault := f } }
  | .pbe => { s with pbe := { s.pbe with fault := f } }
  | .ckw => { s with ckw := { s.ckw with fault := f } }

/-- `U.init` (R60; R357 for CKW). PAL, PBD, VDD, SEQ and PBE have no such flag and are always
ready. -/
def initOf (u : UnitId) (s : State) : Bool :=
  match u with
  | .bpr => s.bpr.init
  | .bpw => s.bpw.init
  | .pxr => s.pxr.init
  | .pxw => s.pxw.init
  | .ckr => s.ckr.init
  | .ham => s.ham.init
  | .rpa => s.rpa.init
  | .ckw => s.ckw.init
  | .pal => true
  | .pbd => true
  | .vdd => true
  | .seq => true
  | .pbe => true

/-- `raise E(sub, info)` in an operation of unit `u` (R385, R11): the fault register is written and
the operation ends; no other state changes. -/
def raise {α : Type} (u : UnitId) (c : FaultCode) (info : Nat) : Op α :=
  fun s => .error .faulted (withFault u (raisedReg c info) s)

/-- `if bad: raise …`, the form of every check. -/
def raiseIf (bad : Prop) [Decidable bad] (u : UnitId) (c : FaultCode) (info : Nat) : Op Unit :=
  if bad then raise u c info else pure ()

/-- The model's refusal of what is outside the spec; no state changes. -/
def refuse {α : Type} (r : Refusal) : Op α := fun s => .error (.outside r) s

/-- `refuse`, where a condition of the spec is broken. -/
def refuseIf (bad : Prop) [Decidable bad] (r : Refusal) : Op Unit :=
  if bad then refuse r else pure ()

/-- `U.FAULT.valid <- false` (R388): only the valid bit changes. -/
def clearFault (u : UnitId) : Op Unit :=
  modify fun s => withFault u { faultOf u s with valid := false } s

/-- The buffer binding of a reader or writer that keeps one from its INIT to the end of its pass (R25,
R27, R31, R357). The other units keep none: a decoder's operation binds its own and its pass ends with
it (R226, R243, R422). -/
def bindingOf (u : UnitId) (s : State) : Option BufRef :=
  match u with
  | .bpr => s.bpr.buf
  | .bpw => s.bpw.buf
  | .pxr => s.pxr.buf
  | .pxw => s.pxw.buf
  | .ckr => s.ckr.src
  | .ckw => s.ckw.dst
  | .pal | .pbd | .vdd | .ham | .rpa | .seq | .pbe => none

/-- Whether a unit keeps a binding from its INIT to the end of its pass. -/
def keepsBinding (u : UnitId) : Bool :=
  match u with
  | .bpr | .bpw | .pxr | .pxw | .ckr | .ckw => true
  | .pal | .pbd | .vdd | .ham | .rpa | .seq | .pbe => false

/-- `buf <- unbound`, the end of a unit's binding or of a decoder's two (R25, R29, R30, R422). -/
def unbind (u : UnitId) (s : State) : State :=
  match u with
  | .bpr => { s with bpr := { s.bpr with buf := none } }
  | .bpw => { s with bpw := { s.bpw with buf := none } }
  | .pxr => { s with pxr := { s.pxr with buf := none } }
  | .pxw => { s with pxw := { s.pxw with buf := none } }
  | .ckr => { s with ckr := { s.ckr with src := none } }
  | .ckw => { s with ckw := { s.ckw with dst := none } }
  | .pbd => { s with pbd := { s.pbd with src := none, dst := none } }
  | .vdd => { s with vdd := { s.vdd with src := none, dst := none } }
  | .pal | .ham | .rpa | .seq | .pbe => s

/-- Whether the unit's binding is alive, or it keeps none. -/
def bound (u : UnitId) (s : State) : Bool := !keepsBinding u || (bindingOf u s).isSome

/-- What every operation but the clearing ones does first: refused while the unit is faulted (R386),
`E_PROG(NOT_INIT, 0)` while it is not initialised (R387), outside the spec when its binding is dead
(R422). -/
def enter (u : UnitId) : Op Unit :=
  fun s =>
    if (faultOf u s).valid then .error .refused s
    else if initOf u s then
      if bound u s then .ok () s else .error (.outside (.deadBinding u)) s
    else raise u .notInit 0 s

/-- The end of the pass of unit `u`, however the operation that ran it ends (R25, R422). -/
def endPass {α : Type} (u : UnitId) (x : Op α) : Op α :=
  fun s =>
    match x s with
    | .ok a t => .ok a (unbind u t)
    | .error e t => .error e (unbind u t)

/-- `n` repetitions. -/
def times (x : Op Unit) : Nat → Op Unit
  | 0 => pure ()
  | n + 1 => do x; times x n

/-- `f i; f (i+1); …`, `n` of them. -/
def forFrom (f : Nat → Op Unit) : Nat → Nat → Op Unit
  | _, 0 => pure ()
  | i, n + 1 => do f i; forFrom f (i + 1) n

/-! ### Buffers -/

/-- Whether two windows have a byte in common. -/
def sharesByte (r r' : BufRef) : Bool := rangesMeet r 0 r.len r' 0 r'.len

/-- The binding `b` of unit `v` after unit `u` has taken the bytes of the windows `rs`: dead if one of
them is a byte of `b` (R422, U10). -/
def outlived (u v : UnitId) (rs : List BufRef) (b : Option BufRef) : Option BufRef :=
  if v ≠ u ∧ (rs.any fun r => sharesByte r (refOf b)) = true then none else b

/-- Writing unit `u` is bound to the bytes of `r`: no other writing unit keeps any of them (R422). -/
def claim (u : UnitId) (r : BufRef) (s : State) : State :=
  { s with
    bpw := { s.bpw with buf := outlived u .bpw [r] s.bpw.buf }
    pxw := { s.pxw with buf := outlived u .pxw [r] s.pxw.buf }
    ckw := { s.ckw with dst := outlived u .ckw [r] s.ckw.dst } }

/-- Unit `u` has written the bytes of the windows `rs`: no other unit, reader or writer, keeps a binding
to any of them, since from the INIT that binds a buffer to the end of the pass it is written by no other
means (R422, U10; log 20). -/
def overwrite (u : UnitId) (rs : List BufRef) (s : State) : State :=
  { s with
    bpr := { s.bpr with buf := outlived u .bpr rs s.bpr.buf }
    bpw := { s.bpw with buf := outlived u .bpw rs s.bpw.buf }
    pxr := { s.pxr with buf := outlived u .pxr rs s.pxr.buf }
    pxw := { s.pxw with buf := outlived u .pxw rs s.pxw.buf }
    ckr := { s.ckr with src := outlived u .ckr rs s.ckr.src }
    ckw := { s.ckw with dst := outlived u .ckw rs s.ckw.dst } }

/-- One byte of a host buffer. -/
def byteAt (m : Mem) (id off : Nat) : Byte := sget 0 (bufAt m id).cells off

/-- The memory with one byte of a host buffer replaced; a buffer has no byte outside itself (R10)
and none is made (R421: no dynamic growth). -/
def setByte (m : Mem) (id off : Nat) (v : Byte) : Mem :=
  if off < (bufAt m id).len then
    sput Buffer.empty m id { bufAt m id with cells := sput 0 (bufAt m id).cells off v }
  else m

/-- A buffer in canonical form: its length is below `2^AW` (R10), it lists bytes of its own range
only, in rising order, and none that is zero. -/
def Buffer.wf (b : Buffer) : Bool :=
  decide (b.len < Config.bufLimit) && swf 0 b.cells && b.cells.all fun c => decide (c.1 < b.len)

/-- The canonical form of the host's buffers: no empty buffer is listed, and each is canonical. -/
def Memory.wf (m : Mem) : Bool := swf Buffer.empty m && m.all fun e => Buffer.wf e.2

/-- Byte `off` of a bound buffer. -/
def refByte (m : Mem) (r : BufRef) (off : Nat) : Byte := byteAt m r.id (r.base + off)

/-- `n` bytes at `off`, big-endian (R10, R72). -/
def beRead (m : Mem) (r : BufRef) (off : Nat) : Nat → Nat
  | 0 => 0
  | n + 1 => beRead m r off n * 256 + (refByte m r (off + n)).toNat

/-- `v` stored in `n` bytes at `off`, big-endian (R10). -/
def beWrite (m : Mem) (r : BufRef) (off : Nat) : Nat → Nat → Mem
  | 0, _ => m
  | n + 1, v =>
    setByte (beWrite m r off n (v / 256)) r.id (r.base + (off + n)) (BitVec.ofNat 8 v)

/-- `MemRead(B, off, n)` in an operation of unit `u` (R10). -/
def memRead (u : UnitId) (r : BufRef) (off n : Nat) : Op Nat := do
  raiseIf (r.len < off + n) u .pastEnd off
  let s ← get
  pure (beRead s.mem r off n)

/-- `MemWrite(B, off, n, v)` in an operation of unit `u` (R10). -/
def memWrite (u : UnitId) (r : BufRef) (off n v : Nat) : Op Unit := do
  raiseIf (r.len < off + n) u .pastEnd off
  modify fun s => overwrite u [windowOf r off n] { s with mem := beWrite s.mem r off n v }

/-- `B[off], …, B[off + n - 1] <- 0`, of a range inside the buffer. -/
def zeroRange (m : Mem) (r : BufRef) (off : Nat) : Nat → Mem
  | 0 => m
  | n + 1 => setByte (zeroRange m r off n) r.id (r.base + (off + n)) 0

/-- `n` bytes from `off` replaced by the free bytes number `d`, `d + 1`, …. -/
def freeRange (m : Mem) (r : BufRef) (off d : Nat) : Nat → Mem
  | 0 => m
  | n + 1 =>
    setByte (freeRange m r off d n) r.id (r.base + (off + n)) (Config.freeByte (d + n))

/-- After a failed pass the bytes inside the destination range are unspecified, those outside it
unchanged (R385, U3; log 13). They count as written by the pass's unit `u` (R422). -/
def spoil (u : UnitId) (r : BufRef) (off n : Nat) (s : State) : State :=
  overwrite u [windowOf r off n] { s with
    mem := freeRange s.mem r off s.draws (min n (r.len - off))
    draws := s.draws + min n (r.len - off) }

/-- The operation `x`, with `f` applied to the state it leaves when it stops without a result. -/
def onStop {α : Type} (f : State → State) (x : Op α) : Op α :=
  fun s =>
    match x s with
    | .ok a t => .ok a t
    | .error e t => .error e (f t)

/-- An operation of unit `callee` issued by unit `caller`: when it gives no result, the callee's
fault is copied and the caller's operation ends faulted (R288, R294, R389; a refused operation
leaves the callee's first fault to copy, log 16). What is outside the spec stays so. -/
def callFrom {α : Type} (caller callee : UnitId) (x : Op α) : Op α :=
  fun s =>
    match x s with
    | .ok a t => .ok a t
    | .error .faulted t => .error .faulted (withFault caller (faultOf callee t) t)
    | .error .refused t => .error .faulted (withFault caller (faultOf callee t) t)
    | .error (.outside r) t => .error (.outside r) t

/-- `SEQ.state <- FAULTED` (R314). -/
def seqFaulted (s : State) : State := { s with seq := { s.seq with state := .faulted } }

/-- An operation of unit `callee` issued by SEQ (R314). -/
def seqCall {α : Type} (callee : UnitId) (x : Op α) : Op α :=
  onStop seqFaulted (callFrom .seq callee x)

/-- A check of SEQ's own that finds a bad container, to which R383 gives FAULTED (log 17). -/
def seqRaiseIf (bad : Prop) [Decidable bad] (c : FaultCode) (info : Nat) : Op Unit :=
  onStop seqFaulted (raiseIf bad .seq c info)

/-- The outcome of an operation issued by the host: a next state with the reply the host receives
(R15), or the model's refusal of what is outside the spec (R88, R422). -/
def runOp (x : Op Result) (s : State) : Host.Outcome State Fault Refusal :=
  match x s with
  | .ok r t => .next { t with reply := .done r }
  | .error .faulted t => .next { t with reply := .faulted }
  | .error .refused t => .next { t with reply := .refused }
  | .error (.outside r) _ => .refused r

end Sys2Proof.Machine
end

