-- ==== Sys2Proof/Machine/Bitplane.lean ====
section
/-! DEFINITION. The bit-plane reader and writer (spec/41_bitplane.md). -/

namespace Sys2Proof.Machine

/-! ### BPR -/

/-- `BPR.INIT B, g` on a buffer (R174). The cache is discarded by `bit = 0`. -/
def bprInitOp (r : BufRef) (g : Geometry) : Op Result := do
  clearFault .bpr
  raiseIf (geometryOk g = false) .bpr .badGeometry 0
  modify fun s => { s with
    bpr := { s.bpr with init := true, geom := registerGeometry g, cur := .zero, buf := some r } }
  pure .unit

/-- Pixel `k` of the byte-column at the cursor: bit `7 - k` of plane `i`'s byte is bit `i` of the
index (R8, R74, R176), summed over the first `n` planes. -/
def columnIndex (m : Mem) (r : BufRef) (g : Geometry) (c : Cursor) (k : Nat) : Nat → Nat
  | 0 => 0
  | n + 1 =>
    columnIndex m r g c k n +
      (if (refByte m r (planeOffset g c n)).getLsbD (7 - k) then 2 ^ n else 0)

/-- The eight indices of the byte-column at the cursor (R176). -/
def columnIndices (m : Mem) (r : BufRef) (g : Geometry) (c : Cursor) : List Byte :=
  (List.range 8).map fun k => BitVec.ofNat 8 (columnIndex m r g c k g.planeCount)

/-- The fetch of R176: all planes' offsets are checked before any byte is read. -/
def bprFetch : Op Unit := do
  let s ← get
  let r := refOf s.bpr.buf
  match firstPlanePastEnd s.bpr.geom s.bpr.cur r.len 0 s.bpr.geom.planeCount with
  | some i => raise .bpr .pastEnd (planeOffset s.bpr.geom s.bpr.cur i)
  | none =>
    modify fun s => { s with
      bpr := { s.bpr with cache := columnIndices s.mem r s.bpr.geom s.bpr.cur } }

/-- `BPR.cache[BPR.bit]`. -/
def bprCached (s : State) : Byte := s.bpr.cache.getD s.bpr.cur.bit 0

/-- The column's bytes no longer hold the cached indices: they were modified after the fetch (R88). -/
def cacheStale (s : State) : Bool :=
  decide (s.bpr.cache ≠ columnIndices s.mem (refOf s.bpr.buf) s.bpr.geom s.bpr.cur)

/-- One read past the entry checks (R176). A read from a stale cache is refused (R88, U10; log 20). -/
def bprReadCore : Op Byte := do
  let s ← get
  if s.bpr.cur.bit = 0 then bprFetch else refuseIf (cacheStale s = true) .staleCache
  let t ← get
  modify fun s => { s with bpr := { s.bpr with cur := stepCursor s.bpr.geom s.bpr.cur } }
  pure (bprCached t)

/-- `BPR.READ` (R176). -/
def bprReadOp : Op Byte := do
  enter .bpr
  bprReadCore

/-- One read with its result discarded (R178). -/
def bprSkipOne : Op Unit := do
  let _ ← bprReadCore
  pure ()

/-- `BPR.ADV n` (R178): `n` reads with the result discarded. -/
def bprAdvOp (n : Nat) : Op Result := do
  enter .bpr
  times bprSkipOne n
  pure .unit

/-- `BPR.EOF` (R180). -/
def bprEofOp : Op Bool := do
  enter .bpr
  let s ← get
  pure (planeEof s.bpr.geom s.bpr.cur (refOf s.bpr.buf).len)

/-! ### BPW -/

/-- `BPW.INIT B, g` on a buffer (R182): as R174; the buffer is not cleared. -/
def bpwInitOp (r : BufRef) (g : Geometry) : Op Result := do
  clearFault .bpw
  raiseIf (geometryOk g = false) .bpw .badGeometry 0
  modify fun s => claim .bpw r { s with
    bpw := { s.bpw with init := true, geom := registerGeometry g, cur := .zero, buf := some r } }
  pure .unit

/-- The memory with one plane's byte ORed with `0x80 >> bit` (R183). -/
def orPlaneBit (m : Mem) (r : BufRef) (off bit : Nat) : Mem :=
  setByte m r.id (r.base + off) (refByte m r off ||| ((0x80 : Byte) >>> bit))

/-- The writes of R183 for the first `n` planes, in ascending order. -/
def orPlanes (m : Mem) (r : BufRef) (g : Geometry) (c : Cursor) (index : Nat) : Nat → Mem
  | 0 => m
  | n + 1 =>
    if index.testBit n then orPlaneBit (orPlanes m r g c index n) r (planeOffset g c n) c.bit
    else orPlanes m r g c index n

/-- The bytes R183 writes. -/
def planesWritten (r : BufRef) (g : Geometry) (c : Cursor) (index : Nat) : List BufRef :=
  ((List.range g.planeCount).filter index.testBit).map fun i => windowOf r (planeOffset g c i) 1

/-- `BPW.WRITE index` (R183). -/
def bpwWriteOp (index : Nat) : Op Result := do
  enter .bpw
  let s ← get
  let g := s.bpw.geom
  let r := refOf s.bpw.buf
  raiseIf (2 ^ g.planeCount ≤ index) .bpw .indexWide index
  match firstPlanePastEnd g s.bpw.cur r.len 0 g.planeCount with
  | some i => raise .bpw .pastEnd (planeOffset g s.bpw.cur i)
  | none => do
    modify fun s => overwrite .bpw (planesWritten r g s.bpw.cur index) { s with
      mem := orPlanes s.mem r g s.bpw.cur index g.planeCount
      bpw := { s.bpw with cur := stepCursor g s.bpw.cur } }
    pure .unit

/-- The cursor after `n` steps (R175). -/
def stepCursorN (g : Geometry) : Nat → Cursor → Cursor
  | 0, c => c
  | n + 1, c => stepCursorN g n (stepCursor g c)

/-- `BPW.ADV n` (R185): moves the cursor only. -/
def bpwAdvOp (n : Nat) : Op Result := do
  enter .bpw
  modify fun s => { s with bpw := { s.bpw with cur := stepCursorN s.bpw.geom n s.bpw.cur } }
  pure .unit

/-- `BPW.EOF` (R180). -/
def bpwEofOp : Op Bool := do
  enter .bpw
  let s ← get
  pure (planeEof s.bpw.geom s.bpw.cur (refOf s.bpw.buf).len)

/-! ### The host operations -/

/-- `BPR.INIT`, code 0x20 (R174). -/
def execBprInit (buf : Nat) (g : Geometry) (s : State) : Host.Outcome State Fault Refusal :=
  runOp (bprInitOp (wholeBuf s.mem buf) g) s

/-- `BPR.READ`, code 0x21 (R176). -/
def execBprRead (s : State) : Host.Outcome State Fault Refusal :=
  runOp (do let i ← bprReadOp; pure (.u8 i)) s

/-- `BPR.ADV`, code 0x22 (R178). -/
def execBprAdv (n : Nat) (s : State) : Host.Outcome State Fault Refusal := runOp (bprAdvOp n) s

/-- `BPR.EOF`, code 0x23 (R180). -/
def execBprEof (s : State) : Host.Outcome State Fault Refusal :=
  runOp (do let b ← bprEofOp; pure (.flag b)) s

/-- `BPW.INIT`, code 0x30 (R182). -/
def execBpwInit (buf : Nat) (g : Geometry) (s : State) : Host.Outcome State Fault Refusal :=
  runOp (bpwInitOp (wholeBuf s.mem buf) g) s

/-- `BPW.WRITE`, code 0x31 (R183). -/
def execBpwWrite (index : Nat) (s : State) : Host.Outcome State Fault Refusal :=
  runOp (bpwWriteOp index) s

/-- `BPW.ADV`, code 0x32 (R185). -/
def execBpwAdv (n : Nat) (s : State) : Host.Outcome State Fault Refusal := runOp (bpwAdvOp n) s

/-- `BPW.EOF`, code 0x33 (R180). -/
def execBpwEof (s : State) : Host.Outcome State Fault Refusal :=
  runOp (do let b ← bpwEofOp; pure (.flag b)) s

end Sys2Proof.Machine
end

