-- ==== Sys2Proof/Machine/ChunkReader.lean ====
section
/-! DEFINITION. The chunk container reader (spec/45_chunk_reader.md). -/

namespace Sys2Proof.Machine

/-- `view[depth-1]`, the current view (R31). -/
def curView (s : State) : View := sget View.zero s.ckr.views (s.ckr.depth - 1)

/-- `V.pos <- p`. -/
def setViewPos (p : Nat) (s : State) : State :=
  { s with
    ckr := { s.ckr with
      views := sput View.zero s.ckr.views (s.ckr.depth - 1) { curView s with pos := p } } }

/-- `n` bytes at position `k` of the current view, big-endian (R260: `Byte(k) = src[V.base + k]`). -/
def viewRead (s : State) (k n : Nat) : Nat :=
  beRead s.mem (refOf s.ckr.src) ((curView s).base + k) n

/-- `CKR.OPEN B` on a buffer (R261). -/
def ckrOpenOp (r : BufRef) : Op Result := do
  clearFault .ckr
  modify fun s => { s with
    ckr := { s.ckr with src := some r, depth := 1,
                        views := sput View.zero s.ckr.views 0 ⟨0, r.len, 0⟩, init := true } }
  pure .unit

/-- `PadProbe(np)` (R263). -/
def padProbe (s : State) (np : Nat) : Nat :=
  if np % 2 = 1 ∧ np < (curView s).len ∧ viewRead s np 1 = 0 then np + 1 else np

/-- `CKR.READCHUNK` (R262): tag, length, base of the payload. -/
def ckrReadchunkOp : Op (U32 × Nat × Nat) := do
  enter .ckr
  let s ← get
  let v := curView s
  raiseIf (v.len < v.pos + 8) .ckr .chunkHdrTrunc (v.base + v.pos)
  let length := viewRead s (v.pos + 4) 4
  raiseIf (v.len < v.pos + 8 + length) .ckr .chunkOverrun length
  modify (setViewPos (padProbe s (v.pos + 8 + length)))
  pure (BitVec.ofNat 32 (viewRead s v.pos 4), length, v.base + v.pos + 8)

/-- `CKR.PEEK` (R265). -/
def ckrPeekOp : Op (Option (U32 × Nat)) := do
  enter .ckr
  let s ← get
  let v := curView s
  if v.len < v.pos + 8 then pure none
  else pure (some (BitVec.ofNat 32 (viewRead s v.pos 4), viewRead s (v.pos + 4) 4))

/-- `CKR.EOF` (R266). -/
def ckrEofOp : Op Bool := do
  enter .ckr
  let s ← get
  pure (viewEof (curView s))

/-- `CKR.ENTER base, length` (R267). -/
def ckrEnterOp (base length : Nat) : Op Unit := do
  enter .ckr
  let s ← get
  raiseIf (s.ckr.depth = Config.ckDepth) .ckr .stack s.ckr.depth
  raiseIf ((refOf s.ckr.src).len < base + length) .ckr .pastEnd (base + length)
  modify fun s => { s with
    ckr := { s.ckr with
      views := sput View.zero s.ckr.views s.ckr.depth ⟨base, length, 0⟩
      depth := s.ckr.depth + 1 } }

/-- `CKR.LEAVE` (R268). -/
def ckrLeaveOp : Op Unit := do
  enter .ckr
  let s ← get
  raiseIf (s.ckr.depth ≤ 1) .ckr .stack s.ckr.depth
  modify fun s => { s with ckr := { s.ckr with depth := s.ckr.depth - 1 } }

/-- `CKR.RD8`, `CKR.RD16`, `CKR.RD32` with `n` = 1, 2, 4 (R269). -/
def ckrReadOp (n : Nat) : Op Nat := do
  enter .ckr
  let s ← get
  let v := curView s
  raiseIf (v.len < v.pos + n) .ckr .pastEnd (v.base + v.pos)
  modify (setViewPos (v.pos + n))
  pure (viewRead s v.pos n)

/-- `CKR.OPEN`, code 0x80 (R261). -/
def execCkrOpen (buf : Nat) (s : State) : Host.Outcome State Fault Refusal :=
  runOp (ckrOpenOp (wholeBuf s.mem buf)) s

/-- `CKR.READCHUNK`, code 0x81 (R262). -/
def execCkrReadchunk (s : State) : Host.Outcome State Fault Refusal :=
  runOp (do let c ← ckrReadchunkOp; pure (.chunk c.1 c.2.1 c.2.2)) s

/-- `CKR.PEEK`, code 0x82 (R265). -/
def execCkrPeek (s : State) : Host.Outcome State Fault Refusal :=
  runOp (do let h ← ckrPeekOp; pure (.peek h)) s

/-- `CKR.EOF`, code 0x83 (R266). -/
def execCkrEof (s : State) : Host.Outcome State Fault Refusal :=
  runOp (do let b ← ckrEofOp; pure (.flag b)) s

/-- `CKR.ENTER`, code 0x84 (R267). -/
def execCkrEnter (base length : Nat) (s : State) : Host.Outcome State Fault Refusal :=
  runOp (do ckrEnterOp base length; pure .unit) s

/-- `CKR.LEAVE`, code 0x85 (R268). -/
def execCkrLeave (s : State) : Host.Outcome State Fault Refusal :=
  runOp (do ckrLeaveOp; pure .unit) s

/-- `CKR.RD8`, code 0x86 (R269). -/
def execCkrRd8 (s : State) : Host.Outcome State Fault Refusal :=
  runOp (do let v ← ckrReadOp 1; pure (.u8 (BitVec.ofNat 8 v))) s

/-- `CKR.RD16`, code 0x87 (R269). -/
def execCkrRd16 (s : State) : Host.Outcome State Fault Refusal :=
  runOp (do let v ← ckrReadOp 2; pure (.u16 (BitVec.ofNat 16 v))) s

/-- `CKR.RD32`, code 0x88 (R269). -/
def execCkrRd32 (s : State) : Host.Outcome State Fault Refusal :=
  runOp (do let v ← ckrReadOp 4; pure (.u32 (BitVec.ofNat 32 v))) s

end Sys2Proof.Machine
end

