-- ==== Sys2Proof/Machine/Companion.lean ====
section
/-! DEFINITION. The companion units PBE (Packbits compressor) and CKW (chunk writer)
(spec/48_companion_encode.md). -/

namespace Sys2Proof.Machine

/-! ### PBE -/

/-- A list of bytes stored from `off` on. -/
def writeBytes (m : Mem) (r : BufRef) (off : Nat) : List Byte → Mem
  | [] => m
  | v :: vs => writeBytes (setByte m r.id (r.base + off) v) r (off + 1) vs

/-- `emit`: bytes appended to the output at `pos` (R351); the new position. `info` of the fault is
the end offset this emit needs (R381). -/
def pbeEmit (dst : BufRef) (pos : Nat) (bytes : List Byte) : Op Nat := do
  raiseIf (dst.len < pos + bytes.length) .pbe .dstSmall (pos + bytes.length)
  modify fun s => overwrite .pbe [windowOf dst pos bytes.length]
    { s with mem := writeBytes s.mem dst pos bytes }
  pure (pos + bytes.length)

/-- A pending dump, if it is not empty, as a `PB.LIT` (R350, R351). -/
def pbeFlush (dst : BufRef) (pos : Nat) (dump : List Byte) : Op Nat :=
  if dump = [] then pure pos
  else pbeEmit dst pos (BitVec.ofNat 8 (dump.length - 1) :: dump)

/-- How many of the `n` bytes from `off` on equal `v`, counted up to the first that does not. -/
def runLength (m : Mem) (r : BufRef) (v : Byte) : Nat → Nat → Nat
  | _, 0 => 0
  | off, n + 1 => if refByte m r off = v then runLength m r v (off + 1) n + 1 else 0

/-- The loop of R351 over one line, from `i` to the line's end `e`; every round consumes a byte. -/
def packLine (src dst : BufRef) (e : Nat) : Nat → Nat → Nat → List Byte → Op Nat
  | 0, _, pos, dump => pbeFlush dst pos dump
  | fuel + 1, i, pos, dump =>
    if e ≤ i then pbeFlush dst pos dump
    else do
      let s ← get
      let v := refByte s.mem src i
      let r := runLength s.mem src v i (min 128 (e - i))
      if 3 ≤ r then do
        let pos ← pbeFlush dst pos dump
        let pos ← pbeEmit dst pos [BitVec.ofNat 8 (257 - r), v]
        packLine src dst e fuel (i + r) pos []
      else if dump.length + 1 = 128 then do
        let pos ← pbeEmit dst pos (127 :: (dump ++ [v]))
        packLine src dst e fuel (i + 1) pos []
      else packLine src dst e fuel (i + 1) pos (dump ++ [v])

/-- The lines of R352, `n` of them, from offset `start` on. -/
def packLines (src dst : BufRef) (bytesPerLine : Nat) : Nat → Nat → Nat → Op Nat
  | 0, _, pos => pure pos
  | n + 1, start, pos => do
    let e := min (start + bytesPerLine) src.len
    let pos ← packLine src dst e (e - start) start pos []
    packLines src dst bytesPerLine n (start + bytesPerLine) pos

/-- `PBE.PACK S, bytesPerLine, D` on buffers (R351, R352). -/
def pbePackOp (src : BufRef) (bytesPerLine : Nat) (dst : BufRef) : Op Nat := do
  clearFault .pbe
  raiseIf (bytesPerLine = 0) .pbe .badGeometry 0
  modify (claim .pbe dst)
  onStop (spoil .pbe dst 0 dst.len)
    (packLines src dst bytesPerLine (ceilDiv src.len bytesPerLine) 0 0)

/-! ### CKW -/

/-- `CKW.INIT D` on a buffer (R357). -/
def ckwInitOp (r : BufRef) : Op Unit := do
  clearFault .ckw
  modify fun s => claim .ckw r { s with
    ckw := { s.ckw with dst := some r, pos := 0, sd := 0, init := true } }

/-- Where the next chunk starts: after the pad byte of an odd position (R355). -/
def evenUp (pos : Nat) : Nat := pos + pos % 2

/-- The memory after `CKW.START`'s writes (R355): the pad byte, the tag, a length of 0. -/
def startChunkMem (m : Mem) (r : BufRef) (pos : Nat) (tag : U32) : Mem :=
  let m1 := if pos % 2 = 1 then beWrite m r pos 1 0 else m
  beWrite (beWrite m1 r (evenUp pos) 4 tag.toNat) r (evenUp pos + 4) 4 0

/-- `CKW.START tag` (R355). All its writes are checked before any change (R385; log 22). -/
def ckwStartOp (tag : U32) : Op Unit := do
  enter .ckw
  let s ← get
  let r := refOf s.ckw.dst
  let pos := s.ckw.pos
  raiseIf (s.ckw.sd = Config.ckDepth) .ckw .stack s.ckw.sd
  raiseIf (pos % 2 = 1 ∧ r.len < pos + 1) .ckw .pastEnd pos
  raiseIf (r.len < evenUp pos + 4) .ckw .pastEnd (evenUp pos)
  raiseIf (r.len < evenUp pos + 8) .ckw .pastEnd (evenUp pos + 4)
  modify fun s => overwrite .ckw [windowOf r pos (evenUp pos + 8 - pos)] { s with
    mem := startChunkMem s.mem r pos tag
    ckw := { s.ckw with
      start := sput 0 s.ckw.start s.ckw.sd (evenUp pos)
      sd := s.ckw.sd + 1
      pos := evenUp pos + 8 } }

/-- `CKW.END` (R356). -/
def ckwEndOp : Op Nat := do
  enter .ckw
  let s ← get
  raiseIf (s.ckw.sd = 0) .ckw .stack 0
  let st := sget 0 s.ckw.start (s.ckw.sd - 1)
  memWrite .ckw (refOf s.ckw.dst) (st + 4) 4 (s.ckw.pos - st - 8)
  modify fun s => { s with ckw := { s.ckw with sd := s.ckw.sd - 1 } }
  pure (s.ckw.pos - st)

/-- `CKW.WR8`, `CKW.WR16`, `CKW.WR32` with `n` = 1, 2, 4 (R357). -/
def ckwWriteOp (n v : Nat) : Op Unit := do
  enter .ckw
  let s ← get
  memWrite .ckw (refOf s.ckw.dst) s.ckw.pos n v
  modify fun s => { s with ckw := { s.ckw with pos := s.ckw.pos + n } }

/-! ### The host operations -/

/-- `PBE.PACK`, code 0xC0 (R351). -/
def execPbePack (src bytesPerLine dst : Nat) (s : State) : Host.Outcome State Fault Refusal :=
  runOp
    (do let n ← pbePackOp (wholeBuf s.mem src) bytesPerLine (wholeBuf s.mem dst); pure (.nat n)) s

/-- `CKW.START`, code 0xC1 (R355). -/
def execCkwStart (tag : U32) (s : State) : Host.Outcome State Fault Refusal :=
  runOp (do ckwStartOp tag; pure .unit) s

/-- `CKW.END`, code 0xC2 (R356). -/
def execCkwEnd (s : State) : Host.Outcome State Fault Refusal :=
  runOp (do let n ← ckwEndOp; pure (.nat n)) s

/-- `CKW.INIT`, code 0xC4 (R357). -/
def execCkwInit (buf : Nat) (s : State) : Host.Outcome State Fault Refusal :=
  runOp (do ckwInitOp (wholeBuf s.mem buf); pure .unit) s

/-- `CKW.WR8`, code 0xC5 (R357). -/
def execCkwWr8 (v : Byte) (s : State) : Host.Outcome State Fault Refusal :=
  runOp (do ckwWriteOp 1 v.toNat; pure .unit) s

/-- `CKW.WR16`, code 0xC6 (R357). -/
def execCkwWr16 (v : U16) (s : State) : Host.Outcome State Fault Refusal :=
  runOp (do ckwWriteOp 2 v.toNat; pure .unit) s

/-- `CKW.WR32`, code 0xC7 (R357). -/
def execCkwWr32 (v : U32) (s : State) : Host.Outcome State Fault Refusal :=
  runOp (do ckwWriteOp 4 v.toNat; pure .unit) s

end Sys2Proof.Machine
end

