-- ==== Sys2Proof/Machine/Palette.lean ====
section
/-! DEFINITION. The palette unit (spec/40_palette.md). -/

namespace Sys2Proof.Machine

/-- The stored bits of a `bpc` of 1 to 8 (R20; log 33). -/
def bpcStored (bpc : Nat) : BitVec 3 := BitVec.ofNat 3 bpc

/-- `PAL[s].bpc`, 1 to 8 (R20; log 33). -/
def Slot.bpc (p : Slot) : Nat := if p.bpcBits = 0 then 8 else p.bpcBits.toNat

/-- `PAL[s]`. -/
def slotAt (s : State) (slot : Nat) : Slot := sget Slot.empty s.pal.slots slot

/-- `PAL[s] <- v`. -/
def setSlot (slot : Nat) (v : Slot) (s : State) : State :=
  { s with pal := { s.pal with slots := sput Slot.empty s.pal.slots slot v } }

/-- `ent[i]` of a slot. -/
def entryAt (p : Slot) (i : Nat) : Entry := sget Entry.unset p.ent i

/-- Check (2) of R140. -/
def checkSlot (u : UnitId) (slot : Nat) : Op Unit :=
  raiseIf (Config.npal ≤ slot) u .badSlot slot

/-- Check (3) of R140: a slot that is read holds a palette. -/
def checkMade (u : UnitId) (slot : Nat) : Op Unit := do
  let s ← get
  raiseIf ((slotAt s slot).made = false) u .notInit slot

/-- `rescale(v, ob, nb)` (R144). -/
def rescale (v ob nb : Nat) : Nat := (2 * v * chanMax nb + chanMax ob) / (2 * chanMax ob)

/-- A channel of a palette of `ob` bits at `nb` bits. -/
def rescaleByte (v : Byte) (ob nb : Nat) : Byte := BitVec.ofNat 8 (rescale v.toNat ob nb)

/-- An entry of a palette of `ob` bits at `nb` bits, all four channels; unset stays unset (R145). -/
def rescaleEntry (e : Entry) (ob nb : Nat) : Entry :=
  if e.set then
    ⟨true, rescaleByte e.r ob nb, rescaleByte e.g ob nb, rescaleByte e.b ob nb,
      rescaleByte e.a ob nb⟩
  else Entry.unset

/-- `r<<24 | g<<16 | b<<8 | a` (R28, R75). -/
def packPixel (r g b a : Byte) : U32 := r ++ g ++ b ++ a

/-- Element `i` of the 8-bit view of a slot (R146). -/
def viewElem (p : Slot) (i : Nat) : LutElem :=
  let e := rescaleEntry (entryAt p i) p.bpc 8
  ⟨e.set, packPixel e.r e.g e.b e.a⟩

/-- `View8` of a palette (R146). -/
def viewOf (p : Slot) : Lut := ⟨p.count, stabulate LutElem.unset p.count (viewElem p)⟩

/-- `View8(s)` taken by an operation of unit `u`, with its two slot checks (R146, C17). -/
def view8 (u : UnitId) (slot : Nat) : Op Lut := do
  checkSlot u slot
  checkMade u slot
  let s ← get
  pure (viewOf (slotAt s slot))

/-- `lut[i]` of a table. -/
def lutAt (l : Lut) (i : Nat) : LutElem := sget LutElem.unset l.elems i

/-- `PAL.CREATE s, count, bpc` (R141, R388). -/
def palCreateOp (slot count : Nat) (bpc : Option Nat) : Op Result := do
  clearFault .pal
  checkSlot .pal slot
  raiseIf (Config.palMax < count) .pal .badCount count
  raiseIf (bpcOr8 bpc < Config.bpcMin ∨ Config.bpcMax < bpcOr8 bpc) .pal .badBpc (bpcOr8 bpc)
  modify (setSlot slot ⟨true, count, bpcStored (bpcOr8 bpc), []⟩)
  pure .unit

/-- The entry `PAL.SET` stores in a slot of `bpc` bits (R142). -/
def clampedEntry (bpc : Nat) (r g b : U32) (a : Option U32) : Entry :=
  let m := chanMax bpc
  let ch := fun v => BitVec.ofNat 8 (clampChannel m v)
  ⟨true, ch r, ch g, ch b, match a with | some v => ch v | none => BitVec.ofNat 8 m⟩

/-- `PAL[s].ent[i] <- e`. -/
def setEntry (slot i : Nat) (e : Entry) (s : State) : State :=
  setSlot slot { slotAt s slot with ent := sput Entry.unset (slotAt s slot).ent i e } s

/-- `PAL.SET s, i, r, g, b, a` (R142; the slot must hold a palette, log 18). -/
def palSetOp (slot i : Nat) (r g b : U32) (a : Option U32) : Op Result := do
  enter .pal
  checkSlot .pal slot
  checkMade .pal slot
  let s ← get
  raiseIf ((slotAt s slot).count ≤ i) .pal .progBadIndex i
  modify (setEntry slot i (clampedEntry (slotAt s slot).bpc r g b a))
  pure .unit

/-- `PAL.GET s, i` (R143). -/
def palGetOp (slot i : Nat) : Op Entry := do
  enter .pal
  checkSlot .pal slot
  checkMade .pal slot
  let s ← get
  raiseIf ((slotAt s slot).count ≤ i) .pal .rangeBadIndex i
  raiseIf ((entryAt (slotAt s slot) i).set = false) .pal .unset i
  pure (entryAt (slotAt s slot) i)

/-- A palette resampled (R145). -/
def resampled (p : Slot) (nb : Nat) : Slot :=
  ⟨true, p.count, bpcStored nb,
    stabulate Entry.unset p.count fun i => rescaleEntry (entryAt p i) p.bpc nb⟩

/-- `PAL.RESAMPLE sd, ss, newBpc` (R145). -/
def palResampleOp (sd ss newBpc : Nat) : Op Result := do
  enter .pal
  checkSlot .pal sd
  checkSlot .pal ss
  checkMade .pal ss
  raiseIf (newBpc < Config.bpcMin ∨ Config.bpcMax < newBpc) .pal .badBpc newBpc
  let s ← get
  modify (setSlot sd (resampled (slotAt s ss) newBpc))
  pure .unit

/-- The packed value of an entry at `b` bits per channel (R147, D13). -/
def packEntry (b : Nat) (alpha : Bool) (e : Entry) : U32 :=
  let w := fun (c : Byte) => c.setWidth 32
  if alpha then (w e.r <<< (3 * b)) ||| (w e.g <<< (2 * b)) ||| (w e.b <<< b) ||| w e.a
  else (w e.r <<< (2 * b)) ||| (w e.g <<< b) ||| w e.b

/-- The least unset entry `i` with `start ≤ i < start + n`. -/
def firstUnset (p : Slot) : Nat → Nat → Option Nat
  | _, 0 => none
  | start, n + 1 =>
    if (entryAt p start).set = false then some start else firstUnset p (start + 1) n

/-- `E_RANGE(UNSET, i)` for the least unset entry below `n`, if there is one. -/
def raiseUnset (u : UnitId) (p : Slot) (n : Nat) : Op Unit :=
  match firstUnset p 0 n with
  | some i => raise u .unset i
  | none => pure ()

/-- The value sequence of a palette whose entries are all set (R147). -/
def packedValues (p : Slot) (alpha : Bool) : List U32 :=
  (List.range p.count).map fun i => packEntry p.bpc alpha (entryAt p i)

/-- `PAL.TOVAL s, alpha` (R147). -/
def palTovalOp (slot : Nat) (alpha : Option Bool) : Op Result := do
  enter .pal
  checkSlot .pal slot
  checkMade .pal slot
  let s ← get
  raiseUnset .pal (slotAt s slot) (slotAt s slot).count
  pure (.values (packedValues (slotAt s slot) (alphaOrTrue alpha)))

/-- `(v >> k) & m` as a channel, `m = 2^bpc - 1` (R148). -/
def channelOf (v : U32) (k bpc : Nat) : Byte := BitVec.ofNat 8 (v.toNat / 2 ^ k % 2 ^ bpc)

/-- The entry a packed value stands for (R148). -/
def unpackEntry (bpc : Nat) (alpha : Bool) (v : U32) : Entry :=
  if alpha then
    ⟨true, channelOf v (3 * bpc) bpc, channelOf v (2 * bpc) bpc, channelOf v bpc bpc,
      channelOf v 0 bpc⟩
  else
    ⟨true, channelOf v (2 * bpc) bpc, channelOf v bpc bpc, channelOf v 0 bpc,
      BitVec.ofNat 8 (chanMax bpc)⟩

/-- The palette of a value sequence (R148). -/
def paletteOfValues (values : List U32) (bpc : Nat) (alpha : Bool) : Slot :=
  ⟨true, values.length, bpcStored bpc,
    sofFrom Entry.unset 0 (values.map (unpackEntry bpc alpha))⟩

/-- `PAL.FROMVAL s, values, bpc, alpha` (R148). -/
def palFromvalOp (slot : Nat) (values : List U32) (bpc : Option Nat) (alpha : Option Bool) :
    Op Result := do
  enter .pal
  checkSlot .pal slot
  raiseIf (Config.palMax < values.length) .pal .badCount values.length
  raiseIf (bpcOr8 bpc < Config.bpcMin ∨ Config.bpcMax < bpcOr8 bpc) .pal .badBpc (bpcOr8 bpc)
  modify (setSlot slot (paletteOfValues values (bpcOr8 bpc) (alphaOrTrue alpha)))
  pure .unit

/-- The scan of R149 over `n` pixels from number `k`, with the colours found so far. -/
def collectColours (r : BufRef) : Nat → Nat → List U32 → Op (List U32)
  | _, 0, found => pure found
  | k, n + 1, found => do
    let v ← memRead .pal r (4 * k) 4
    let c : U32 := BitVec.ofNat 32 v
    if c ∈ found then collectColours r (k + 1) n found
    else do
      raiseIf (found.length = Config.palMax) .pal .palFull c.toNat
      collectColours r (k + 1) n (found ++ [c])

/-- `PAL.FROMPIX s, B` (R149). -/
def palFrompixOp (slot buf : Nat) : Op Result := do
  enter .pal
  checkSlot .pal slot
  let s ← get
  let r := wholeBuf s.mem buf
  let found ← collectColours r 0 (r.len / 4) []
  palFromvalOp slot found (some 8) (some true)

/-- The palette white, black (R150, D19). -/
def monoPalette : Slot :=
  ⟨true, 2, bpcStored 8, [(0, ⟨true, 255, 255, 255, 255⟩), (1, ⟨true, 0, 0, 0, 255⟩)]⟩

/-- `PAL.MONO s` (R150). -/
def palMonoOp (slot : Nat) : Op Result := do
  enter .pal
  checkSlot .pal slot
  modify (setSlot slot monoPalette)
  pure .unit

/-- An entry at half intensity (R151; alpha by `EHB_HALVES_ALPHA`, D20). -/
def halfBrite (e : Entry) : Entry :=
  ⟨true, e.r / 2, e.g / 2, e.b / 2, if Config.ehbHalvesAlpha then e.a / 2 else e.a⟩

/-- Entry `i` of the Extra-Half-Brite palette of `p` (R151). -/
def ehbEntry (p : Slot) (i : Nat) : Entry :=
  if i < 32 then rescaleEntry (entryAt p i) p.bpc 8
  else halfBrite (rescaleEntry (entryAt p (i - 32)) p.bpc 8)

/-- The Extra-Half-Brite palette of `p` (R151). -/
def ehbPalette (p : Slot) : Slot :=
  ⟨true, 64, bpcStored 8, stabulate Entry.unset 64 (ehbEntry p)⟩

/-- `PAL.EHB sd, ss` (R151). -/
def palEhbOp (sd ss : Nat) : Op Result := do
  enter .pal
  checkSlot .pal sd
  checkSlot .pal ss
  checkMade .pal ss
  let s ← get
  raiseIf ((slotAt s ss).count < 32) .pal .rangeBadIndex (slotAt s ss).count
  raiseUnset .pal (slotAt s ss) 32
  modify (setSlot sd (ehbPalette (slotAt s ss)))
  pure .unit

/-- The least `q ≥ p` with `2^q ≥ count`, looked for in `fuel` steps. -/
def planesFrom (count : Nat) : Nat → Nat → Nat
  | 0, p => p
  | fuel + 1, p => if count ≤ 2 ^ p then p else planesFrom count fuel (p + 1)

/-- The least `p ≥ 1` with `2^p ≥ count` (R153). -/
def planesFor (count : Nat) : Nat := planesFrom count count 1

/-- `PAL.PLANES s` (R153). -/
def palPlanesOp (slot : Nat) : Op Nat := do
  enter .pal
  checkSlot .pal slot
  checkMade .pal slot
  let s ← get
  pure (planesFor (slotAt s slot).count)

/-- `PAL.CREATE`, code 0x10 (R141). -/
def execPalCreate (slot count : Nat) (bpc : Option Nat) (s : State) :
    Host.Outcome State Fault Refusal := runOp (palCreateOp slot count bpc) s

/-- `PAL.SET`, code 0x11 (R142). -/
def execPalSet (slot i : Nat) (r g b : U32) (a : Option U32) (s : State) :
    Host.Outcome State Fault Refusal := runOp (palSetOp slot i r g b a) s

/-- `PAL.GET`, code 0x12 (R143). -/
def execPalGet (slot i : Nat) (s : State) : Host.Outcome State Fault Refusal :=
  runOp (do let e ← palGetOp slot i; pure (.colour e.r e.g e.b e.a)) s

/-- `PAL.RESAMPLE`, code 0x13 (R145). -/
def execPalResample (sd ss newBpc : Nat) (s : State) : Host.Outcome State Fault Refusal :=
  runOp (palResampleOp sd ss newBpc) s

/-- `PAL.TOVAL`, code 0x14 (R147). -/
def execPalToval (slot : Nat) (alpha : Option Bool) (s : State) :
    Host.Outcome State Fault Refusal := runOp (palTovalOp slot alpha) s

/-- `PAL.FROMVAL`, code 0x15 (R148). -/
def execPalFromval (slot : Nat) (values : List U32) (bpc : Option Nat) (alpha : Option Bool)
    (s : State) : Host.Outcome State Fault Refusal := runOp (palFromvalOp slot values bpc alpha) s

/-- `PAL.FROMPIX`, code 0x16 (R149). -/
def execPalFrompix (slot buf : Nat) (s : State) : Host.Outcome State Fault Refusal :=
  runOp (palFrompixOp slot buf) s

/-- `PAL.MONO`, code 0x17 (R150). -/
def execPalMono (slot : Nat) (s : State) : Host.Outcome State Fault Refusal :=
  runOp (palMonoOp slot) s

/-- `PAL.EHB`, code 0x18 (R151). -/
def execPalEhb (sd ss : Nat) (s : State) : Host.Outcome State Fault Refusal :=
  runOp (palEhbOp sd ss) s

/-- `PAL.PLANES`, code 0x19 (R153). -/
def execPalPlanes (slot : Nat) (s : State) : Host.Outcome State Fault Refusal :=
  runOp (do let p ← palPlanesOp slot; pure (.nat p)) s

end Sys2Proof.Machine
end

