-- ==== Sys2Proof/Machine/Ham.lean ====
section
/-! DEFINITION. The Hold-and-Modify unit (spec/46_ham_raster.md section 1). -/

namespace Sys2Proof.Machine

/-- The `d`-bit pattern repeated `n` times. -/
def repeatBits (d data : Nat) : Nat → Nat
  | 0 => 0
  | n + 1 => repeatBits d data n * 2 ^ d + data

/-- The three readings of "scaled to 0-255" (R292). `replicate` repeats the `d`-bit pattern until 8
bits are filled and keeps the top 8 bits, which for `4 ≤ d` is
`(data << (8-d)) | (data >> (2d-8))`. -/
def hamScaled (k : Config.HamScale) (data d : Nat) : Nat :=
  match k with
  | .linear => rescale data d 8
  | .replicate => repeatBits d data (ceilDiv 8 d) / 2 ^ (d * ceilDiv 8 d - 8)
  | .shift => data * 2 ^ (8 - d)

/-- The channel's place in a packed colour (R289). -/
def channelShift (c : Config.Channel) : Nat :=
  match c with
  | .red => 24
  | .green => 16
  | .blue => 8

/-- `(cur & ~(0xFF << sh)) | (v << sh)` (R289). -/
def patchChannel (c : Config.Channel) (v : Byte) (cur : U32) : U32 :=
  (cur &&& ~~~((0xFF : U32) <<< channelShift c)) ||| (v.setWidth 32 <<< channelShift c)

/-- A modify pixel's new colour (R289) with `d = p - 2` data bits. -/
def modifiedColour (k : Config.HamScale) (c : Config.Channel) (p data : Nat) (cur : U32) : U32 :=
  patchChannel c (BitVec.ofNat 8 (hamScaled k data (p - 2))) cur

/-- `HAM.BASE` (R288, R289): the palette look-up, with its two index faults. -/
def hamBaseOp (data : Nat) : Op Unit := do
  let s ← get
  raiseIf (s.ham.lut.count ≤ data) .ham .rangeBadIndex data
  raiseIf ((lutAt s.ham.lut data).set = false) .ham .unset data
  modify fun s => { s with
    ham := { s.ham with cur := (lutAt s.ham.lut data).val, curSet := true } }

/-- `HAM.MODB`, `HAM.MODR`, `HAM.MODG` (R289): one channel patched, the others and alpha left. -/
def hamModOp (c : Config.Channel) (p data : Nat) : Op Unit :=
  modify fun s => { s with
    ham := { s.ham with cur := modifiedColour Config.hamScale c p data s.ham.cur } }

/-- The pixel code a raw index is (R289). -/
def hamPixel (sel : HamSel) (p data : Nat) : Op Unit :=
  match sel with
  | .base => hamBaseOp data
  | .modb => hamModOp Config.hamSel1 p data
  | .modr => hamModOp Config.hamSel2 p data
  | .modg => hamModOp Config.hamSel3 p data

/-- `HAM.INIT p, s` (R286). -/
def hamInitOp (p slot : Nat) : Op Result := do
  clearFault .ham
  raiseIf (p < 3 ∨ Config.planesMax < p) .ham .badGeometry p
  let l ← view8 .ham slot
  modify fun s => { s with
    ham := { s.ham with planes := p, lut := l, cur := Config.hamInit, curSet := false,
                        init := true } }
  pure .unit

/-- `HAM.SETPAL s` (R287). -/
def hamSetpalOp (slot : Nat) : Op Result := do
  enter .ham
  let l ← view8 .ham slot
  modify fun s => { s with ham := { s.ham with lut := l } }
  pure .unit

/-- `HAM.READ` (R288). -/
def hamReadOp : Op U32 := do
  enter .ham
  let s ← get
  raiseIf (s.bpr.geom.planeCount ≠ s.ham.planes) .ham .badGeometry 0
  let raw ← callFrom .ham .bpr bprReadOp
  let code := decodeHam s.ham.planes raw.toNat
  hamPixel code.1 s.ham.planes code.2
  let t ← get
  pure t.ham.cur

/-- `HAM.ADV n` (R294). -/
def hamAdvOp (n : Nat) : Op Result := do
  enter .ham
  callFrom .ham .bpr (bprAdvOp n)

/-- A pixel code handed alone to the unit (log 3): as in `HAM.READ` after the raw index has come,
its plane count checked as R288 checks the reader's. -/
def hamAlone (sel : HamSel) (p data : Nat) : Op Result := do
  enter .ham
  let s ← get
  raiseIf (p ≠ s.ham.planes) .ham .badGeometry 0
  hamPixel sel p data
  let t ← get
  pure (.u32 t.ham.cur)

/-- `HAM.BASE` (R115, R289). -/
def execHamBase (p data : Nat) (s : State) : Host.Outcome State Fault Refusal :=
  runOp (hamAlone .base p data) s

/-- `HAM.MODB` (R116, R289). -/
def execHamModb (p data : Nat) (s : State) : Host.Outcome State Fault Refusal :=
  runOp (hamAlone .modb p data) s

/-- `HAM.MODR` (R116, R289). -/
def execHamModr (p data : Nat) (s : State) : Host.Outcome State Fault Refusal :=
  runOp (hamAlone .modr p data) s

/-- `HAM.MODG` (R116, R289). -/
def execHamModg (p data : Nat) (s : State) : Host.Outcome State Fault Refusal :=
  runOp (hamAlone .modg p data) s

/-- `HAM.INIT`, code 0x90 (R286). -/
def execHamInit (p slot : Nat) (s : State) : Host.Outcome State Fault Refusal :=
  runOp (hamInitOp p slot) s

/-- `HAM.READ`, code 0x91 (R288). -/
def execHamRead (s : State) : Host.Outcome State Fault Refusal :=
  runOp (do let c ← hamReadOp; pure (.u32 c)) s

/-- `HAM.SETPAL`, code 0x92 (R287). -/
def execHamSetpal (slot : Nat) (s : State) : Host.Outcome State Fault Refusal :=
  runOp (hamSetpalOp slot) s

/-- `HAM.ADV`, code 0x93 (R294). -/
def execHamAdv (n : Nat) (s : State) : Host.Outcome State Fault Refusal := runOp (hamAdvOp n) s

end Sys2Proof.Machine
end

