-- ==== Sys2Proof/Machine/Packbits.lean ====
section
/-! DEFINITION. The Packbits decoder (spec/43_packbits.md). A command's meaning acts on the PBD
registers as they stand: `PBD.sp` is at its control byte. `PBD.DEPACK` runs the same meanings. -/

namespace Sys2Proof.Machine

/-- A raise of PBD inside a pass: the destination range is left unspecified (R227 c, R385;
log 13). -/
def pbdSpoil (s : State) : State := spoil .pbd (refOf s.pbd.dst) s.pbd.dbase s.pbd.outSize s

/-- `sp <- sp + n`. -/
def pbdSkip (n : Nat) : Op Unit :=
  modify fun s => { s with pbd := { s.pbd with sp := s.pbd.sp + n } }

/-- `if sp >= S.len: raise E_RANGE(SRC_END, sp)`, then the byte at `sp`, `sp <- sp + 1` (R226). -/
def pbdNext : Op Byte := do
  let s ← get
  raiseIf ((refOf s.pbd.src).len ≤ s.pbd.sp) .pbd .srcEnd s.pbd.sp
  pbdSkip 1
  pure (refByte s.mem (refOf s.pbd.src) s.pbd.sp)

/-- `D[dbase + produced] <- v; produced <- produced + 1` (R226). -/
def pbdEmit (v : Byte) : Op Unit := do
  let s ← get
  memWrite .pbd (refOf s.pbd.dst) (s.pbd.dbase + s.pbd.produced) 1 v.toNat
  modify fun s => { s with pbd := { s.pbd with produced := s.pbd.produced + 1 } }

/-- One round of a `repeat … while produced < outSize` loop. -/
def whileRoom (x : Op Unit) : Op Unit := do
  let s ← get
  if s.pbd.produced < s.pbd.outSize then x

/-- Copying one literal byte (R226). -/
def pbdCopyOne : Op Unit := do
  let v ← pbdNext
  pbdEmit v

/-- `PB.NOP` (R221): only its control byte is consumed. -/
def pbNopOp : Op Unit := pbdSkip 1

/-- `PB.RUN` (R222): `257 - c` copies of the value byte, `c = 128 + n`, cut at `outSize`
(R227 b). -/
def pbRunOp (n : BitVec 7) : Op Unit := do
  pbdSkip 1
  let v ← pbdNext
  times (whileRoom (pbdEmit v)) (129 - n.toNat)

/-- `PB.LIT` (R223): `1 + n` bytes copied, cut at `outSize` (R227 b). -/
def pbLitOp (n : BitVec 7) : Op Unit := do
  pbdSkip 1
  times (whileRoom pbdCopyOne) (1 + n.toNat)

/-- The command a control byte selects (R220). -/
def pbCommand (c : PbCmd) : Op Unit :=
  match c with
  | .nop => pbNopOp
  | .run n => pbRunOp n
  | .lit n => pbLitOp n

/-- The control byte at `sp`, which the command itself consumes. -/
def pbdControl : Op Byte := do
  let s ← get
  raiseIf ((refOf s.pbd.src).len ≤ s.pbd.sp) .pbd .srcEnd s.pbd.sp
  pure (refByte s.mem (refOf s.pbd.src) s.pbd.sp)

/-- The loop of R226; every command consumes a source byte, so `S.len - sp0 + 1` rounds do. -/
def depackLoop : Nat → Op Unit
  | 0 => pure ()
  | fuel + 1 => do
    let s ← get
    if s.pbd.produced < s.pbd.outSize then do
      let c ← pbdControl
      pbCommand (decodePb c)
      depackLoop fuel

/-- `PBD.DEPACK S, sp0, D, dbase, outSize` on buffers (R226). Both bindings end with it (R422). -/
def pbdDepackOp (src : BufRef) (sp0 : Nat) (dst : BufRef) (dbase outSize : Nat) : Op Result := do
  clearFault .pbd
  raiseIf (dst.len < dbase + outSize) .pbd .dstSmall (dbase + outSize)
  raiseIf (rangesMeet src sp0 src.len dst dbase (dbase + outSize)) .pbd .overlap 0
  modify fun s => claim .pbd (windowOf dst dbase outSize) { s with
    pbd := { s.pbd with src := some src, dst := some dst, sp := sp0, dbase := dbase,
                        outSize := outSize, produced := 0 } }
  endPass .pbd (onStop pbdSpoil (depackLoop (src.len - sp0 + 1)))
  let s ← get
  pure (.depacked s.pbd.sp s.pbd.produced)

/-- A Packbits command handed alone to the decoder (log 3): refused while PBD is faulted (R386). -/
def pbAlone (x : Op Unit) : Op Result := do
  enter .pbd
  onStop pbdSpoil x
  pure .unit

/-- `PB.LIT` (R108, R223). -/
def execPbLit (n : BitVec 7) (s : State) : Host.Outcome State Fault Refusal :=
  runOp (pbAlone (pbLitOp n)) s

/-- `PB.RUN` (R109, R222). -/
def execPbRun (n : BitVec 7) (s : State) : Host.Outcome State Fault Refusal :=
  runOp (pbAlone (pbRunOp n)) s

/-- `PB.NOP` (R110, R221). -/
def execPbNop (s : State) : Host.Outcome State Fault Refusal := runOp (pbAlone pbNopOp) s

/-- `PBD.DEPACK`, code 0x60 (R226). -/
def execPbdDepack (src sp0 dst dbase outSize : Nat) (s : State) :
    Host.Outcome State Fault Refusal :=
  runOp (pbdDepackOp (wholeBuf s.mem src) sp0 (wholeBuf s.mem dst) dbase outSize) s

end Sys2Proof.Machine
end

