-- ==== Sys2Proof/Machine/PixelBridge.lean ====
section
/-! DEFINITION. The pixel-buffer bridge (spec/42_pixel_bridge.md). -/

namespace Sys2Proof.Machine

/-! ### PXR -/

/-- `PXR.INIT B, s` on a buffer (R201). The slot checks come before any change but the clearing of
the fault (R146). -/
def pxrInitOp (r : BufRef) (slot : Nat) : Op Result := do
  clearFault .pxr
  let l ← view8 .pxr slot
  modify fun s => { s with
    pxr := { s.pxr with buf := some r, pos := 0, init := true, lut := l } }
  pure .unit

/-- `PXR.SETPAL s` (R202). -/
def pxrSetpalOp (slot : Nat) : Op Result := do
  enter .pxr
  let l ← view8 .pxr slot
  modify fun s => { s with pxr := { s.pxr with lut := l } }
  pure .unit

/-- The least `i` with `start ≤ i < start + n` whose element is set and holds `v`
(R203, D17). -/
def findColour (l : Lut) (v : U32) : Nat → Nat → Option Nat
  | _, 0 => none
  | start, n + 1 =>
    if (lutAt l start).set = true ∧ (lutAt l start).val = v then some start
    else findColour l v (start + 1) n

/-- `PXR.READ` (R203). -/
def pxrReadOp : Op Nat := do
  enter .pxr
  let s ← get
  let v ← memRead .pxr (refOf s.pxr.buf) (4 * s.pxr.pos) 4
  match findColour s.pxr.lut (BitVec.ofNat 32 v) 0 s.pxr.lut.count with
  | none => raise .pxr .colour v
  | some j => do
    modify fun s => { s with pxr := { s.pxr with pos := s.pxr.pos + 1 } }
    pure j

/-- `PXR.ADV n` (R206). -/
def pxrAdvOp (n : Nat) : Op Result := do
  enter .pxr
  modify fun s => { s with pxr := { s.pxr with pos := s.pxr.pos + n } }
  pure .unit

/-! ### PXW -/

/-- `PXW.INIT B, s` on a buffer (R201). -/
def pxwInitOp (r : BufRef) (slot : Nat) : Op Result := do
  clearFault .pxw
  let l ← view8 .pxw slot
  modify fun s => claim .pxw r { s with
    pxw := { s.pxw with buf := some r, pos := 0, init := true, lut := l } }
  pure .unit

/-- `PXW.SETPAL s` (R202). -/
def pxwSetpalOp (slot : Nat) : Op Result := do
  enter .pxw
  let l ← view8 .pxw slot
  modify fun s => { s with pxw := { s.pxw with lut := l } }
  pure .unit

/-- Storing one pixel: the bounds check, the write, the position (R204, R205). -/
def pxwStore (colour : U32) : Op Result := do
  let s ← get
  memWrite .pxw (refOf s.pxw.buf) (4 * s.pxw.pos) 4 colour.toNat
  modify fun s => { s with pxw := { s.pxw with pos := s.pxw.pos + 1 } }
  pure .unit

/-- `PXW.WRITE index` (R204). -/
def pxwWriteOp (index : Nat) : Op Result := do
  enter .pxw
  let s ← get
  raiseIf (s.pxw.lut.count ≤ index) .pxw .rangeBadIndex index
  raiseIf ((lutAt s.pxw.lut index).set = false) .pxw .unset index
  pxwStore (lutAt s.pxw.lut index).val

/-- `PXW.WRITEC colour` (R205). -/
def pxwWritecOp (colour : U32) : Op Result := do
  enter .pxw
  pxwStore colour

/-- `PXW.ADV n` (R206). -/
def pxwAdvOp (n : Nat) : Op Result := do
  enter .pxw
  modify fun s => { s with pxw := { s.pxw with pos := s.pxw.pos + n } }
  pure .unit

/-! ### The host operations -/

/-- `PXR.INIT`, code 0x40 (R201). -/
def execPxrInit (buf slot : Nat) (s : State) : Host.Outcome State Fault Refusal :=
  runOp (pxrInitOp (wholeBuf s.mem buf) slot) s

/-- `PXR.READ`, code 0x41 (R203). -/
def execPxrRead (s : State) : Host.Outcome State Fault Refusal :=
  runOp (do let j ← pxrReadOp; pure (.nat j)) s

/-- `PXR.SETPAL`, code 0x42 (R202). -/
def execPxrSetpal (slot : Nat) (s : State) : Host.Outcome State Fault Refusal :=
  runOp (pxrSetpalOp slot) s

/-- `PXR.ADV`, code 0x43 (R206). -/
def execPxrAdv (n : Nat) (s : State) : Host.Outcome State Fault Refusal := runOp (pxrAdvOp n) s

/-- `PXW.INIT`, code 0x50 (R201). -/
def execPxwInit (buf slot : Nat) (s : State) : Host.Outcome State Fault Refusal :=
  runOp (pxwInitOp (wholeBuf s.mem buf) slot) s

/-- `PXW.WRITE`, code 0x51 (R204). -/
def execPxwWrite (index : Nat) (s : State) : Host.Outcome State Fault Refusal :=
  runOp (pxwWriteOp index) s

/-- `PXW.SETPAL`, code 0x52 (R202). -/
def execPxwSetpal (slot : Nat) (s : State) : Host.Outcome State Fault Refusal :=
  runOp (pxwSetpalOp slot) s

/-- `PXW.ADV`, code 0x53 (R206). -/
def execPxwAdv (n : Nat) (s : State) : Host.Outcome State Fault Refusal := runOp (pxwAdvOp n) s

/-- `PXW.WRITEC`, code 0x54 (R205). -/
def execPxwWritec (colour : U32) (s : State) : Host.Outcome State Fault Refusal :=
  runOp (pxwWritecOp colour) s

end Sys2Proof.Machine
end

