-- ==== Sys2Proof/Machine/Raster.lean ====
section
/-! DEFINITION. The per-scanline raster palette arbiter (spec/46_ham_raster.md section 2). -/

namespace Sys2Proof.Machine

/-- `RPA.CONFIG height, consumer` (R295). -/
def rpaConfigOp (height : Nat) (consumer : Consumer) : Op Result := do
  clearFault .rpa
  modify fun s => { s with
    rpa := { s.rpa with height := height, consumer := consumer, count := 0, init := true } }
  pure .unit

/-- `RPA.LOAD k, s` (R296). -/
def rpaLoadOp (k slot : Nat) : Op Result := do
  enter .rpa
  let s ← get
  raiseIf (Config.rastMax ≤ k ∨ s.rpa.count < k) .rpa .progBadIndex k
  let l ← view8 .rpa slot
  modify fun s => { s with
    rpa := { s.rpa with
      ras := sput Lut.empty s.rpa.ras k l
      count := if k = s.rpa.count then s.rpa.count + 1 else s.rpa.count } }
  pure .unit

/-- `RasterIndex(y)` (R297). -/
def rasterIndex (count height y : Nat) : Nat :=
  if height ≤ count then y else y * count / height

/-- The selected LUT replaces the consumer's (R298). -/
def installLut (c : Consumer) (l : Lut) (s : State) : State :=
  match c with
  | .none => s
  | .pxw => { s with pxw := { s.pxw with lut := l } }
  | .ham => { s with ham := { s.ham with lut := l } }

/-- `RPA.SELECT y` (R298). -/
def rpaSelectOp (y : Nat) : Op Result := do
  enter .rpa
  let s ← get
  if s.rpa.count = 0 then pure .unit
  else do
    raiseIf (s.rpa.height ≤ y) .rpa .rangeBadIndex y
    modify fun s =>
      installLut s.rpa.consumer
        (sget Lut.empty s.rpa.ras (rasterIndex s.rpa.count s.rpa.height y)) s
    pure .unit

/-- `RPA.CONFIG`, code 0xA0 (R295). -/
def execRpaConfig (height : Nat) (consumer : Consumer) (s : State) :
    Host.Outcome State Fault Refusal := runOp (rpaConfigOp height consumer) s

/-- `RPA.LOAD`, code 0xA1 (R296). -/
def execRpaLoad (k slot : Nat) (s : State) : Host.Outcome State Fault Refusal :=
  runOp (rpaLoadOp k slot) s

/-- `RPA.SELECT`, code 0xA2 (R298). -/
def execRpaSelect (y : Nat) (s : State) : Host.Outcome State Fault Refusal :=
  runOp (rpaSelectOp y) s

end Sys2Proof.Machine
end

