-- ==== Sys2Proof/Machine/StripRle.lean ====
section
/-! DEFINITION. The strip RLE decoder (spec/44_strip_rle.md), for either source layout of R237. The
operations take the layout as an argument; the meanings use `Config.vdatLayout`. A command's meaning
acts on the VDD registers as they stand: `VDD.cp` is at its command byte. -/

namespace Sys2Proof.Machine

/-- Stop with a status: not a fault (R243). `true` says that the decoding has stopped. -/
def vddStop (st : VddStatus) : Op Bool := do
  modify fun s => { s with vdd := { s.vdd with status := st } }
  pure true

/-- The command pointer past the command byte; in the interleaved layout `dp` is the same register
(R237). -/
def vddSkipCmd (lay : Config.VdatLayout) : Op Unit :=
  modify fun s => { s with
    vdd := { s.vdd with
      cp := s.vdd.cp + 1
      dp := match lay with | .interleaved => s.vdd.cp + 1 | .split => s.vdd.dp } }

/-- The pointer `NextWord` reads at (R237). -/
def vddWordPtr (lay : Config.VdatLayout) (v : Vdd) : Nat :=
  match lay with
  | .interleaved => v.cp
  | .split => v.dp

/-- `NextWord()` (R237): `none` is "exhausted". -/
def vddNextWord (lay : Config.VdatLayout) : Op (Option (Byte × Byte)) := do
  let s ← get
  let p := vddWordPtr lay s.vdd
  if s.vdd.rend < p + 2 then pure none
  else do
    let w ← memRead .vdd (refOf s.vdd.src) p 2
    modify fun s => { s with
      vdd := { s.vdd with
        cp := match lay with | .interleaved => p + 2 | .split => s.vdd.cp
        dp := p + 2 } }
    pure (some (BitVec.ofNat 8 (w / 256), BitVec.ofNat 8 w))

/-- `BE16(w)` (R9). -/
def be16 (w : Byte × Byte) : Nat := w.1.toNat * 256 + w.2.toNat

/-- `Emit(w)` (R238). -/
def vddEmit (w : Byte × Byte) : Op Bool := do
  let s ← get
  if s.vdd.bytesPerLine ≤ s.vdd.x then vddStop .full
  else do
    memWrite .vdd (refOf s.vdd.dst)
      (s.vdd.dbase + s.vdd.y * s.vdd.bytesPerLine + s.vdd.x) 2 (be16 w)
    modify fun s => { s with
      vdd := { s.vdd with
        y := if s.vdd.y + 1 = s.vdd.h then 0 else s.vdd.y + 1
        x := if s.vdd.y + 1 = s.vdd.h then s.vdd.x + 2 else s.vdd.x } }
    pure false

/-- The status of a copy whose source is exhausted: SRC_END (R243), but FULL where the plane is complete
already (R244 c, g; log 32). -/
def vddExhausted (v : Vdd) : VddStatus := if v.bytesPerLine ≤ v.x then .full else .srcEnd

/-- `Emit(NextWord())` (R239, R240). -/
def vddCopyOne (lay : Config.VdatLayout) : Op Bool := do
  match ← vddNextWord lay with
  | none => do
    let s ← get
    vddStop (vddExhausted s.vdd)
  | some w => vddEmit w

/-- `n` repetitions of an emit, ended by a stop. -/
def vddRepeat (x : Op Bool) : Nat → Op Bool
  | 0 => pure false
  | n + 1 => do
    let stopped ← x
    if stopped then pure true else vddRepeat x n

/-- `VD.COPYX` (R239). -/
def vdCopyxOp (lay : Config.VdatLayout) : Op Bool := do
  vddSkipCmd lay
  match ← vddNextWord lay with
  | none => vddStop .srcEnd
  | some w => vddRepeat (vddCopyOne lay) (be16 w)

/-- `VD.COPY` (R240): `256 - c` values, `c = 128 + n`. -/
def vdCopyOp (lay : Config.VdatLayout) (n : BitVec 7) : Op Bool := do
  vddSkipCmd lay
  vddRepeat (vddCopyOne lay) (128 - n.toNat)

/-- `VD.RUNX` (R241). -/
def vdRunxOp (lay : Config.VdatLayout) : Op Bool := do
  vddSkipCmd lay
  match ← vddNextWord lay with
  | none => vddStop .srcEnd
  | some cnt =>
    match ← vddNextWord lay with
    | none => vddStop .srcEnd
    | some w => vddRepeat (vddEmit w) (be16 cnt)

/-- `VD.RUN` (R242): `c` copies, `c = n`. -/
def vdRunOp (lay : Config.VdatLayout) (n : BitVec 7) : Op Bool := do
  vddSkipCmd lay
  match ← vddNextWord lay with
  | none => vddStop .srcEnd
  | some w => vddRepeat (vddEmit w) n.toNat

/-- The command a command byte selects (R235). -/
def vdCommand (lay : Config.VdatLayout) (c : VdCmd) : Op Bool :=
  match c with
  | .copyx => vdCopyxOp lay
  | .copy n => vdCopyOp lay n
  | .runx => vdRunxOp lay
  | .run n => vdRunOp lay n

/-- The loop of R243; every command consumes a command byte. -/
def vddLoop (lay : Config.VdatLayout) : Nat → Op Unit
  | 0 => pure ()
  | fuel + 1 => do
    let s ← get
    if s.vdd.bytesPerLine ≤ s.vdd.x then do
      let _ ← vddStop .full
      pure ()
    else if s.vdd.cend ≤ s.vdd.cp then do
      let _ ← vddStop .srcEnd
      pure ()
    else do
      let c ← memRead .vdd (refOf s.vdd.src) s.vdd.cp 1
      let stopped ← vdCommand lay (decodeVd (BitVec.ofNat 8 c))
      if stopped then pure () else vddLoop lay fuel

/-- The initial pointers `(cp, cend, dp)` of R237 for the region `[base, base + len)`. -/
def vddPointers (lay : Config.VdatLayout) (m : Mem) (src : BufRef) (base len : Nat) :
    Nat × Nat × Nat :=
  match lay with
  | .interleaved => (base, base + len, base)
  | .split =>
    if len < 2 then (base + len, base + len, base + len)
    else
      let cend := min (base + max (beRead m src base 2) 2) (base + len)
      (base + 2, cend, cend)

/-- `VDD.DECODE S, base, len, D, dbase, bytesPerLine, h` on buffers (R243). Both bindings end with it
(R422). -/
def vddDecodeOp (lay : Config.VdatLayout) (src : BufRef) (base len : Nat) (dst : BufRef)
    (dbase bytesPerLine h : Nat) : Op Result := do
  clearFault .vdd
  raiseIf (h = 0 ∨ bytesPerLine % 2 = 1) .vdd .badGeometry 0
  raiseIf (src.len < base + len) .vdd .pastEnd (base + len)
  raiseIf (dst.len < dbase + bytesPerLine * h) .vdd .dstSmall (dbase + bytesPerLine * h)
  raiseIf (rangesMeet src base (base + len) dst dbase (dbase + bytesPerLine * h)) .vdd .overlap 0
  modify fun s =>
    let p := vddPointers lay s.mem src base len
    claim .vdd (windowOf dst dbase (bytesPerLine * h)) { s with
      vdd := { s.vdd with src := some src, dst := some dst, cp := p.1, cend := p.2.1, dp := p.2.2,
                          rend := base + len, dbase := dbase, bytesPerLine := bytesPerLine, h := h,
                          x := 0, y := 0 } }
  endPass .vdd (vddLoop lay (len + 1))
  let s ← get
  pure (.status s.vdd.status)

/-- After a raise inside a pass the destination range is left unspecified (R385; log 13). -/
def vddSpoil (s : State) : State :=
  spoil .vdd (refOf s.vdd.dst) s.vdd.dbase (s.vdd.bytesPerLine * s.vdd.h) s

/-- A strip command handed alone to the decoder (log 3): refused while VDD is faulted (R386).
`VDD.DECODE` checks its operands first, so that no access inside it can leave its buffers; a lone
command may meet registers for which one does, and then raises as R10 says. -/
def vdAlone (x : Op Bool) : Op Result := do
  enter .vdd
  let _ ← onStop vddSpoil x
  pure .unit

/-- `VD.COPYX` (R111, R239). -/
def execVdCopyx (s : State) : Host.Outcome State Fault Refusal :=
  runOp (vdAlone (vdCopyxOp Config.vdatLayout)) s

/-- `VD.COPY` (R112, R240). -/
def execVdCopy (n : BitVec 7) (s : State) : Host.Outcome State Fault Refusal :=
  runOp (vdAlone (vdCopyOp Config.vdatLayout n)) s

/-- `VD.RUNX` (R113, R241). -/
def execVdRunx (s : State) : Host.Outcome State Fault Refusal :=
  runOp (vdAlone (vdRunxOp Config.vdatLayout)) s

/-- `VD.RUN` (R114, R242). -/
def execVdRun (n : BitVec 7) (s : State) : Host.Outcome State Fault Refusal :=
  runOp (vdAlone (vdRunOp Config.vdatLayout n)) s

/-- `VDD.DECODE`, code 0x70 (R243). -/
def execVddDecode (src base len dst dbase bytesPerLine h : Nat) (s : State) :
    Host.Outcome State Fault Refusal :=
  runOp
    (vddDecodeOp Config.vdatLayout (wholeBuf s.mem src) base len (wholeBuf s.mem dst) dbase
      bytesPerLine h) s

end Sys2Proof.Machine
end

