-- ==== Sys2Proof/Machine/Sequencer.lean ====
section
/-! DEFINITION. The sequencer (spec/47_sequencer.md): every operation is a sequence of operations of
the other units, each issued through `seqCall` (R314). The operations on containers take the format's
codes (R7, R104) as an argument; the meanings use `Config.codes`. -/

namespace Sys2Proof.Machine

/-- `SEQ.state <- st`. -/
def setSeqState (st : SeqState) : Op Unit :=
  modify fun s => { s with seq := { s.seq with state := st } }

/-! ### The generic codec (R311, R313) -/

/-- `BPR.READ -> i; PXW.WRITE i`. -/
def decodePixel : Op Unit := do
  let i ← seqCall .bpr bprReadOp
  let _ ← seqCall .pxw (pxwWriteOp i.toNat)

/-- One scanline of `w` pixels and `pad` padding pixels. -/
def decodeLine (w pad : Nat) : Op Unit := do
  times decodePixel w
  let _ ← seqCall .bpr (bprAdvOp pad)

/-- The part of `SEQ.DECODE` from the first unit's initialisation on (R311). Both units'
bindings end with it (R25, R422). -/
def decodePass (b : BufRef) (slot w h p : Nat) (f : PlaneFormat) (x : BufRef) : Op Unit := do
  let _ ← seqCall .bpr (bprInitOp b (presetGeometry f w h p))
  endPass .bpr do
    let _ ← seqCall .pxw (pxwInitOp x slot)
    endPass .pxw (times (decodeLine w (padPixels (presetLineBytes f w) w)) h)

/-- `SEQ.DECODE B, s, w, h, p, format, X` on buffers (R311). -/
def seqDecodeOp (b : BufRef) (slot w h p : Nat) (f : PlaneFormat) (x : BufRef) : Op Result := do
  clearFault .seq
  raiseIf (p = 0 ∨ Config.planesMax < p) .seq .badPlanes p
  raiseIf (x.len < 4 * w * h) .seq .bufSmall (4 * w * h)
  onStop (spoil .seq x 0 (4 * w * h)) (decodePass b slot w h p f x)
  setSeqState .done
  pure .unit

/-- `PXR.READ -> i; BPW.WRITE i`. -/
def encodePixel : Op Unit := do
  let i ← seqCall .pxr pxrReadOp
  let _ ← seqCall .bpw (bpwWriteOp i)

/-- SEQ's own write of zeros to the first `n` bytes of `r` (R313, R328). -/
def clearRange (r : BufRef) (n : Nat) (s : State) : State :=
  overwrite .seq [windowOf r 0 n] { s with mem := zeroRange s.mem r 0 n }

/-- `(w div 8) * h * p` (R313). -/
def encodeSize (w h p : Nat) : Nat := w / 8 * h * p

/-- The checks of `SEQ.ENCODE`, all before any write (R313); the plane count. -/
def encodeChecks (x : BufRef) (slot w h : Nat) (p : Option Nat) (b : BufRef) : Op Nat := do
  let p ← match p with
    | some p => pure p
    | none => seqCall .pal (palPlanesOp slot)
  raiseIf (p = 0 ∨ Config.planesMax < p) .seq .badPlanes p
  raiseIf (w % 16 ≠ 0) .seq .badWidth w
  raiseIf (b.len < encodeSize w h p) .seq .bufSmall (encodeSize w h p)
  raiseIf (x.len < 4 * w * h) .seq .bufSmall (4 * w * h)
  pure p

/-- The part of `SEQ.ENCODE` that writes (R313). Both units' bindings end with it (R25, R422). -/
def encodePass (x : BufRef) (slot w h p : Nat) (f : PlaneFormat) (b : BufRef) : Op Unit :=
  onStop (spoil .seq b 0 (encodeSize w h p)) do
    modify (clearRange b (encodeSize w h p))
    let _ ← seqCall .pxr (pxrInitOp x slot)
    endPass .pxr do
      let _ ← seqCall .bpw (bpwInitOp b (presetGeometry f w h p))
      endPass .bpw (times encodePixel (w * h))
    setSeqState .done

/-- `SEQ.ENCODE X, s, w, h, p?, format, B` on buffers (R313). -/
def seqEncodeOp (x : BufRef) (slot w h : Nat) (p : Option Nat) (f : PlaneFormat) (b : BufRef) :
    Op Result := do
  clearFault .seq
  let p ← encodeChecks x slot w h p b
  encodePass x slot w h p f b
  pure .unit

/-! ### The scan of a container (R317 to R330) -/

/-- `CKR.RD8`, `CKR.RD16` or `CKR.RD32` by SEQ. -/
def seqRd (n : Nat) : Op Nat := seqCall .ckr (ckrReadOp n)

/-- `HDR <- f HDR`. -/
def modHdr (f : Hdr → Hdr) : Op Unit :=
  modify fun s => { s with seq := { s.seq with hdr := f s.seq.hdr } }

/-- The reads of a header payload, in the order of R318. -/
def readHeader : Op Unit := do
  let v ← seqRd 2
  modHdr fun h => { h with width := BitVec.ofNat 16 v }
  let v ← seqRd 2
  modHdr fun h => { h with height := BitVec.ofNat 16 v }
  let v ← seqRd 2
  modHdr fun h => { h with xOrigin := BitVec.ofNat 16 v }
  let v ← seqRd 2
  modHdr fun h => { h with yOrigin := BitVec.ofNat 16 v }
  let v ← seqRd 1
  modHdr fun h => { h with planes := BitVec.ofNat 8 v }
  let v ← seqRd 1
  modHdr fun h => { h with mask := BitVec.ofNat 8 v }
  let v ← seqRd 1
  modHdr fun h => { h with compression := BitVec.ofNat 8 v }
  let v ← seqRd 1
  modHdr fun h => { h with pad := BitVec.ofNat 8 v }
  let v ← seqRd 2
  modHdr fun h => { h with transparentColor := BitVec.ofNat 16 v }
  let v ← seqRd 1
  modHdr fun h => { h with xAspect := BitVec.ofNat 8 v }
  let v ← seqRd 1
  modHdr fun h => { h with yAspect := BitVec.ofNat 8 v }
  let v ← seqRd 2
  modHdr fun h => { h with pageWidth := BitVec.ofNat 16 v }
  let v ← seqRd 2
  modHdr fun h => { h with pageHeight := BitVec.ofNat 16 v }

/-- `ceil(width/16)*2` (R34, R318). -/
def lineBytesOf (width : Nat) : Nat := ceilDiv width 16 * 2

/-- The header chunk (R318). -/
def scanHeader (base len : Nat) : Op Unit := do
  seqRaiseIf (len < 20) .badHeader len
  seqCall .ckr (ckrEnterOp base len)
  readHeader
  seqCall .ckr ckrLeaveOp
  modHdr fun h => { h with bytesPerLine := lineBytesOf h.width.toNat, valid := true }
  let s ← get
  let h := s.seq.hdr
  seqRaiseIf (h.planes = 0 ∨ Config.planesMax < h.planes.toNat) .badPlanes h.planes.toNat
  seqRaiseIf (h.width = 0 ∨ h.height = 0) .badHeader 0

/-- The mode-flags chunk (R322, R106). -/
def scanMode (base len : Nat) : Op Unit := do
  seqRaiseIf (len < 4) .badMode len
  seqCall .ckr (ckrEnterOp base len)
  let v ← seqRd 4
  modify fun s => { s with seq := { s.seq with mode := BitVec.ofNat 32 v } }
  seqCall .ckr ckrLeaveOp

/-- Entry `i` of the palette chunk into slot 0 (R322, R107). -/
def scanPaletteEntry (i : Nat) : Op Unit := do
  let r ← seqRd 1
  let g ← seqRd 1
  let b ← seqRd 1
  let _ ← seqCall .pal
    (palSetOp 0 i (BitVec.ofNat 32 r) (BitVec.ofNat 32 g) (BitVec.ofNat 32 b) none)

/-- The palette chunk (R322, R107, D47). -/
def scanPalette (base len : Nat) : Op Unit := do
  seqRaiseIf (Config.palMax < len / 3) .badPalette (len / 3)
  let _ ← seqCall .pal (palCreateOp 0 (len / 3) (some 8))
  seqCall .ckr (ckrEnterOp base len)
  forFrom scanPaletteEntry 0 (len / 3)
  seqCall .ckr ckrLeaveOp
  modify fun s => { s with seq := { s.seq with palPresent := true } }

/-- The body chunk is recorded, not touched (R327). -/
def scanBody (layout : BodyLayout) (base len : Nat) : Op Unit :=
  modify fun s => { s with seq := { s.seq with body := ⟨true, base, len, layout⟩ } }

/-- One chunk of the container (R318, R322, R323, R327); an unknown tag is skipped. -/
def scanChunk (k : Config.Codes) (tag : U32) (len base : Nat) : Op Unit :=
  if tag = k.hdr then scanHeader base len
  else if tag = k.mode then scanMode base len
  else if tag = k.pal then scanPalette base len
  else if tag = k.bodyLine then scanBody .line base len
  else if tag = k.bodyContig then scanBody .contig base len
  else if tag = k.rast1 then
    modify fun s => { s with seq := { s.seq with rdesc1 := ⟨true, tag, base, len⟩ } }
  else if tag = k.rast2 then
    modify fun s => { s with seq := { s.seq with rdesc2 := ⟨true, tag, base, len⟩ } }
  else if tag = k.rast3 then
    modify fun s => { s with seq := { s.seq with rdesc3 := ⟨true, tag, base, len⟩ } }
  else pure ()

/-- The loop of R317; every chunk consumes at least its header. -/
def scanLoop (k : Config.Codes) : Nat → Op Unit
  | 0 => pure ()
  | fuel + 1 => do
    let e ← seqCall .ckr ckrEofOp
    if e then pure ()
    else do
      let c ← seqCall .ckr ckrReadchunkOp
      scanChunk k c.1 c.2.1 c.2.2
      scanLoop k fuel

/-- The probe for the legacy side channel (R324). -/
def scanSide (k : Config.Codes) : Op Unit := do
  let pk ← seqCall .ckr ckrPeekOp
  modify fun s =>
    let v := curView s
    if pk = some (k.rastSide, Config.rastSideLen) ∧
        v.pos + 8 + Config.rastSideLen ≤ v.len then
      { s with seq := { s.seq with side := ⟨true, v.base + v.pos + 8, Config.rastSideLen⟩ } }
    else { s with seq := { s.seq with side := { s.seq.side with present := false } } }

/-- What `SEQ.SCAN` clears first (R317). -/
def scanStart (q : Seq) : Seq :=
  { q with
    state := .scan
    hdr := { q.hdr with valid := false }
    body := { q.body with present := false }
    palPresent := false
    side := { q.side with present := false }
    rdesc1 := { q.rdesc1 with present := false }
    rdesc2 := { q.rdesc2 with present := false }
    rdesc3 := { q.rdesc3 with present := false }
    mode := 0 }

/-- The completeness checks (R330). -/
def scanComplete : Op Unit := do
  let s ← get
  seqRaiseIf (s.seq.body.present = false) .noBody 0
  seqRaiseIf (s.seq.palPresent = false) .noPalette 0
  seqRaiseIf (s.seq.hdr.valid = false) .noHeader 0
  setSeqState .assemble

/-- The part of `SEQ.SCAN` after the container has been opened (R317, R324, R330). -/
def scanPass (k : Config.Codes) (c : BufRef) : Op Unit := do
  let o ← seqCall .ckr ckrReadchunkOp
  seqRaiseIf (o.1 ≠ k.outer) .badTopTag o.1.toNat
  seqCall .ckr (ckrEnterOp o.2.2 o.2.1)
  seqRaiseIf (o.2.1 < 4) .badSubtype 0
  let ty ← seqRd 4
  seqRaiseIf (ty ≠ k.typeLine.toNat ∧ ty ≠ k.typeContig.toNat) .badSubtype ty
  scanLoop k (c.len + 1)
  seqCall .ckr ckrLeaveOp
  scanSide k
  scanComplete

/-- `SEQ.SCAN C` on a buffer (R317). `SEQ.ASSEMBLE` reads on with CKR (R328), so its binding to the
container ends here only if the scan fails (R422). -/
def seqScanOp (k : Config.Codes) (c : BufRef) : Op Result := do
  clearFault .seq
  modify fun s => { s with seq := scanStart s.seq }
  let _ ← seqCall .ckr (ckrOpenOp c)
  onStop (unbind .ckr) (scanPass k c)
  pure .unit

/-! ### The assembly of a container (R319 to R321, R326, R328) -/

/-- The strip chunks of the body into the planes of `W` (R328): `tag` is `TAG_STRIP`, `k` planes are done so far. -/
def stripLoop (tag : U32) (c w : BufRef) (lineBytes h p : Nat) : Nat → Nat → Op Nat
  | 0, k => pure k
  | fuel + 1, k => do
    let e ← seqCall .ckr ckrEofOp
    if e = true ∨ p ≤ k then pure k
    else do
      let ck ← seqCall .ckr ckrReadchunkOp
      if ck.1 = tag then do
        let _ ← seqCall .vdd
          (vddDecodeOp Config.vdatLayout c ck.2.2 ck.2.1 w (k * lineBytes * h) lineBytes h)
        stripLoop tag c w lineBytes h p fuel (k + 1)
      else stripLoop tag c w lineBytes h p fuel k

/-- The plane bytes and their geometry (R328), by the compression code. -/
def assemblePlanes (tag : U32) (c w : BufRef) (hd : Hdr) (body : BodyDesc) : Op (BufRef × Geometry) :=
  let lineBytes := hd.bytesPerLine
  let p := hd.planes.toNat
  let h := hd.height.toNat
  let planeBytes := lineBytes * p * h
  let window := windowOf c body.base body.len
  if hd.compression = 0 then
    pure (window, containerGeometry body.layout lineBytes h p)
  else if hd.compression = 1 then do
    let _ ← seqCall .pbd (pbdDepackOp window 0 w 0 planeBytes)
    pure (windowOf w 0 planeBytes, containerGeometry body.layout lineBytes h p)
  else do
    modify (clearRange w planeBytes)
    seqCall .ckr (ckrEnterOp body.base body.len)
    let k ← stripLoop tag c w lineBytes h p (body.len + 1) 0
    seqCall .ckr ckrLeaveOp
    seqRaiseIf (k < p) .planesMissing k
    pure (windowOf w 0 planeBytes, containerGeometry .contig lineBytes h p)

/-- Extra-Half-Brite (R320): the active slot. -/
def activeSlot : Op Nat := do
  let s ← get
  if modeEhb s.seq.mode then do
    let _ ← seqCall .pal (palEhbOp 1 0)
    pure 1
  else pure 0

/-- `HAM.READ -> c; PXW.WRITEC c`. -/
def hamPixelOut : Op Unit := do
  let c ← seqCall .ham hamReadOp
  let _ ← seqCall .pxw (pxwWritecOp c)

/-- The scanlines of R321: with raster data a selection first, then the pixels, then the padding. -/
def paintLines (raster : Bool) (pixel skip : Op Unit) (w h : Nat) : Op Unit :=
  forFrom
    (fun y => do
      if raster then do
        let _ ← seqCall .rpa (rpaSelectOp y)
      times pixel w
      skip)
    0 h

/-- `RPA.consumer <- c; RPA.height <- h` (R321). -/
def setRaster (c : Consumer) (h : Nat) : Op Unit :=
  modify fun s => { s with rpa := { s.rpa with consumer := c, height := h } }

/-- The dispatch (R321). -/
def assemblePixels (hd : Hdr) : Op Unit := do
  let w := hd.width.toNat
  let h := hd.height.toNat
  let pad := padPixels hd.bytesPerLine w
  let s ← get
  let raster := rasterPresent s.rpa
  let skipBpr : Op Unit := do
    let _ ← seqCall .bpr (bprAdvOp pad)
  if modeHam s.seq.mode then do
    if raster then setRaster .ham h
    paintLines raster hamPixelOut
      (do
        let _ ← seqCall .ham (hamAdvOp pad))
      w h
  else if raster then do
    setRaster .pxw h
    paintLines true decodePixel skipBpr w h
  else paintLines false decodePixel skipBpr w h

/-- From the plane reader's binding on (R320, R321). Both units' bindings end with it (R25, R422). -/
def assembleImage (x : BufRef) (pg : BufRef × Geometry) (hd : Hdr) : Op Unit := do
  let _ ← seqCall .bpr (bprInitOp pg.1 pg.2)
  endPass .bpr do
    let sa ← activeSlot
    let _ ← seqCall .pxw (pxwInitOp x sa)
    endPass .pxw do
      let s ← get
      if modeHam s.seq.mode then do
        let _ ← seqCall .ham (hamInitOp hd.planes.toNat sa)
      assemblePixels hd

/-- The end of the chunk reader's binding to the container that `SEQ.SCAN` opened (R422); a reader
that the host has bound to another buffer since is the host's. -/
def closeContainer (c : BufRef) (s : State) : State :=
  if s.ckr.src = some c then unbind .ckr s else s

/-- The part of `SEQ.ASSEMBLE` after its checks (R328, R320, R321). -/
def assemblePass (tag : U32) (c w x : BufRef) (hd : Hdr) (body : BodyDesc) : Op Unit := do
  let pg ← assemblePlanes tag c w hd body
  assembleImage x pg hd
  setSeqState .done
  modify (closeContainer c)

/-- What a failed assembly leaves unspecified: the pixels, and the work buffer if it is used
(R314, R383; log 13). -/
def assembleSpoil (w x : BufRef) (hd : Hdr) (s : State) : State :=
  let t := spoil .seq x 0 (4 * hd.width.toNat * hd.height.toNat) s
  if hd.compression = 0 then t
  else spoil .seq w 0 (hd.bytesPerLine * hd.planes.toNat * hd.height.toNat) t

/-- `SEQ.ASSEMBLE C, W, X` on buffers (R328, R319, R321). -/
def seqAssembleOp (k : Config.Codes) (c w x : BufRef) : Op Result := do
  enter .seq
  let s ← get
  let hd := s.seq.hdr
  let size := 4 * hd.width.toNat * hd.height.toNat
  let planeBytes := hd.bytesPerLine * hd.planes.toNat * hd.height.toNat
  raiseIf (s.seq.state ≠ .assemble) .seq .notInit 0
  onStop (spoil .seq x 0 size)
    (seqRaiseIf (hd.compression ≠ 0 ∧ hd.compression ≠ 1 ∧ hd.compression ≠ k.compStrip)
      .badCompression hd.compression.toNat)
  raiseIf (x.len < size) .seq .bufSmall size
  raiseIf (hd.compression ≠ 0 ∧ w.len < planeBytes) .seq .bufSmall planeBytes
  onStop (fun t => closeContainer c (assembleSpoil w x hd t))
    (assemblePass k.strip c w x hd s.seq.body)
  pure .unit

/-- `SEQ.DECODEC C, W, X` on buffers (R316): the scan, then the assembly, and with it the end of the
chunk reader's binding (R422). After a failed scan the pixel buffer is unspecified (R383; log 13). -/
def seqDecodecOp (k : Config.Codes) (c w x : BufRef) : Op Result := do
  let _ ← onStop (spoil .seq x 0 x.len) (seqScanOp k c)
  onStop (closeContainer c) (seqAssembleOp k c w x)

/-! ### The host operations -/

/-- `SEQ.DECODE`, code 0xB0 (R311). -/
def execSeqDecode (planeBuf slot w h p : Nat) (f : PlaneFormat) (pixBuf : Nat) (s : State) :
    Host.Outcome State Fault Refusal :=
  runOp (seqDecodeOp (wholeBuf s.mem planeBuf) slot w h p f (wholeBuf s.mem pixBuf)) s

/-- `SEQ.ENCODE`, code 0xB1 (R313). -/
def execSeqEncode (pixBuf slot w h : Nat) (p : Option Nat) (f : PlaneFormat) (planeBuf : Nat)
    (s : State) : Host.Outcome State Fault Refusal :=
  runOp (seqEncodeOp (wholeBuf s.mem pixBuf) slot w h p f (wholeBuf s.mem planeBuf)) s

/-- `SEQ.DECODEC`, code 0xB2 (R316). -/
def execSeqDecodec (container work pixBuf : Nat) (s : State) : Host.Outcome State Fault Refusal :=
  runOp
    (seqDecodecOp Config.codes (wholeBuf s.mem container) (wholeBuf s.mem work)
      (wholeBuf s.mem pixBuf)) s

/-- `SEQ.SCAN`, code 0xB3 (R317). -/
def execSeqScan (container : Nat) (s : State) : Host.Outcome State Fault Refusal :=
  runOp (seqScanOp Config.codes (wholeBuf s.mem container)) s

/-- `SEQ.ASSEMBLE`, code 0xB4 (R328, R321). -/
def execSeqAssemble (container work pixBuf : Nat) (s : State) :
    Host.Outcome State Fault Refusal :=
  runOp
    (seqAssembleOp Config.codes (wholeBuf s.mem container) (wholeBuf s.mem work)
      (wholeBuf s.mem pixBuf)) s

end Sys2Proof.Machine
end

