-- ==== Sys2Proof/Machine/EncodeContainer.lean ====
section
/-! DEFINITION. The container encode `SEQ.ENCODEC` (spec/48_companion_encode.md section 3): SEQ over
PBE and CKW. Its options and its two work buffers are log 21's. -/

namespace Sys2Proof.Machine

/-- `CKW.WR8`, `CKW.WR16` or `CKW.WR32` by SEQ. -/
def seqWr (n v : Nat) : Op Unit := seqCall .ckw (ckwWriteOp n v)

/-- `CKW.START tag; …; CKW.END`. -/
def seqChunk (tag : U32) (body : Op Unit) : Op Unit := do
  seqCall .ckw (ckwStartOp tag)
  body
  let _ ← seqCall .ckw ckwEndOp

/-- The 20 bytes of R105 for an image of `p` planes, by the options (R358: `compression` 0 or 1). -/
def writeHeader (o : EncOptions) (p : Nat) : Op Unit := do
  seqWr 2 o.width.toNat
  seqWr 2 o.height.toNat
  seqWr 2 o.xOrigin.toNat
  seqWr 2 o.yOrigin.toNat
  seqWr 1 p
  seqWr 1 o.mask.toNat
  seqWr 1 (if o.compress then 1 else 0)
  seqWr 1 o.pad.toNat
  seqWr 2 o.transparentColor.toNat
  seqWr 1 o.xAspect.toNat
  seqWr 1 o.yAspect.toNat
  seqWr 2 o.pageWidth.toNat
  seqWr 2 o.pageHeight.toNat

/-- The mode-flags chunk, if mode flags are given (R358). -/
def writeMode (tag : U32) (flags : Option U32) : Op Unit :=
  match flags with
  | none => pure ()
  | some v => seqChunk tag (seqWr 4 v.toNat)

/-- Entry `i` of the palette at 8 bits, three bytes (R358). -/
def writePaletteEntry (slot i : Nat) : Op Unit := do
  let e ← seqCall .pal (palGetOp slot i)
  let s ← get
  let v := rescaleEntry e (slotAt s slot).bpc 8
  seqWr 1 v.r.toNat
  seqWr 1 v.g.toNat
  seqWr 1 v.b.toNat

/-- The palette chunk (R358). -/
def writePalette (tag : U32) (slot : Nat) : Op Unit := do
  let s ← get
  seqChunk tag (forFrom (writePaletteEntry slot) 0 (slotAt s slot).count)

/-- Byte `i` of the body, read when it is written: where the work or the pack buffer shares bytes with
the container, the bytes are those the chunk writer has left there, and the operation completes
(DESIGN CHOICE, log 21; no binding of a unit names those buffers then, log 20). -/
def writeBodyByte (body : BufRef) (i : Nat) : Op Unit := do
  let s ← get
  seqWr 1 (refByte s.mem body i).toNat

/-- The body tag of a layout (R104, R327). -/
def bodyTagOf (k : Config.Codes) (layout : BodyLayout) : U32 :=
  match layout with
  | .line => k.bodyLine
  | .contig => k.bodyContig

/-- The body chunk under the tag of its layout (R358, R327). -/
def writeBody (k : Config.Codes) (layout : BodyLayout) (body : BufRef) : Op Unit :=
  seqChunk (bodyTagOf k layout) (forFrom (writeBodyByte body) 0 body.len)

/-- The generic format whose bytes the layout's body tag implies (R173, R326, R358). -/
def formatOf (layout : BodyLayout) : PlaneFormat :=
  match layout with
  | .line => .line
  | .contig => .contiguous

/-- The sub-type that names the layout (R104, R358). -/
def typeOf (k : Config.Codes) (layout : BodyLayout) : U32 :=
  match layout with
  | .line => k.typeLine
  | .contig => k.typeContig

/-- The bytes of the body: the plane bytes in the work buffer, or what `PBE.PACK` makes of them
line by line (R358). -/
def encodecBody (o : EncOptions) (work pack : BufRef) (size : Nat) : Op BufRef :=
  if o.compress then do
    let n ← seqCall .pbe (pbePackOp (windowOf work 0 size) (o.width.toNat / 8) pack)
    pure (windowOf pack 0 n)
  else pure (windowOf work 0 size)

/-- The chunk tree (R358). The steps of R358 name no `CKW.INIT`: SEQ issues it here, after the encode
and the pack and before `CKW.START TAG_OUTER`, so that a fault in those leaves CKW as it was (DESIGN
CHOICE, log 21). The chunk writer's binding ends with the tree (R422). -/
def encodecTree (k : Config.Codes) (o : EncOptions) (slot p : Nat) (body cout : BufRef) :
    Op Unit := do
  seqCall .ckw (ckwInitOp cout)
  endPass .ckw <| seqChunk k.outer do
    seqWr 4 (typeOf k o.layout).toNat
    seqChunk k.hdr (writeHeader o p)
    writeMode k.mode o.modeFlags
    writePalette k.pal slot
    writeBody k o.layout body

/-- What a failed container encode leaves unspecified: the container and the work buffers it uses
(R314, R385; log 13). -/
def encodecSpoil (o : EncOptions) (work pack cout : BufRef) (size : Nat) (s : State) : State :=
  let t := spoil .seq work 0 size (spoil .seq cout 0 cout.len s)
  if o.compress then spoil .seq pack 0 pack.len t else t

/-- `SEQ.ENCODEC X, s, options, Cout` on buffers (R358). -/
def seqEncodecOp (k : Config.Codes) (x : BufRef) (slot : Nat) (o : EncOptions) (work pack cout : BufRef) :
    Op Result := do
  clearFault .seq
  let w := o.width.toNat
  let h := o.height.toNat
  let p ← encodeChecks x slot w h o.planes work
  let size := encodeSize w h p
  onStop (encodecSpoil o work pack cout size) do
    encodePass x slot w h p (formatOf o.layout) work
    let body ← encodecBody o work pack size
    encodecTree k o slot p body cout
  setSeqState .done
  let s ← get
  pure (.nat s.ckw.pos)

/-- `SEQ.ENCODEC`, code 0xC3 (R358). -/
def execSeqEncodec (pixBuf slot : Nat) (options : EncOptions) (container : Nat) (s : State) :
    Host.Outcome State Fault Refusal :=
  runOp
    (seqEncodecOp Config.codes (wholeBuf s.mem pixBuf) slot options (wholeBuf s.mem options.workBuf)
      (wholeBuf s.mem options.packBuf) (wholeBuf s.mem container)) s

end Sys2Proof.Machine
end

