-- ==== Sys2Proof/Machine/System.lean ====
section
/-! DEFINITION. `SYS.RESET` (spec/70_reset_and_hazards.md R410). -/

namespace Sys2Proof.Machine

/-- The state `SYS.RESET` leaves: every unit as after reset; the host's buffers, its waiting requests
and the draw counter are not the block's to reset (R410: "Memory ... is not touched by reset"). -/
def resetUnits (s : State) : State :=
  { State.reset with mem := s.mem, pending := s.pending, draws := s.draws }

/-- `SYS.RESET` (R410): never refused, cannot fault. -/
def sysResetOp : Op Result := do
  modify resetUnits
  pure .unit

/-- `SYS.RESET`, code 0x00 (R410). -/
def execSysReset (s : State) : Host.Outcome State Fault Refusal := runOp sysResetOp s

end Sys2Proof.Machine
end

