-- ==== Sys2Proof/Machine/Dispatch.lean ====
section
/-! DEFINITION. The meaning of every instruction. -/

namespace Sys2Proof.Machine

def exec (i : Instr) (s : State) : Host.Outcome State Fault Refusal :=
  match i with
  | .pbLit n => Sys2Proof.Machine.execPbLit n s
  | .pbRun n => Sys2Proof.Machine.execPbRun n s
  | .pbNop => Sys2Proof.Machine.execPbNop s
  | .vdCopyx => Sys2Proof.Machine.execVdCopyx s
  | .vdCopy n => Sys2Proof.Machine.execVdCopy n s
  | .vdRunx => Sys2Proof.Machine.execVdRunx s
  | .vdRun n => Sys2Proof.Machine.execVdRun n s
  | .hamBase p data => Sys2Proof.Machine.execHamBase p data s
  | .hamModb p data => Sys2Proof.Machine.execHamModb p data s
  | .hamModr p data => Sys2Proof.Machine.execHamModr p data s
  | .hamModg p data => Sys2Proof.Machine.execHamModg p data s
  | .sysReset => Sys2Proof.Machine.execSysReset s
  | .palCreate slot count bpc => Sys2Proof.Machine.execPalCreate slot count bpc s
  | .palSet slot idx r g b a => Sys2Proof.Machine.execPalSet slot idx r g b a s
  | .palGet slot idx => Sys2Proof.Machine.execPalGet slot idx s
  | .palResample sd ss newBpc => Sys2Proof.Machine.execPalResample sd ss newBpc s
  | .palToval slot alpha => Sys2Proof.Machine.execPalToval slot alpha s
  | .palFromval slot values bpc alpha => Sys2Proof.Machine.execPalFromval slot values bpc alpha s
  | .palFrompix slot buf => Sys2Proof.Machine.execPalFrompix slot buf s
  | .palMono slot => Sys2Proof.Machine.execPalMono slot s
  | .palEhb sd ss => Sys2Proof.Machine.execPalEhb sd ss s
  | .palPlanes slot => Sys2Proof.Machine.execPalPlanes slot s
  | .bprInit buf g => Sys2Proof.Machine.execBprInit buf g s
  | .bprRead => Sys2Proof.Machine.execBprRead s
  | .bprAdv n => Sys2Proof.Machine.execBprAdv n s
  | .bprEof => Sys2Proof.Machine.execBprEof s
  | .bpwInit buf g => Sys2Proof.Machine.execBpwInit buf g s
  | .bpwWrite index => Sys2Proof.Machine.execBpwWrite index s
  | .bpwAdv n => Sys2Proof.Machine.execBpwAdv n s
  | .bpwEof => Sys2Proof.Machine.execBpwEof s
  | .pxrInit buf slot => Sys2Proof.Machine.execPxrInit buf slot s
  | .pxrRead => Sys2Proof.Machine.execPxrRead s
  | .pxrSetpal slot => Sys2Proof.Machine.execPxrSetpal slot s
  | .pxrAdv n => Sys2Proof.Machine.execPxrAdv n s
  | .pxwInit buf slot => Sys2Proof.Machine.execPxwInit buf slot s
  | .pxwWrite index => Sys2Proof.Machine.execPxwWrite index s
  | .pxwSetpal slot => Sys2Proof.Machine.execPxwSetpal slot s
  | .pxwAdv n => Sys2Proof.Machine.execPxwAdv n s
  | .pxwWritec colour => Sys2Proof.Machine.execPxwWritec colour s
  | .pbdDepack src sp0 dst dbase outSize => Sys2Proof.Machine.execPbdDepack src sp0 dst dbase outSize s
  | .vddDecode src base len dst dbase bytesPerLine h => Sys2Proof.Machine.execVddDecode src base len dst dbase bytesPerLine h s
  | .ckrOpen buf => Sys2Proof.Machine.execCkrOpen buf s
  | .ckrReadchunk => Sys2Proof.Machine.execCkrReadchunk s
  | .ckrPeek => Sys2Proof.Machine.execCkrPeek s
  | .ckrEof => Sys2Proof.Machine.execCkrEof s
  | .ckrEnter base length => Sys2Proof.Machine.execCkrEnter base length s
  | .ckrLeave => Sys2Proof.Machine.execCkrLeave s
  | .ckrRd8 => Sys2Proof.Machine.execCkrRd8 s
  | .ckrRd16 => Sys2Proof.Machine.execCkrRd16 s
  | .ckrRd32 => Sys2Proof.Machine.execCkrRd32 s
  | .hamInit p slot => Sys2Proof.Machine.execHamInit p slot s
  | .hamRead => Sys2Proof.Machine.execHamRead s
  | .hamSetpal slot => Sys2Proof.Machine.execHamSetpal slot s
  | .hamAdv n => Sys2Proof.Machine.execHamAdv n s
  | .rpaConfig height consumer => Sys2Proof.Machine.execRpaConfig height consumer s
  | .rpaLoad k slot => Sys2Proof.Machine.execRpaLoad k slot s
  | .rpaSelect y => Sys2Proof.Machine.execRpaSelect y s
  | .seqDecode planeBuf slot w h p format pixBuf => Sys2Proof.Machine.execSeqDecode planeBuf slot w h p format pixBuf s
  | .seqEncode pixBuf slot w h p format planeBuf => Sys2Proof.Machine.execSeqEncode pixBuf slot w h p format planeBuf s
  | .seqDecodec container work pixBuf => Sys2Proof.Machine.execSeqDecodec container work pixBuf s
  | .seqScan container => Sys2Proof.Machine.execSeqScan container s
  | .seqAssemble container work pixBuf => Sys2Proof.Machine.execSeqAssemble container work pixBuf s
  | .pbePack src bytesPerLine dst => Sys2Proof.Machine.execPbePack src bytesPerLine dst s
  | .ckwStart tag => Sys2Proof.Machine.execCkwStart tag s
  | .ckwEnd => Sys2Proof.Machine.execCkwEnd s
  | .seqEncodec pixBuf slot options container => Sys2Proof.Machine.execSeqEncodec pixBuf slot options container s
  | .ckwInit buf => Sys2Proof.Machine.execCkwInit buf s
  | .ckwWr8 v => Sys2Proof.Machine.execCkwWr8 v s
  | .ckwWr16 v => Sys2Proof.Machine.execCkwWr16 v s
  | .ckwWr32 v => Sys2Proof.Machine.execCkwWr32 v s

end Sys2Proof.Machine
end

