-- ==== Sys2Proof/Machine/Port.lean ====
section
/-! DEFINITION. The host port: what a step does with the host's requests (spec/00_scope.md R11, R13;
log 1). The block has no program counter and fetches nothing from memory: its next instruction is
the oldest request. -/

namespace Sys2Proof.Machine

/-- A state with one more request, the first to be executed. -/
def withRequest (pk : Packet) (s : State) : State := { s with pending := pk :: s.pending }

/-- What becomes of a request that has been taken from the queue: it is executed; a host operation
of an unknown code gives `E_PROG(BAD_OP, code)` and changes no state (R121). -/
def runPacket (pk : Packet) (s : State) : Host.Outcome State Fault Refusal :=
  match decode pk with
  | .ok i => exec i s
  | .error (.badOp code) => .next { s with reply := .badOp code }
  | .error (.illTyped code) => .fault (.illTypedRequest code)
  | .error (.badPixel planes raw) => .fault (.badPixelCode planes raw)

/-- The oldest request is taken and executed; with none waiting nothing happens, since the block is
passive (R13). -/
def servePort (s : State) : Host.Outcome State Fault Refusal :=
  match s.pending with
  | [] => .next s
  | pk :: rest => runPacket pk { s with pending := rest }

end Sys2Proof.Machine
end

