-- ==== Sys2Proof/Machine/Step.lean ====
section
/-! DEFINITION. One step of the machine. -/

namespace Sys2Proof.Machine

/-- The state with the table's instruction as the host's next request (log 1). -/
def State.withFetchWord (s : State) (nbits w : Nat) : State :=
  match packetOfWord nbits w with
  | some pk => withRequest pk s
  | none => s

/-- One step (R11, R13). -/
def step (s : State) : Host.Outcome State Fault Refusal := servePort s

end Sys2Proof.Machine
end

