-- ==== Sys2Proof/Safety.lean ====
section
/-! DEFINITION. The terms the statements use: how an instruction ends, which unit an instruction is
for, the legal states, what an instruction may write, and list-level readings of two formats. -/

namespace Sys2Proof.Machine

/-! ### How an instruction ends -/

/-- The instruction completes: the host receives `r`, the block is left as in `t`. -/
def completes (r : Result) (t : State) : Host.Outcome State Fault Refusal :=
  .next { t with reply := .done r }

/-- The instruction raises: the fault register of `u` is written, nothing else changes in `t`
(R385). -/
def raises (u : UnitId) (c : FaultCode) (info : Nat) (t : State) :
    Host.Outcome State Fault Refusal :=
  .next { withFault u (raisedReg c info) t with reply := .faulted }

/-- Unit `u` can run its operations: it holds no fault, is initialised (R386, R387), and its binding,
if it keeps one, is alive (R422). -/
def ready (u : UnitId) (s : State) : Prop :=
  (faultOf u s).valid = false ∧ initOf u s = true ∧ bound u s = true

/-- `U.FAULT.valid <- false` (R388). -/
def clearedFault (u : UnitId) (s : State) : State :=
  withFault u { faultOf u s with valid := false } s

/-- The unit whose fault refuses an instruction and whose missing initialisation it faults on
(R386, R387): none for the clearing operations of R388. -/
def guardOf (i : Instr) : Option UnitId :=
  match i with
  | .pbLit _ | .pbRun _ | .pbNop => some .pbd
  | .vdCopyx | .vdCopy _ | .vdRunx | .vdRun _ => some .vdd
  | .hamBase _ _ | .hamModb _ _ | .hamModr _ _ | .hamModg _ _ => some .ham
  | .sysReset => none
  | .palCreate _ _ _ => none
  | .palSet _ _ _ _ _ _ | .palGet _ _ | .palResample _ _ _ | .palToval _ _
  | .palFromval _ _ _ _ | .palFrompix _ _ | .palMono _ | .palEhb _ _ | .palPlanes _ => some .pal
  | .bprInit _ _ => none
  | .bprRead | .bprAdv _ | .bprEof => some .bpr
  | .bpwInit _ _ => none
  | .bpwWrite _ | .bpwAdv _ | .bpwEof => some .bpw
  | .pxrInit _ _ => none
  | .pxrRead | .pxrSetpal _ | .pxrAdv _ => some .pxr
  | .pxwInit _ _ => none
  | .pxwWrite _ | .pxwSetpal _ | .pxwAdv _ | .pxwWritec _ => some .pxw
  | .pbdDepack _ _ _ _ _ => none
  | .vddDecode _ _ _ _ _ _ _ => none
  | .ckrOpen _ => none
  | .ckrReadchunk | .ckrPeek | .ckrEof | .ckrEnter _ _ | .ckrLeave | .ckrRd8 | .ckrRd16
  | .ckrRd32 => some .ckr
  | .hamInit _ _ => none
  | .hamRead | .hamSetpal _ | .hamAdv _ => some .ham
  | .rpaConfig _ _ => none
  | .rpaLoad _ _ | .rpaSelect _ => some .rpa
  | .seqDecode _ _ _ _ _ _ _ => none
  | .seqEncode _ _ _ _ _ _ _ => none
  | .seqDecodec _ _ _ => none
  | .seqScan _ => none
  | .seqAssemble _ _ _ => some .seq
  | .pbePack _ _ _ => none
  | .ckwStart _ | .ckwEnd | .ckwWr8 _ | .ckwWr16 _ | .ckwWr32 _ => some .ckw
  | .seqEncodec _ _ _ _ => none
  | .ckwInit _ => none

/-- The units whose fault an instruction may clear: its own clearing operation's (R388), and for SEQ
those whose (re)initialising operations it issues. -/
def clearedBy (i : Instr) : List UnitId :=
  match i with
  | .sysReset => [.pal, .bpr, .bpw, .pxr, .pxw, .pbd, .vdd, .ckr, .ham, .rpa, .seq, .pbe, .ckw]
  | .palCreate _ _ _ => [.pal]
  | .bprInit _ _ => [.bpr]
  | .bpwInit _ _ => [.bpw]
  | .pxrInit _ _ => [.pxr]
  | .pxwInit _ _ => [.pxw]
  | .pbdDepack _ _ _ _ _ => [.pbd]
  | .vddDecode _ _ _ _ _ _ _ => [.vdd]
  | .ckrOpen _ => [.ckr]
  | .hamInit _ _ => [.ham]
  | .rpaConfig _ _ => [.rpa]
  | .seqDecode _ _ _ _ _ _ _ => [.seq, .bpr, .pxw]
  | .seqEncode _ _ _ _ _ _ _ => [.seq, .pxr, .bpw]
  | .seqScan _ => [.seq, .ckr, .pal]
  | .seqAssemble _ _ _ => [.pbd, .vdd, .bpr, .pxw, .ham]
  | .seqDecodec _ _ _ => [.seq, .ckr, .pal, .pbd, .vdd, .bpr, .pxw, .ham]
  | .pbePack _ _ _ => [.pbe]
  | .ckwInit _ => [.ckw]
  | .seqEncodec _ _ _ _ => [.seq, .pxr, .bpw, .pbe, .ckw]
  | .pbLit _ | .pbRun _ | .pbNop | .vdCopyx | .vdCopy _ | .vdRunx | .vdRun _ | .hamBase _ _
  | .hamModb _ _ | .hamModr _ _ | .hamModg _ _ => []
  | .palSet _ _ _ _ _ _ | .palGet _ _ | .palResample _ _ _ | .palToval _ _
  | .palFromval _ _ _ _ | .palFrompix _ _ | .palMono _ | .palEhb _ _ | .palPlanes _ => []
  | .bprRead | .bprAdv _ | .bprEof | .bpwWrite _ | .bpwAdv _ | .bpwEof => []
  | .pxrRead | .pxrSetpal _ | .pxrAdv _ | .pxwWrite _ | .pxwSetpal _ | .pxwAdv _
  | .pxwWritec _ => []
  | .ckrReadchunk | .ckrPeek | .ckrEof | .ckrEnter _ _ | .ckrLeave | .ckrRd8 | .ckrRd16
  | .ckrRd32 => []
  | .hamRead | .hamSetpal _ | .hamAdv _ | .rpaLoad _ _ | .rpaSelect _ => []
  | .ckwStart _ | .ckwEnd | .ckwWr8 _ | .ckwWr16 _ | .ckwWr32 _ => []

/-- The destination ranges an instruction names, as windows of host buffers: it may write their bytes
and no other (R385). An operation without operands for it writes to its unit's bound buffer. What a
failed container operation may leave unspecified is whole buffers (log 13). -/
def writtenBy (i : Instr) (s : State) : List BufRef :=
  match i with
  | .pbLit _ | .pbRun _ | .pbNop =>
    [⟨(refOf s.pbd.dst).id, (refOf s.pbd.dst).base + s.pbd.dbase, s.pbd.outSize⟩]
  | .vdCopyx | .vdCopy _ | .vdRunx | .vdRun _ => [refOf s.vdd.dst]
  | .bpwWrite _ => [refOf s.bpw.buf]
  | .pxwWrite _ | .pxwWritec _ =>
    [⟨(refOf s.pxw.buf).id, (refOf s.pxw.buf).base + 4 * s.pxw.pos, 4⟩]
  | .pbdDepack _ _ dst dbase outSize => [⟨dst, dbase, outSize⟩]
  | .vddDecode _ _ _ dst dbase bytesPerLine h => [⟨dst, dbase, bytesPerLine * h⟩]
  | .seqDecode _ _ w h _ _ pixBuf => [⟨pixBuf, 0, 4 * w * h⟩]
  | .seqEncode _ slot w h p _ planeBuf =>
    [⟨planeBuf, 0, encodeSize w h (p.getD (planesFor (slotAt s slot).count))⟩]
  | .seqDecodec _ work pixBuf => [wholeBuf s.mem work, wholeBuf s.mem pixBuf]
  | .seqAssemble _ work pixBuf =>
    [⟨pixBuf, 0, 4 * s.seq.hdr.width.toNat * s.seq.hdr.height.toNat⟩,
      ⟨work, 0, if s.seq.hdr.compression = 0 then 0 else
        s.seq.hdr.bytesPerLine * s.seq.hdr.planes.toNat * s.seq.hdr.height.toNat⟩]
  | .pbePack _ _ dst => [wholeBuf s.mem dst]
  | .ckwStart _ | .ckwEnd | .ckwWr8 _ | .ckwWr16 _ | .ckwWr32 _ => [refOf s.ckw.dst]
  | .seqEncodec _ slot o container =>
    [⟨o.workBuf, 0, encodeSize o.width.toNat o.height.toNat
        (o.planes.getD (planesFor (slotAt s slot).count))⟩,
      ⟨o.packBuf, 0, if o.compress then (bufAt s.mem o.packBuf).len else 0⟩,
      wholeBuf s.mem container]
  | .hamBase _ _ | .hamModb _ _ | .hamModr _ _ | .hamModg _ _ | .sysReset => []
  | .palCreate _ _ _ | .palSet _ _ _ _ _ _ | .palGet _ _ | .palResample _ _ _ | .palToval _ _
  | .palFromval _ _ _ _ | .palFrompix _ _ | .palMono _ | .palEhb _ _ | .palPlanes _ => []
  | .bprInit _ _ | .bprRead | .bprAdv _ | .bprEof | .bpwInit _ _ | .bpwAdv _ | .bpwEof => []
  | .pxrInit _ _ | .pxrRead | .pxrSetpal _ | .pxrAdv _ | .pxwInit _ _ | .pxwSetpal _
  | .pxwAdv _ => []
  | .ckrOpen _ | .ckrReadchunk | .ckrPeek | .ckrEof | .ckrEnter _ _ | .ckrLeave | .ckrRd8
  | .ckrRd16 | .ckrRd32 => []
  | .hamInit _ _ | .hamRead | .hamSetpal _ | .hamAdv _ => []
  | .rpaConfig _ _ | .rpaLoad _ _ | .rpaSelect _ => []
  | .seqScan _ => []
  | .ckwInit _ => []

/-- Byte `a` of host buffer `id` lies in a window. -/
def inWindow (r : BufRef) (id a : Nat) : Prop := id = r.id ∧ r.base ≤ a ∧ a < r.base + r.len

/-- The operation codes of R120. -/
def hopCodes : List Nat :=
  [0x00, 0x10, 0x11, 0x12, 0x13, 0x14, 0x15, 0x16, 0x17, 0x18, 0x19, 0x20, 0x21, 0x22, 0x23, 0x30,
    0x31, 0x32, 0x33, 0x40, 0x41, 0x42, 0x43, 0x50, 0x51, 0x52, 0x53, 0x54, 0x60, 0x70, 0x80, 0x81,
    0x82, 0x83, 0x84, 0x85, 0x86, 0x87, 0x88, 0x90, 0x91, 0x92, 0x93, 0xA0, 0xA1, 0xA2, 0xB0, 0xB1,
    0xB2, 0xB3, 0xB4, 0xC0, 0xC1, 0xC2, 0xC3, 0xC4, 0xC5, 0xC6, 0xC7]

/-! ### Legal states -/

/-- The host's buffers are in canonical form. -/
def memoryOk (s : State) : Prop := Memory.wf s.mem = true

/-- A palette entry of a slot of `bpc` bits (R21, R22). -/
def entryOk (bpc : Nat) (e : Entry) : Prop :=
  e.set = true ∧ e.r.toNat ≤ chanMax bpc ∧ e.g.toNat ≤ chanMax bpc ∧ e.b.toNat ≤ chanMax bpc ∧
    e.a.toNat ≤ chanMax bpc

/-- A made slot (R20 to R22): its table is canonical, its entries lie below `count`. -/
def slotOk (p : Slot) : Prop :=
  p.made = true ∧ p.count ≤ Config.palMax ∧ Config.bpcMin ≤ p.bpc ∧ p.bpc ≤ Config.bpcMax ∧
    swf Entry.unset p.ent = true ∧ ∀ e ∈ p.ent, e.1 < p.count ∧ entryOk p.bpc e.2

/-- The palette slots: each of the `NPAL` is made and legal, or as after reset (R20). -/
def palettesOk (s : State) : Prop :=
  swf Slot.empty s.pal.slots = true ∧ ∀ e ∈ s.pal.slots, e.1 < Config.npal ∧ slotOk e.2

/-- A look-up table (R28): canonical, its set elements below `lutCount`. -/
def lutOk (l : Lut) : Prop :=
  l.count ≤ Config.palMax ∧ swf LutElem.unset l.elems = true ∧
    ∀ e ∈ l.elems, e.1 < l.count ∧ e.2.set = true

/-- Every look-up table and raster palette (R28, R33). -/
def tablesOk (s : State) : Prop :=
  lutOk s.pxr.lut ∧ lutOk s.pxw.lut ∧ lutOk s.ham.lut ∧ s.rpa.count ≤ Config.rastMax ∧
    swf Lut.empty s.rpa.ras = true ∧ ∀ e ∈ s.rpa.ras, e.1 < Config.rastMax ∧ lutOk e.2

/-- Every geometry register holds a value below `2^AW` (R23). -/
def geometryFits (g : Geometry) : Prop :=
  g.bytesPerBlock < Config.bufLimit ∧ g.blockStep < Config.bufLimit ∧
    g.blocksPerLine < Config.bufLimit ∧ g.lineStep < Config.bufLimit ∧
    g.planeStep < Config.bufLimit ∧ g.planeCount < Config.bufLimit

/-- A cursor of a bit-plane unit (R24): `bit` counts to 7; the geometry registers hold what they can
(R23); in an initialised unit the geometry is one that INIT accepts and `byte`, `block` lie inside it
(R174, R175). -/
def cursorOk (init : Bool) (g : Geometry) (c : Cursor) : Prop :=
  c.bit < 8 ∧ geometryFits g ∧ (init = true → geometryOk g = true ∧ c.byte < g.bytesPerBlock ∧
    c.block < g.blocksPerLine)

/-- The cursors of both bit-plane units, the eight cached indices (R24, R26), and the plane count of
an initialised HAM (R286). -/
def cursorsOk (s : State) : Prop :=
  cursorOk s.bpr.init s.bpr.geom s.bpr.cur ∧ s.bpr.cache.length = 8 ∧
    cursorOk s.bpw.init s.bpw.geom s.bpw.cur ∧
    (s.ham.init = true → 3 ≤ s.ham.planes ∧ s.ham.planes ≤ Config.planesMax)

/-- The cache is true (R26, R178): inside a byte-column it holds the column's indices. -/
def cacheTrue (s : State) : Prop :=
  s.bpr.cur.bit ≠ 0 →
    s.bpr.cache = columnIndices s.mem (refOf s.bpr.buf) s.bpr.geom s.bpr.cur

/-- A bound window lies inside its host buffer. -/
def refOk (m : Mem) (r : BufRef) : Prop := r.len = 0 ∨ r.base + r.len ≤ (bufAt m r.id).len

/-- Every binding lies inside its host buffer (R10, R25, R328). -/
def bindingsOk (s : State) : Prop :=
  refOk s.mem (refOf s.bpr.buf) ∧ refOk s.mem (refOf s.bpw.buf) ∧ refOk s.mem (refOf s.pxr.buf) ∧
    refOk s.mem (refOf s.pxw.buf) ∧ refOk s.mem (refOf s.pbd.src) ∧ refOk s.mem (refOf s.pbd.dst) ∧
    refOk s.mem (refOf s.vdd.src) ∧ refOk s.mem (refOf s.vdd.dst) ∧ refOk s.mem (refOf s.ckr.src) ∧
    refOk s.mem (refOf s.ckw.dst)

/-- The registers of the strip decoder: an even line length, an even `x`, and a `y` inside the column
while there is room (R238, R243); of a bound decoder the source region and the plane lie inside their
buffers, so that no fetch and no emit of a command leaves them (R243). -/
def stripOk (v : Vdd) : Prop :=
  v.bytesPerLine % 2 = 0 ∧ v.x % 2 = 0 ∧ (v.x < v.bytesPerLine → v.y < v.h) ∧
    (v.src.isSome = true → v.rend ≤ (refOf v.src).len) ∧
    (v.dst.isSome = true → v.dbase + v.bytesPerLine * v.h ≤ (refOf v.dst).len)

/-- The Packbits decoder's registers: the destination range lies inside the destination, if one is
bound (R226). -/
def depackOk (p : Pbd) : Prop :=
  p.produced ≤ p.outSize ∧ (p.dst.isSome = true → p.dbase + p.outSize ≤ (refOf p.dst).len)

/-- The pass registers of both decoders. -/
def passesOk (s : State) : Prop := stripOk s.vdd ∧ depackOk s.pbd

/-- A view of the chunk reader inside a source of `n` bytes (R260). -/
def viewOk (n : Nat) (v : View) : Prop := v.base + v.len ≤ n ∧ v.pos ≤ v.len

/-- The stacks of the chunk units (R31, R267; 48_companion_encode.md): both are at most `CK_DEPTH`
deep, an open reader has a view, and every open view of a bound reader lies inside the source. -/
def stacksOk (s : State) : Prop :=
  s.ckr.depth ≤ Config.ckDepth ∧ (s.ckr.init = true ↔ 1 ≤ s.ckr.depth) ∧
    (s.ckr.src.isSome = true →
      ∀ d < s.ckr.depth, viewOk (refOf s.ckr.src).len (sget View.zero s.ckr.views d)) ∧
    s.ckw.sd ≤ Config.ckDepth

/-! ### Reading the two run-length formats from lists of bytes -/

/-- R220 to R223 and R226 on a list: the `room` bytes a Packbits stream expands to, and the rest of
the stream; `none` where the stream ends first. `fuel` bounds the commands. -/
def unpackList : Nat → List Byte → Nat → Option (List Byte × List Byte)
  | _, src, 0 => some ([], src)
  | 0, _, _ + 1 => none
  | _ + 1, [], _ + 1 => none
  | fuel + 1, c :: src, room + 1 =>
    if c = 0x80 then unpackList fuel src (room + 1)
    else if 0 ≤ asI8 c then
      let n := min ((1 + asI8 c).toNat) (room + 1)
      if src.length < n then none
      else (unpackList fuel (src.drop n) (room + 1 - n)).map fun q => (src.take n ++ q.1, q.2)
    else
      match src with
      | [] => none
      | v :: rest =>
        let n := min ((1 - asI8 c).toNat) (room + 1)
        (unpackList fuel rest (room + 1 - n)).map fun q => (List.replicate n v ++ q.1, q.2)

/-- The `n` bytes of a bound buffer from `off` on. -/
def bytesOf (m : Mem) (r : BufRef) (off n : Nat) : List Byte :=
  (List.range n).map fun k => refByte m r (off + k)

/-- Where the strip decoder's `q`-th emit from the plane's start goes (R238). -/
def stripPlace (v : Vdd) (q : Nat) : Nat := v.dbase + q % v.h * v.bytesPerLine + 2 * (q / v.h)

/-- How many emits the registers `x`, `y` stand for (R238). -/
def stripIndex (v : Vdd) : Nat := v.x / 2 * v.h + v.y

/-- How many emits fill the plane (R238, R243). -/
def stripRoom (v : Vdd) : Nat := v.bytesPerLine / 2 * v.h

/-- The whole 16-bit values of a byte list; a single byte left is none (R236, R244 d). -/
def wordsOf : List Byte → List (Byte × Byte)
  | a :: b :: rest => (a, b) :: wordsOf rest
  | [_] => []
  | [] => []

/-- R235 to R243 on lists: the values a strip stream emits into a plane with room for `room` of them,
the status it ends with, and what is left of `cmds` and `data` where it stops. `cmds` are the bytes from
the command pointer on, `data` those from the data pointer on, which in the interleaved layout are the
same (R237). A copy fetches a value before it looks for room (R239), and where none is
left to fetch the status is FULL if the plane is complete already (R244 c, g; log 32). `fuel` bounds the
commands. -/
def stripList (lay : Config.VdatLayout) :
    Nat → List Byte → List Byte → Nat →
      List (Byte × Byte) × VddStatus × List Byte × List Byte
  | _, cmds, data, 0 => ([], .full, cmds, data)
  | 0, cmds, data, _ + 1 => ([], .srcEnd, cmds, data)
  | _ + 1, [], data, _ + 1 => ([], .srcEnd, [], data)
  | fuel + 1, c :: cmds, data, room + 1 =>
    let d := match lay with | .interleaved => cmds | .split => data
    -- the command bytes left when the data ends at `d`
    let left := fun (d : List Byte) => match lay with | .interleaved => d | .split => cmds
    let stop := fun (ws : List (Byte × Byte)) (st : VddStatus) (d : List Byte) => (ws, st, left d, d)
    -- after a whole command that emitted `ws`, its data ending at `d`
    let next := fun (d : List Byte) (ws : List (Byte × Byte)) =>
      let q := stripList lay fuel (left d) d (room + 1 - ws.length)
      (ws ++ q.1, q.2)
    let copy := fun (n : Nat) (d : List Byte) =>
      if n ≤ (wordsOf d).length ∧ n ≤ room + 1 then next (d.drop (2 * n)) ((wordsOf d).take n)
      else if (wordsOf d).length ≤ room then
        stop (wordsOf d) .srcEnd (d.drop (2 * (wordsOf d).length))
      else stop ((wordsOf d).take (room + 1)) .full (d.drop (2 * min (room + 2) (wordsOf d).length))
    let run := fun (n : Nat) (w : Byte × Byte) (d : List Byte) =>
      if n ≤ room + 1 then next d (List.replicate n w)
      else stop (List.replicate (room + 1) w) .full d
    if c = 0x00 then
      match wordsOf d with
      | [] => stop [] .srcEnd d
      | n :: _ => copy (be16 n) (d.drop 2)
    else if c = 0x01 then
      match wordsOf d with
      | n :: w :: _ => run (be16 n) w (d.drop 4)
      | ws => stop [] .srcEnd (d.drop (2 * ws.length))
    else if asI8 c < 0 then copy (-asI8 c).toNat d
    else
      match wordsOf d with
      | [] => stop [] .srcEnd d
      | w :: _ => run (asI8 c).toNat w (d.drop 2)

/-- Where the command bytes of a strip stream end in its source region (R237). -/
def stripCommandsEnd (lay : Config.VdatLayout) (region : List Byte) : Nat :=
  match lay with
  | .interleaved => region.length
  | .split =>
    match wordsOf region with
    | [] => region.length
    | n :: _ => min (max (be16 n) 2) region.length

/-- What the strip decoder emits of a source region into a plane of `room` values, its status, and what
it leaves of the command bytes and of the data (R237, R243). -/
def stripEmits (lay : Config.VdatLayout) (region : List Byte) (room : Nat) :
    List (Byte × Byte) × VddStatus × List Byte × List Byte :=
  let cend := stripCommandsEnd lay region
  match lay with
  | .interleaved => stripList lay (region.length + 1) region region room
  | .split =>
    stripList lay (region.length + 1) ((region.take cend).drop 2) (region.drop cend) room

/-- Byte `k` of a plane of `h` lines of `bytesPerLine` bytes, zero before, after these emits (R238). -/
def stripByte (emits : List (Byte × Byte)) (bytesPerLine h k : Nat) : Byte :=
  let w := emits.getD (k % bytesPerLine / 2 * h + k / bytesPerLine) (0, 0)
  if k % bytesPerLine % 2 = 0 then w.1 else w.2

/-! ### The Packbits compressor on lists of bytes -/

/-- A pending dump as a command (R350). -/
def dumpCommand (dump : List Byte) : List (List Byte) :=
  if dump = [] then [] else [BitVec.ofNat 8 (dump.length - 1) :: dump]

/-- The commands of R351 for one line, with a pending dump. `fuel` bounds the bytes. -/
def packLineList : Nat → List Byte → List Byte → List (List Byte)
  | 0, _, dump => dumpCommand dump
  | _ + 1, [], dump => dumpCommand dump
  | fuel + 1, v :: rest, dump =>
    let r := min 128 ((v :: rest).takeWhile (· == v)).length
    if 3 ≤ r then
      dumpCommand dump ++ [BitVec.ofNat 8 (257 - r), v] ::
        packLineList fuel ((v :: rest).drop r) []
    else if dump.length = 127 then (127 :: (dump ++ [v])) :: packLineList fuel rest []
    else packLineList fuel rest (dump ++ [v])

/-- The commands of R352 for a source cut into lines. `fuel` bounds the lines. -/
def packList (bytesPerLine : Nat) : Nat → List Byte → List (List Byte)
  | 0, _ => []
  | fuel + 1, src =>
    if src = [] then []
    else
      packLineList bytesPerLine (src.take bytesPerLine) [] ++
        packList bytesPerLine fuel (src.drop bytesPerLine)

/-! ### Containers as lists of chunks -/

/-- The bytes of a number, big-endian (R10). -/
def beBytes : Nat → Nat → List Byte
  | 0, _ => []
  | n + 1, v => beBytes n (v / 256) ++ [BitVec.ofNat 8 v]

/-- A chunk without its pad byte (R100 to R102). -/
def chunkBytes (tag : U32) (payload : List Byte) : List Byte :=
  beBytes 4 tag.toNat ++ beBytes 4 payload.length ++ payload

/-- A chunk with the pad byte of an odd payload (R101, R355). -/
def paddedChunk (c : U32 × List Byte) : List Byte :=
  chunkBytes c.1 c.2 ++ List.replicate (c.2.length % 2) 0

/-- The outer chunk of a container: the sub-type, then chunks, then `rest` (R100 to R104, R317). -/
def containerBytes (k : Config.Codes) (type : U32) (chunks : List (U32 × List Byte))
    (rest : List Byte) : List Byte :=
  chunkBytes k.outer (beBytes 4 type.toNat ++ chunks.flatMap paddedChunk ++ rest)

/-- The header registers a header payload stands for (R105, R318). -/
def hdrOf (b : List Byte) : Hdr :=
  let at8 := fun i => b.getD i 0
  let at16 := fun i => at8 i ++ at8 (i + 1)
  { width := at16 0
    height := at16 2
    xOrigin := at16 4
    yOrigin := at16 6
    planes := at8 8
    mask := at8 9
    compression := at8 10
    pad := at8 11
    transparentColor := at16 12
    xAspect := at8 14
    yAspect := at8 15
    pageWidth := at16 16
    pageHeight := at16 18
    bytesPerLine := ((at16 0).toNat + 15) / 16 * 2
    valid := true }

/-- What is wrong with a chunk, if anything (R318, R322): the checks in their order. -/
def chunkFault (k : Config.Codes) (c : U32 × List Byte) : Option (FaultCode × Nat) :=
  if c.1 = k.hdr then
    if c.2.length < 20 then some (.badHeader, c.2.length)
    else if (hdrOf c.2).planes = 0 ∨ Config.planesMax < (hdrOf c.2).planes.toNat then
      some (.badPlanes, (hdrOf c.2).planes.toNat)
    else if (hdrOf c.2).width = 0 ∨ (hdrOf c.2).height = 0 then some (.badHeader, 0)
    else none
  else if c.1 = k.mode then
    if c.2.length < 4 then some (.badMode, c.2.length) else none
  else if c.1 = k.pal then
    if Config.palMax < c.2.length / 3 then some (.badPalette, c.2.length / 3) else none
  else none

/-- What the scan records of a good chunk whose payload lies at `base` (R318, R322, R323, R327): a
repeated chunk overwrites, an unknown one is skipped. -/
def noteChunk (k : Config.Codes) (base : Nat) (c : U32 × List Byte) (q : Seq) : Seq :=
  if c.1 = k.hdr then { q with hdr := hdrOf c.2 }
  else if c.1 = k.mode then
    { q with mode := c.2.getD 0 0 ++ c.2.getD 1 0 ++ c.2.getD 2 0 ++ c.2.getD 3 0 }
  else if c.1 = k.pal then { q with palPresent := true }
  else if c.1 = k.bodyLine then { q with body := ⟨true, base, c.2.length, .line⟩ }
  else if c.1 = k.bodyContig then { q with body := ⟨true, base, c.2.length, .contig⟩ }
  else if c.1 = k.rast1 then { q with rdesc1 := ⟨true, c.1, base, c.2.length⟩ }
  else if c.1 = k.rast2 then { q with rdesc2 := ⟨true, c.1, base, c.2.length⟩ }
  else if c.1 = k.rast3 then { q with rdesc3 := ⟨true, c.1, base, c.2.length⟩ }
  else q

/-- The chunks of a container one after the other (R317), the first at offset `pos`: the descriptors
recorded, or the first bad chunk's fault. -/
def noteChunks (k : Config.Codes) :
    Nat → List (U32 × List Byte) → Seq → Except (FaultCode × Nat) Seq
  | _, [], q => .ok q
  | pos, c :: cs, q =>
    match chunkFault k c with
    | some e => .error e
    | none =>
      noteChunks k (pos + 8 + c.2.length + c.2.length % 2) cs (noteChunk k (pos + 8) c q)

/-- The completeness checks (R330), in their order. -/
def incomplete (q : Seq) : Option (FaultCode × Nat) :=
  if q.body.present = false then some (.noBody, 0)
  else if q.palPresent = false then some (.noPalette, 0)
  else if q.hdr.valid = false then some (.noHeader, 0)
  else none

/-- The side channel behind the outer chunk, which ends at offset `pos` (R324). -/
def sideOf (k : Config.Codes) (pos : Nat) (tail : List Byte) (d : SideDesc) : SideDesc :=
  if tail.take 8 = beBytes 4 k.rastSide.toNat ++ beBytes 4 Config.rastSideLen ∧
      Config.rastSideLen < 2 ^ 32 ∧ 8 + Config.rastSideLen ≤ tail.length then ⟨true, pos + 8, Config.rastSideLen⟩
  else { d with present := false }

/-- The payload of the last palette chunk. -/
def lastPalette (k : Config.Codes) (chunks : List (U32 × List Byte)) : List Byte :=
  ((chunks.filter fun c => c.1 == k.pal).getLastD (k.pal, [])).2

/-- Slot `p` holds the palette of a palette chunk's payload: 8 bits, alpha 255 (R107, R322). -/
def holdsPalette (p : Slot) (payload : List Byte) : Prop :=
  p.made = true ∧ p.count = payload.length / 3 ∧ p.bpc = 8 ∧
    ∀ i < payload.length / 3, entryAt p i =
      ⟨true, payload.getD (3 * i) 0, payload.getD (3 * i + 1) 0, payload.getD (3 * i + 2) 0, 255⟩

/-- The payloads of the strip chunks of a body (R328). -/
def stripPayloads (k : Config.Codes) (chunks : List (U32 × List Byte)) : List (List Byte) :=
  (chunks.filter fun c => c.1 == k.strip).map Prod.snd

/-- The 20 header bytes of an encoded image of `p` planes (R105, R358). -/
def encodedHeader (o : EncOptions) (p : Nat) : List Byte :=
  beBytes 2 o.width.toNat ++ beBytes 2 o.height.toNat ++ beBytes 2 o.xOrigin.toNat ++
    beBytes 2 o.yOrigin.toNat ++ [BitVec.ofNat 8 p, o.mask, if o.compress then 1 else 0, o.pad] ++
    beBytes 2 o.transparentColor.toNat ++ [o.xAspect, o.yAspect] ++ beBytes 2 o.pageWidth.toNat ++
    beBytes 2 o.pageHeight.toNat

/-- Three bytes for each entry of a palette at 8 bits (R358). -/
def encodedPalette (p : Slot) : List Byte :=
  (List.range p.count).flatMap fun i =>
    let e := entryAt p i
    [rescaleByte e.r p.bpc 8, rescaleByte e.g p.bpc 8, rescaleByte e.b p.bpc 8]

/-- The container of an encoded image (R358): every chunk but the last, the body, is padded. -/
def encodedContainer (k : Config.Codes) (o : EncOptions) (p : Nat) (pal : Slot) (body : List Byte) :
    List Byte :=
  containerBytes k (typeOf k o.layout)
    ([(k.hdr, encodedHeader o p)] ++
      (match o.modeFlags with | none => [] | some v => [(k.mode, beBytes 4 v.toNat)]) ++
      [(k.pal, encodedPalette pal)])
    (chunkBytes (bodyTagOf k o.layout) body)

/-! ### Images -/

/-- The index the first `n` planes hold at pixel `(x, y)`, a line being `8 * lineBytes` pixels long:
bit `i` is the pixel's bit of plane `i`, most significant bit first (R8, R171, R176). -/
def indexAt (m : Mem) (r : BufRef) (g : Geometry) (lineBytes x y : Nat) : Nat → Nat
  | 0 => 0
  | n + 1 =>
    indexAt m r g lineBytes x y n +
      (if (refByte m r (planeOffset g (stepCursorN g (y * (8 * lineBytes) + x) Cursor.zero)
          n)).getLsbD (7 - x % 8) then 2 ^ n else 0)

/-- A table with a set element for an index (R28, R204). -/
def lutHas (l : Lut) (index : Nat) : Prop := index < l.count ∧ (lutAt l index).set = true

/-- `HamStep` (R289). -/
def hamStep (l : Lut) (p : Nat) (cur : U32) (raw : Nat) : U32 :=
  let data := raw % 2 ^ (p - 2)
  match raw / 2 ^ (p - 2) with
  | 0 => (lutAt l data).val
  | 1 => modifiedColour Config.hamScale Config.hamSel1 p data cur
  | 2 => modifiedColour Config.hamScale Config.hamSel2 p data cur
  | _ => modifiedColour Config.hamScale Config.hamSel3 p data cur

/-- The current colour after the first `n` pixels of lines of `w` (R286, R289, R291): `l y` is line
`y`'s table and `raw n` pixel `n`'s raw index. -/
def hamColour (l : Nat → Lut) (p w : Nat) (raw : Nat → Nat) : Nat → U32
  | 0 => Config.hamInit
  | n + 1 => hamStep (l (n / w)) p (hamColour l p w raw n) (raw n)

/-- `s` with the buffer bindings that `t` has: what the end of a pass, a claim and
another unit's write change (R25, R422). -/
def withBindings (t s : State) : State :=
  { s with
    bpr := { s.bpr with buf := t.bpr.buf }
    bpw := { s.bpw with buf := t.bpw.buf }
    pxr := { s.pxr with buf := t.pxr.buf }
    pxw := { s.pxw with buf := t.pxw.buf }
    ckr := { s.ckr with src := t.ckr.src }
    ckw := { s.ckw with dst := t.ckw.dst } }

/-- No fetch of a pass over `n` pixels from the start of a buffer of `len` bytes leaves it. -/
def passFits (g : Geometry) (len n : Nat) : Prop :=
  ∀ k < n, planeEof g (stepCursorN g k Cursor.zero) len = false

/-- A palette whose first `n` entries are set. -/
def setBelow (p : Slot) (n : Nat) : Prop := n ≤ p.count ∧ ∀ i < n, (entryAt p i).set = true

end Sys2Proof.Machine
end

