-- ==== Sys2Proof/Certificates/Slice0/Obligations.lean ====
section
/-! DEFINITION. The statements for the provers. Each docstring names the rules of spec/ it rests on. -/

open Sys2Proof Sys2Proof.Machine

/-! ### Encoding and the step -/

/-- Decode and encode agree: every well-formed instruction decodes from its packet, every operand at
every value its encoding admits (R108 to R116, R120). -/
def Obligations.DecodeEncodeAgree : Prop :=
  ∀ i : Instr, WellFormed i = true → decode (encode i) = .ok i

/-- Every packet has one meaning: what decodes is the packet its instruction encodes to, so no bit of
a packet is ignored (R108 to R116, R120). -/
def Obligations.EncodeDecodeAgree : Prop :=
  ∀ (pk : Packet) (i : Instr), decode pk = .ok i → encode i = pk

/-- Packets written out from spec/30_encoding.md decode to the instructions they stand for. -/
def Obligations.DecodeSamples : Prop :=
  decode (.pb 0x02) = .ok (.pbLit 2) ∧ decode (.pb 0xFD) = .ok (.pbRun 125) ∧
    decode (.pb 0x80) = .ok .pbNop ∧ decode (.vd 0x00) = .ok .vdCopyx ∧
    decode (.vd 0xFE) = .ok (.vdCopy 126) ∧ decode (.vd 0x01) = .ok .vdRunx ∧
    decode (.vd 0x05) = .ok (.vdRun 5) ∧ decode (.ham 6 0x03) = .ok (.hamBase 6 3) ∧
    decode (.ham 6 0x1F) = .ok (.hamModb 6 15) ∧ decode (.ham 6 0x2A) = .ok (.hamModr 6 10) ∧
    decode (.ham 6 0x38) = .ok (.hamModg 6 8) ∧ decode (.ham 8 0xE0) = .ok (.hamModg 8 32) ∧
    decode (.hop 0x17 [.nat 3]) = .ok (.palMono 3) ∧ decode (.hop 0x21 []) = .ok .bprRead ∧
    decode (.hop 0x54 [.u32 0xCC8022FF]) = .ok (.pxwWritec 0xCC8022FF) ∧
    decode (.hop 0xC6 [.u16 0x0102]) = .ok (.ckwWr16 0x0102)

/-- A step runs the decoded instruction: the oldest request leaves the queue and its instruction is
executed; with no request waiting nothing happens (R11, R13; the queue is the model's, log 1). A host
operation code outside the table of R120 gives the host `E_PROG(BAD_OP, code)` and changes no other
state (R121). -/
def Obligations.StepRunsDecoded : Prop :=
  (∀ (s : State) (pk : Packet) (rest : List Packet) (i : Instr),
    s.pending = pk :: rest → decode pk = .ok i →
      step s = exec i { s with pending := rest }) ∧
  (∀ s : State, s.pending = [] → step s = .next s) ∧
  ∀ (s : State) (code : Byte) (ops : List Operand) (rest : List Packet),
    code.toNat ∉ hopCodes → s.pending = .hop code ops :: rest →
      step s = .next { s with pending := rest, reply := .badOp code }

/-! ### Faults -/

/-- Where an instruction of a unit, other than its clearing operations, meets the unit faulted it is
refused: no state changes at all, no result (R386). Where it meets the unit fault-free and not
initialised it raises `E_PROG(NOT_INIT, 0)` in that unit and changes nothing else (R387). That this
holds of BPR.EOF, BPW.EOF, BPW.ADV, PXR.ADV, PXW.ADV, CKR.PEEK and CKR.EOF too, whose own rules say
that they never fault, is the model's reading (log 27), and so is that a stream command can be handed
alone to its unit (log 3). -/
def Obligations.UnreadyUnitsDoNothing : Prop :=
  (∀ (i : Instr) (u : UnitId) (s : State), guardOf i = some u →
    (faultOf u s).valid = true → exec i s = .next { s with reply := .refused }) ∧
  (∀ (i : Instr) (u : UnitId) (s : State), guardOf i = some u →
    (faultOf u s).valid = false → initOf u s = false →
      exec i s = .next { withFault u ⟨true, 4, 1, 0⟩ s with reply := .faulted })

/-- Bindings (R25, R422; log 20). An operation of an initialised, fault-free unit whose binding is dead
is outside what the spec describes, and the model refuses it; so are `HAM.READ` and `HAM.ADV` over such
a reader. A binding is made by its unit's INIT (or `SEQ.SCAN`, which `SEQ.ASSEMBLE` reads on after)
and by nothing else. Each SEQ operation that completes leaves the units whose passes it ran unbound,
and so does a failed scan. A writing unit's INIT ends the binding of another writing unit to any of
its bytes. A reader or writer that is bound after an instruction that is not its own holds the bytes it
held before: another unit's write to one of them has ended its binding. No instruction leaves a decoder
bound that was not: its two bindings last for one `PBD.DEPACK` or `VDD.DECODE`. -/
def Obligations.DeadBindings : Prop :=
  (∀ (i : Instr) (u : UnitId) (s : State), guardOf i = some u → (faultOf u s).valid = false →
    initOf u s = true → bound u s = false → exec i s = .refused (.deadBinding u)) ∧
  (∀ (s : State) (n : Nat), ready .ham s → s.bpr.fault.valid = false → s.bpr.init = true →
    s.bpr.buf = none →
    exec (.hamAdv n) s = .refused (.deadBinding .bpr) ∧
    (s.bpr.geom.planeCount = s.ham.planes → exec .hamRead s = .refused (.deadBinding .bpr))) ∧
  (∀ (i : Instr) (u : UnitId) (s t : State), exec i s = .next t →
    bindingOf u t = bindingOf u s ∨ bindingOf u t = none ∨
      ∃ buf, bindingOf u t = some (wholeBuf s.mem buf) ∧
        ((∃ g, u = .bpr ∧ i = .bprInit buf g) ∨ (∃ g, u = .bpw ∧ i = .bpwInit buf g) ∨
          (∃ slot, u = .pxr ∧ i = .pxrInit buf slot) ∨ (∃ slot, u = .pxw ∧ i = .pxwInit buf slot) ∨
          (u = .ckr ∧ (i = .ckrOpen buf ∨ i = .seqScan buf)) ∨ (u = .ckw ∧ i = .ckwInit buf))) ∧
  (∀ (i : Instr) (s t : State) (r : Result), exec i s = completes r t →
    (∀ b slot w h p f x, i = .seqDecode b slot w h p f x → t.bpr.buf = none ∧ t.pxw.buf = none) ∧
    (∀ x slot w h p f b, i = .seqEncode x slot w h p f b → t.pxr.buf = none ∧ t.bpw.buf = none) ∧
    (∀ c w x, i = .seqAssemble c w x ∨ i = .seqDecodec c w x →
      t.bpr.buf = none ∧ t.pxw.buf = none ∧ t.ckr.src ≠ some (wholeBuf s.mem c)) ∧
    (∀ x slot o c, i = .seqEncodec x slot o c →
      t.pxr.buf = none ∧ t.bpw.buf = none ∧ t.ckw.dst = none)) ∧
  (∀ (s t : State) (c : Nat), exec (.seqScan c) s = .next t → t.reply = .faulted →
    t.ckr.src = none) ∧
  (∀ (i : Instr) (u v : UnitId) (s t : State) (buf a : Nat) (r' : BufRef),
    ((∃ g, u = .bpw ∧ i = .bpwInit buf g) ∨ (∃ slot, u = .pxw ∧ i = .pxwInit buf slot) ∨
      u = .ckw ∧ i = .ckwInit buf) → exec i s = completes .unit t →
    v ∈ [UnitId.bpw, .pxw, .ckw] → v ≠ u → bindingOf v s = some r' →
    inWindow r' buf a → a < (bufAt s.mem buf).len → bindingOf v t = none) ∧
  (∀ (i : Instr) (v : UnitId) (s t : State) (r : BufRef) (a : Nat), exec i s = .next t →
    guardOf i ≠ some v → bindingOf v t = some r → inWindow r r.id a →
    byteAt t.mem r.id a = byteAt s.mem r.id a) ∧
  (∀ (i : Instr) (s t : State), exec i s = .next t →
    ((t.pbd.src = s.pbd.src ∧ t.pbd.dst = s.pbd.dst) ∨ t.pbd.src = none ∧ t.pbd.dst = none) ∧
    ((t.vdd.src = s.vdd.src ∧ t.vdd.dst = s.vdd.dst) ∨ t.vdd.src = none ∧ t.vdd.dst = none))

/-- The first fault of a unit stays, whole, through every instruction that does not issue one of the
unit's clearing operations (R386, R388). -/
def Obligations.FirstFaultStays : Prop :=
  ∀ (i : Instr) (u : UnitId) (s t : State), (faultOf u s).valid = true → u ∉ clearedBy i →
    exec i s = .next t → faultOf u t = faultOf u s

/-- An instruction writes no byte outside the destination ranges it names, whether it completes, faults
or is refused, whatever its unit's state (R385: no byte outside the destination range named by the
operation is ever written; R14). A faulted `PBD.DEPACK`, `VDD.DECODE`, `PBE.PACK`, `SEQ.DECODE`,
`SEQ.ENCODE` or `SEQ.ASSEMBLE` leaves the rest of its buffers as they were, byte for byte; a buffer in
which an instruction names no byte stays whole. The range is computed as the meaning computes it, from
the state before. -/
def Obligations.WritesStayInRange : Prop :=
  (∀ (i : Instr) (s t : State) (id a : Nat), memoryOk s → (∀ r ∈ writtenBy i s, ¬ inWindow r id a) →
    exec i s = .next t → byteAt t.mem id a = byteAt s.mem id a) ∧
  ∀ (i : Instr) (s t : State) (id : Nat), (∀ r ∈ writtenBy i s, r.id ≠ id) →
    exec i s = .next t → bufAt t.mem id = bufAt s.mem id

/-! ### Invariants of every step -/

/-- Every step keeps the buffers in canonical form (R10), every buffer at its size (no unit grows or
shrinks one, R421), and every binding inside its host buffer (R10, R25). -/
def Obligations.MemoryStaysCanonical : Prop :=
  (∀ s t : State, memoryOk s → step s = .next t → memoryOk t) ∧
  (∀ (s t : State) (id : Nat), step s = .next t → (bufAt t.mem id).len = (bufAt s.mem id).len) ∧
  ∀ s t : State, bindingsOk s → step s = .next t → bindingsOk t

/-- Every step keeps the palette slots legal (R20 to R22): at most 256 entries of 1 to 8 bits per
channel, every set channel at most `2^bpc - 1`, no set entry at or above `count`; and, with them, the
look-up tables and raster palettes (R28, R33). -/
def Obligations.ColoursStayLegal : Prop :=
  (∀ s t : State, palettesOk s → step s = .next t → palettesOk t) ∧
  ∀ s t : State, palettesOk s → tablesOk s → step s = .next t → tablesOk t

/-- Every step keeps the units' registers legal: the geometry registers below `2^AW` (R23), the cursors
inside their geometry and the cache eight indices long (R24, R26, R174, R175); the pass registers of
both run-length decoders (R226, R238, R243); the stacks of the chunk reader and writer at most
`CK_DEPTH` deep and every open view of a bound reader inside its source (R31, R260, R267). -/
def Obligations.RegistersStayLegal : Prop :=
  ∀ s t : State, step s = .next t →
    (cursorsOk s → cursorsOk t) ∧ (passesOk s → passesOk t) ∧ (stacksOk s → stacksOk t)

/-- The state after reset meets all the invariants. -/
def Obligations.ResetMeetsInvariants : Prop :=
  memoryOk State.reset ∧ palettesOk State.reset ∧ tablesOk State.reset ∧ cursorsOk State.reset ∧
    bindingsOk State.reset ∧ passesOk State.reset ∧ stacksOk State.reset

/-! ### SYS -/

/-- `SYS.RESET` completes in every state: each unit as after reset, the buffers untouched (R410).
Where R410 leaves a register unspecified the model has log 6's value; `bpc` is R20's 8, which is stored as
the 0 of R410's list (log 33); waiting requests and the draw counter are the model's (logs 1, 13). -/
def Obligations.ResetCompletes : Prop :=
  ∀ s : State, ∃ t, exec .sysReset s = completes .unit t ∧
    t = { State.reset with mem := s.mem, pending := s.pending, draws := s.draws } ∧
    (∀ u, faultOf u t = ⟨false, 0, 0, 0⟩) ∧
    (∀ u ∈ [UnitId.bpr, .bpw, .pxr, .pxw, .ckr, .ham, .rpa, .ckw], initOf u t = false) ∧
    (∀ u, bindingOf u t = none) ∧
    (∀ slot, (slotAt t slot).made = false ∧ (slotAt t slot).count = 0 ∧
      (slotAt t slot).bpcBits = 0 ∧ (slotAt t slot).bpc = 8 ∧
      ∀ i, (entryAt (slotAt t slot) i).set = false)

/-! ### PAL -/

/-- `PAL.CREATE` (R141, with the clearing of R388): completes with a slot of unset entries, or
faults on its count or its bit depth. `PAL.MONO` (R150; depth and alpha are the spec's choice D19):
two entries, white then black. Both at a legal slot number. -/
def Obligations.PalCreateMono : Prop :=
  (∀ (s : State) (slot count : Nat) (bpc : Option Nat), slot < Config.npal →
    (Config.palMax < count →
      exec (.palCreate slot count bpc) s = raises .pal .badCount count s) ∧
    (count ≤ Config.palMax → (bpc.getD 8 < 1 ∨ 8 < bpc.getD 8) →
      exec (.palCreate slot count bpc) s = raises .pal .badBpc (bpc.getD 8) s) ∧
    (count ≤ Config.palMax → 1 ≤ bpc.getD 8 → bpc.getD 8 ≤ 8 →
      ∃ t, exec (.palCreate slot count bpc) s = completes .unit t ∧
        t = setSlot slot (slotAt t slot) (clearedFault .pal s) ∧
        (slotAt t slot).made = true ∧ (slotAt t slot).count = count ∧
        (slotAt t slot).bpc = bpc.getD 8 ∧ ∀ i, (entryAt (slotAt t slot) i).set = false)) ∧
  (∀ (s : State) (slot : Nat), ready .pal s → slot < Config.npal →
    ∃ t, exec (.palMono slot) s = completes .unit t ∧ t = setSlot slot (slotAt t slot) s ∧
      (slotAt t slot).made = true ∧ (slotAt t slot).count = 2 ∧ (slotAt t slot).bpc = 8 ∧
      entryAt (slotAt t slot) 0 = ⟨true, 255, 255, 255, 255⟩ ∧
      entryAt (slotAt t slot) 1 = ⟨true, 0, 0, 0, 255⟩)

/-- `PAL.SET` on a made slot (R142): each channel clamped to `0 .. 2^bpc - 1`, alpha `2^bpc - 1` when
omitted; an index at or above `count` faults. The entry stored is the entry read, and the other
entries and slots stay (R20). -/
def Obligations.PalSet : Prop :=
  (∀ (s : State) (slot i : Nat) (r g b : U32) (a : Option U32), ready .pal s → palettesOk s →
    slot < Config.npal → (slotAt s slot).made = true →
    ((slotAt s slot).count ≤ i →
      exec (.palSet slot i r g b a) s = raises .pal .progBadIndex i s) ∧
    (i < (slotAt s slot).count →
      ∃ e : Entry, exec (.palSet slot i r g b a) s = completes .unit (setEntry slot i e s) ∧
        e.set = true ∧
        (e.r.toNat : Int) = max 0 (min r.toInt (2 ^ (slotAt s slot).bpc - 1)) ∧
        (e.g.toNat : Int) = max 0 (min g.toInt (2 ^ (slotAt s slot).bpc - 1)) ∧
        (e.b.toNat : Int) = max 0 (min b.toInt (2 ^ (slotAt s slot).bpc - 1)) ∧
        (∀ v, a = some v →
          (e.a.toNat : Int) = max 0 (min v.toInt (2 ^ (slotAt s slot).bpc - 1))) ∧
        (a = none → (e.a.toNat : Int) = 2 ^ (slotAt s slot).bpc - 1))) ∧
  (∀ (s : State) (slot i : Nat) (e : Entry) (slot' i' : Nat),
    entryAt (slotAt (setEntry slot i e s) slot') i' =
      if slot' = slot ∧ i' = i then e else entryAt (slotAt s slot') i')

/-- `PAL.GET` on a made slot (R143): the entry's channels, and the faults on an index at or above
`count` and on an unset entry. `PAL.PLANES` (R153): the least `p ≥ 1` with `2^p ≥ count`. Nothing is
written. -/
def Obligations.PalGetPlanes : Prop :=
  (∀ (s : State) (slot i : Nat), ready .pal s → slot < Config.npal →
    (slotAt s slot).made = true →
    ((slotAt s slot).count ≤ i → exec (.palGet slot i) s = raises .pal .rangeBadIndex i s) ∧
    (i < (slotAt s slot).count → (entryAt (slotAt s slot) i).set = false →
      exec (.palGet slot i) s = raises .pal .unset i s) ∧
    (i < (slotAt s slot).count → (entryAt (slotAt s slot) i).set = true →
      exec (.palGet slot i) s =
        completes (.colour (entryAt (slotAt s slot) i).r (entryAt (slotAt s slot) i).g
          (entryAt (slotAt s slot) i).b (entryAt (slotAt s slot) i).a) s)) ∧
  (∀ (s : State) (slot : Nat), ready .pal s → palettesOk s → slot < Config.npal →
    (slotAt s slot).made = true →
    ∃ p, exec (.palPlanes slot) s = completes (.nat p) s ∧ 1 ≤ p ∧
      (slotAt s slot).count ≤ 2 ^ p ∧ ∀ q, 1 ≤ q → (slotAt s slot).count ≤ 2 ^ q → p ≤ q)

/-- The slot checks `E_PROG(BAD_SLOT, s)` and then `E_PROG(NOT_INIT, s)`: of the PAL operations that
read a slot, in `PAL.FAULT` (R140; that PAL.SET reads its slot is log 18's); of the PAL operations that
make one, BAD_SLOT alone (R140); of the units that take an 8-bit view, in the unit's own register
(R146). But for an INIT's or `PAL.CREATE`'s clearing of its fault nothing else changes. -/
def Obligations.SlotChecks : Prop :=
  (∀ (s : State) (slot : Nat) (i : Instr), ready .pal s →
    (∃ idx alpha sd bpc r g b a, sd < Config.npal ∧ (i = .palGet slot idx ∨
      i = .palSet slot idx r g b a ∨ i = .palToval slot alpha ∨ i = .palPlanes slot ∨
      i = .palResample sd slot bpc ∨ i = .palEhb sd slot)) →
    (Config.npal ≤ slot → exec i s = raises .pal .badSlot slot s) ∧
    (slot < Config.npal → (slotAt s slot).made = false →
      exec i s = raises .pal .notInit slot s)) ∧
  (∀ (s : State) (slot : Nat) (i : Instr), Config.npal ≤ slot →
    ((∃ count bpc, i = .palCreate slot count bpc) ∨
      ready .pal s ∧ (i = .palMono slot ∨ (∃ vs bpc alpha, i = .palFromval slot vs bpc alpha) ∨
        (∃ buf, i = .palFrompix slot buf) ∨ (∃ ss bpc, i = .palResample slot ss bpc) ∨
        ∃ ss, i = .palEhb slot ss)) →
    exec i s = raises .pal .badSlot slot s) ∧
  (∀ (s : State) (slot buf p k : Nat) (u : UnitId) (i : Instr),
    3 ≤ p → p ≤ Config.planesMax → k < Config.rastMax → k ≤ s.rpa.count →
    (u = .pxr ∧ i = .pxrInit buf slot) ∨ (u = .pxw ∧ i = .pxwInit buf slot) ∨
      (u = .pxr ∧ i = .pxrSetpal slot ∧ ready u s) ∨ (u = .pxw ∧ i = .pxwSetpal slot ∧ ready u s) ∨
      (u = .ham ∧ i = .hamSetpal slot ∧ ready u s) ∨ (u = .ham ∧ i = .hamInit p slot) ∨
      (u = .rpa ∧ i = .rpaLoad k slot ∧ ready u s) →
    (Config.npal ≤ slot → exec i s = raises u .badSlot slot s) ∧
    (slot < Config.npal → (slotAt s slot).made = false → exec i s = raises u .notInit slot s))

/-- `PAL.RESAMPLE` of a made slot (R145 with R144): slot `sd` becomes the source with each set
entry's channels rescaled, `(2*v*max(nb) + max(ob)) div (2*max(ob))`, unset entries left unset; `sd`
may be the source; an illegal depth faults. Going to a depth at least as fine and back is exact; going to a coarser one and
back errs by at most `max(b1) div (2*max(b2))`. -/
def Obligations.PalResample : Prop :=
  (∀ (s : State) (sd ss nb : Nat), ready .pal s → sd < Config.npal → ss < Config.npal →
    (slotAt s ss).made = true → (nb < 1 ∨ 8 < nb) →
    exec (.palResample sd ss nb) s = raises .pal .badBpc nb s) ∧
  (∀ (s : State) (sd ss nb : Nat), ready .pal s → palettesOk s → sd < Config.npal →
    ss < Config.npal → (slotAt s ss).made = true → 1 ≤ nb → nb ≤ 8 →
    ∃ t, exec (.palResample sd ss nb) s = completes .unit t ∧
      t = setSlot sd (slotAt t sd) s ∧ (slotAt t sd).made = true ∧
      (slotAt t sd).count = (slotAt s ss).count ∧ (slotAt t sd).bpc = nb ∧
      ∀ i < (slotAt s ss).count,
        (entryAt (slotAt t sd) i).set = (entryAt (slotAt s ss) i).set ∧
        ((entryAt (slotAt s ss) i).set = true →
          ∀ ch ∈ [Entry.r, Entry.g, Entry.b, Entry.a],
            (ch (entryAt (slotAt t sd) i)).toNat =
              (2 * (ch (entryAt (slotAt s ss) i)).toNat * (2 ^ nb - 1) +
                (2 ^ (slotAt s ss).bpc - 1)) / (2 * (2 ^ (slotAt s ss).bpc - 1)))) ∧
  (∀ b1 b2 v : Nat, 1 ≤ b1 → b1 ≤ 8 → 1 ≤ b2 → b2 ≤ 8 → v ≤ 2 ^ b1 - 1 →
    (b1 ≤ b2 → rescale (rescale v b1 b2) b2 b1 = v) ∧
    (b2 < b1 →
      rescale (rescale v b1 b2) b2 b1 ≤ v + (2 ^ b1 - 1) / (2 * (2 ^ b2 - 1)) ∧
      v ≤ rescale (rescale v b1 b2) b2 b1 + (2 ^ b1 - 1) / (2 * (2 ^ b2 - 1))))

/-- `PAL.TOVAL` of a made slot (R147): with every entry set, one value per entry, red most
significant, each channel `bpc` bits; nothing is written. With an unset entry below `count` the least
one is the fault's. -/
def Obligations.PalToval : Prop :=
  ∀ (s : State) (slot : Nat) (alpha : Option Bool), ready .pal s → palettesOk s →
    slot < Config.npal → (slotAt s slot).made = true →
    (setBelow (slotAt s slot) (slotAt s slot).count →
      ∃ vs : List U32, exec (.palToval slot alpha) s = completes (.values vs) s ∧
        vs.length = (slotAt s slot).count ∧
        ∀ i (h : i < vs.length),
          (vs[i]).toNat =
            let e := entryAt (slotAt s slot) i
            let m := 2 ^ (slotAt s slot).bpc
            if alpha.getD true then
              e.r.toNat * m ^ 3 + e.g.toNat * m ^ 2 + e.b.toNat * m + e.a.toNat
            else e.r.toNat * m ^ 2 + e.g.toNat * m + e.b.toNat) ∧
    (∀ i < (slotAt s slot).count, (entryAt (slotAt s slot) i).set = false →
      (∀ j < i, (entryAt (slotAt s slot) j).set = true) →
      exec (.palToval slot alpha) s = raises .pal .unset i s)

/-- `PAL.FROMVAL` (R148): slot `s` becomes the palette of the values, each channel `bpc` bits of the
value, alpha `2^bpc - 1` when the values carry none; too many values, then an illegal depth, fault; the
law: it restores the palette that `PAL.TOVAL`
packed at the same depth and `alpha`, when every entry is set and, without alpha, every alpha is
`2^bpc - 1`. -/
def Obligations.PalFromval : Prop :=
  (∀ (s : State) (slot : Nat) (vs : List U32) (bpc : Option Nat) (alpha : Option Bool),
    ready .pal s → slot < Config.npal →
    (Config.palMax < vs.length →
      exec (.palFromval slot vs bpc alpha) s = raises .pal .badCount vs.length s) ∧
    (vs.length ≤ Config.palMax → (bpc.getD 8 < 1 ∨ 8 < bpc.getD 8) →
      exec (.palFromval slot vs bpc alpha) s = raises .pal .badBpc (bpc.getD 8) s)) ∧
  (∀ (s : State) (slot : Nat) (vs : List U32) (bpc : Option Nat) (alpha : Option Bool),
    ready .pal s → slot < Config.npal → vs.length ≤ Config.palMax → 1 ≤ bpc.getD 8 →
    bpc.getD 8 ≤ 8 →
    ∃ t, exec (.palFromval slot vs bpc alpha) s = completes .unit t ∧
      t = setSlot slot (slotAt t slot) s ∧ (slotAt t slot).made = true ∧
      (slotAt t slot).count = vs.length ∧ (slotAt t slot).bpc = bpc.getD 8 ∧
      ∀ i (h : i < vs.length),
        let e := entryAt (slotAt t slot) i
        let m := 2 ^ bpc.getD 8
        e.set = true ∧
          if alpha.getD true then
            e.r.toNat = vs[i].toNat / m ^ 3 % m ∧ e.g.toNat = vs[i].toNat / m ^ 2 % m ∧
              e.b.toNat = vs[i].toNat / m % m ∧ e.a.toNat = vs[i].toNat % m
          else
            e.r.toNat = vs[i].toNat / m ^ 2 % m ∧ e.g.toNat = vs[i].toNat / m % m ∧
              e.b.toNat = vs[i].toNat % m ∧ e.a.toNat = m - 1) ∧
  (∀ (p : Slot) (alpha : Bool), slotOk p → setBelow p p.count →
    (alpha = false → ∀ i < p.count, (entryAt p i).a.toNat = 2 ^ p.bpc - 1) →
    paletteOfValues (packedValues p alpha) p.bpc alpha = p)

/-- `PAL.FROMPIX` (R149): the palette of the distinct pixels of the buffer, in first-seen order, at 8
bits with alpha, when there are at most 256; the 257th faults and is the fault's, and no slot
changes. -/
def Obligations.PalFrompix : Prop :=
  ∀ (s : State) (slot buf : Nat), ready .pal s → slot < Config.npal →
    let r := wholeBuf s.mem buf
    let pixels : List U32 := (List.range (r.len / 4)).map fun k =>
      refByte s.mem r (4 * k) ++ refByte s.mem r (4 * k + 1) ++ refByte s.mem r (4 * k + 2) ++
        refByte s.mem r (4 * k + 3)
    (pixels.eraseDups.length ≤ Config.palMax →
      exec (.palFrompix slot buf) s =
        completes .unit (setSlot slot (paletteOfValues pixels.eraseDups 8 true) s)) ∧
    ∀ v, pixels.eraseDups[Config.palMax]? = some v →
      exec (.palFrompix slot buf) s = raises .pal .palFull v.toNat s

/-- `PAL.EHB` (R151, with `EHB_HALVES_ALPHA` false): 64 entries of 8 bits, the first 32 rescaled, the
others with red, green and blue halved; fewer than 32 colours fault, and so does the least unset
entry of the 32. -/
def Obligations.PalEhb : Prop :=
  ∀ (s : State) (sd ss : Nat), ready .pal s → palettesOk s → sd < Config.npal →
    ss < Config.npal → (slotAt s ss).made = true →
    ((slotAt s ss).count < 32 →
      exec (.palEhb sd ss) s = raises .pal .rangeBadIndex (slotAt s ss).count s) ∧
    (32 ≤ (slotAt s ss).count → ∀ i < 32, (entryAt (slotAt s ss) i).set = false →
      (∀ j < i, (entryAt (slotAt s ss) j).set = true) →
      exec (.palEhb sd ss) s = raises .pal .unset i s) ∧
    (setBelow (slotAt s ss) 32 →
      ∃ t, exec (.palEhb sd ss) s = completes .unit t ∧ t = setSlot sd (slotAt t sd) s ∧
        (slotAt t sd).made = true ∧ (slotAt t sd).count = 64 ∧ (slotAt t sd).bpc = 8 ∧
        ∀ i < 32,
          let old := entryAt (slotAt s ss) i
          let full := entryAt (slotAt t sd) i
          let half := entryAt (slotAt t sd) (i + 32)
          full.set = true ∧ half.set = true ∧
            (∀ ch ∈ [Entry.r, Entry.g, Entry.b, Entry.a],
              (ch full).toNat = (2 * (ch old).toNat * 255 + (2 ^ (slotAt s ss).bpc - 1)) /
                (2 * (2 ^ (slotAt s ss).bpc - 1))) ∧
            half.r.toNat = full.r.toNat / 2 ∧ half.g.toNat = full.g.toNat / 2 ∧
            half.b.toNat = full.b.toNat / 2 ∧ half.a = full.a)

/-! ### BPR and BPW -/

/-- `BPR.INIT` and `BPW.INIT` (R174, R182): the geometry and the whole buffer are bound, the cursor is
at the first pixel, a fault is cleared, no memory is accessed; an illegal geometry faults. The
registers hold a geometry of values below `2^AW` as it is (R23; a larger value saturates, log 24).
`BPW.INIT` ends other writing units' bindings to its bytes (R422; log 20). `BPR.EOF` and `BPW.EOF`
(R180): true exactly when some plane's byte at the cursor lies at or beyond the end of the buffer;
nothing is written. -/
def Obligations.PlaneUnitsInitEof : Prop :=
  (∀ (s : State) (buf : Nat) (g : Geometry),
    let bad := g.bytesPerBlock = 0 ∨ g.blocksPerLine = 0 ∨ g.planeCount = 0 ∨
      Config.planesMax < g.planeCount
    (bad → exec (.bprInit buf g) s = raises .bpr .badGeometry 0 s ∧
      exec (.bpwInit buf g) s = raises .bpw .badGeometry 0 s) ∧
    (¬ bad →
      exec (.bprInit buf g) s = completes .unit
        { s with bpr := { s.bpr with init := true, geom := registerGeometry g, cur := ⟨0, 0, 0, 0⟩,
                                     buf := some ⟨buf, 0, (bufAt s.mem buf).len⟩,
                                     fault := { s.bpr.fault with valid := false } } } ∧
      exec (.bpwInit buf g) s = completes .unit (claim .bpw ⟨buf, 0, (bufAt s.mem buf).len⟩
        { s with bpw := { s.bpw with init := true, geom := registerGeometry g, cur := ⟨0, 0, 0, 0⟩,
                                     buf := some ⟨buf, 0, (bufAt s.mem buf).len⟩,
                                     fault := { s.bpw.fault with valid := false } } }))) ∧
  (∀ g : Geometry, geometryFits g → registerGeometry g = g) ∧
  (∀ s : State,
    (ready .bpr s → ∃ b, exec .bprEof s = completes (.flag b) s ∧
      (b = true ↔ ∃ i < s.bpr.geom.planeCount, (refOf s.bpr.buf).len ≤
        s.bpr.cur.byte + s.bpr.cur.block * s.bpr.geom.blockStep +
          s.bpr.cur.line * s.bpr.geom.lineStep + i * s.bpr.geom.planeStep)) ∧
    (ready .bpw s → ∃ b, exec .bpwEof s = completes (.flag b) s ∧
      (b = true ↔ ∃ i < s.bpw.geom.planeCount, (refOf s.bpw.buf).len ≤
        s.bpw.cur.byte + s.bpw.cur.block * s.bpw.geom.blockStep +
          s.bpw.cur.line * s.bpw.geom.lineStep + i * s.bpw.geom.planeStep)))

/-- The cursor step (R175): `bit` fastest, then `byte`, then `block`, then `line`: the pixel number that
a cursor stands for in its geometry grows by one. `BPW.ADV n` (R185) is `n` of them, accesses no memory
and never faults. -/
def Obligations.CursorStep : Prop :=
  (∀ (g : Geometry) (c : Cursor), cursorOk true g c →
    let pos := fun c : Cursor =>
      ((c.line * g.blocksPerLine + c.block) * g.bytesPerBlock + c.byte) * 8 + c.bit
    pos (stepCursor g c) = pos c + 1 ∧ cursorOk true g (stepCursor g c)) ∧
  (∀ (s : State) (n : Nat), ready .bpw s →
    exec (.bpwAdv n) s = completes .unit
      { s with bpw := { s.bpw with cur := (stepCursor s.bpw.geom)^[n] s.bpw.cur } })

/-- How the presets place a pixel (R171, R173): the cursor after the pixels before `(x, y)` gives the
rule's offset for each plane, lines being the preset's own `8 * L` pixels long. With `L * h * p` bytes
no fetch of a whole pass, padding included, leaves the buffer; with one byte less every fetch but the
last does not, and `BPR.READ` at the first pixel of the last byte-column raises
`E_RANGE(PAST_END, len)` (R187, whose `rb * h * p` bytes are read as `L * h * p`: log 34). -/
def Obligations.PresetPlacement : Prop :=
  (∀ w h p x y i : Nat, 0 < w → 0 < p → x < w → y < h →
    let rb := (w + 7) / 8
    let words := (w + 15) / 16
    let at' := fun f n => planeOffset (presetGeometry f w h p)
      (stepCursorN (presetGeometry f w h p) n Cursor.zero) i
    at' .contiguous (y * (8 * rb) + x) = y * rb + x / 8 + i * (rb * h) ∧
    at' .line (y * (8 * rb) + x) = x / 8 + y * (rb * p) + i * rb ∧
    at' .word (y * (16 * words) + x) =
      x / 8 % 2 + x / 16 * (2 * p) + y * (words * 2 * p) + 2 * i) ∧
  (∀ (f : PlaneFormat) (w h p : Nat), 0 < w → 0 < h → 0 < p →
    let g := presetGeometry f w h p
    let size := presetLineBytes f w * h * p
    let pixels := 8 * presetLineBytes f w * h
    passFits g size pixels ∧ passFits g (size - 1) (pixels - 8) ∧
    ∀ s : State, ready .bpr s → s.bpr.geom = g → (refOf s.bpr.buf).len + 1 = size →
      s.bpr.cur = stepCursorN g (pixels - 8) Cursor.zero →
      exec .bprRead s = raises .bpr .pastEnd (refOf s.bpr.buf).len s)

/-- `BPR.READ` (R176, R177): at `bit = 0` the eight indices of the byte-column are fetched, bit `i` of
an index from plane `i`, MSB first, unless some plane's byte lies beyond the buffer: then the lowest
such plane's offset is the fault's and the cursor and cache stay. Inside the byte-column the cached
indices, still those of its bytes (R26, R88), are used. The result is the cached index, the cursor
steps, and no memory changes. -/
def Obligations.BprRead : Prop :=
  ∀ s : State, ready .bpr s → cursorsOk s →
    let g := s.bpr.geom
    let r := refOf s.bpr.buf
    let off := fun i => s.bpr.cur.byte + s.bpr.cur.block * g.blockStep +
      s.bpr.cur.line * g.lineStep + i * g.planeStep
    (s.bpr.cur.bit = 0 → ∀ i < g.planeCount, r.len ≤ off i → (∀ j < i, off j < r.len) →
      exec .bprRead s = raises .bpr .pastEnd (off i) s) ∧
    ((s.bpr.cur.bit = 0 → ∀ i < g.planeCount, off i < r.len) → cacheTrue s →
      ∃ (v : Byte) (cache : List Byte), exec .bprRead s = completes (.u8 v)
          { s with bpr := { s.bpr with cur := stepCursor g s.bpr.cur, cache := cache } } ∧
        cache[s.bpr.cur.bit]? = some v ∧ cache.length = 8 ∧
        (s.bpr.cur.bit ≠ 0 → cache = s.bpr.cache) ∧
        (s.bpr.cur.bit = 0 → ∀ k (hk : k < cache.length) (i : Nat),
          (cache[k]).toNat.testBit i =
            (decide (i < g.planeCount) && (refByte s.mem r (off i)).getLsbD (7 - k))))

/-- `BPR.ADV n` (R178): `n` reads with the result discarded, so that `BPR.ADV (n + 1)` is `BPR.READ`
and then `BPR.ADV n`, or the read's fault. Where no fetch it makes leaves the buffer the cursor
advances `n` pixels; where the first to do so is made at step `k`, the fault is that fetch's, the lowest
failing plane's offset, and the cursor stands there. The cache stays true; nothing else changes. Where
the column's bytes have been modified since the fetch the read is outside what the spec gives a meaning
(R88, U10), and the model refuses it (log 20). -/
def Obligations.BprAdv : Prop :=
  ∀ s : State, ready .bpr s →
    let pos := fun k => stepCursorN s.bpr.geom k s.bpr.cur
    let len := (refOf s.bpr.buf).len
    let fits := fun k => (pos k).bit = 0 → planeEof s.bpr.geom (pos k) len = false
    exec (.bprAdv 0) s = completes .unit s ∧
    (∀ n v t, exec .bprRead s = completes (.u8 v) t →
      exec (.bprAdv (n + 1)) s = exec (.bprAdv n) t) ∧
    (∀ n t, exec .bprRead s = .next t → t.reply = .faulted → exec (.bprAdv (n + 1)) s = .next t) ∧
    (¬ cacheTrue s → exec .bprRead s = .refused .staleCache ∧
      ∀ n, exec (.bprAdv (n + 1)) s = .refused .staleCache) ∧
    (cacheTrue s → ∀ n, (∀ k < n, fits k) → ∃ cache, exec (.bprAdv n) s = completes .unit
      { s with bpr := { s.bpr with cur := pos n, cache := cache } } ∧
      cacheTrue { s with bpr := { s.bpr with cur := pos n, cache := cache } }) ∧
    (cacheTrue s → ∀ n k i, k < n → (∀ j < k, fits j) → (pos k).bit = 0 → i < s.bpr.geom.planeCount →
      len ≤ planeOffset s.bpr.geom (pos k) i →
      (∀ j < i, planeOffset s.bpr.geom (pos k) j < len) →
      ∃ cache, exec (.bprAdv n) s = raises .bpr .pastEnd (planeOffset s.bpr.geom (pos k) i)
        { s with bpr := { s.bpr with cur := pos k, cache := cache } })

/-- `BPW.WRITE` (R183): an index of too many bits and an offset beyond the buffer fault before any byte
is changed; otherwise each byte of memory is its old value, ORed with `0x80 >> bit` where it is the
byte of a plane whose bit of the index is set, and the cursor steps. Other units' bindings to those
bytes end (R422; log 20). -/
def Obligations.BpwWrite : Prop :=
  ∀ (s : State) (index : Nat), ready .bpw s → bindingsOk s →
    let g := s.bpw.geom
    let r := refOf s.bpw.buf
    let off := planeOffset g s.bpw.cur
    (2 ^ g.planeCount ≤ index → exec (.bpwWrite index) s = raises .bpw .indexWide index s) ∧
    (index < 2 ^ g.planeCount → ∀ i < g.planeCount, r.len ≤ off i → (∀ j < i, off j < r.len) →
      exec (.bpwWrite index) s = raises .bpw .pastEnd (off i) s) ∧
    (index < 2 ^ g.planeCount → (∀ i < g.planeCount, off i < r.len) →
      let written := ((List.range g.planeCount).filter fun i => index.testBit i).map fun i =>
        ⟨r.id, r.base + off i, 1⟩
      ∃ mem, exec (.bpwWrite index) s = completes .unit { overwrite .bpw written s with
          mem := mem, bpw := { s.bpw with cur := stepCursor g s.bpw.cur } } ∧
        ∀ id a, byteAt mem id a =
          byteAt s.mem id a |||
            (if id = r.id ∧ ∃ i < g.planeCount, index.testBit i = true ∧ a = r.base + off i then
              (0x80 : Byte) >>> s.bpw.cur.bit else 0))

/-! ### PXR and PXW -/

/-- The 8-bit view of a made slot (R146): the count, and for each entry below it `set` and the packed
value `r<<24 | g<<16 | b<<8 | a` of the rescaled channels; elements at or above the count are
unset. -/
def Obligations.SlotView : Prop :=
  ∀ p : Slot, slotOk p →
    (viewOf p).count = p.count ∧
    (∀ i, p.count ≤ i → (lutAt (viewOf p) i).set = false) ∧
    ∀ i < p.count, (lutAt (viewOf p) i).set = (entryAt p i).set ∧
      ((entryAt p i).set = true →
        (lutAt (viewOf p) i).val.toNat =
          rescale (entryAt p i).r.toNat p.bpc 8 * 2 ^ 24 +
            rescale (entryAt p i).g.toNat p.bpc 8 * 2 ^ 16 +
            rescale (entryAt p i).b.toNat p.bpc 8 * 2 ^ 8 + rescale (entryAt p i).a.toNat p.bpc 8)

/-- `PXR.INIT`, `PXW.INIT`, `PXR.SETPAL`, `PXW.SETPAL` on a made slot (R201, R202): INIT binds the
buffer, rewinds, clears the fault and takes the 8-bit view, `PXW.INIT` ends other writing units'
bindings to its bytes (R422; log 20); SETPAL takes the view and leaves `pos` and `buf`. `PXR.ADV n` and
`PXW.ADV n` (R206): the position advances, nothing else changes, no fault. -/
def Obligations.PixelUnitsInitAdv : Prop :=
  (∀ (s : State) (buf slot : Nat), slot < Config.npal → (slotAt s slot).made = true →
    exec (.pxrInit buf slot) s = completes .unit
      { s with pxr := ⟨true, some ⟨buf, 0, (bufAt s.mem buf).len⟩, 0, viewOf (slotAt s slot),
                       { s.pxr.fault with valid := false }⟩ } ∧
    exec (.pxwInit buf slot) s = completes .unit (claim .pxw ⟨buf, 0, (bufAt s.mem buf).len⟩
      { s with pxw := ⟨true, some ⟨buf, 0, (bufAt s.mem buf).len⟩, 0, viewOf (slotAt s slot),
                       { s.pxw.fault with valid := false }⟩ }) ∧
    (ready .pxr s → exec (.pxrSetpal slot) s = completes .unit
      { s with pxr := { s.pxr with lut := viewOf (slotAt s slot) } }) ∧
    (ready .pxw s → exec (.pxwSetpal slot) s = completes .unit
      { s with pxw := { s.pxw with lut := viewOf (slotAt s slot) } })) ∧
  (∀ (s : State) (n : Nat),
    (ready .pxr s → exec (.pxrAdv n) s = completes .unit
      { s with pxr := { s.pxr with pos := s.pxr.pos + n } }) ∧
    (ready .pxw s → exec (.pxwAdv n) s = completes .unit
      { s with pxw := { s.pxw with pos := s.pxw.pos + n } }))

/-- `PXR.READ` (R203): the least set element that holds the pixel's 32 bits, `pos` advanced; a pixel
beyond the buffer and a colour that no set element holds fault, the latter with the colour, and leave
`pos`. -/
def Obligations.PxrRead : Prop :=
  ∀ s : State, ready .pxr s →
    let r := refOf s.pxr.buf
    let l := s.pxr.lut
    let v : U32 := refByte s.mem r (4 * s.pxr.pos) ++ refByte s.mem r (4 * s.pxr.pos + 1) ++
      refByte s.mem r (4 * s.pxr.pos + 2) ++ refByte s.mem r (4 * s.pxr.pos + 3)
    let holds := fun i => (lutAt l i).set = true ∧ (lutAt l i).val = v
    (r.len < 4 * s.pxr.pos + 4 → exec .pxrRead s = raises .pxr .pastEnd (4 * s.pxr.pos) s) ∧
    (4 * s.pxr.pos + 4 ≤ r.len → (∀ i < l.count, ¬ holds i) →
      exec .pxrRead s = raises .pxr .colour v.toNat s) ∧
    (4 * s.pxr.pos + 4 ≤ r.len → ∀ j < l.count, holds j → (∀ i < j, ¬ holds i) →
      exec .pxrRead s = completes (.nat j)
        { s with pxr := { s.pxr with pos := s.pxr.pos + 1 } })

/-- `PXW.WRITE` and `PXW.WRITEC` (R204, R205): the element's value or the operand is stored in the four
bytes at `4 * pos`, red first, every other byte of memory stays, `pos` advances; other units' bindings
to the four bytes end (R422; log 20). `PXW.WRITE` checks the index, then the element, then the
bounds. -/
def Obligations.PxwWrites : Prop :=
  ∀ (s : State) (index : Nat) (colour : U32), ready .pxw s → bindingsOk s →
    let r := refOf s.pxw.buf
    let at0 := 4 * s.pxw.pos
    let stored := fun (i : Instr) (v : U32) => ∃ mem, exec i s = completes .unit
        { overwrite .pxw [⟨r.id, r.base + at0, 4⟩] s with
          mem := mem, pxw := { s.pxw with pos := s.pxw.pos + 1 } } ∧
      refByte mem r at0 ++ refByte mem r (at0 + 1) ++ refByte mem r (at0 + 2) ++
        refByte mem r (at0 + 3) = v ∧
      ∀ id a, (id ≠ r.id ∨ a < r.base + at0 ∨ r.base + at0 + 4 ≤ a) →
        byteAt mem id a = byteAt s.mem id a
    (r.len < at0 + 4 → exec (.pxwWritec colour) s = raises .pxw .pastEnd at0 s) ∧
    (at0 + 4 ≤ r.len → stored (.pxwWritec colour) colour) ∧
    (s.pxw.lut.count ≤ index →
      exec (.pxwWrite index) s = raises .pxw .rangeBadIndex index s) ∧
    (index < s.pxw.lut.count → (lutAt s.pxw.lut index).set = false →
      exec (.pxwWrite index) s = raises .pxw .unset index s) ∧
    (index < s.pxw.lut.count → (lutAt s.pxw.lut index).set = true → r.len < at0 + 4 →
      exec (.pxwWrite index) s = raises .pxw .pastEnd at0 s) ∧
    (index < s.pxw.lut.count → (lutAt s.pxw.lut index).set = true → at0 + 4 ≤ r.len →
      stored (.pxwWrite index) (lutAt s.pxw.lut index).val)

/-! ### PBD -/

/-- The no-op and the run handed alone to the Packbits decoder (that a command can be handed alone is
the model's choice, log 3). `PB.NOP` (R221): its control byte is consumed, nothing is emitted. `PB.RUN`
(R222, R226, R227), `c = 0x80 + n`: the byte after the control byte is emitted `257 - c` times, cut
where the output is complete, `sp` advances by 2, every other byte of memory stays; other units'
bindings to the bytes written end (R422; log 20). A decoder that is unbound, as after `PBD.DEPACK`,
reaches no source byte (R10, R422): `PB.RUN` raises `SRC_END` after its control byte. -/
def Obligations.PbNopRun : Prop :=
  (∀ s : State, ready .pbd s →
    exec .pbNop s = completes .unit { s with pbd := { s.pbd with sp := s.pbd.sp + 1 } } ∧
    (s.pbd.src = none → s.pbd.dst = none → ∀ n : BitVec 7,
      exec (.pbRun n) s = raises .pbd .srcEnd (s.pbd.sp + 1)
        { s with pbd := { s.pbd with sp := s.pbd.sp + 1 } })) ∧
  (∀ (s : State) (n : BitVec 7), n ≠ 0 → ready .pbd s → bindingsOk s → depackOk s.pbd →
    s.pbd.dst.isSome = true → s.pbd.sp + 1 < (refOf s.pbd.src).len →
    let d := refOf s.pbd.dst
    let start := s.pbd.dbase + s.pbd.produced
    let count := min (257 - (128 + n.toNat)) (s.pbd.outSize - s.pbd.produced)
    ∃ mem, exec (.pbRun n) s = completes .unit
        { overwrite .pbd [⟨d.id, d.base + start, count⟩] s with
          mem := mem, pbd := { s.pbd with sp := s.pbd.sp + 2,
                                          produced := s.pbd.produced + count } } ∧
      (∀ k < count, refByte mem d (start + k) =
        refByte s.mem (refOf s.pbd.src) (s.pbd.sp + 1)) ∧
      ∀ id a, (id ≠ d.id ∨ a < d.base + start ∨ d.base + start + count ≤ a) →
        byteAt mem id a = byteAt s.mem id a)

/-- `PB.LIT` alone (R223, R226, R227; log 3), `c = n`: the `1 + n` bytes after the control byte are
copied, cut where the output is complete, `sp` stands after the last byte copied, every other byte of
memory stays; other units' bindings to the bytes written end (R422; log 20). The source and the
destination range do not meet, as `PBD.DEPACK` demands. -/
def Obligations.PbLit : Prop :=
  ∀ (s : State) (n : BitVec 7), ready .pbd s → bindingsOk s → depackOk s.pbd →
    s.pbd.dst.isSome = true →
    let src := refOf s.pbd.src
    let d := refOf s.pbd.dst
    let start := s.pbd.dbase + s.pbd.produced
    let count := min (1 + n.toNat) (s.pbd.outSize - s.pbd.produced)
    s.pbd.sp + 1 + count ≤ src.len →
    rangesMeet src s.pbd.sp src.len d s.pbd.dbase (s.pbd.dbase + s.pbd.outSize) = false →
    ∃ mem, exec (.pbLit n) s = completes .unit
        { overwrite .pbd [⟨d.id, d.base + start, count⟩] s with
          mem := mem, pbd := { s.pbd with sp := s.pbd.sp + 1 + count,
                                          produced := s.pbd.produced + count } } ∧
      (∀ k < count, refByte mem d (start + k) = refByte s.mem src (s.pbd.sp + 1 + k)) ∧
      ∀ id a, (id ≠ d.id ∨ a < d.base + start ∨ d.base + start + count ≤ a) →
        byteAt mem id a = byteAt s.mem id a

/-- `PBD.DEPACK` is the expansion of R220 to R223 (R226, R229): where the source from `sp0` on expands
to `outSize` bytes, it completes with `sp` after the bytes consumed, the destination range holds the
expansion, and every other byte of memory stays; with no byte wanted it reads nothing, wherever `sp0`
stands (R227). Where the source ends first, or starts beyond its end with bytes wanted, it raises
`E_RANGE(SRC_END, sp)` (R226, R227) with `sp` where the source ended, and no byte outside the
destination range changes (R385; inside it they are unspecified, log 13). That PBD's registers stand
after that fault where the pass had brought them is the model's reading (log 15). Both of PBD's bindings
end with the operation, other units' to a byte of the range with its writing (R422; log 20). -/
def Obligations.PbdDepackExpands : Prop :=
  ∀ (s : State) (src sp0 dst dbase outSize : Nat),
    let sr := wholeBuf s.mem src
    let dr := wholeBuf s.mem dst
    let start := overwrite .pbd [⟨dst, dbase, outSize⟩] s
    let expansion := unpackList (sr.len - sp0) (bytesOf s.mem sr sp0 (sr.len - sp0)) outSize
    let outside := fun (mem : Mem) => ∀ id a, (id ≠ dst ∨ a < dbase ∨ dbase + outSize ≤ a) →
      byteAt mem id a = byteAt s.mem id a
    dbase + outSize ≤ dr.len → rangesMeet sr sp0 sr.len dr dbase (dbase + outSize) = false →
    (∀ out rest, expansion = some (out, rest) →
      let sp := max sp0 sr.len - rest.length
      ∃ mem, exec (.pbdDepack src sp0 dst dbase outSize) s = completes (.depacked sp outSize)
          { start with mem := mem
                       pbd := ⟨none, none, sp, dbase, outSize, outSize,
                               { s.pbd.fault with valid := false }⟩ } ∧
        bytesOf mem dr dbase outSize = out ∧ outside mem) ∧
    (expansion = none →
      ∃ mem draws produced, exec (.pbdDepack src sp0 dst dbase outSize) s =
          .next { start with mem := mem, draws := draws, reply := .faulted
                             pbd := ⟨none, none, max sp0 sr.len, dbase, outSize, produced,
                                     raisedReg .srcEnd (max sp0 sr.len)⟩ } ∧
        produced < outSize ∧ outside mem)

/-- The operand checks of `PBD.DEPACK` (R226) and of `VDD.DECODE` (R243), in their order, before any
access. -/
def Obligations.DecoderChecks : Prop :=
  (∀ (s : State) (src sp0 dst dbase outSize : Nat),
    ((bufAt s.mem dst).len < dbase + outSize →
      exec (.pbdDepack src sp0 dst dbase outSize) s = raises .pbd .dstSmall (dbase + outSize) s) ∧
    (dbase + outSize ≤ (bufAt s.mem dst).len → src = dst →
      max sp0 dbase < min (bufAt s.mem src).len (dbase + outSize) →
      exec (.pbdDepack src sp0 dst dbase outSize) s = raises .pbd .overlap 0 s)) ∧
  (∀ (s : State) (src base len dst dbase bpl h : Nat),
    let i := Instr.vddDecode src base len dst dbase bpl h
    let geometryBad := h = 0 ∨ bpl % 2 = 1
    (geometryBad → exec i s = raises .vdd .badGeometry 0 s) ∧
    (¬ geometryBad → (bufAt s.mem src).len < base + len →
      exec i s = raises .vdd .pastEnd (base + len) s) ∧
    (¬ geometryBad → base + len ≤ (bufAt s.mem src).len →
      (bufAt s.mem dst).len < dbase + bpl * h →
      exec i s = raises .vdd .dstSmall (dbase + bpl * h) s) ∧
    (¬ geometryBad → base + len ≤ (bufAt s.mem src).len →
      dbase + bpl * h ≤ (bufAt s.mem dst).len → src = dst →
      max base dbase < min (base + len) (dbase + bpl * h) →
      exec i s = raises .vdd .overlap 0 s))

/-! ### VDD -/

/-- The run commands handed alone to the strip decoder (R241, R242, R237, R238; log 3), in either
source layout: `VD.RUN n` takes one value, `VD.RUNX` a count and then a value; the value is emitted as
often as there is room for, down the column and then across; where the room ends first the status is
FULL. Every other byte of memory stays; other units' bindings to the bytes written end (R422; log 20). A
decoder that is unbound, as after `VDD.DECODE`, reaches no byte: the fetch of the value raises
`PAST_END` (R10, R422). -/
def Obligations.VdRuns : Prop :=
  (∀ (s : State) (n : BitVec 7), ready .vdd s → s.vdd.src = none → s.vdd.dst = none →
    let p := match Config.vdatLayout with | .interleaved => s.vdd.cp + 1 | .split => s.vdd.dp
    p + 2 ≤ s.vdd.rend → exec (.vdRun n) s = raises .vdd .pastEnd p
      { s with vdd := { s.vdd with cp := s.vdd.cp + 1, dp := p } }) ∧
  ∀ (s : State) (n : BitVec 7) (i : Instr) (words count : Nat),
    ready .vdd s → bindingsOk s → stripOk s.vdd → s.vdd.src.isSome = true →
    s.vdd.dst.isSome = true →
    let lay := Config.vdatLayout
    let src := refOf s.vdd.src
    let dst := refOf s.vdd.dst
    let p := match lay with | .interleaved => s.vdd.cp + 1 | .split => s.vdd.dp
    (i = .vdRun n ∧ 2 ≤ n.toNat ∧ words = 1 ∧ count = n.toNat) ∨
      (i = .vdRunx ∧ words = 2 ∧
        count = (refByte s.mem src p).toNat * 256 + (refByte s.mem src (p + 1)).toNat) →
    p + 2 * words ≤ s.vdd.rend → stripIndex s.vdd ≤ stripRoom s.vdd → 0 < s.vdd.h →
    let v0 := refByte s.mem src (p + 2 * words - 2)
    let v1 := refByte s.mem src (p + 2 * words - 1)
    let q0 := stripIndex s.vdd
    let m := min count (stripRoom s.vdd - q0)
    let written := (List.range m).map fun k => ⟨dst.id, dst.base + stripPlace s.vdd (q0 + k), 2⟩
    ∃ mem, exec i s = completes .unit
        { overwrite .vdd written s with
          mem := mem
          vdd := { s.vdd with
            cp := match lay with
              | .interleaved => s.vdd.cp + 1 + 2 * words | .split => s.vdd.cp + 1
            dp := p + 2 * words
            x := 2 * ((q0 + m) / s.vdd.h), y := (q0 + m) % s.vdd.h
            status := if m < count then .full else s.vdd.status } } ∧
      (∀ k < m, refByte mem dst (stripPlace s.vdd (q0 + k)) = v0 ∧
        refByte mem dst (stripPlace s.vdd (q0 + k) + 1) = v1) ∧
      ∀ id a, (id ≠ dst.id ∨ ∀ k < m, a ≠ dst.base + stripPlace s.vdd (q0 + k) ∧
          a ≠ dst.base + stripPlace s.vdd (q0 + k) + 1) →
        byteAt mem id a = byteAt s.mem id a

/-- The copy commands handed alone (R239, R240, R237, R238; log 3), in either source layout, with the
values in the source and the room in the plane: `VD.COPY` copies `256 - c` values, `c = 0x80 + n`,
`VD.COPYX` takes a count first. The source region and the plane do not meet, as `VDD.DECODE`
demands. Other units' bindings to the bytes written end (R422; log 20). -/
def Obligations.VdCopies : Prop :=
  ∀ (s : State) (n : BitVec 7) (i : Instr) (head count : Nat),
    ready .vdd s → bindingsOk s → stripOk s.vdd → s.vdd.src.isSome = true →
    s.vdd.dst.isSome = true →
    let lay := Config.vdatLayout
    let src := refOf s.vdd.src
    let dst := refOf s.vdd.dst
    let p := match lay with | .interleaved => s.vdd.cp + 1 | .split => s.vdd.dp
    (i = .vdCopy n ∧ head = 0 ∧ count = 256 - (128 + n.toNat)) ∨
      (i = .vdCopyx ∧ head = 2 ∧
        count = (refByte s.mem src p).toNat * 256 + (refByte s.mem src (p + 1)).toNat) →
    p + head + 2 * count ≤ s.vdd.rend → stripIndex s.vdd + count ≤ stripRoom s.vdd →
    0 < s.vdd.h →
    rangesMeet src p s.vdd.rend dst s.vdd.dbase (s.vdd.dbase + s.vdd.bytesPerLine * s.vdd.h) =
      false →
    let q0 := stripIndex s.vdd
    let written := (List.range count).map fun k => ⟨dst.id, dst.base + stripPlace s.vdd (q0 + k), 2⟩
    ∃ mem, exec i s = completes .unit
        { overwrite .vdd written s with
          mem := mem
          vdd := { s.vdd with
            cp := match lay with
              | .interleaved => s.vdd.cp + 1 + head + 2 * count | .split => s.vdd.cp + 1
            dp := p + head + 2 * count
            x := 2 * ((q0 + count) / s.vdd.h), y := (q0 + count) % s.vdd.h } } ∧
      (∀ k < count,
        refByte mem dst (stripPlace s.vdd (q0 + k)) = refByte s.mem src (p + head + 2 * k) ∧
        refByte mem dst (stripPlace s.vdd (q0 + k) + 1) =
          refByte s.mem src (p + head + 2 * k + 1)) ∧
      ∀ id a, (id ≠ dst.id ∨ ∀ k < count, a ≠ dst.base + stripPlace s.vdd (q0 + k) ∧
          a ≠ dst.base + stripPlace s.vdd (q0 + k) + 1) →
        byteAt mem id a = byteAt s.mem id a

/-- `VDD.DECODE` is the reading of R235 to R243 of its stream, in either source layout: once its
operands pass their checks it completes, whatever the stream holds, with the status of the reading:
FULL exactly where the plane is complete (R244 c, g), SRC_END where a command or a value is fetched
before that and the source is exhausted (R243; where both are so in a copy, log 32). The emitted
values stand in the plane down the columns and then across (R238), every other byte of memory stays,
the registers stand after the last fetch and the last emit (`rend` is the model's name for the end of
the region, log 26). Both of VDD's bindings end with the operation, other writing units' to the plane
with its start, and every other unit's to a byte of the plane with its writing (R422; log 20). -/
def Obligations.VddDecodeExpands : Prop :=
  ∀ (s : State) (src base len dst dbase bpl h : Nat),
    h ≠ 0 → bpl % 2 = 0 → base + len ≤ (bufAt s.mem src).len →
    dbase + bpl * h ≤ (bufAt s.mem dst).len →
    (src ≠ dst ∨ min (base + len) (dbase + bpl * h) ≤ max base dbase) →
    let room := bpl / 2 * h
    let region := bytesOf s.mem (wholeBuf s.mem src) base len
    let reading := stripEmits Config.vdatLayout region room
    let emits := reading.1
    let status := reading.2.1
    let cend := base + stripCommandsEnd Config.vdatLayout region
    let place := fun q => dbase + q % h * bpl + 2 * (q / h)
    let written := fun id a => id = dst ∧ ∃ q < emits.length, a = place q ∨ a = place q + 1
    emits.length ≤ room ∧ (status = .full ∨ status = .srcEnd) ∧
    (status = .full ↔ emits.length = room) ∧
    let windows := (List.range emits.length).map fun q => ⟨dst, place q, 2⟩
    ∃ mem, exec (.vddDecode src base len dst dbase bpl h) s = completes (.status status)
        { overwrite .vdd windows (claim .vdd ⟨dst, dbase, bpl * h⟩ s) with
          mem := mem
          vdd := { src := none, dst := none
                   cp := cend - reading.2.2.1.length, cend := cend
                   dp := base + len - reading.2.2.2.length, rend := base + len
                   dbase := dbase, bytesPerLine := bpl, h := h
                   x := 2 * (emits.length / h), y := emits.length % h, status := status
                   fault := { s.vdd.fault with valid := false } } } ∧
      (∀ q < emits.length, byteAt mem dst (place q) = (emits.getD q (0, 0)).1 ∧
        byteAt mem dst (place q + 1) = (emits.getD q (0, 0)).2) ∧
      ∀ id a, ¬ written id a → byteAt mem id a = byteAt s.mem id a

/-! ### CKR -/

/-- `CKR.OPEN`, `CKR.ENTER`, `CKR.LEAVE` (R261, R267, R268): one view over the whole buffer; a view
pushed over a payload, or a fault when the stack is full or the payload leaves the source; a view
discarded, or a fault when only one is open. `CKR.EOF` and `CKR.PEEK` (R266, R265): the comparison of
position and length; the tag and length at the position, or none; no state changes. `CKR.RD8`,
`CKR.RD16`, `CKR.RD32` (R269): the bytes at the position, big-endian, the position advanced; a read that
leaves the view faults and leaves the position. -/
def Obligations.CkrViewsReads : Prop :=
  (∀ (s : State) (buf base length : Nat),
    exec (.ckrOpen buf) s = completes .unit
      { s with ckr := ⟨true, some ⟨buf, 0, (bufAt s.mem buf).len⟩, 1,
                       sput View.zero s.ckr.views 0 ⟨0, (bufAt s.mem buf).len, 0⟩,
                       { s.ckr.fault with valid := false }⟩ } ∧
    (ready .ckr s →
      (s.ckr.depth = Config.ckDepth →
        exec (.ckrEnter base length) s = raises .ckr .stack s.ckr.depth s) ∧
      (s.ckr.depth ≠ Config.ckDepth → (refOf s.ckr.src).len < base + length →
        exec (.ckrEnter base length) s = raises .ckr .pastEnd (base + length) s) ∧
      (s.ckr.depth ≠ Config.ckDepth → base + length ≤ (refOf s.ckr.src).len →
        exec (.ckrEnter base length) s = completes .unit
          { s with ckr := { s.ckr with
                     depth := s.ckr.depth + 1
                     views := sput View.zero s.ckr.views s.ckr.depth ⟨base, length, 0⟩ } }) ∧
      (s.ckr.depth ≤ 1 → exec .ckrLeave s = raises .ckr .stack s.ckr.depth s) ∧
      (1 < s.ckr.depth →
        exec .ckrLeave s = completes .unit
          { s with ckr := { s.ckr with depth := s.ckr.depth - 1 } }))) ∧
  (∀ s : State, ready .ckr s →
    let v := curView s
    let b := fun k => (refByte s.mem (refOf s.ckr.src) (v.base + k))
    exec .ckrEof s = completes (.flag (decide (v.len ≤ v.pos))) s ∧
    (v.len < v.pos + 8 → exec .ckrPeek s = completes (.peek none) s) ∧
    (v.pos + 8 ≤ v.len →
      exec .ckrPeek s = completes (.peek (some
        (b v.pos ++ b (v.pos + 1) ++ b (v.pos + 2) ++ b (v.pos + 3),
          (b (v.pos + 4) ++ b (v.pos + 5) ++ b (v.pos + 6) ++ b (v.pos + 7) : U32).toNat))) s)) ∧
  (∀ s : State, ready .ckr s →
    let v := curView s
    let b := fun k => (refByte s.mem (refOf s.ckr.src) (v.base + v.pos + k))
    let past := fun n => v.len < v.pos + n
    let fault := raises .ckr .pastEnd (v.base + v.pos) s
    (past 1 → exec .ckrRd8 s = fault) ∧
    (¬ past 1 → exec .ckrRd8 s = completes (.u8 (b 0)) (setViewPos (v.pos + 1) s)) ∧
    (past 2 → exec .ckrRd16 s = fault) ∧
    (¬ past 2 → exec .ckrRd16 s = completes (.u16 (b 0 ++ b 1)) (setViewPos (v.pos + 2) s)) ∧
    (past 4 → exec .ckrRd32 s = fault) ∧
    (¬ past 4 → exec .ckrRd32 s =
      completes (.u32 (b 0 ++ b 1 ++ b 2 ++ b 3)) (setViewPos (v.pos + 4) s)))


/-- `CKR.READCHUNK` (R262, R263): the tag, the big-endian length and the payload's offset; the position
moves past the payload and past one zero byte at an odd position inside the view; a truncated header
and a payload that leaves the view fault and leave the position. -/
def Obligations.CkrReadchunk : Prop :=
  ∀ s : State, ready .ckr s →
    let v := curView s
    let b := fun k => (refByte s.mem (refOf s.ckr.src) (v.base + k))
    let tag : U32 := b v.pos ++ b (v.pos + 1) ++ b (v.pos + 2) ++ b (v.pos + 3)
    let len := (b (v.pos + 4) ++ b (v.pos + 5) ++ b (v.pos + 6) ++ b (v.pos + 7) : U32).toNat
    let np := v.pos + 8 + len
    (v.len < v.pos + 8 →
      exec .ckrReadchunk s = raises .ckr .chunkHdrTrunc (v.base + v.pos) s) ∧
    (v.pos + 8 ≤ v.len → v.len < np → exec .ckrReadchunk s = raises .ckr .chunkOverrun len s) ∧
    (np ≤ v.len →
      exec .ckrReadchunk s = completes (.chunk tag len (v.base + v.pos + 8))
        (setViewPos (if np % 2 = 1 ∧ np < v.len ∧ b np = 0 then np + 1 else np) s))

/-! ### HAM -/

/-- `HAM.INIT` and `HAM.SETPAL` on a made slot (R286, R287): INIT takes the plane count and the 8-bit
view, clears the fault and leaves the current colour at the unspecified `HAM_INIT` (log 7); SETPAL
takes the view and leaves the current colour. -/
def Obligations.HamInit : Prop :=
  ∀ (s : State) (p slot : Nat), slot < Config.npal → (slotAt s slot).made = true →
    ((p < 3 ∨ Config.planesMax < p) →
      exec (.hamInit p slot) s = raises .ham .badGeometry p s) ∧
    (3 ≤ p → p ≤ Config.planesMax →
      exec (.hamInit p slot) s = completes .unit
        { s with ham := ⟨true, p, Config.hamInit, false, viewOf (slotAt s slot),
                         { s.ham.fault with valid := false }⟩ }) ∧
    (ready .ham s → exec (.hamSetpal slot) s = completes .unit
      { s with ham := { s.ham with lut := viewOf (slotAt s slot) } })

/-- The pixel codes handed alone to the unit (R289, R288; log 3): a base code looks its colour up, or
faults on an index beyond the table or an unset element; a modify code replaces one channel of the
current colour by the scaled data (in the reading of R292 that `HAM_SCALE` names, log 9) and leaves
the others and alpha; which channel is `HAM_SEL`'s of the code, three codes for three channels (R116,
R289; open, log 12). The readings of R292: `linear` rounds `data * 255 / (2^d - 1)` to the nearest, `replicate` is
`(data << (8-d)) | (data >> (2d-8))` for `4 ≤ d`, `shift` is `data << (8-d)`; all are at most 255, map
0 to 0 and are monotone. -/
def Obligations.HamCodes : Prop :=
  (∀ (s : State) (p data : Nat), ready .ham s → s.ham.planes = p → 3 ≤ p → p ≤ 8 →
    data < 2 ^ (p - 2) →
    let l := s.ham.lut
    let v : Byte := BitVec.ofNat 8 (hamScaled Config.hamScale data (p - 2))
    let c := s.ham.cur
    let byte := fun k : Nat => c.extractLsb' (8 * k) 8
    let patched := fun (i : Instr) (ch : Config.Channel) =>
      let new : U32 := match ch with
        | .red => v ++ byte 2 ++ byte 1 ++ byte 0
        | .green => byte 3 ++ v ++ byte 1 ++ byte 0
        | .blue => byte 3 ++ byte 2 ++ v ++ byte 0
      exec i s = completes (.u32 new) { s with ham := { s.ham with cur := new } }
    (l.count ≤ data → exec (.hamBase p data) s = raises .ham .rangeBadIndex data s) ∧
    (data < l.count → (lutAt l data).set = false →
      exec (.hamBase p data) s = raises .ham .unset data s) ∧
    (data < l.count → (lutAt l data).set = true →
      exec (.hamBase p data) s = completes (.u32 (lutAt l data).val)
        { s with ham := { s.ham with cur := (lutAt l data).val, curSet := true } }) ∧
    patched (.hamModb p data) Config.hamSel1 ∧ patched (.hamModr p data) Config.hamSel2 ∧
    patched (.hamModg p data) Config.hamSel3) ∧
  (∀ ch : Config.Channel, ch = Config.hamSel1 ∨ ch = Config.hamSel2 ∨ ch = Config.hamSel3) ∧
  Config.hamSel1 ≠ Config.hamSel2 ∧ Config.hamSel1 ≠ Config.hamSel3 ∧
  Config.hamSel2 ≠ Config.hamSel3 ∧
  (∀ d data : Nat, 1 ≤ d → d ≤ 6 → data < 2 ^ d →
    hamScaled .linear data d = (2 * data * 255 + (2 ^ d - 1)) / (2 * (2 ^ d - 1)) ∧
    (4 ≤ d → hamScaled .replicate data d = (data <<< (8 - d)) ||| (data >>> (2 * d - 8))) ∧
    hamScaled .shift data d = data <<< (8 - d) ∧
    ∀ k : Config.HamScale, hamScaled k 0 d = 0 ∧ hamScaled k data d ≤ 255 ∧
      ∀ data' < data, hamScaled k data' d ≤ hamScaled k data d)

/-- `HAM.READ` (R288, R289): a plane count that differs from the reader's faults before the read; a
read that `BPR` completes with a modify code completes with the patched colour, the channel being
`HAM_SEL`'s of the code (open, log 12); a base code completes with the looked-up colour, or faults with
the reader one pixel on. Neither memory nor another unit changes. Where the reader faults, its fault is
copied into HAM's register, and HAM's current colour and table stay. `HAM.ADV n` (R294) is `BPR.ADV n`:
it advances the reader and leaves HAM; a fault of the reader is copied. A reader that stands faulted
already refuses (R386), and its first fault is what is copied (log 16). What the model refuses of the
reader, a dead binding or a stale cache (R88, R422), it refuses of HAM over it (log 20). -/
def Obligations.HamRead : Prop :=
  (∀ s : State, ready .ham s →
    (s.bpr.geom.planeCount ≠ s.ham.planes → exec .hamRead s = raises .ham .badGeometry 0 s) ∧
    (s.bpr.geom.planeCount = s.ham.planes → ∀ t, exec .bprRead s = .next t →
      t.reply = .faulted ∨ t.reply = .refused →
      t.bpr.fault.valid = true ∧
      exec .hamRead s = .next { t with ham := { s.ham with fault := t.bpr.fault }
                                       reply := .faulted }) ∧
    (s.bpr.geom.planeCount = s.ham.planes → ∀ r, exec .bprRead s = .refused r →
      exec .hamRead s = .refused r) ∧
    (s.bpr.geom.planeCount = s.ham.planes → ready .bpr s → cursorsOk s → cacheTrue s →
      (s.bpr.cur.bit = 0 → planeEof s.bpr.geom s.bpr.cur (refOf s.bpr.buf).len = false) →
      ∃ (raw : Byte) (t : State),
        exec .bprRead s = completes (.u8 raw) t ∧
        (let code := decodeHam s.ham.planes raw.toNat
         let patched := fun ch =>
          let c := modifiedColour Config.hamScale ch s.ham.planes code.2 s.ham.cur
          exec .hamRead s = completes (.u32 c) { t with ham := { t.ham with cur := c } }
         (code.1 = .modb → patched Config.hamSel1) ∧
         (code.1 = .modr → patched Config.hamSel2) ∧
         (code.1 = .modg → patched Config.hamSel3) ∧
         (code.1 = .base → s.ham.lut.count ≤ code.2 →
          exec .hamRead s = raises .ham .rangeBadIndex code.2 t) ∧
         (code.1 = .base → code.2 < s.ham.lut.count → (lutAt s.ham.lut code.2).set = false →
          exec .hamRead s = raises .ham .unset code.2 t) ∧
         (code.1 = .base → code.2 < s.ham.lut.count → (lutAt s.ham.lut code.2).set = true →
          exec .hamRead s = completes (.u32 (lutAt s.ham.lut code.2).val)
            { t with ham := { t.ham with cur := (lutAt s.ham.lut code.2).val,
                                         curSet := true } })))) ∧
  ∀ (s : State) (n : Nat), ready .ham s →
    (ready .bpr s → cacheTrue s →
      (∀ k < n, (stepCursorN s.bpr.geom k s.bpr.cur).bit = 0 →
        planeEof s.bpr.geom (stepCursorN s.bpr.geom k s.bpr.cur) (refOf s.bpr.buf).len = false) →
      exec (.hamAdv n) s = exec (.bprAdv n) s ∧
      ∃ cache, exec (.hamAdv n) s = completes .unit
        { s with bpr := { s.bpr with cur := stepCursorN s.bpr.geom n s.bpr.cur, cache := cache } }) ∧
    (∀ r, exec (.bprAdv n) s = .refused r → exec (.hamAdv n) s = .refused r) ∧
    ∀ t, exec (.bprAdv n) s = .next t → t.reply = .faulted ∨ t.reply = .refused →
      exec (.hamAdv n) s = .next { t with ham := { s.ham with fault := t.bpr.fault }
                                          reply := .faulted }

/-! ### RPA -/

/-- `RPA.CONFIG` and `RPA.LOAD` (R295, R296): CONFIG sets height and consumer and empties the count;
LOAD stores the 8-bit view as raster palette `k`, counts a new one, replaces an old one, and faults on
an index beyond the next. `RPA.SELECT` (R298 with R297): without raster palettes nothing changes; a
line at or above the height faults; otherwise the consumer's table is replaced by raster palette `y`,
or `floor(y * count / height)` where there are fewer palettes than lines, and nothing else changes. -/
def Obligations.RasterPalettes : Prop :=
  (∀ (s : State) (height k slot : Nat) (c : Consumer),
    exec (.rpaConfig height c) s = completes .unit
      { s with rpa := { s.rpa with init := true, count := 0, height := height, consumer := c,
                                   fault := { s.rpa.fault with valid := false } } } ∧
    (ready .rpa s →
      ((Config.rastMax ≤ k ∨ s.rpa.count < k) →
        exec (.rpaLoad k slot) s = raises .rpa .progBadIndex k s) ∧
      (k < Config.rastMax → k ≤ s.rpa.count → slot < Config.npal →
        (slotAt s slot).made = true →
        ∃ ras, exec (.rpaLoad k slot) s = completes .unit
            { s with rpa := { s.rpa with
                       ras := ras
                       count := if k = s.rpa.count then s.rpa.count + 1 else s.rpa.count } } ∧
          ∀ j, sget Lut.empty ras j =
            if j = k then viewOf (slotAt s slot) else sget Lut.empty s.rpa.ras j))) ∧
  (∀ (s : State) (y : Nat), ready .rpa s →
    let k := if s.rpa.height ≤ s.rpa.count then y else y * s.rpa.count / s.rpa.height
    let l := sget Lut.empty s.rpa.ras k
    (s.rpa.count = 0 → exec (.rpaSelect y) s = completes .unit s) ∧
    (0 < s.rpa.count → s.rpa.height ≤ y →
      exec (.rpaSelect y) s = raises .rpa .rangeBadIndex y s) ∧
    (0 < s.rpa.count → y < s.rpa.height → k < s.rpa.count ∧
      exec (.rpaSelect y) s = completes .unit
        (match s.rpa.consumer with
        | .none => s
        | .pxw => { s with pxw := { s.pxw with lut := l } }
        | .ham => { s with ham := { s.ham with lut := l } })))

/-! ### PBE and CKW -/

/-- `PBE.PACK` (R350, R351, R352): a line length of 0 faults; otherwise the destination receives the
commands of the source's lines, one after the other, at most `len + ceil(len/128)` bytes per line, and
no other byte of memory changes. Where they do not fit it raises `E_RANGE(DST_SMALL)` with the end
offset that the first command beyond the destination needs (R351, R381; log 28), and no byte outside
the destination changes (R385; inside it they are unspecified, log 13). Packing a buffer into itself,
which no rule forbids, ends in one of the same two ways. Other writing units' bindings to the destination
end with the start, every other unit's to a byte of it with its writing (R422; log 20). -/
def Obligations.PbePackCompletes : Prop :=
  ∀ (s : State) (src bpl dst : Nat),
    let n := (bufAt s.mem src).len
    let room := (bufAt s.mem dst).len
    let cmds := packList bpl n (bytesOf s.mem (wholeBuf s.mem src) 0 n)
    let out := cmds.flatten
    let small := fun (info : Nat) => ∃ mem draws, exec (.pbePack src bpl dst) s =
        .next { overwrite .pbe [wholeBuf s.mem dst] s with
                mem := mem, draws := draws, reply := .faulted, pbe := ⟨raisedReg .dstSmall info⟩ } ∧
      ∀ id a, id ≠ dst → byteAt mem id a = byteAt s.mem id a
    let packs := fun (m : Nat) (holds : Mem → Prop) => ∃ mem,
      exec (.pbePack src bpl dst) s = completes (.nat m)
        { overwrite .pbe [⟨dst, 0, m⟩] (claim .pbe (wholeBuf s.mem dst) s) with
          mem := mem, pbe := ⟨{ s.pbe.fault with valid := false }⟩ } ∧ holds mem ∧
      ∀ id a, (id ≠ dst ∨ m ≤ a) → byteAt mem id a = byteAt s.mem id a
    (bpl = 0 → exec (.pbePack src bpl dst) s = raises .pbe .badGeometry 0 s) ∧
    (0 < bpl → src ≠ dst →
      out.length ≤ n / bpl * (bpl + (bpl + 127) / 128) + (n % bpl + (n % bpl + 127) / 128) ∧
      (out.length ≤ room →
        packs out.length fun mem => bytesOf mem (wholeBuf s.mem dst) 0 out.length = out) ∧
      (∀ j < cmds.length, (cmds.take j).flatten.length ≤ room →
        room < (cmds.take (j + 1)).flatten.length →
        small (cmds.take (j + 1)).flatten.length)) ∧
    (0 < bpl → src = dst → (∃ m, m ≤ room ∧ packs m fun _ => True) ∨ ∃ info, room < info ∧ small info)

/-- The round-trip law (R354): what `PBE.PACK` writes expands, by R220 to R223, to its source, for
every line length but 0. -/
def Obligations.PackThenUnpack : Prop :=
  ∀ (s : State) (src bpl dst : Nat),
    src ≠ dst → 0 < bpl → 2 * (bufAt s.mem src).len ≤ (bufAt s.mem dst).len →
    let sr := wholeBuf s.mem src
    ∃ m t, exec (.pbePack src bpl dst) s = completes (.nat m) t ∧
      unpackList m (bytesOf t.mem (wholeBuf s.mem dst) 0 m) sr.len =
        some (bytesOf s.mem sr 0 sr.len, [])

/-- `CKW.INIT` and the three writes (R357): INIT binds, rewinds and empties the stack, and ends other
writing units' bindings to the buffer's bytes (R422; log 20); a write stores its value at the position,
big-endian, and advances it, every other byte of memory stays, and other units' bindings to the bytes
written end; a write beyond the buffer faults and writes nothing. -/
def Obligations.CkwWrites : Prop :=
  ∀ (s : State) (buf : Nat) (v8 : Byte) (v16 : U16) (v32 : U32), bindingsOk s →
    exec (.ckwInit buf) s = completes .unit (claim .ckw ⟨buf, 0, (bufAt s.mem buf).len⟩
      { s with ckw := { s.ckw with init := true, dst := some ⟨buf, 0, (bufAt s.mem buf).len⟩,
                                   pos := 0, sd := 0,
                                   fault := { s.ckw.fault with valid := false } } }) ∧
    (ready .ckw s →
      let r := refOf s.ckw.dst
      let at0 := s.ckw.pos
      let stored := fun (i : Instr) (bytes : List Byte) =>
        (r.len < at0 + bytes.length → exec i s = raises .ckw .pastEnd at0 s) ∧
        (at0 + bytes.length ≤ r.len → ∃ mem, exec i s = completes .unit
            { overwrite .ckw [⟨r.id, r.base + at0, bytes.length⟩] s with
              mem := mem, ckw := { s.ckw with pos := at0 + bytes.length } } ∧
          bytesOf mem r at0 bytes.length = bytes ∧
          ∀ id a, (id ≠ r.id ∨ a < r.base + at0 ∨ r.base + at0 + bytes.length ≤ a) →
            byteAt mem id a = byteAt s.mem id a)
      stored (.ckwWr8 v8) [v8] ∧
      stored (.ckwWr16 v16) [v16.extractLsb' 8 8, v16.extractLsb' 0 8] ∧
      stored (.ckwWr32 v32) [v32.extractLsb' 24 8, v32.extractLsb' 16 8, v32.extractLsb' 8 8,
        v32.extractLsb' 0 8])

/-- `CKW.START` and `CKW.END` (R355, R356): START pads an odd position with a zero byte, writes the tag
and a length of 0 and pushes the chunk's start; END writes the payload's length behind the tag, pops,
and returns the chunk's size; every other byte of memory stays, and other units' bindings to the bytes
written end (R422; log 20). A full and an empty stack fault. Writes
that do not fit fault with the offset of the first of them and change nothing (R355, R356, R357; that
START checks all its writes first is log 22's). -/
def Obligations.CkwChunks : Prop :=
  ∀ (s : State) (tag : U32), ready .ckw s → bindingsOk s →
    let r := refOf s.ckw.dst
    let e := s.ckw.pos + s.ckw.pos % 2
    (s.ckw.sd = Config.ckDepth → exec (.ckwStart tag) s = raises .ckw .stack s.ckw.sd s) ∧
    (s.ckw.sd ≠ Config.ckDepth → r.len < e + 8 →
      exec (.ckwStart tag) s = raises .ckw .pastEnd
        (if r.len < e then s.ckw.pos else if r.len < e + 4 then e else e + 4) s) ∧
    (s.ckw.sd ≠ Config.ckDepth → e + 8 ≤ r.len →
      ∃ mem start, exec (.ckwStart tag) s = completes .unit
          { overwrite .ckw [⟨r.id, r.base + s.ckw.pos, e + 8 - s.ckw.pos⟩] s with
            mem := mem
            ckw := { s.ckw with start := start, sd := s.ckw.sd + 1, pos := e + 8 } } ∧
        (∀ d, sget 0 start d = if d = s.ckw.sd then e else sget 0 s.ckw.start d) ∧
        (s.ckw.pos % 2 = 1 → refByte mem r s.ckw.pos = 0) ∧
        bytesOf mem r e 8 = [tag.extractLsb' 24 8, tag.extractLsb' 16 8, tag.extractLsb' 8 8,
          tag.extractLsb' 0 8, 0, 0, 0, 0] ∧
        ∀ id a, (id ≠ r.id ∨ a < r.base + s.ckw.pos ∨ r.base + e + 8 ≤ a) →
          byteAt mem id a = byteAt s.mem id a) ∧
    (s.ckw.sd = 0 → exec .ckwEnd s = raises .ckw .stack 0 s) ∧
    (0 < s.ckw.sd →
      let st := sget 0 s.ckw.start (s.ckw.sd - 1)
      (r.len < st + 8 → exec .ckwEnd s = raises .ckw .pastEnd (st + 4) s) ∧
      (st + 8 ≤ r.len → st + 8 ≤ s.ckw.pos → s.ckw.pos - st - 8 < 2 ^ 32 →
      ∃ mem, exec .ckwEnd s = completes (.nat (s.ckw.pos - st))
          { overwrite .ckw [⟨r.id, r.base + (st + 4), 4⟩] s with
            mem := mem, ckw := { s.ckw with sd := s.ckw.sd - 1 } } ∧
        beRead mem r (st + 4) 4 = s.ckw.pos - st - 8 ∧
        ∀ id a, (id ≠ r.id ∨ a < r.base + st + 4 ∨ r.base + st + 8 ≤ a) →
          byteAt mem id a = byteAt s.mem id a))

/-! ### SEQ -/

/-- The request checks of SEQ, in their order, before any write: of `SEQ.DECODE` (R311) and
`SEQ.ENCODE` (R313), its plane count given or omitted (R153), `PAL.PLANES`'s fault copied (R314), and
its standing fault where it is refused (log 16); of `SEQ.ASSEMBLE` (R328): the state, the compression
code (R319; the pixels are then unspecified, log 13, and so written, log 20), the sizes of the pixel buffer and, if it is used,
of the work buffer. The fault is SEQ's own; of these checks only the container's own compression code
leaves FAULTED (R383, R385; log 17). -/
def Obligations.SeqChecks : Prop :=
  (∀ (s : State) (x slot w h p b : Nat) (f : PlaneFormat) (q : Option Nat),
    let dec := exec (.seqDecode b slot w h p f x) s
    let enc := exec (.seqEncode x slot w h q f b) s
    ((p = 0 ∨ Config.planesMax < p) → dec = raises .seq .badPlanes p s) ∧
    (0 < p → p ≤ Config.planesMax → (bufAt s.mem x).len < 4 * w * h →
      dec = raises .seq .bufSmall (4 * w * h) s) ∧
    ((q = some p ∨ q = none ∧ ready .pal s ∧ slot < Config.npal ∧ (slotAt s slot).made = true ∧
        p = planesFor (slotAt s slot).count) →
      ((p = 0 ∨ Config.planesMax < p) → enc = raises .seq .badPlanes p s) ∧
      (0 < p → p ≤ Config.planesMax →
        (w % 16 ≠ 0 → enc = raises .seq .badWidth w s) ∧
        (w % 16 = 0 → (bufAt s.mem b).len < w / 8 * h * p →
          enc = raises .seq .bufSmall (w / 8 * h * p) s) ∧
        (w % 16 = 0 → w / 8 * h * p ≤ (bufAt s.mem b).len → (bufAt s.mem x).len < 4 * w * h →
          enc = raises .seq .bufSmall (4 * w * h) s))) ∧
    (q = none → ∀ t, exec (.palPlanes slot) s = .next t → t.reply = .faulted ∨ t.reply = .refused →
      enc = .next { t with seq := { s.seq with state := .faulted, fault := t.pal.fault }
                           reply := .faulted })) ∧
  (∀ (s : State) (c work x : Nat), ready .seq s →
    let hd := s.seq.hdr
    let size := 4 * hd.width.toNat * hd.height.toNat
    let planeBytes := hd.bytesPerLine * hd.planes.toNat * hd.height.toNat
    let asm := exec (.seqAssemble c work x) s
    (s.seq.state ≠ .assemble → asm = raises .seq .notInit 0 s) ∧
    (s.seq.state = .assemble → hd.compression ∉ [0, 1, Config.codes.compStrip] →
      ∃ mem draws, asm = .next { overwrite .seq [windowOf (wholeBuf s.mem x) 0 size] s with
          mem := mem, draws := draws, reply := .faulted
          seq := { s.seq with
            state := .faulted, fault := ⟨true, 1, 7, hd.compression.setWidth 32⟩ } } ∧
        ∀ id a, (id ≠ x ∨ size ≤ a) → byteAt mem id a = byteAt s.mem id a) ∧
    (s.seq.state = .assemble → hd.compression ∈ [0, 1, Config.codes.compStrip] →
      ((bufAt s.mem x).len < size → asm = raises .seq .bufSmall size s) ∧
      (size ≤ (bufAt s.mem x).len → hd.compression ≠ 0 → (bufAt s.mem work).len < planeBytes →
        asm = raises .seq .bufSmall planeBytes s)))

/-- `SEQ.SCAN` of a bad container (R317): the first fault in the bytes' order stops it. Its outer chunk
is truncated or overruns the buffer (R262, copied by R314); the outer tag is another; the payload is too
short for a sub-type, or the sub-type is another; after chunks that are good, a chunk is bad in itself
(BAD_HEADER and BAD_PLANES of R318, BAD_MODE and BAD_PALETTE of R322), truncated, or overruns the
payload; or the chunks are all good and the body, the palette or the header is missing (R330). SEQ is
left FAULTED with the fault; no memory changes; the chunk reader's binding ends (R422; log 20). -/
def Obligations.SeqBadContainers : Prop :=
  ∀ (s : State) (c : Nat),
    let k := Config.codes
    let whole := bytesOf s.mem (wholeBuf s.mem c) 0 (bufAt s.mem c).len
    let stops := fun (code : FaultCode) (info : Nat) =>
      ∃ t, exec (.seqScan c) s = .next t ∧ t.reply = .faulted ∧ t.mem = s.mem ∧
        t.seq.state = .faulted ∧ t.seq.fault = raisedReg code info ∧ t.ckr.src = none
    (whole.length < 8 → stops .chunkHdrTrunc 0) ∧
    (∀ (tag : U32) (n : Nat) (part : List Byte), n < 2 ^ 32 → part.length < n →
      whole = beBytes 4 tag.toNat ++ beBytes 4 n ++ part → stops .chunkOverrun n) ∧
    (∀ (tag : U32) (payload tail : List Byte), payload.length < 2 ^ 32 →
      whole = chunkBytes tag payload ++ tail →
      (tag ≠ k.outer → stops .badTopTag tag.toNat) ∧
      (tag = k.outer → payload.length < 4 → stops .badSubtype 0) ∧
      ∀ (type : U32) (more : List Byte), tag = k.outer → payload = beBytes 4 type.toNat ++ more →
        type ≠ k.typeLine → type ≠ k.typeContig → stops .badSubtype type.toNat) ∧
    ∀ (type : U32) (chunks : List (U32 × List Byte)) (rest tail : List Byte),
      (type = k.typeLine ∨ type = k.typeContig) → whole = containerBytes k type chunks rest ++ tail →
      let at0 := 12 + (chunks.flatMap paddedChunk).length
      at0 + rest.length < 2 ^ 32 →
      (∀ e, noteChunks k 12 chunks (scanStart s.seq) = .error e → stops e.1 e.2) ∧
      ∀ q, noteChunks k 12 chunks (scanStart s.seq) = .ok q →
        (0 < rest.length → rest.length < 8 → stops .chunkHdrTrunc at0) ∧
        (∀ (tag : U32) (n : Nat) (part : List Byte), n < 2 ^ 32 → part.length < n →
          rest = beBytes 4 tag.toNat ++ beBytes 4 n ++ part → stops .chunkOverrun n) ∧
        (∀ e, rest = [] → incomplete q = some e → stops e.1 e.2)

/-- `SEQ.DECODE` computes the image (R311, R310): with a palette that covers every index of `p` planes
and a plane buffer that the pass stays inside, it completes; pixel `(x, y)` is the palette's 8-bit
colour of the index whose bit `i` is bit `7 - x mod 8` of plane `i`'s byte; no other byte of memory
changes. Of the other units only bindings end: writing units' to the pixel buffer's bytes, readers' to
the pixels (R422; log 20). Where the plane buffer is too short the first fetch that leaves it stops the pass, BPR's
`E_RANGE(PAST_END)` is copied, SEQ is left FAULTED (R311, R314, R389), and no byte outside the pixels
changes (R385). -/
def Obligations.SeqDecodeComputesImage : Prop :=
  ∀ (s : State) (b slot w h p x : Nat) (f : PlaneFormat), memoryOk s →
    0 < w → 0 < h → 0 < p → p ≤ Config.planesMax → b ≠ x → 4 * w * h ≤ (bufAt s.mem x).len →
    slot < Config.npal → (slotAt s slot).made = true → setBelow (slotAt s slot) (2 ^ p) →
    let g := presetGeometry f w h p
    let lb := presetLineBytes f w
    let len := (bufAt s.mem b).len
    let off := fun n i => planeOffset g (stepCursorN g n Cursor.zero) i
    let outside := fun (m : Mem) => ∀ id a, (id ≠ x ∨ 4 * w * h ≤ a) →
      byteAt m id a = byteAt s.mem id a
    (lb * h * p ≤ len → ∃ t, exec (.seqDecode b slot w h p f x) s = completes .unit t ∧
      t = { overwrite .pxw [⟨x, 0, 4 * w * h⟩] (claim .pxw (wholeBuf s.mem x) s) with
              mem := t.mem, bpr := t.bpr, pxw := t.pxw,
              seq := { s.seq with state := .done, fault := { s.seq.fault with valid := false } } } ∧
      (∀ xx < w, ∀ yy < h, ∀ index < 2 ^ p,
        (∀ i < p, index.testBit i =
          (byteAt s.mem b (off (yy * (8 * lb) + xx) i)).getLsbD (7 - xx % 8)) →
        beRead t.mem (wholeBuf s.mem x) (4 * (yy * w + xx)) 4 =
          (lutAt (viewOf (slotAt s slot)) index).val.toNat) ∧
      outside t.mem) ∧
    ∀ k i, k < 8 * lb * h → (∀ j < k, planeEof g (stepCursorN g j Cursor.zero) len = false) →
      i < p → len ≤ off k i → (∀ j < i, off k j < len) →
      ∃ t, exec (.seqDecode b slot w h p f x) s = .next t ∧ t.reply = .faulted ∧
        t.seq = { s.seq with state := .faulted, fault := raisedReg .pastEnd (off k i) } ∧
        t.bpr.fault = raisedReg .pastEnd (off k i) ∧ outside t.mem

/-- `SEQ.ENCODE` (R313): with every pixel's colour in the palette at an index below `2^p` it completes
and writes `(w div 8) * h * p` bytes and no other: bit `i` of the lowest index that holds pixel
`(x, y)`'s colour (R203) is bit `7 - x mod 8` of plane `i`'s byte. Each bit of those bytes is a pixel's,
`w` being a multiple of 16. Of the other units only bindings end: writing units' to the plane buffer's
bytes, readers' to the planes (R422; log 20). The first pixel whose colour the palette does not hold stops it with PXR's
`E_NOTFOUND(COLOUR)`, the first whose lowest index has more than `p` bits with BPW's
`E_RANGE(INDEX_WIDE)`: copied, SEQ left FAULTED (R313, R314, R389), no byte outside the planes changed
(R385). -/
def Obligations.SeqEncodeCompletes : Prop :=
  ∀ (s : State) (x slot w h b : Nat) (p? : Option Nat) (p : Nat) (f : PlaneFormat), memoryOk s →
    0 < w → w % 16 = 0 → 0 < h → 0 < p → p ≤ Config.planesMax → b ≠ x →
    slot < Config.npal → (slotAt s slot).made = true →
    (p? = some p ∨ p? = none ∧ p = planesFor (slotAt s slot).count ∧ ready .pal s) →
    w / 8 * h * p ≤ (bufAt s.mem b).len → 4 * w * h ≤ (bufAt s.mem x).len →
    let lut := viewOf (slotAt s slot)
    let g := presetGeometry f w h p
    let holds := fun j k => j < lut.count ∧ (lutAt lut j).set = true ∧
      (lutAt lut j).val.toNat = beRead s.mem (wholeBuf s.mem x) (4 * k) 4
    let outside := fun (m : Mem) => ∀ id a, (id ≠ b ∨ w / 8 * h * p ≤ a) →
      byteAt m id a = byteAt s.mem id a
    let fails := fun (u : UnitId) (c : FaultCode) (info : Nat) =>
      ∃ t, exec (.seqEncode x slot w h p? f b) s = .next t ∧ t.reply = .faulted ∧
        t.seq = { s.seq with state := .faulted, fault := raisedReg c info } ∧
        faultOf u t = raisedReg c info ∧ outside t.mem
    ((∀ k < w * h, ∃ j < 2 ^ p, holds j k) →
    ∃ t, exec (.seqEncode x slot w h p? f b) s = completes .unit t ∧
      t = { overwrite .bpw [⟨b, 0, w / 8 * h * p⟩] (claim .bpw (wholeBuf s.mem b) s) with
              mem := t.mem, pxr := t.pxr, bpw := t.bpw,
              seq := { s.seq with state := .done, fault := { s.seq.fault with valid := false } } } ∧
      (∀ xx < w, ∀ yy < h, ∀ i < p, ∀ j, holds j (yy * w + xx) →
        (∀ j' < j, ¬ holds j' (yy * w + xx)) →
        (byteAt t.mem b (planeOffset g (stepCursorN g (yy * w + xx) Cursor.zero) i)).getLsbD
          (7 - xx % 8) = j.testBit i) ∧
      (∀ a < w / 8 * h * p, ∃ n < w * h, ∃ i < p,
        planeOffset g (stepCursorN g n Cursor.zero) i = a) ∧
      outside t.mem) ∧
    ∀ k < w * h, (∀ n < k, ∃ j < 2 ^ p, holds j n) →
      ((∀ j, ¬ holds j k) →
        fails .pxr .colour (beRead s.mem (wholeBuf s.mem x) (4 * k) 4)) ∧
      (∀ j, 2 ^ p ≤ j → holds j k → (∀ j' < j, ¬ holds j' k) → fails .bpw .indexWide j)

/-- The round-trip law of the generic codec (R315): for a width that is a multiple of 16, every layout
and plane count, `SEQ.DECODE` of what `SEQ.ENCODE` makes of an image whose colours all stand in the
palette at indices below `2^p` is the image, byte for byte. -/
def Obligations.SeqCodecRoundTrip : Prop :=
  ∀ (s : State) (x slot w h b y : Nat) (p? : Option Nat) (p : Nat) (f : PlaneFormat), memoryOk s →
    0 < w → w % 16 = 0 → 0 < h → 0 < p → p ≤ Config.planesMax → b ≠ x → b ≠ y →
    slot < Config.npal → (slotAt s slot).made = true →
    (p? = some p ∨ p? = none ∧ p = planesFor (slotAt s slot).count ∧ ready .pal s) →
    w / 8 * h * p ≤ (bufAt s.mem b).len → 4 * w * h ≤ (bufAt s.mem x).len →
    4 * w * h ≤ (bufAt s.mem y).len →
    let lut := viewOf (slotAt s slot)
    (∀ k < w * h, ∃ j < 2 ^ p, j < lut.count ∧ (lutAt lut j).set = true ∧
      (lutAt lut j).val.toNat = beRead s.mem (wholeBuf s.mem x) (4 * k) 4) →
    ∃ t t', exec (.seqEncode x slot w h p? f b) s = completes .unit t ∧
      exec (.seqDecode b slot w h p f y) t = completes .unit t' ∧
      ∀ a < 4 * w * h, byteAt t'.mem y a = byteAt s.mem x a

/-- `SEQ.SCAN` of a container of either sub-type whose chunks are good and complete (R317, R330), in
any order, with whatever lies behind it: it completes in ASSEMBLE with what the chunks say, each chunk
overwriting what an earlier one of its tag said and unknown chunks skipped (R323): the header registers
(R318), the mode (R322), the body with its tag's layout (R327), the raster descriptors (R323), the side
channel behind the outer chunk (R324); slot 0 holds the last palette chunk's colours (R322). Nothing
else changes but the chunk reader, which stands bound to the container with one view open. -/
def Obligations.SeqScanCompletes : Prop :=
  ∀ (s : State) (c : Nat) (type : U32) (chunks : List (U32 × List Byte)) (tail : List Byte) (q : Seq),
    let k := Config.codes
    let behind := 12 + (chunks.flatMap paddedChunk).length
    (type = k.typeLine ∨ type = k.typeContig) → behind < 2 ^ 32 →
    bytesOf s.mem (wholeBuf s.mem c) 0 (bufAt s.mem c).len = containerBytes k type chunks [] ++ tail →
    noteChunks k 12 chunks (scanStart s.seq) = .ok q → incomplete q = none →
    ∃ t, exec (.seqScan c) s = completes .unit t ∧
      t.seq = { q with state := .assemble, side := sideOf k behind tail q.side,
                       fault := { s.seq.fault with valid := false } } ∧
      holdsPalette (slotAt t 0) (lastPalette k chunks) ∧
      (∀ slot, slot ≠ 0 → slotAt t slot = slotAt s slot) ∧
      t.pal.fault = { s.pal.fault with valid := false } ∧
      t.ckr.init = true ∧ t.ckr.src = some (wholeBuf s.mem c) ∧ t.ckr.depth = 1 ∧
      t.ckr.fault = { s.ckr.fault with valid := false } ∧
      t = { s with pal := t.pal, ckr := t.ckr, seq := t.seq }

/-- `SEQ.ASSEMBLE` of a raw body, plain indexed (R328, R321, R326, R329): with a palette in slot 0 that
covers the indices and a body of the image's size it completes; pixel `(x, y)` is the palette's 8-bit
colour of the index the planes hold there in the body's layout; no other byte of memory changes. Of the
other units only bindings end: writing units' to the pixel buffer's bytes, readers' to the pixels, and
the chunk reader's to the container (R422; log 20). -/
def Obligations.SeqAssembleRawImage : Prop :=
  ∀ (s : State) (c work x : Nat), ready .seq s → s.seq.state = .assemble →
    let hd := s.seq.hdr
    let w := hd.width.toNat
    let h := hd.height.toNat
    let p := hd.planes.toNat
    let lb := hd.bytesPerLine
    let g := containerGeometry s.seq.body.layout lb h p
    hd.compression = 0 → modeEhb s.seq.mode = false → modeHam s.seq.mode = false →
    rasterPresent s.rpa = false → 0 < w → 0 < h → 0 < p → p ≤ Config.planesMax →
    lb = (w + 15) / 16 * 2 → s.seq.body.base + s.seq.body.len ≤ (bufAt s.mem c).len →
    lb * p * h ≤ s.seq.body.len → c ≠ x → 4 * w * h ≤ (bufAt s.mem x).len →
    (slotAt s 0).made = true → setBelow (slotAt s 0) (2 ^ p) →
    ∃ t, exec (.seqAssemble c work x) s = completes .unit t ∧
      t = { closeContainer (wholeBuf s.mem c)
              (overwrite .pxw [⟨x, 0, 4 * w * h⟩] (claim .pxw (wholeBuf s.mem x) s)) with
              mem := t.mem, bpr := t.bpr, pxw := t.pxw, seq := { s.seq with state := .done } } ∧
      (∀ xx < w, ∀ yy < h, ∀ index < 2 ^ p,
        (∀ i < p, index.testBit i =
          (byteAt s.mem c (s.seq.body.base + planeOffset g
            (stepCursorN g (yy * (8 * lb) + xx) Cursor.zero) i)).getLsbD (7 - xx % 8)) →
        beRead t.mem (wholeBuf s.mem x) (4 * (yy * w + xx)) 4 =
          (lutAt (viewOf (slotAt s 0)) index).val.toNat) ∧
      ∀ id a, (id ≠ x ∨ 4 * w * h ≤ a) → byteAt t.mem id a = byteAt s.mem id a

/-- `SEQ.ASSEMBLE` of a compressed body, plain indexed (R328, R319). Generic RLE: the work buffer
receives the expansion of the body (R226), in the body tag's layout. Strip RLE: the work buffer receives
the planes that the strip chunks of the body emit (R235 to R244), one each, in order, other chunks
skipped, zero where a strip emits nothing, in the contiguous layout. The pixels are the palette's
colours of the planes' indices (R321, R326, R329); no byte outside the two ranges changes. Where the
generic body ends first PBD's `SRC_END` is copied, and with too few strips `PLANES_MISSING` counts them;
then too no byte outside the ranges changes (R385). -/
def Obligations.SeqAssembleBodies : Prop :=
  ∀ (s : State) (c work x : Nat), memoryOk s → ready .seq s → s.seq.state = .assemble →
    let hd := s.seq.hdr
    let body := s.seq.body
    let w := hd.width.toNat
    let h := hd.height.toNat
    let p := hd.planes.toNat
    let lb := hd.bytesPerLine
    let size := lb * p * h
    let bytes := bytesOf s.mem (wholeBuf s.mem c) body.base body.len
    modeEhb s.seq.mode = false → modeHam s.seq.mode = false → rasterPresent s.rpa = false →
    0 < w → 0 < h → 0 < p → p ≤ Config.planesMax → lb = (w + 15) / 16 * 2 →
    body.base + body.len ≤ (bufAt s.mem c).len → work ≠ c → work ≠ x →
    4 * w * h ≤ (bufAt s.mem x).len → size ≤ (bufAt s.mem work).len →
    (slotAt s 0).made = true → setBelow (slotAt s 0) (2 ^ p) →
    let outside := fun (m : Mem) => ∀ id a, (id ≠ x ∨ 4 * w * h ≤ a) → (id ≠ work ∨ size ≤ a) →
      byteAt m id a = byteAt s.mem id a
    let done := fun (planes : List Byte) (layout : BodyLayout) =>
      ∃ t, exec (.seqAssemble c work x) s = completes .unit t ∧
        t.seq = { s.seq with state := .done } ∧
        bytesOf t.mem (wholeBuf s.mem work) 0 size = planes ∧
        (∀ xx < w, ∀ yy < h, beRead t.mem (wholeBuf s.mem x) (4 * (yy * w + xx)) 4 =
          (lutAt (viewOf (slotAt s 0)) (indexAt t.mem (wholeBuf s.mem work)
            (containerGeometry layout lb h p) lb xx yy p)).val.toNat) ∧
        outside t.mem
    let fails := fun (code : FaultCode) (info : Nat) =>
      ∃ t, exec (.seqAssemble c work x) s = .next t ∧ t.reply = .faulted ∧
        t.seq = { s.seq with state := .faulted, fault := raisedReg code info } ∧ outside t.mem
    (hd.compression = 1 →
      (∀ out rest, unpackList body.len bytes size = some (out, rest) → done out body.layout) ∧
      (unpackList body.len bytes size = none → fails .srcEnd body.len)) ∧
    (hd.compression = Config.codes.compStrip → ready .ckr s →
      s.ckr.src = some (wholeBuf s.mem c) → s.ckr.depth ≠ Config.ckDepth →
      ∀ chunks, bytes = chunks.flatMap paddedChunk →
        let strips := stripPayloads Config.codes chunks
        (p ≤ strips.length →
          done ((List.range size).map fun o => stripByte (stripEmits Config.vdatLayout
            (strips.getD (o / (lb * h)) []) (lb / 2 * h)).1 lb h (o % (lb * h))) .contig) ∧
        (strips.length < p → fails .planesMissing strips.length))

/-- The dispatch of `SEQ.ASSEMBLE` over a raw body (R320, R321). Extra-Half-Brite: slot 1 receives the
half-brite palette of slot 0 and is the active one; where `PAL.EHB` faults its fault is copied (R314,
R389), and where it is refused its standing fault (log 16). Raster palettes, if RPA holds any: each line's table is the arbiter's for the line
(R297). Plain and raster: a pixel is its line's table's value of its index. Hold-and-Modify: a pixel is
the current colour after its code, which goes on from line to line (R289, R291, R294); fewer than 3
planes fault with HAM's `BAD_GEOMETRY`. It completes wherever the tables hold the indices they are asked
for, and writes the pixels and nothing else of memory. -/
def Obligations.SeqAssembleDispatch : Prop :=
  ∀ (s : State) (c work x : Nat), ready .seq s → s.seq.state = .assemble →
    let hd := s.seq.hdr
    let body := s.seq.body
    let w := hd.width.toNat
    let h := hd.height.toNat
    let p := hd.planes.toNat
    let lb := hd.bytesPerLine
    let g := containerGeometry body.layout lb h p
    let ehb := modeEhb s.seq.mode
    let ham := modeHam s.seq.mode
    let raster := rasterPresent s.rpa
    let old := slotAt s 0
    let active := if ehb then ehbPalette old else old
    let line := fun y => if raster then
        sget Lut.empty s.rpa.ras (if h ≤ s.rpa.count then y else y * s.rpa.count / h)
      else viewOf active
    let index := fun xx yy => indexAt s.mem ⟨c, body.base, body.len⟩ g lb xx yy p
    let asm := exec (.seqAssemble c work x) s
    let done := fun (colour : Nat → Nat → U32) => ∃ t, asm = completes .unit t ∧
      t.seq = { s.seq with state := .done } ∧
      (∀ slot, slotAt t slot = if ehb = true ∧ slot = 1 then active else slotAt s slot) ∧
      t.rpa = (if raster then { s.rpa with consumer := if ham then .ham else .pxw, height := h }
        else s.rpa) ∧
      (∀ xx < w, ∀ yy < h, beRead t.mem (wholeBuf s.mem x) (4 * (yy * w + xx)) 4 =
        (colour xx yy).toNat) ∧
      ∀ id a, (id ≠ x ∨ 4 * w * h ≤ a) → byteAt t.mem id a = byteAt s.mem id a
    let fails := fun (f : FaultReg) => ∃ t, asm = .next t ∧ t.reply = .faulted ∧
      t.seq = { s.seq with state := .faulted, fault := f } ∧
      ∀ id a, (id ≠ x ∨ 4 * w * h ≤ a) → byteAt t.mem id a = byteAt s.mem id a
    hd.compression = 0 → 0 < w → 0 < h → 0 < p → p ≤ Config.planesMax →
    lb = (w + 15) / 16 * 2 → body.base + body.len ≤ (bufAt s.mem c).len →
    lb * p * h ≤ body.len → c ≠ x → 4 * w * h ≤ (bufAt s.mem x).len →
    (ehb = true → ∀ t, exec (.palEhb 1 0) s = .next t → t.reply = .faulted ∨ t.reply = .refused →
      fails t.pal.fault) ∧
    ((if ehb then ready .pal s ∧ old.made = true ∧ setBelow old 32 else old.made = true) →
      (ham = true → p < 3 → fails (raisedReg .badGeometry p)) ∧
      ((raster = true → s.rpa.fault.valid = false) →
        (ham = false → (∀ xx < w, ∀ yy < h, lutHas (line yy) (index xx yy)) →
          done fun xx yy => (lutAt (line yy) (index xx yy)).val) ∧
        (ham = true → 3 ≤ p →
          (∀ xx < w, ∀ yy < h, index xx yy < 2 ^ (p - 2) → lutHas (line yy) (index xx yy)) →
          done fun xx yy => hamColour line p w (fun n => index (n % w) (n / w)) (yy * w + xx + 1))))

/-- `SEQ.DECODEC` is `SEQ.SCAN` and then `SEQ.ASSEMBLE` (R316), for every container: where the scan
completes it is the assembly, and where the scan faults it faults with the same fault, the pixel buffer
unspecified (log 13) and so written (log 20), every other byte as before. The chunk reader's binding to the container ends with
it, however the assembly ends (R422; log 20). So of a container whose chunks are good and complete, with
a raw body of the image's size, plain indexed, whose palette covers the indices and without raster
palettes, it completes with the image: each pixel the three bytes the palette chunk gives its index and
an alpha of 255 (R329); no other byte of memory changes. -/
def Obligations.SeqDecodecCompletes : Prop :=
  ∀ (s : State) (c work x : Nat),
    let k := Config.codes
    let closed := fun (t : State) => { t with ckr := { t.ckr with
      src := if t.ckr.src = some (wholeBuf s.mem c) then none else t.ckr.src } }
    (match exec (.seqScan c) s with
      | .next t =>
        if t.reply = .done .unit then
          exec (.seqDecodec c work x) s =
            match exec (.seqAssemble c work x) t with
            | .next t' => .next (closed t')
            | .fault f => .fault f
            | .refused r => .refused r
        else
          t.reply = .faulted ∧
          ∃ mem draws, exec (.seqDecodec c work x) s =
            .next { overwrite .seq [wholeBuf s.mem x] t with mem := mem, draws := draws } ∧
            ∀ id a, id ≠ x → byteAt mem id a = byteAt s.mem id a
      | .fault _ => False
      | .refused _ => False) ∧
    ∀ (type : U32) (chunks : List (U32 × List Byte)) (tail : List Byte) (q : Seq),
      (type = k.typeLine ∨ type = k.typeContig) →
      12 + (chunks.flatMap paddedChunk).length < 2 ^ 32 →
      bytesOf s.mem (wholeBuf s.mem c) 0 (bufAt s.mem c).len =
        containerBytes k type chunks [] ++ tail →
      noteChunks k 12 chunks (scanStart s.seq) = .ok q → incomplete q = none →
      let w := q.hdr.width.toNat
      let h := q.hdr.height.toNat
      let p := q.hdr.planes.toNat
      let lb := q.hdr.bytesPerLine
      let pal := lastPalette k chunks
      let index := fun xx yy => indexAt s.mem ⟨c, q.body.base, q.body.len⟩
        (containerGeometry q.body.layout lb h p) lb xx yy p
      q.hdr.compression = 0 → modeEhb q.mode = false → modeHam q.mode = false →
      rasterPresent s.rpa = false → lb * p * h ≤ q.body.len → c ≠ x →
      4 * w * h ≤ (bufAt s.mem x).len → 2 ^ p ≤ pal.length / 3 →
      ∃ t, exec (.seqDecodec c work x) s = completes .unit t ∧ t.ckr.src = none ∧
        t.seq = { q with state := .done, fault := { s.seq.fault with valid := false }
                         side := sideOf k (12 + (chunks.flatMap paddedChunk).length) tail q.side } ∧
        (∀ xx < w, ∀ yy < h, ∀ j < 3,
          byteAt t.mem x (4 * (yy * w + xx) + j) = pal.getD (3 * index xx yy + j) 0) ∧
        (∀ xx < w, ∀ yy < h, byteAt t.mem x (4 * (yy * w + xx) + 3) = 255) ∧
        ∀ id a, (id ≠ x ∨ 4 * w * h ≤ a) → byteAt t.mem id a = byteAt s.mem id a

/-- `SEQ.ENCODEC` (R358; its options are log 21's): under the conditions of `SEQ.ENCODE`, with a palette
whose entries are all set, and room for the container, it completes in DONE with the container's length:
the outer chunk with the layout's sub-type, the header chunk, the mode chunk if asked for, the palette
chunk, and the body chunk under the layout's tag, padded but for the body. The body is the plane bytes
that `SEQ.ENCODE` makes, or, with `compress`, what `PBE.PACK` makes of them line by line. Of memory only
the work buffer, the pack buffer if it is used, and the container change. -/
def Obligations.SeqEncodecCompletes : Prop :=
  ∀ (s : State) (x slot c : Nat) (o : EncOptions) (p : Nat),
    let w := o.width.toNat
    let h := o.height.toNat
    let size := w / 8 * h * p
    let pal := slotAt s slot
    let packMax := h * p * (w / 8 + (w / 8 + 127) / 128)
    let lut := viewOf pal
    memoryOk s → palettesOk s → ready .pal s → 0 < w → w % 16 = 0 → 0 < h → 0 < p →
    p ≤ Config.planesMax → o.workBuf ≠ x → o.workBuf ≠ c → slot < Config.npal → pal.made = true →
    setBelow pal pal.count → (o.planes = some p ∨ o.planes = none ∧ p = planesFor pal.count) →
    size ≤ (bufAt s.mem o.workBuf).len → 4 * w * h ≤ (bufAt s.mem x).len →
    (o.compress = true → o.packBuf ≠ o.workBuf ∧ o.packBuf ≠ c ∧
      packMax ≤ (bufAt s.mem o.packBuf).len) →
    56 + (if o.modeFlags.isSome then 12 else 0) + 3 * pal.count + 3 * pal.count % 2 +
      (if o.compress then packMax else size) ≤ (bufAt s.mem c).len →
    (∀ n < w * h, ∃ j < 2 ^ p, j < lut.count ∧ (lutAt lut j).set = true ∧
      (lutAt lut j).val.toNat = beRead s.mem (wholeBuf s.mem x) (4 * n) 4) →
    ∃ te t planes total,
      exec (.seqEncode x slot w h o.planes (formatOf o.layout) o.workBuf) s = completes .unit te ∧
      planes = bytesOf te.mem (wholeBuf s.mem o.workBuf) 0 size ∧
      total = encodedContainer Config.codes o p pal
        (if o.compress then (packList (w / 8) size planes).flatten else planes) ∧
      exec (.seqEncodec x slot o c) s = completes (.nat total.length) t ∧
      bytesOf t.mem (wholeBuf s.mem c) 0 total.length = total ∧
      t = { withBindings t s with
              mem := t.mem, pxr := t.pxr, bpw := t.bpw, ckw := t.ckw,
              pbe := if o.compress then ⟨{ s.pbe.fault with valid := false }⟩ else s.pbe,
              seq := { s.seq with state := .done, fault := { s.seq.fault with valid := false } } } ∧
      (t.pxw.buf = s.pxw.buf ∨ t.pxw.buf = none) ∧
      ∀ id a, (id ≠ o.workBuf ∨ size ≤ a) → (id ≠ c ∨ total.length ≤ a) →
        (o.compress = false ∨ id ≠ o.packBuf ∨ packMax ≤ a) → byteAt t.mem id a = byteAt s.mem id a
end

