-- ==== Sys2Proof/Laws/Sparse.lean ====
section
/-! SUPPORT. The laws of sparse maps: reading what was put, reading what a list was turned into, the
canonical form kept, and equal reads of canonical maps making equal maps. -/

namespace Sys2Proof.Machine

variable {α : Type} {d : α} {m : List (Nat × α)} {i j : Nat} {v : α}

theorem sget_sdel (d : α) (m : List (Nat × α)) (i j : Nat) :
    sget d (sdel m i) j = if j = i then d else sget d m j := by
  induction m with
  | nil => simp [sdel, sget]
  | cons e m ih =>
    obtain ⟨k, w⟩ := e
    simp only [sdel]
    split
    · rename_i h
      rw [ih]
      split
      · rfl
      · rename_i hj
        have : k ≠ j := fun h' => hj (h'.symm.trans h)
        simp [sget, this]
    · rename_i h
      simp only [sget, ih]
      split
      · rename_i hk
        have : j ≠ i := fun h' => h (hk.trans h')
        simp [this]
      · rfl

theorem sget_sins_self (d : α) (m : List (Nat × α)) (i : Nat) (v : α)
    (h : ∀ e ∈ m, e.1 ≠ i) : sget d (sins m i v) i = v := by
  induction m with
  | nil => simp [sins, sget]
  | cons e m ih =>
    obtain ⟨k, w⟩ := e
    have hk : k ≠ i := h (k, w) (by simp)
    simp only [sins]
    split
    · simp [sget]
    · simp only [sget, hk, if_false]
      exact ih fun e he => h e (by simp [he])

theorem sget_sins_ne (d : α) (m : List (Nat × α)) (i j : Nat) (v : α) (h : j ≠ i) :
    sget d (sins m i v) j = sget d m j := by
  induction m with
  | nil => simp [sins, sget, Ne.symm h]
  | cons e m ih =>
    obtain ⟨k, w⟩ := e
    simp only [sins]
    split
    · simp [sget, Ne.symm h]
    · simp only [sget, ih]

theorem sdel_keys (m : List (Nat × α)) (i : Nat) : ∀ e ∈ sdel m i, e ∈ m ∧ e.1 ≠ i := by
  induction m with
  | nil => simp [sdel]
  | cons e m ih =>
    obtain ⟨k, w⟩ := e
    intro x hx
    simp only [sdel] at hx
    split at hx
    · exact ⟨by simp [(ih x hx).1], (ih x hx).2⟩
    · rename_i hk
      rcases List.mem_cons.mp hx with rfl | hx
      · exact ⟨by simp, hk⟩
      · exact ⟨by simp [(ih x hx).1], (ih x hx).2⟩

/-- What `sput` does to every read, whatever the map. -/
theorem sget_sput [DecidableEq α] (d : α) (m : List (Nat × α)) (i : Nat) (v : α) (j : Nat) :
    sget d (sput d m i v) j = if j = i then v else sget d m j := by
  unfold sput
  split
  · rename_i hv
    rw [sget_sdel, hv]
  · by_cases h : j = i
    · subst h
      simp [sget_sins_self d (sdel m j) j v fun e he => (sdel_keys m j e he).2]
    · simp [sget_sins_ne d _ i j v h, sget_sdel, h]

@[simp] theorem sget_sput_self [DecidableEq α] (d : α) (m : List (Nat × α)) (i : Nat) (v : α) :
    sget d (sput d m i v) i = v := by simp [sget_sput]

theorem sget_sput_ne [DecidableEq α] (d : α) (m : List (Nat × α)) (i : Nat) (v : α) {j : Nat}
    (h : j ≠ i) : sget d (sput d m i v) j = sget d m j := by simp [sget_sput, h]

/-! ### The canonical form -/

/-- Every key is above `lo`, strictly rising, no value the default: the canonical form, said
recursively. -/
def swfFrom [DecidableEq α] (d : α) : Nat → List (Nat × α) → Prop
  | _, [] => True
  | lo, (k, v) :: m => lo ≤ k ∧ v ≠ d ∧ swfFrom d (k + 1) m

theorem swfFrom_mono [DecidableEq α] {lo lo' : Nat} (h : lo' ≤ lo) :
    swfFrom d lo m → swfFrom d lo' m := by
  cases m with
  | nil => exact id
  | cons e m => exact fun ⟨a, b, c⟩ => ⟨le_trans h a, b, c⟩

theorem swf_iff [DecidableEq α] (d : α) (m : List (Nat × α)) :
    swf d m = true ↔ swfFrom d 0 m := by
  have key : ∀ (m : List (Nat × α)) (lo : Nat), (swf d m = true ∧ ∀ e ∈ m.head?, lo ≤ e.1) ↔
      swfFrom d lo m := by
    intro m
    induction m with
    | nil => simp [swf, swfFrom]
    | cons e m ih =>
      intro lo
      obtain ⟨k, v⟩ := e
      cases m with
      | nil => simp [swf, swfFrom, and_comm]
      | cons e' m =>
        obtain ⟨k', v'⟩ := e'
        have := ih (k + 1)
        simp only [List.head?_cons, Option.mem_some_iff, forall_eq'] at this ⊢
        simp only [swf, Bool.and_eq_true, decide_eq_true_eq, swfFrom] at this ⊢
        constructor
        · rintro ⟨⟨⟨h1, h2⟩, h3⟩, h4⟩
          exact ⟨h4, h1, this.mp ⟨h3, h2⟩⟩
        · rintro ⟨h4, h1, h⟩
          have := this.mpr h
          exact ⟨⟨⟨h1, this.2⟩, this.1⟩, h4⟩
  have := key m 0
  simpa using this

theorem swfFrom_lower [DecidableEq α] : ∀ {m : List (Nat × α)} {lo : Nat}, swfFrom d lo m →
    ∀ e ∈ m, lo ≤ e.1 ∧ e.2 ≠ d := by
  intro m
  induction m with
  | nil => simp
  | cons e m ih =>
    obtain ⟨k, v⟩ := e
    rintro lo ⟨h1, h2, h3⟩ x hx
    rcases List.mem_cons.mp hx with rfl | hx
    · exact ⟨h1, h2⟩
    · exact ⟨by have := (ih h3 x hx).1; omega, (ih h3 x hx).2⟩

theorem swfFrom_sdel [DecidableEq α] : ∀ {m : List (Nat × α)} {lo : Nat} (i : Nat),
    swfFrom d lo m → swfFrom d lo (sdel m i) := by
  intro m
  induction m with
  | nil => exact fun _ h => h
  | cons e m ih =>
    obtain ⟨k, v⟩ := e
    rintro lo i ⟨h1, h2, h3⟩
    simp only [sdel]
    split
    · exact ih i (swfFrom_mono (by omega) h3)
    · exact ⟨h1, h2, ih i h3⟩

theorem swfFrom_sins [DecidableEq α] : ∀ {m : List (Nat × α)} {lo : Nat} {i : Nat} {v : α},
    v ≠ d → lo ≤ i → (∀ e ∈ m, e.1 ≠ i) → swfFrom d lo m → swfFrom d lo (sins m i v) := by
  intro m
  induction m with
  | nil => exact fun hv hi _ _ => ⟨hi, hv, trivial⟩
  | cons e m ih =>
    obtain ⟨k, w⟩ := e
    rintro lo i v hv hi hne ⟨h1, h2, h3⟩
    have hk : k ≠ i := hne (k, w) (by simp)
    simp only [sins]
    split
    · rename_i hlt
      exact ⟨hi, hv, by omega, h2, h3⟩
    · exact ⟨h1, h2, ih hv (by omega) (fun e he => hne e (by simp [he])) h3⟩

/-- Every operation that stores keeps the canonical form. -/
theorem swf_sput [DecidableEq α] (h : swf d m = true) (i : Nat) (v : α) :
    swf d (sput d m i v) = true := by
  rw [swf_iff] at h ⊢
  unfold sput
  split
  · exact swfFrom_sdel i h
  · rename_i hv
    exact swfFrom_sins hv (Nat.zero_le _) (fun e he => (sdel_keys m i e he).2)
      (swfFrom_sdel i h)

/-- The entries of a map after `sput`: the new one, or an old one of another key. -/
theorem mem_sput [DecidableEq α] {e : Nat × α} (h : e ∈ sput d m i v) :
    (e = (i, v) ∧ v ≠ d) ∨ (e ∈ m ∧ e.1 ≠ i) := by
  have hins : ∀ {m : List (Nat × α)} {e : Nat × α}, e ∈ sins m i v → e = (i, v) ∨ e ∈ m := by
    intro m
    induction m with
    | nil => simp [sins]
    | cons x m ih =>
      obtain ⟨k, w⟩ := x
      intro e he
      simp only [sins] at he
      split at he
      · rcases List.mem_cons.mp he with rfl | he
        · exact .inl rfl
        · exact .inr he
      · rcases List.mem_cons.mp he with rfl | he
        · exact .inr (by simp)
        · exact (ih he).imp id fun h => by simp [h]
  unfold sput at h
  split at h
  · exact .inr (sdel_keys m i e h)
  · rename_i hv
    rcases hins h with rfl | h
    · exact .inl ⟨rfl, hv⟩
    · exact .inr (sdel_keys m i e h)

theorem sget_of_lower [DecidableEq α] : ∀ {m : List (Nat × α)} {lo : Nat}, swfFrom d lo m →
    ∀ {i}, i < lo → sget d m i = d := by
  intro m
  induction m with
  | nil => exact fun _ _ _ => rfl
  | cons e m ih =>
    obtain ⟨k, v⟩ := e
    rintro lo ⟨h1, _, h3⟩ i hi
    simp only [sget]
    split
    · omega
    · exact ih h3 (by omega)

/-- An entry of a canonical map is what its key reads as. -/
theorem sget_of_mem [DecidableEq α] (h : swf d m = true) {e : Nat × α} (he : e ∈ m) :
    sget d m e.1 = e.2 := by
  rw [swf_iff] at h
  have key : ∀ {m : List (Nat × α)} {lo : Nat}, swfFrom d lo m → ∀ e ∈ m, sget d m e.1 = e.2 := by
    intro m
    induction m with
    | nil => simp
    | cons x m ih =>
      obtain ⟨k, v⟩ := x
      rintro lo ⟨_, _, h3⟩ e he
      rcases List.mem_cons.mp he with rfl | he
      · simp [sget]
      · have hk : k ≠ e.1 := by have := (swfFrom_lower h3 e he).1; omega
        simp [sget, hk, ih h3 e he]
  exact key h e he

/-- A key that does not read as the default is listed. -/
theorem mem_of_sget_ne (h : sget d m i ≠ d) : (i, sget d m i) ∈ m := by
  induction m with
  | nil => exact absurd rfl h
  | cons e m ih =>
    obtain ⟨k, v⟩ := e
    simp only [sget] at h ⊢
    split
    · rename_i hk
      simp [hk]
    · rename_i hk
      simp only [hk, if_false] at h
      exact List.mem_cons_of_mem _ (ih h)

/-- Canonical maps with equal reads are equal. -/
theorem sparse_ext [DecidableEq α] : ∀ {m m' : List (Nat × α)}, swf d m = true →
    swf d m' = true → (∀ i, sget d m i = sget d m' i) → m = m' := by
  have key : ∀ (m m' : List (Nat × α)) (lo : Nat), swfFrom d lo m → swfFrom d lo m' →
      (∀ i, sget d m i = sget d m' i) → m = m' := by
    intro m
    induction m with
    | nil =>
      intro m' lo _ h' h
      cases m' with
      | nil => rfl
      | cons e m' =>
        obtain ⟨k, v⟩ := e
        have := h k
        simp only [sget, if_true] at this
        exact absurd this.symm h'.2.1
    | cons e m ih =>
      intro m' lo hm h' h
      obtain ⟨k, v⟩ := e
      cases m' with
      | nil =>
        have := h k
        simp only [sget, if_true] at this
        exact absurd this hm.2.1
      | cons e' m' =>
        obtain ⟨k', v'⟩ := e'
        have hk : k = k' := by
          rcases Nat.lt_trichotomy k k' with hlt | heq | hlt
          · have := h k
            rw [sget_of_lower (m := (k', v') :: m') (lo := k') ⟨le_rfl, h'.2⟩ hlt] at this
            simp only [sget, if_true] at this
            exact absurd this hm.2.1
          · exact heq
          · have := h k'
            rw [sget_of_lower (m := (k, v) :: m) (lo := k) ⟨le_rfl, hm.2⟩ hlt] at this
            simp only [sget, if_true] at this
            exact absurd this.symm h'.2.1
        subst hk
        have hv : v = v' := by simpa [sget] using h k
        subst hv
        rw [ih m' (k + 1) hm.2.2 h'.2.2 fun i => ?_]
        by_cases hi : k = i
        · subst hi
          rw [sget_of_lower hm.2.2 (Nat.lt_succ_self _), sget_of_lower h'.2.2 (Nat.lt_succ_self _)]
        · simpa [sget, hi] using h i
  intro m m' hm hm' h
  exact key m m' 0 ((swf_iff d m).mp hm) ((swf_iff d m').mp hm') h

/-! ### Maps made from lists -/

theorem swfFrom_sofFrom [DecidableEq α] : ∀ (vs : List α) (i : Nat),
    swfFrom d i (sofFrom d i vs) := by
  intro vs
  induction vs with
  | nil => exact fun _ => trivial
  | cons v vs ih =>
    intro i
    simp only [sofFrom]
    split
    · exact swfFrom_mono (Nat.le_succ i) (ih (i + 1))
    · rename_i hv
      exact ⟨le_rfl, hv, ih (i + 1)⟩

theorem swf_sofFrom [DecidableEq α] (d : α) (i : Nat) (vs : List α) :
    swf d (sofFrom d i vs) = true :=
  (swf_iff d _).mpr (swfFrom_mono (Nat.zero_le i) (swfFrom_sofFrom vs i))

theorem swf_stabulate [DecidableEq α] (d : α) (n : Nat) (f : Nat → α) :
    swf d (stabulate d n f) = true := swf_sofFrom d 0 _

/-- Reading a map made from a list: the list's value at that place, the default outside it. -/
theorem sget_sofFrom [DecidableEq α] (d : α) : ∀ (vs : List α) (i j : Nat),
    sget d (sofFrom d i vs) j = if i ≤ j then vs.getD (j - i) d else d := by
  intro vs
  induction vs with
  | nil => intro i j; simp [sofFrom, sget]
  | cons v vs ih =>
    intro i j
    simp only [sofFrom]
    split
    · rename_i hv
      rw [ih]
      split
      · rename_i h
        have : j - i = (j - (i + 1)) + 1 := by omega
        rw [this]
        simp [show i ≤ j by omega]
      · rename_i h
        split
        · rename_i h'
          have : j - i = 0 := by omega
          simp [this, hv]
        · rfl
    · simp only [sget]
      split
      · rename_i h
        simp [h]
      · rename_i h
        rw [ih]
        split
        · rename_i h'
          have : j - i = (j - (i + 1)) + 1 := by omega
          rw [this]
          simp [show i ≤ j by omega]
        · rename_i h'
          simp [show ¬ i ≤ j by omega]

theorem sget_stabulate [DecidableEq α] (d : α) (n : Nat) (f : Nat → α) (i : Nat) :
    sget d (stabulate d n f) i = if i < n then f i else d := by
  unfold stabulate
  rw [sget_sofFrom]
  simp only [Nat.zero_le, if_true, Nat.sub_zero]
  split
  · rename_i h
    simp [List.getD, h]
  · rename_i h
    simp [List.getD, h]

/-- The entries of a map made from a list. -/
theorem mem_sofFrom [DecidableEq α] : ∀ {vs : List α} {i : Nat} {e : Nat × α},
    e ∈ sofFrom d i vs → i ≤ e.1 ∧ e.1 < i + vs.length ∧ e.2 ∈ vs ∧ e.2 ≠ d := by
  intro vs
  induction vs with
  | nil => intro i e h; simp [sofFrom] at h
  | cons v vs ih =>
    intro i e h
    simp only [sofFrom] at h
    split at h
    · have := ih h
      exact ⟨by omega, by simp only [List.length_cons]; omega, by simp [this.2.2.1], this.2.2.2⟩
    · rename_i hv
      rcases List.mem_cons.mp h with rfl | h
      · exact ⟨le_rfl, by simp, by simp, hv⟩
      · have := ih h
        exact ⟨by omega, by simp only [List.length_cons]; omega, by simp [this.2.2.1],
          this.2.2.2⟩

theorem mem_stabulate [DecidableEq α] {n : Nat} {f : Nat → α} {e : Nat × α}
    (h : e ∈ stabulate d n f) : e.1 < n ∧ e.2 = f e.1 ∧ e.2 ≠ d := by
  have h1 := mem_sofFrom h
  have h2 := sget_of_mem (swf_stabulate d n f) h
  rw [sget_stabulate] at h2
  have hn : e.1 < n := by simpa using h1.2.1
  exact ⟨hn, by simpa [hn] using h2.symm, h1.2.2.2⟩

end Sys2Proof.Machine
end

