-- ==== Sys2Proof/Laws/Memory.lean ====
section
/-! SUPPORT. The laws of the host's buffers: what each write changes and leaves, lengths kept, the
canonical form kept. `Writes` says once what any memory operation can do: a chain of byte writes. -/

namespace Sys2Proof.Machine

variable {m m' : Mem} {r : BufRef} {id a off n v d : Nat}

/-! ### One byte -/

theorem bufAt_setByte (m : Mem) (id off : Nat) (v : Byte) (id' : Nat) :
    bufAt (setByte m id off v) id' =
      if id' = id ∧ off < (bufAt m id).len then
        { bufAt m id with cells := sput 0 (bufAt m id).cells off v }
      else bufAt m id' := by
  by_cases h : off < (bufAt m id).len
  · simp only [setByte, h, if_true, and_true]
    show sget Buffer.empty (sput Buffer.empty m id _) id' = _
    rw [sget_sput]
    rfl
  · simp [setByte, h]

@[simp] theorem len_setByte (m : Mem) (id off : Nat) (v : Byte) (id' : Nat) :
    (bufAt (setByte m id off v) id').len = (bufAt m id').len := by
  rw [bufAt_setByte]
  split
  · rename_i h
    rw [h.1]
  · rfl

/-- Read after write: the byte written, and every other byte as before. -/
theorem byteAt_setByte (m : Mem) (id off : Nat) (v : Byte) (id' off' : Nat) :
    byteAt (setByte m id off v) id' off' =
      if id' = id ∧ off' = off ∧ off < (bufAt m id).len then v else byteAt m id' off' := by
  unfold byteAt
  rw [bufAt_setByte]
  by_cases h : id' = id ∧ off < (bufAt m id).len
  · obtain ⟨rfl, h2⟩ := h
    simp only [h2, and_self, if_true, and_true, true_and]
    rw [sget_sput]
  · rw [if_neg h, if_neg fun h' => h ⟨h'.1, h'.2.2⟩]

theorem Buffer.wf_iff (b : Buffer) : Buffer.wf b = true ↔
    b.len < Config.bufLimit ∧ swf 0 b.cells = true ∧ ∀ c ∈ b.cells, c.1 < b.len := by
  simp [Buffer.wf, and_assoc]

theorem Memory.wf_iff (m : Mem) : Memory.wf m = true ↔
    swf Buffer.empty m = true ∧ ∀ e ∈ m, Buffer.wf e.2 = true := by
  simp [Memory.wf]

theorem Memory.wf_bufAt (h : Memory.wf m = true) (id : Nat) : Buffer.wf (bufAt m id) = true := by
  by_cases he : bufAt m id = Buffer.empty
  · rw [he]; rfl
  · exact ((Memory.wf_iff m).mp h).2 _ (mem_of_sget_ne he)

/-- A byte write keeps the canonical form. -/
theorem Memory.wf_setByte (h : Memory.wf m = true) (id off : Nat) (v : Byte) :
    Memory.wf (setByte m id off v) = true := by
  unfold setByte
  split
  · rename_i hlt
    rw [Memory.wf_iff] at h ⊢
    refine ⟨swf_sput h.1 _ _, fun e he => ?_⟩
    rcases mem_sput he with ⟨rfl, -⟩ | ⟨he, -⟩
    · have hb := (Buffer.wf_iff _).mp (Memory.wf_bufAt ((Memory.wf_iff m).mpr h) id)
      refine (Buffer.wf_iff _).mpr ⟨hb.1, swf_sput hb.2.1 _ _, fun c hc => ?_⟩
      rcases mem_sput hc with ⟨rfl, -⟩ | ⟨hc, -⟩
      · exact hlt
      · exact hb.2.2 c hc
    · exact h.2 e he
  · exact h

/-! ### Chains of byte writes -/

/-- `m'` is `m` after a chain of byte writes, each at a place of `P`. -/
inductive Writes (P : Nat → Nat → Prop) : Mem → Mem → Prop
  | refl (m : Mem) : Writes P m m
  | step {m m' : Mem} (id off : Nat) (v : Byte) : Writes P m m' → P id off →
      Writes P m (setByte m' id off v)

variable {P Q : Nat → Nat → Prop}

theorem Writes.trans {m1 m2 m3 : Mem} (h1 : Writes P m1 m2) (h2 : Writes P m2 m3) :
    Writes P m1 m3 := by
  induction h2 with
  | refl => exact h1
  | step id off v _ hp ih => exact .step id off v ih hp

theorem Writes.mono (h : Writes P m m') (hpq : ∀ id off, P id off → Q id off) :
    Writes Q m m' := by
  induction h with
  | refl => exact .refl _
  | step id off v _ hp ih => exact .step id off v ih (hpq _ _ hp)

theorem Writes.one (m : Mem) (v : Byte) (h : P id off) : Writes P m (setByte m id off v) :=
  .step id off v (.refl m) h

/-- A chain of writes changes no byte outside its places. -/
theorem Writes.byteAt_eq (h : Writes P m m') (ho : ¬ P id off) :
    byteAt m' id off = byteAt m id off := by
  induction h with
  | refl => rfl
  | step id' off' v _ hp ih =>
    rw [byteAt_setByte, if_neg, ih]
    rintro ⟨rfl, rfl, -⟩
    exact ho hp

/-- A chain of writes leaves a buffer none of its places is in. -/
theorem Writes.bufAt_eq (h : Writes P m m') (ho : ∀ off, ¬ P id off) :
    bufAt m' id = bufAt m id := by
  induction h with
  | refl => rfl
  | step id' off' v _ hp ih =>
    rw [bufAt_setByte, if_neg, ih]
    rintro ⟨rfl, -⟩
    exact ho _ hp

/-- No write changes a buffer's length. -/
theorem Writes.len_eq (h : Writes P m m') (id : Nat) :
    (bufAt m' id).len = (bufAt m id).len := by
  induction h with
  | refl => rfl
  | step _ _ _ _ _ ih => rw [len_setByte, ih]

/-- Every chain of writes keeps the canonical form. -/
theorem Writes.wf (h : Writes P m m') (hm : Memory.wf m = true) : Memory.wf m' = true := by
  induction h with
  | refl => exact hm
  | step id off v _ _ ih => exact Memory.wf_setByte ih id off v

/-- The place of offsets `[lo, hi)` of a bound buffer. -/
def inRange (r : BufRef) (lo hi : Nat) (id off : Nat) : Prop :=
  id = r.id ∧ r.base + lo ≤ off ∧ off < r.base + hi

theorem inRange_mono {lo hi lo' hi' : Nat} (h1 : lo' ≤ lo) (h2 : hi ≤ hi') :
    inRange r lo hi id off → inRange r lo' hi' id off := by
  rintro ⟨a, b, c⟩
  exact ⟨a, by omega, by omega⟩

theorem writes_beWrite (m : Mem) (r : BufRef) (off : Nat) : ∀ n v,
    Writes (inRange r off (off + n)) m (beWrite m r off n v)
  | 0, _ => .refl m
  | n + 1, v =>
    .step _ _ _
      ((writes_beWrite m r off n (v / 256)).mono fun _ _ => inRange_mono le_rfl (by omega))
      ⟨rfl, by omega, by omega⟩

theorem writes_zeroRange (m : Mem) (r : BufRef) (off : Nat) : ∀ n,
    Writes (inRange r off (off + n)) m (zeroRange m r off n)
  | 0 => .refl m
  | n + 1 =>
    .step _ _ _ ((writes_zeroRange m r off n).mono fun _ _ => inRange_mono le_rfl (by omega))
      ⟨rfl, by omega, by omega⟩

theorem writes_freeRange (m : Mem) (r : BufRef) (off d : Nat) : ∀ n,
    Writes (inRange r off (off + n)) m (freeRange m r off d n)
  | 0 => .refl m
  | n + 1 =>
    .step _ _ _ ((writes_freeRange m r off d n).mono fun _ _ => inRange_mono le_rfl (by omega))
      ⟨rfl, by omega, by omega⟩

theorem writes_writeBytes (r : BufRef) : ∀ (vs : List Byte) (m : Mem) (off : Nat),
    Writes (inRange r off (off + vs.length)) m (writeBytes m r off vs)
  | [], m, _ => .refl m
  | v :: vs, m, off => by
    have h := writes_writeBytes r vs (setByte m r.id (r.base + off) v) (off + 1)
    refine Writes.trans (Writes.one m v ⟨rfl, by omega, by simp⟩) (h.mono fun _ _ => ?_)
    exact inRange_mono (by omega) (by simp; omega)

theorem writes_orPlanes (m : Mem) (r : BufRef) (g : Geometry) (c : Cursor) (index : Nat) : ∀ n,
    Writes (fun id off => id = r.id ∧ ∃ i < n, index.testBit i = true ∧
      off = r.base + planeOffset g c i) m (orPlanes m r g c index n)
  | 0 => .refl m
  | n + 1 => by
    have h := (writes_orPlanes m r g c index n).mono (Q := fun id off => id = r.id ∧ ∃ i < n + 1,
      index.testBit i = true ∧ off = r.base + planeOffset g c i)
      fun _ _ ⟨h1, i, h2, h3⟩ => ⟨h1, i, by omega, h3⟩
    simp only [orPlanes]
    split
    · rename_i hb
      exact .step _ _ _ h ⟨rfl, n, by omega, hb, rfl⟩
    · exact h

theorem writes_startChunk (m : Mem) (r : BufRef) (pos : Nat) (tag : U32) :
    Writes (inRange r pos (evenUp pos + 8)) m (startChunkMem m r pos tag) := by
  have he : pos ≤ evenUp pos := by unfold evenUp; omega
  have h1 : Writes (inRange r pos (evenUp pos + 8)) m
      (if pos % 2 = 1 then beWrite m r pos 1 0 else m) := by
    split
    · rename_i h
      refine (writes_beWrite m r pos 1 0).mono fun _ _ => inRange_mono le_rfl ?_
      unfold evenUp
      omega
    · exact .refl m
  exact (h1.trans ((writes_beWrite _ r (evenUp pos) 4 tag.toNat).mono
    fun _ _ => inRange_mono he (by omega))).trans
      ((writes_beWrite _ r (evenUp pos + 4) 4 0).mono
        fun _ _ => inRange_mono (by omega) (by omega))

/-! ### Big-endian numbers -/

/-- The bytes a big-endian write leaves, in a window that lies inside its buffer. -/
theorem refByte_beWrite (m : Mem) (r : BufRef) (off : Nat) (hr : refOk m r) : ∀ n v k,
    off + n ≤ r.len → k < n →
      refByte (beWrite m r off n v) r (off + k) = BitVec.ofNat 8 (v / 256 ^ (n - 1 - k))
  | 0, _, _, _, hk => absurd hk (Nat.not_lt_zero _)
  | n + 1, v, k, hn, hk => by
    simp only [beWrite, refByte, byteAt_setByte]
    have hlen : r.base + (off + n) < (bufAt (beWrite m r off n (v / 256)) r.id).len := by
      rw [(writes_beWrite m r off n (v / 256)).len_eq]
      rcases hr with h | h <;> omega
    by_cases hkn : k = n
    · subst hkn
      simp [hlen]
    · have hk' : k < n := by omega
      rw [if_neg (by omega)]
      have ih := refByte_beWrite m r off hr n (v / 256) k (by omega) hk'
      simp only [refByte] at ih
      rw [ih, Nat.div_div_eq_div_mul, show n + 1 - 1 - k = n - 1 - k + 1 by omega, pow_succ,
        Nat.mul_comm]

theorem beRead_lt (m : Mem) (r : BufRef) (off : Nat) : ∀ n, beRead m r off n < 256 ^ n
  | 0 => by simp [beRead]
  | n + 1 => by
    have h := beRead_lt m r off n
    have hb := (refByte m r (off + n)).isLt
    simp only [beRead, pow_succ]
    omega

theorem beRead_congr {m m' : Mem} {r r' : BufRef} {off off' : Nat} : ∀ n,
    (∀ k < n, refByte m r (off + k) = refByte m' r' (off' + k)) →
      beRead m r off n = beRead m' r' off' n
  | 0, _ => rfl
  | n + 1, h => by
    simp only [beRead]
    rw [beRead_congr n fun k hk => h k (by omega), h n (by omega)]

/-- Read after write of a whole number. -/
theorem beRead_beWrite (m : Mem) (r : BufRef) (off : Nat) (hr : refOk m r) : ∀ n v,
    off + n ≤ r.len → v < 256 ^ n → beRead (beWrite m r off n v) r off n = v
  | 0, v, _, hv => by
    simp only [pow_zero, Nat.lt_one_iff] at hv
    simp [beRead, hv]
  | n + 1, v, hn, hv => by
    have h1 := refByte_beWrite m r off hr (n + 1) v n hn (by omega)
    have h2 : beRead (beWrite m r off (n + 1) v) r off n =
        beRead (beWrite m r off n (v / 256)) r off n :=
      beRead_congr n fun k hk => by
        rw [refByte_beWrite m r off hr (n + 1) v k hn (by omega),
          refByte_beWrite m r off hr n (v / 256) k (by omega) hk, Nat.div_div_eq_div_mul,
          show n + 1 - 1 - k = n - 1 - k + 1 by omega, pow_succ, Nat.mul_comm]
    have h3 := beRead_beWrite m r off hr n (v / 256) (by omega) (by
      rw [pow_succ] at hv
      omega)
    simp only [beRead]
    rw [h2, h3, h1]
    simp
    omega

theorem refOk_of_len {m m' : Mem} {r : BufRef}
    (h : (bufAt m' r.id).len = (bufAt m r.id).len) : refOk m' r ↔ refOk m r := by
  unfold refOk
  rw [h]

theorem refOk_wholeBuf (m : Mem) (id : Nat) : refOk m (wholeBuf m id) := by
  right
  simp [wholeBuf]

theorem refOk_windowOf (h : refOk m r) (base len : Nat) : refOk m (windowOf r base len) := by
  unfold refOk windowOf at *
  simp only
  omega

theorem refOk_none (m : Mem) : refOk m (refOf none) := .inl rfl

end Sys2Proof.Machine
end

