-- ==== Sys2Proof/Laws/State.lean ====
section
/-! SUPPORT. One lemma per field per update of the state (Machine/Ops.lean, Machine/Palette.lean,
Machine/ChunkReader.lean, Machine/Sequencer.lean), so that no proof unfolds a record update. -/

namespace Sys2Proof.Machine

variable (u v : UnitId) (f g : FaultReg) (s t : State)

/-! ### Writing a fault register -/

@[simp] theorem faultOf_withFault : faultOf u (withFault u f s) = f := by cases u <;> rfl

theorem faultOf_withFault_ne (h : u ≠ v) : faultOf u (withFault v f s) = faultOf u s := by
  cases u <;> cases v <;> first | rfl | exact absurd rfl h

@[simp] theorem withFault_withFault : withFault u f (withFault u g s) = withFault u f s := by
  cases u <;> rfl

@[simp] theorem withFault_faultOf : withFault u (faultOf u s) s = s := by cases u <;> rfl

@[simp] theorem initOf_withFault : initOf v (withFault u f s) = initOf v s := by
  cases u <;> cases v <;> rfl

@[simp] theorem withFault_mem : (withFault u f s).mem = s.mem := by cases u <;> rfl
@[simp] theorem withFault_pending : (withFault u f s).pending = s.pending := by cases u <;> rfl
@[simp] theorem withFault_reply : (withFault u f s).reply = s.reply := by cases u <;> rfl
@[simp] theorem withFault_draws : (withFault u f s).draws = s.draws := by cases u <;> rfl
@[simp] theorem withFault_pal_slots : (withFault u f s).pal.slots = s.pal.slots := by
  cases u <;> rfl
@[simp] theorem withFault_bpr_init : (withFault u f s).bpr.init = s.bpr.init := by cases u <;> rfl
@[simp] theorem withFault_bpr_geom : (withFault u f s).bpr.geom = s.bpr.geom := by cases u <;> rfl
@[simp] theorem withFault_bpr_cur : (withFault u f s).bpr.cur = s.bpr.cur := by cases u <;> rfl
@[simp] theorem withFault_bpr_buf : (withFault u f s).bpr.buf = s.bpr.buf := by cases u <;> rfl
@[simp] theorem withFault_bpr_cache : (withFault u f s).bpr.cache = s.bpr.cache := by
  cases u <;> rfl
@[simp] theorem withFault_bpw_init : (withFault u f s).bpw.init = s.bpw.init := by cases u <;> rfl
@[simp] theorem withFault_bpw_geom : (withFault u f s).bpw.geom = s.bpw.geom := by cases u <;> rfl
@[simp] theorem withFault_bpw_cur : (withFault u f s).bpw.cur = s.bpw.cur := by cases u <;> rfl
@[simp] theorem withFault_bpw_buf : (withFault u f s).bpw.buf = s.bpw.buf := by cases u <;> rfl
@[simp] theorem withFault_pxr_init : (withFault u f s).pxr.init = s.pxr.init := by cases u <;> rfl
@[simp] theorem withFault_pxr_buf : (withFault u f s).pxr.buf = s.pxr.buf := by cases u <;> rfl
@[simp] theorem withFault_pxr_pos : (withFault u f s).pxr.pos = s.pxr.pos := by cases u <;> rfl
@[simp] theorem withFault_pxr_lut : (withFault u f s).pxr.lut = s.pxr.lut := by cases u <;> rfl
@[simp] theorem withFault_pxw_init : (withFault u f s).pxw.init = s.pxw.init := by cases u <;> rfl
@[simp] theorem withFault_pxw_buf : (withFault u f s).pxw.buf = s.pxw.buf := by cases u <;> rfl
@[simp] theorem withFault_pxw_pos : (withFault u f s).pxw.pos = s.pxw.pos := by cases u <;> rfl
@[simp] theorem withFault_pxw_lut : (withFault u f s).pxw.lut = s.pxw.lut := by cases u <;> rfl
@[simp] theorem withFault_pbd_src : (withFault u f s).pbd.src = s.pbd.src := by cases u <;> rfl
@[simp] theorem withFault_pbd_dst : (withFault u f s).pbd.dst = s.pbd.dst := by cases u <;> rfl
@[simp] theorem withFault_pbd_sp : (withFault u f s).pbd.sp = s.pbd.sp := by cases u <;> rfl
@[simp] theorem withFault_pbd_dbase : (withFault u f s).pbd.dbase = s.pbd.dbase := by
  cases u <;> rfl
@[simp] theorem withFault_pbd_outSize : (withFault u f s).pbd.outSize = s.pbd.outSize := by
  cases u <;> rfl
@[simp] theorem withFault_pbd_produced : (withFault u f s).pbd.produced = s.pbd.produced := by
  cases u <;> rfl
@[simp] theorem withFault_vdd_src : (withFault u f s).vdd.src = s.vdd.src := by cases u <;> rfl
@[simp] theorem withFault_vdd_dst : (withFault u f s).vdd.dst = s.vdd.dst := by cases u <;> rfl
@[simp] theorem withFault_vdd_cp : (withFault u f s).vdd.cp = s.vdd.cp := by cases u <;> rfl
@[simp] theorem withFault_vdd_cend : (withFault u f s).vdd.cend = s.vdd.cend := by cases u <;> rfl
@[simp] theorem withFault_vdd_dp : (withFault u f s).vdd.dp = s.vdd.dp := by cases u <;> rfl
@[simp] theorem withFault_vdd_rend : (withFault u f s).vdd.rend = s.vdd.rend := by cases u <;> rfl
@[simp] theorem withFault_vdd_dbase : (withFault u f s).vdd.dbase = s.vdd.dbase := by
  cases u <;> rfl
@[simp] theorem withFault_vdd_bytesPerLine :
    (withFault u f s).vdd.bytesPerLine = s.vdd.bytesPerLine := by cases u <;> rfl
@[simp] theorem withFault_vdd_h : (withFault u f s).vdd.h = s.vdd.h := by cases u <;> rfl
@[simp] theorem withFault_vdd_x : (withFault u f s).vdd.x = s.vdd.x := by cases u <;> rfl
@[simp] theorem withFault_vdd_y : (withFault u f s).vdd.y = s.vdd.y := by cases u <;> rfl
@[simp] theorem withFault_vdd_status : (withFault u f s).vdd.status = s.vdd.status := by
  cases u <;> rfl
@[simp] theorem withFault_ckr_init : (withFault u f s).ckr.init = s.ckr.init := by cases u <;> rfl
@[simp] theorem withFault_ckr_src : (withFault u f s).ckr.src = s.ckr.src := by cases u <;> rfl
@[simp] theorem withFault_ckr_depth : (withFault u f s).ckr.depth = s.ckr.depth := by
  cases u <;> rfl
@[simp] theorem withFault_ckr_views : (withFault u f s).ckr.views = s.ckr.views := by
  cases u <;> rfl
@[simp] theorem withFault_ham_init : (withFault u f s).ham.init = s.ham.init := by cases u <;> rfl
@[simp] theorem withFault_ham_planes : (withFault u f s).ham.planes = s.ham.planes := by
  cases u <;> rfl
@[simp] theorem withFault_ham_cur : (withFault u f s).ham.cur = s.ham.cur := by cases u <;> rfl
@[simp] theorem withFault_ham_curSet : (withFault u f s).ham.curSet = s.ham.curSet := by
  cases u <;> rfl
@[simp] theorem withFault_ham_lut : (withFault u f s).ham.lut = s.ham.lut := by cases u <;> rfl
@[simp] theorem withFault_rpa_init : (withFault u f s).rpa.init = s.rpa.init := by cases u <;> rfl
@[simp] theorem withFault_rpa_count : (withFault u f s).rpa.count = s.rpa.count := by
  cases u <;> rfl
@[simp] theorem withFault_rpa_height : (withFault u f s).rpa.height = s.rpa.height := by
  cases u <;> rfl
@[simp] theorem withFault_rpa_ras : (withFault u f s).rpa.ras = s.rpa.ras := by cases u <;> rfl
@[simp] theorem withFault_rpa_consumer : (withFault u f s).rpa.consumer = s.rpa.consumer := by
  cases u <;> rfl
@[simp] theorem withFault_seq_state : (withFault u f s).seq.state = s.seq.state := by
  cases u <;> rfl
@[simp] theorem withFault_seq_hdr : (withFault u f s).seq.hdr = s.seq.hdr := by cases u <;> rfl
@[simp] theorem withFault_seq_mode : (withFault u f s).seq.mode = s.seq.mode := by cases u <;> rfl
@[simp] theorem withFault_seq_body : (withFault u f s).seq.body = s.seq.body := by cases u <;> rfl
@[simp] theorem withFault_seq_palPresent :
    (withFault u f s).seq.palPresent = s.seq.palPresent := by cases u <;> rfl
@[simp] theorem withFault_seq_side : (withFault u f s).seq.side = s.seq.side := by cases u <;> rfl
@[simp] theorem withFault_ckw_init : (withFault u f s).ckw.init = s.ckw.init := by cases u <;> rfl
@[simp] theorem withFault_ckw_dst : (withFault u f s).ckw.dst = s.ckw.dst := by cases u <;> rfl
@[simp] theorem withFault_ckw_pos : (withFault u f s).ckw.pos = s.ckw.pos := by cases u <;> rfl
@[simp] theorem withFault_ckw_sd : (withFault u f s).ckw.sd = s.ckw.sd := by cases u <;> rfl
@[simp] theorem withFault_ckw_start : (withFault u f s).ckw.start = s.ckw.start := by
  cases u <;> rfl
@[simp] theorem slotAt_withFault (slot : Nat) : slotAt (withFault u f s) slot = slotAt s slot := by
  cases u <;> rfl

/-! ### Writing a palette slot -/

variable (slot : Nat) (p : Slot)

theorem Slot.bpc_legal : Config.bpcMin ≤ p.bpc ∧ p.bpc ≤ Config.bpcMax := by
  unfold Slot.bpc; generalize p.bpcBits = b; revert b; decide
@[simp] theorem bpcStored_bpc : bpcStored p.bpc = p.bpcBits := by
  unfold Slot.bpc; generalize p.bpcBits = b; revert b; decide
/-- A legal depth is read back from its stored bits (R20; log 33). -/
theorem Slot.bpc_stored {b : Nat} (h1 : Config.bpcMin ≤ b) (h2 : b ≤ Config.bpcMax)
    (h : p.bpcBits = bpcStored b) : p.bpc = b := by
  unfold Slot.bpc; rw [h]; interval_cases b <;> rfl

@[simp] theorem setSlot_pal_fault : (setSlot slot p s).pal.fault = s.pal.fault := rfl
@[simp] theorem setSlot_bpr : (setSlot slot p s).bpr = s.bpr := rfl
@[simp] theorem setSlot_bpw : (setSlot slot p s).bpw = s.bpw := rfl
@[simp] theorem setSlot_pxr : (setSlot slot p s).pxr = s.pxr := rfl
@[simp] theorem setSlot_pxw : (setSlot slot p s).pxw = s.pxw := rfl
@[simp] theorem setSlot_pbd : (setSlot slot p s).pbd = s.pbd := rfl
@[simp] theorem setSlot_vdd : (setSlot slot p s).vdd = s.vdd := rfl
@[simp] theorem setSlot_ckr : (setSlot slot p s).ckr = s.ckr := rfl
@[simp] theorem setSlot_ham : (setSlot slot p s).ham = s.ham := rfl
@[simp] theorem setSlot_rpa : (setSlot slot p s).rpa = s.rpa := rfl
@[simp] theorem setSlot_seq : (setSlot slot p s).seq = s.seq := rfl
@[simp] theorem setSlot_pbe : (setSlot slot p s).pbe = s.pbe := rfl
@[simp] theorem setSlot_ckw : (setSlot slot p s).ckw = s.ckw := rfl
@[simp] theorem setSlot_mem : (setSlot slot p s).mem = s.mem := rfl
@[simp] theorem setSlot_pending : (setSlot slot p s).pending = s.pending := rfl
@[simp] theorem setSlot_draws : (setSlot slot p s).draws = s.draws := rfl
@[simp] theorem faultOf_setSlot : faultOf u (setSlot slot p s) = faultOf u s := by cases u <;> rfl
@[simp] theorem initOf_setSlot : initOf u (setSlot slot p s) = initOf u s := by cases u <;> rfl

/-! ### Moving a view's position -/

variable (n : Nat)

@[simp] theorem setViewPos_ckr_init : (setViewPos n s).ckr.init = s.ckr.init := rfl
@[simp] theorem setViewPos_ckr_src : (setViewPos n s).ckr.src = s.ckr.src := rfl
@[simp] theorem setViewPos_ckr_depth : (setViewPos n s).ckr.depth = s.ckr.depth := rfl
@[simp] theorem setViewPos_ckr_fault : (setViewPos n s).ckr.fault = s.ckr.fault := rfl
@[simp] theorem setViewPos_pal : (setViewPos n s).pal = s.pal := rfl
@[simp] theorem setViewPos_seq : (setViewPos n s).seq = s.seq := rfl
@[simp] theorem setViewPos_mem : (setViewPos n s).mem = s.mem := rfl
@[simp] theorem setViewPos_draws : (setViewPos n s).draws = s.draws := rfl
@[simp] theorem faultOf_setViewPos : faultOf u (setViewPos n s) = faultOf u s := by
  cases u <;> rfl
@[simp] theorem initOf_setViewPos : initOf u (setViewPos n s) = initOf u s := by cases u <;> rfl

/-! ### A fault of SEQ -/

@[simp] theorem seqFaulted_state : (seqFaulted s).seq.state = .faulted := rfl
@[simp] theorem seqFaulted_seq_fault : (seqFaulted s).seq.fault = s.seq.fault := rfl
@[simp] theorem seqFaulted_mem : (seqFaulted s).mem = s.mem := rfl
@[simp] theorem faultOf_seqFaulted : faultOf u (seqFaulted s) = faultOf u s := by cases u <;> rfl
@[simp] theorem initOf_seqFaulted : initOf u (seqFaulted s) = initOf u s := by cases u <;> rfl

/-! ### The end of a binding -/

@[simp] theorem faultOf_unbind : faultOf v (unbind u s) = faultOf v s := by
  cases u <;> cases v <;> rfl
@[simp] theorem initOf_unbind : initOf v (unbind u s) = initOf v s := by
  cases u <;> cases v <;> rfl
theorem bindingOf_unbind : bindingOf v (unbind u s) = if v = u then none else bindingOf v s := by
  cases u <;> cases v <;> rfl
@[simp] theorem slotAt_unbind (slot : Nat) : slotAt (unbind u s) slot = slotAt s slot := by
  cases u <;> rfl
@[simp] theorem unbind_pal : (unbind u s).pal = s.pal := by cases u <;> rfl
theorem unbind_pbd : (unbind u s).pbd =
    if u = .pbd then { s.pbd with src := none, dst := none } else s.pbd := by cases u <;> rfl
theorem unbind_vdd : (unbind u s).vdd =
    if u = .vdd then { s.vdd with src := none, dst := none } else s.vdd := by cases u <;> rfl
@[simp] theorem unbind_pbd_bpr : (unbind .pbd s).bpr = s.bpr := rfl
@[simp] theorem unbind_pbd_bpw : (unbind .pbd s).bpw = s.bpw := rfl
@[simp] theorem unbind_pbd_pxr : (unbind .pbd s).pxr = s.pxr := rfl
@[simp] theorem unbind_pbd_pxw : (unbind .pbd s).pxw = s.pxw := rfl
@[simp] theorem unbind_pbd_ckr : (unbind .pbd s).ckr = s.ckr := rfl
@[simp] theorem unbind_pbd_ckw : (unbind .pbd s).ckw = s.ckw := rfl
@[simp] theorem unbind_vdd_bpr : (unbind .vdd s).bpr = s.bpr := rfl
@[simp] theorem unbind_vdd_bpw : (unbind .vdd s).bpw = s.bpw := rfl
@[simp] theorem unbind_vdd_pxr : (unbind .vdd s).pxr = s.pxr := rfl
@[simp] theorem unbind_vdd_pxw : (unbind .vdd s).pxw = s.pxw := rfl
@[simp] theorem unbind_vdd_ckr : (unbind .vdd s).ckr = s.ckr := rfl
@[simp] theorem unbind_vdd_ckw : (unbind .vdd s).ckw = s.ckw := rfl
@[simp] theorem unbind_ham : (unbind u s).ham = s.ham := by cases u <;> rfl
@[simp] theorem unbind_rpa : (unbind u s).rpa = s.rpa := by cases u <;> rfl
@[simp] theorem unbind_seq : (unbind u s).seq = s.seq := by cases u <;> rfl
@[simp] theorem unbind_pbe : (unbind u s).pbe = s.pbe := by cases u <;> rfl
@[simp] theorem unbind_mem : (unbind u s).mem = s.mem := by cases u <;> rfl
@[simp] theorem unbind_pending : (unbind u s).pending = s.pending := by cases u <;> rfl
@[simp] theorem unbind_reply : (unbind u s).reply = s.reply := by cases u <;> rfl
@[simp] theorem unbind_draws : (unbind u s).draws = s.draws := by cases u <;> rfl

variable (w : BufRef)

@[simp] theorem faultOf_claim : faultOf v (claim u w s) = faultOf v s := by cases v <;> rfl
@[simp] theorem initOf_claim : initOf v (claim u w s) = initOf v s := by cases v <;> rfl
@[simp] theorem slotAt_claim (slot : Nat) : slotAt (claim u w s) slot = slotAt s slot := rfl
@[simp] theorem claim_pal : (claim u w s).pal = s.pal := rfl
@[simp] theorem claim_bpr : (claim u w s).bpr = s.bpr := rfl
@[simp] theorem claim_bpw_geom : (claim u w s).bpw.geom = s.bpw.geom := rfl
@[simp] theorem claim_bpw_cur : (claim u w s).bpw.cur = s.bpw.cur := rfl
@[simp] theorem claim_pxr : (claim u w s).pxr = s.pxr := rfl
@[simp] theorem claim_pxw_pos : (claim u w s).pxw.pos = s.pxw.pos := rfl
@[simp] theorem claim_pxw_lut : (claim u w s).pxw.lut = s.pxw.lut := rfl
@[simp] theorem claim_pbd : (claim u w s).pbd = s.pbd := rfl
@[simp] theorem claim_vdd : (claim u w s).vdd = s.vdd := rfl
@[simp] theorem claim_ckr : (claim u w s).ckr = s.ckr := rfl
@[simp] theorem claim_ham : (claim u w s).ham = s.ham := rfl
@[simp] theorem claim_rpa : (claim u w s).rpa = s.rpa := rfl
@[simp] theorem claim_seq : (claim u w s).seq = s.seq := rfl
@[simp] theorem claim_pbe : (claim u w s).pbe = s.pbe := rfl
@[simp] theorem claim_ckw_pos : (claim u w s).ckw.pos = s.ckw.pos := rfl
@[simp] theorem claim_ckw_sd : (claim u w s).ckw.sd = s.ckw.sd := rfl
@[simp] theorem claim_ckw_start : (claim u w s).ckw.start = s.ckw.start := rfl
@[simp] theorem claim_mem : (claim u w s).mem = s.mem := rfl
@[simp] theorem claim_pending : (claim u w s).pending = s.pending := rfl
@[simp] theorem claim_draws : (claim u w s).draws = s.draws := rfl

/-! ### Bytes written by a unit -/

variable (rs : List BufRef)

@[simp] theorem outlived_self (b : Option BufRef) : outlived u u rs b = b := by simp [outlived]
@[simp] theorem outlived_nil (b : Option BufRef) : outlived u v [] b = b := by simp [outlived]
@[simp] theorem outlived_none : outlived u v rs none = none := by simp [outlived]
@[simp] theorem faultOf_overwrite : faultOf v (overwrite u rs s) = faultOf v s := by cases v <;> rfl
@[simp] theorem initOf_overwrite : initOf v (overwrite u rs s) = initOf v s := by cases v <;> rfl
@[simp] theorem slotAt_overwrite (slot : Nat) : slotAt (overwrite u rs s) slot = slotAt s slot := rfl
theorem bindingOf_overwrite : bindingOf v (overwrite u rs s) = outlived u v rs (bindingOf v s) := by
  cases v <;> simp [bindingOf, overwrite]
@[simp] theorem bindingOf_overwrite_self : bindingOf u (overwrite u rs s) = bindingOf u s := by
  simp [bindingOf_overwrite]
@[simp] theorem overwrite_pal : (overwrite u rs s).pal = s.pal := rfl
@[simp] theorem overwrite_bpr_init : (overwrite u rs s).bpr.init = s.bpr.init := rfl
@[simp] theorem overwrite_bpr_geom : (overwrite u rs s).bpr.geom = s.bpr.geom := rfl
@[simp] theorem overwrite_bpr_cur : (overwrite u rs s).bpr.cur = s.bpr.cur := rfl
@[simp] theorem overwrite_bpr_cache : (overwrite u rs s).bpr.cache = s.bpr.cache := rfl
@[simp] theorem overwrite_bpr_fault : (overwrite u rs s).bpr.fault = s.bpr.fault := rfl
@[simp] theorem overwrite_bpw_init : (overwrite u rs s).bpw.init = s.bpw.init := rfl
@[simp] theorem overwrite_bpw_geom : (overwrite u rs s).bpw.geom = s.bpw.geom := rfl
@[simp] theorem overwrite_bpw_cur : (overwrite u rs s).bpw.cur = s.bpw.cur := rfl
@[simp] theorem overwrite_bpw_fault : (overwrite u rs s).bpw.fault = s.bpw.fault := rfl
@[simp] theorem overwrite_pxr_init : (overwrite u rs s).pxr.init = s.pxr.init := rfl
@[simp] theorem overwrite_pxr_pos : (overwrite u rs s).pxr.pos = s.pxr.pos := rfl
@[simp] theorem overwrite_pxr_lut : (overwrite u rs s).pxr.lut = s.pxr.lut := rfl
@[simp] theorem overwrite_pxr_fault : (overwrite u rs s).pxr.fault = s.pxr.fault := rfl
@[simp] theorem overwrite_pxw_init : (overwrite u rs s).pxw.init = s.pxw.init := rfl
@[simp] theorem overwrite_pxw_pos : (overwrite u rs s).pxw.pos = s.pxw.pos := rfl
@[simp] theorem overwrite_pxw_lut : (overwrite u rs s).pxw.lut = s.pxw.lut := rfl
@[simp] theorem overwrite_pxw_fault : (overwrite u rs s).pxw.fault = s.pxw.fault := rfl
@[simp] theorem overwrite_pbd : (overwrite u rs s).pbd = s.pbd := rfl
@[simp] theorem overwrite_vdd : (overwrite u rs s).vdd = s.vdd := rfl
@[simp] theorem overwrite_ckr_init : (overwrite u rs s).ckr.init = s.ckr.init := rfl
@[simp] theorem overwrite_ckr_depth : (overwrite u rs s).ckr.depth = s.ckr.depth := rfl
@[simp] theorem overwrite_ckr_views : (overwrite u rs s).ckr.views = s.ckr.views := rfl
@[simp] theorem overwrite_ckr_fault : (overwrite u rs s).ckr.fault = s.ckr.fault := rfl
@[simp] theorem overwrite_ham : (overwrite u rs s).ham = s.ham := rfl
@[simp] theorem overwrite_rpa : (overwrite u rs s).rpa = s.rpa := rfl
@[simp] theorem overwrite_seq : (overwrite u rs s).seq = s.seq := rfl
@[simp] theorem overwrite_pbe : (overwrite u rs s).pbe = s.pbe := rfl
@[simp] theorem overwrite_ckw_init : (overwrite u rs s).ckw.init = s.ckw.init := rfl
@[simp] theorem overwrite_ckw_pos : (overwrite u rs s).ckw.pos = s.ckw.pos := rfl
@[simp] theorem overwrite_ckw_sd : (overwrite u rs s).ckw.sd = s.ckw.sd := rfl
@[simp] theorem overwrite_ckw_start : (overwrite u rs s).ckw.start = s.ckw.start := rfl
@[simp] theorem overwrite_ckw_fault : (overwrite u rs s).ckw.fault = s.ckw.fault := rfl
@[simp] theorem overwrite_mem : (overwrite u rs s).mem = s.mem := rfl
@[simp] theorem overwrite_pending : (overwrite u rs s).pending = s.pending := rfl
@[simp] theorem overwrite_reply : (overwrite u rs s).reply = s.reply := rfl
@[simp] theorem overwrite_draws : (overwrite u rs s).draws = s.draws := rfl

/-! ### The host's view: reply, buffers, requests -/

variable (r : Reply) (m : Mem)

@[simp] theorem faultOf_reply : faultOf u { s with reply := r } = faultOf u s := by cases u <;> rfl
@[simp] theorem initOf_reply : initOf u { s with reply := r } = initOf u s := by cases u <;> rfl
@[simp] theorem faultOf_mem : faultOf u { s with mem := m } = faultOf u s := by cases u <;> rfl
@[simp] theorem initOf_mem : initOf u { s with mem := m } = initOf u s := by cases u <;> rfl
@[simp] theorem slotAt_mem : slotAt { s with mem := m } slot = slotAt s slot := rfl
@[simp] theorem slotAt_reply : slotAt { s with reply := r } slot = slotAt s slot := rfl

end Sys2Proof.Machine
end

