-- ==== Sys2Proof/Laws/Ops.lean ====
section
/-! SUPPORT. What each shared operation of Machine/Ops.lean does when it is run: one lemma per
outcome, to be cited in place of unfolding. -/

namespace Sys2Proof.Machine

variable {α β : Type} {x : Op α} {f : α → Op β} {s t : State} {a : α} {b : β} {e : Stop}

/-! ### Sequencing -/

@[simp] theorem pure_run (a : α) (s : State) : (pure a : Op α) s = .ok a s := rfl
@[simp] theorem get_run (s : State) : (get : Op State) s = .ok s s := rfl
@[simp] theorem modify_run (f : State → State) (s : State) :
    (modify f : Op Unit) s = .ok () (f s) := rfl

theorem bind_run (x : Op α) (f : α → Op β) (s : State) :
    (x >>= f) s = match x s with | .ok a t => f a t | .error e t => .error e t := by
  show EStateM.bind x f s = _
  unfold EStateM.bind
  cases x s <;> rfl

theorem bind_ok (h : x s = .ok a t) : (x >>= f) s = f a t := by rw [bind_run, h]

theorem bind_error (h : x s = .error e t) : (x >>= f) s = .error e t := by rw [bind_run, h]

@[simp] theorem get_bind (f : State → Op β) (s : State) : (get >>= f) s = f s s := rfl
@[simp] theorem modify_bind (g : State → State) (f : Unit → Op β) (s : State) :
    (modify g >>= f) s = f () (g s) := rfl

/-- A sequence that completes: both parts did. -/
theorem ok_of_bind_ok {u : State} (h : (x >>= f) s = .ok b u) :
    ∃ a t, x s = .ok a t ∧ f a t = .ok b u := by
  rw [bind_run] at h
  cases hx : x s with
  | ok a t =>
    rw [hx] at h
    exact ⟨a, t, rfl, h⟩
  | error e t =>
    rw [hx] at h
    exact nomatch h

theorem runOp_ok {x : Op Result} {r : Result} (h : x s = .ok r t) : runOp x s = completes r t := by
  unfold runOp completes
  rw [h]

theorem runOp_faulted {x : Op Result} (h : x s = .error .faulted t) :
    runOp x s = .next { t with reply := .faulted } := by
  unfold runOp
  rw [h]

theorem runOp_outside {x : Op Result} {r : Refusal} (h : x s = .error (.outside r) t) :
    runOp x s = .refused r := by
  unfold runOp
  rw [h]

theorem runOp_refused {x : Op Result} (h : x s = .error .refused t) :
    runOp x s = .next { t with reply := .refused } := by
  unfold runOp
  rw [h]

/-! ### Raising, clearing, entering -/

@[simp] theorem raise_run (u : UnitId) (c : FaultCode) (info : Nat) (s : State) :
    (raise u c info : Op α) s = .error .faulted (withFault u (raisedReg c info) s) := rfl

theorem raiseIf_true {p : Prop} [Decidable p] (h : p) (u : UnitId) (c : FaultCode) (info : Nat)
    (s : State) : raiseIf p u c info s = .error .faulted (withFault u (raisedReg c info) s) := by
  unfold raiseIf
  rw [if_pos h]
  rfl

theorem raiseIf_false {p : Prop} [Decidable p] (h : ¬ p) (u : UnitId) (c : FaultCode) (info : Nat)
    (s : State) : raiseIf p u c info s = .ok () s := by
  unfold raiseIf
  rw [if_neg h]
  rfl

theorem refuseIf_true {p : Prop} [Decidable p] (h : p) (r : Refusal) (s : State) :
    refuseIf p r s = .error (.outside r) s := by
  unfold refuseIf
  rw [if_pos h]
  rfl

theorem refuseIf_false {p : Prop} [Decidable p] (h : ¬ p) (r : Refusal) (s : State) :
    refuseIf p r s = .ok () s := by
  unfold refuseIf
  rw [if_neg h]
  rfl

@[simp] theorem clearFault_run (u : UnitId) (s : State) :
    clearFault u s = .ok () (clearedFault u s) := rfl

theorem enter_ready {u : UnitId} (h : ready u s) : enter u s = .ok () s := by
  unfold enter
  simp [h.1, h.2.1, h.2.2]

theorem enter_faulted {u : UnitId} (h : (faultOf u s).valid = true) :
    enter u s = .error .refused s := by
  unfold enter
  simp [h]

theorem enter_unready {u : UnitId} (h : (faultOf u s).valid = false) (hi : initOf u s = false) :
    enter u s = .error .faulted (withFault u (raisedReg .notInit 0) s) := by
  unfold enter
  simp [h, hi]

theorem enter_dead {u : UnitId} (h : (faultOf u s).valid = false) (hi : initOf u s = true)
    (hb : bound u s = false) : enter u s = .error (.outside (.deadBinding u)) s := by
  unfold enter
  simp [h, hi, hb]

/-- All that `enter` can do. -/
theorem enter_cases (u : UnitId) (s : State) :
    (enter u s = .ok () s ∧ ready u s) ∨ enter u s = .error .refused s ∨
      enter u s = .error .faulted (withFault u (raisedReg .notInit 0) s) ∨
      enter u s = .error (.outside (.deadBinding u)) s := by
  cases h : (faultOf u s).valid with
  | true => exact .inr (.inl (enter_faulted h))
  | false =>
    cases hi : initOf u s with
    | false => exact .inr (.inr (.inl (enter_unready h hi)))
    | true =>
      cases hb : bound u s with
      | true => exact .inl ⟨enter_ready ⟨h, hi, hb⟩, h, hi, hb⟩
      | false => exact .inr (.inr (.inr (enter_dead h hi hb)))

theorem raisedReg_valid (c : FaultCode) (info : Nat) : (raisedReg c info).valid = true := rfl

theorem infoOf_toNat (v : U32) : infoOf v.toNat = v := by
  unfold infoOf
  rw [if_pos v.isLt]
  simp

/-! ### Buffers -/

theorem memRead_ok {u : UnitId} {r : BufRef} {off n : Nat} (h : off + n ≤ r.len) (s : State) :
    memRead u r off n s = .ok (beRead s.mem r off n) s := by
  unfold memRead
  rw [bind_ok (raiseIf_false (by omega) _ _ _ _)]
  rfl

theorem memRead_past {u : UnitId} {r : BufRef} {off n : Nat} (h : r.len < off + n) (s : State) :
    memRead u r off n s = .error .faulted (withFault u (raisedReg .pastEnd off) s) := by
  unfold memRead
  rw [bind_error (raiseIf_true h _ _ _ _)]

theorem memWrite_ok {u : UnitId} {r : BufRef} {off n : Nat} (h : off + n ≤ r.len) (v : Nat)
    (s : State) :
    memWrite u r off n v s =
      .ok () (overwrite u [windowOf r off n] { s with mem := beWrite s.mem r off n v }) := by
  unfold memWrite
  rw [bind_ok (raiseIf_false (by omega) _ _ _ _)]
  rfl

theorem memWrite_past {u : UnitId} {r : BufRef} {off n : Nat} (h : r.len < off + n) (v : Nat)
    (s : State) :
    memWrite u r off n v s = .error .faulted (withFault u (raisedReg .pastEnd off) s) := by
  unfold memWrite
  rw [bind_error (raiseIf_true h _ _ _ _)]

/-- All that a write can do: fault, or store its bytes and end other units' bindings to them. -/
theorem memWrite_cases (u : UnitId) (r : BufRef) (off n v : Nat) (s : State) :
    memWrite u r off n v s = .error .faulted (withFault u (raisedReg .pastEnd off) s) ∨
      off + n ≤ r.len ∧ memWrite u r off n v s =
        .ok () (overwrite u [windowOf r off n] { s with mem := beWrite s.mem r off n v }) := by
  by_cases h : r.len < off + n
  · exact .inl (memWrite_past h v s)
  · exact .inr ⟨Nat.le_of_not_lt h, memWrite_ok (Nat.le_of_not_lt h) v s⟩

/-- The state a completed write leaves. -/
theorem memWrite_state {u : UnitId} {r : BufRef} {off n v : Nat} {a : Unit}
    (h : memWrite u r off n v s = .ok a t) :
    t = overwrite u [windowOf r off n] { s with mem := beWrite s.mem r off n v } := by
  rcases memWrite_cases u r off n v s with h' | ⟨-, h'⟩
  · rw [h'] at h
    cases h
  · rw [h'] at h
    cases h
    rfl

/-! ### One unit inside another's operation -/

theorem onStop_ok {g : State → State} (h : x s = .ok a t) : onStop g x s = .ok a t := by
  unfold onStop
  rw [h]

theorem onStop_error {g : State → State} (h : x s = .error e t) :
    onStop g x s = .error e (g t) := by
  unfold onStop
  rw [h]

theorem callFrom_ok {c u : UnitId} (h : x s = .ok a t) : callFrom c u x s = .ok a t := by
  unfold callFrom
  rw [h]

theorem callFrom_faulted {c u : UnitId} (h : x s = .error .faulted t) :
    callFrom c u x s = .error .faulted (withFault c (faultOf u t) t) := by
  unfold callFrom
  rw [h]

theorem callFrom_refused {c u : UnitId} (h : x s = .error .refused t) :
    callFrom c u x s = .error .faulted (withFault c (faultOf u t) t) := by
  unfold callFrom
  rw [h]

theorem callFrom_outside {c u : UnitId} {r : Refusal} (h : x s = .error (.outside r) t) :
    callFrom c u x s = .error (.outside r) t := by
  unfold callFrom
  rw [h]

theorem seqCall_ok {u : UnitId} (h : x s = .ok a t) : seqCall u x s = .ok a t :=
  onStop_ok (callFrom_ok h)

theorem seqCall_faulted {u : UnitId} (h : x s = .error .faulted t) :
    seqCall u x s = .error .faulted (seqFaulted (withFault .seq (faultOf u t) t)) :=
  onStop_error (callFrom_faulted h)

theorem seqCall_refused {u : UnitId} (h : x s = .error .refused t) :
    seqCall u x s = .error .faulted (seqFaulted (withFault .seq (faultOf u t) t)) :=
  onStop_error (callFrom_refused h)

theorem seqCall_outside {u : UnitId} {r : Refusal} (h : x s = .error (.outside r) t) :
    seqCall u x s = .error (.outside r) (seqFaulted t) :=
  onStop_error (callFrom_outside h)

theorem endPass_ok {u : UnitId} (h : x s = .ok a t) : endPass u x s = .ok a (unbind u t) := by
  unfold endPass
  rw [h]

theorem endPass_error {u : UnitId} (h : x s = .error e t) :
    endPass u x s = .error e (unbind u t) := by
  unfold endPass
  rw [h]

theorem seqRaiseIf_false {p : Prop} [Decidable p] (h : ¬ p) (c : FaultCode) (info : Nat)
    (s : State) : seqRaiseIf p c info s = .ok () s :=
  onStop_ok (raiseIf_false h _ _ _ _)

theorem seqRaiseIf_true {p : Prop} [Decidable p] (h : p) (c : FaultCode) (info : Nat)
    (s : State) : seqRaiseIf p c info s =
      .error .faulted (seqFaulted (withFault .seq (raisedReg c info) s)) :=
  onStop_error (raiseIf_true h _ _ _ _)

/-! ### Loops -/

@[simp] theorem times_zero (x : Op Unit) (s : State) : times x 0 s = .ok () s := rfl

theorem times_succ (x : Op Unit) (n : Nat) : times x (n + 1) = x >>= fun _ => times x n := rfl

@[simp] theorem forFrom_zero (g : Nat → Op Unit) (i : Nat) (s : State) :
    forFrom g i 0 s = .ok () s := rfl

theorem forFrom_succ (g : Nat → Op Unit) (i n : Nat) :
    forFrom g i (n + 1) = g i >>= fun _ => forFrom g (i + 1) n := rfl

/-- A loop of `n` rounds that all complete: an invariant indexed by the round carries through. -/
theorem times_ok {x : Op Unit} (I : Nat → State → Prop) (n : Nat)
    (step : ∀ k < n, ∀ s, I k s → ∃ t, x s = .ok () t ∧ I (k + 1) t) :
    ∀ s, I 0 s → ∃ t, times x n s = .ok () t ∧ I n t := by
  have key : ∀ m k, k + m = n → ∀ s, I k s → ∃ t, times x m s = .ok () t ∧ I n t := by
    intro m
    induction m with
    | zero =>
      intro k hk s hs
      obtain rfl : k = n := by omega
      exact ⟨s, rfl, hs⟩
    | succ m ih =>
      intro k hk s hs
      obtain ⟨t, ht, hI⟩ := step k (by omega) s hs
      obtain ⟨u, hu, hn⟩ := ih (k + 1) (by omega) t hI
      exact ⟨u, by rw [times_succ, bind_ok ht, hu], hn⟩
  exact key n 0 (by omega)

/-- The same for a counted loop from `i`. -/
theorem forFrom_ok {g : Nat → Op Unit} (I : Nat → State → Prop) (i n : Nat)
    (step : ∀ k < n, ∀ s, I k s → ∃ t, g (i + k) s = .ok () t ∧ I (k + 1) t) :
    ∀ s, I 0 s → ∃ t, forFrom g i n s = .ok () t ∧ I n t := by
  have key : ∀ m k, k + m = n → ∀ s, I k s → ∃ t, forFrom g (i + k) m s = .ok () t ∧ I n t := by
    intro m
    induction m with
    | zero =>
      intro k hk s hs
      obtain rfl : k = n := by omega
      exact ⟨s, rfl, hs⟩
    | succ m ih =>
      intro k hk s hs
      obtain ⟨t, ht, hI⟩ := step k (by omega) s hs
      obtain ⟨u, hu, hn⟩ := ih (k + 1) (by omega) t hI
      exact ⟨u, by rw [forFrom_succ, bind_ok ht]; exact hu, hn⟩
  exact key n 0 (by omega)

/-! ### The plane reader -/

/-- The cache is true unless a read inside the column would find it stale. -/
theorem cacheTrue_iff : cacheTrue s ↔ s.bpr.cur.bit = 0 ∨ cacheStale s = false := by
  unfold cacheTrue cacheStale
  by_cases h : s.bpr.cur.bit = 0 <;> simp [h]

/-- All that one read can do (R176, R88): fetch and step, fault on the fetch's lowest failing plane,
step inside the column, or be refused on a stale cache. -/
theorem bprReadCore_cases (s : State) :
    let stepped := fun cache : List Byte =>
      { s with bpr := { s.bpr with cache := cache, cur := stepCursor s.bpr.geom s.bpr.cur } }
    let column := columnIndices s.mem (refOf s.bpr.buf) s.bpr.geom s.bpr.cur
    (s.bpr.cur.bit = 0 ∧ (∃ i,
        firstPlanePastEnd s.bpr.geom s.bpr.cur (refOf s.bpr.buf).len 0 s.bpr.geom.planeCount =
          some i ∧
        bprReadCore s = .error .faulted
          (withFault .bpr (raisedReg .pastEnd (planeOffset s.bpr.geom s.bpr.cur i)) s)) ∨
      s.bpr.cur.bit = 0 ∧
        firstPlanePastEnd s.bpr.geom s.bpr.cur (refOf s.bpr.buf).len 0 s.bpr.geom.planeCount =
          none ∧
        bprReadCore s = .ok (column.getD 0 0) (stepped column)) ∨
      (s.bpr.cur.bit ≠ 0 ∧ cacheTrue s ∧
        bprReadCore s = .ok (bprCached s) (stepped s.bpr.cache)) ∨
      ¬ cacheTrue s ∧ bprReadCore s = .error (.outside .staleCache) s := by
  dsimp only
  unfold bprReadCore
  rw [get_bind]
  by_cases hb : s.bpr.cur.bit = 0
  · left
    rw [if_pos hb]
    unfold bprFetch
    cases hf : firstPlanePastEnd s.bpr.geom s.bpr.cur (refOf s.bpr.buf).len 0
        s.bpr.geom.planeCount with
    | some i =>
      refine .inl ⟨hb, i, rfl, bind_error ?_⟩
      rw [get_bind]
      simp only [hf]
      rfl
    | none =>
      refine .inr ⟨hb, rfl, ?_⟩
      rw [bind_ok (a := ()) (t := { s with bpr := { s.bpr with
        cache := columnIndices s.mem (refOf s.bpr.buf) s.bpr.geom s.bpr.cur } })]
      · simp only [get_bind, bprCached, ← hb]
        rfl
      · rw [get_bind]
        simp only [hf]
        rfl
  · right
    rw [if_neg hb]
    by_cases hc : cacheStale s = true
    · exact .inr ⟨by simp [cacheTrue_iff, hb, hc], bind_error (refuseIf_true hc _ _)⟩
    · refine .inl ⟨hb, by simp [cacheTrue_iff, hc], ?_⟩
      rw [bind_ok (refuseIf_false hc _ _)]
      rfl

/-! ### Palette checks -/

theorem checkSlot_ok {u : UnitId} {slot : Nat} (h : slot < Config.npal) (s : State) :
    checkSlot u slot s = .ok () s := raiseIf_false (by omega) _ _ _ _

theorem checkSlot_bad {u : UnitId} {slot : Nat} (h : Config.npal ≤ slot) (s : State) :
    checkSlot u slot s = .error .faulted (withFault u (raisedReg .badSlot slot) s) :=
  raiseIf_true h _ _ _ _

theorem checkMade_ok {u : UnitId} {slot : Nat} (h : (slotAt s slot).made = true) :
    checkMade u slot s = .ok () s := by
  unfold checkMade
  rw [get_bind]
  exact raiseIf_false (by simp [h]) _ _ _ _

theorem checkMade_bad {u : UnitId} {slot : Nat} (h : (slotAt s slot).made = false) :
    checkMade u slot s = .error .faulted (withFault u (raisedReg .notInit slot) s) := by
  unfold checkMade
  rw [get_bind]
  exact raiseIf_true h _ _ _ _

theorem view8_ok {u : UnitId} {slot : Nat} (h : slot < Config.npal)
    (hm : (slotAt s slot).made = true) : view8 u slot s = .ok (viewOf (slotAt s slot)) s := by
  unfold view8
  rw [bind_ok (checkSlot_ok h s), bind_ok (checkMade_ok hm)]
  rfl

theorem slotAt_setSlot (slot : Nat) (p : Slot) (s : State) (slot' : Nat) :
    slotAt (setSlot slot p s) slot' = if slot' = slot then p else slotAt s slot' :=
  sget_sput _ _ _ _ _

end Sys2Proof.Machine
end

