-- ==== Sys2Proof/Laws/Bindings.lean ====
section
/-! SUPPORT. The laws of the ends of bindings (R422): when two windows share a byte, and what writes,
one after the other, end. -/

namespace Sys2Proof.Machine

variable {u v : UnitId} {r r' : BufRef} {rs rs' : List BufRef} {b : Option BufRef} {s : State}

/-- Byte `a` of host buffer `id` lies in one of the windows. -/
def covered (rs : List BufRef) (id a : Nat) : Prop := ∃ r ∈ rs, inWindow r id a

@[simp] theorem covered_nil (id a : Nat) : ¬ covered [] id a := by simp [covered]

@[simp] theorem covered_cons (id a : Nat) :
    covered (r :: rs) id a ↔ inWindow r id a ∨ covered rs id a := by simp [covered]

@[simp] theorem covered_append (id a : Nat) :
    covered (rs ++ rs') id a ↔ covered rs id a ∨ covered rs' id a := by
  simp [covered, or_and_right, exists_or]

theorem sharesByte_iff : sharesByte r r' = true ↔ ∃ id a, inWindow r id a ∧ inWindow r' id a := by
  unfold sharesByte rangesMeet inWindow
  simp only [Bool.and_eq_true, decide_eq_true_eq]
  constructor
  · rintro ⟨h, hlt⟩
    exact ⟨r.id, max (r.base + 0) (r'.base + 0), ⟨rfl, by omega, by omega⟩, h, by omega, by omega⟩
  · rintro ⟨id, a, ⟨rfl, h1, h2⟩, h3, h4, h5⟩
    exact ⟨h3, by omega⟩

theorem anyShares_iff : (rs.any fun r => sharesByte r r') = true ↔
    ∃ id a, covered rs id a ∧ inWindow r' id a := by
  rw [List.any_eq_true]
  constructor
  · rintro ⟨r, hr, h⟩
    obtain ⟨id, a, h1, h2⟩ := sharesByte_iff.mp h
    exact ⟨id, a, ⟨r, hr, h1⟩, h2⟩
  · rintro ⟨id, a, ⟨r, hr, h1⟩, h2⟩
    exact ⟨r, hr, sharesByte_iff.mpr ⟨id, a, h1, h2⟩⟩

/-- All that becomes of another unit's binding: it ends if it holds a byte of the windows. -/
theorem outlived_cases (u v : UnitId) (rs : List BufRef) (b : Option BufRef) :
    outlived u v rs b = none ∧ v ≠ u ∧ (∃ id a, covered rs id a ∧ inWindow (refOf b) id a) ∨
      outlived u v rs b = b ∧
        (v ≠ u → ∀ id a, covered rs id a → ¬ inWindow (refOf b) id a) := by
  unfold outlived
  split
  · rename_i h
    exact .inl ⟨rfl, h.1, anyShares_iff.mp h.2⟩
  · rename_i h
    refine .inr ⟨rfl, fun hv id a h1 h2 => h ⟨hv, anyShares_iff.mpr ⟨id, a, h1, h2⟩⟩⟩

/-- A binding that is kept held none of the bytes, unless it is the unit's own. -/
theorem outlived_some (h : outlived u v rs b = some r) : b = some r ∧
    (v ≠ u → ∀ id a, covered rs id a → ¬ inWindow r id a) := by
  rcases outlived_cases u v rs b with ⟨h1, -⟩ | ⟨h1, h2⟩
  · rw [h1] at h
    cases h
  · rw [h1] at h
    subst h
    exact ⟨rfl, h2⟩

/-- Only the bytes matter, not how they are grouped into windows. -/
theorem outlived_congr (h : ∀ id a, covered rs id a ↔ covered rs' id a) :
    outlived u v rs b = outlived u v rs' b := by
  have key : (rs.any fun r => sharesByte r (refOf b)) = rs'.any fun r => sharesByte r (refOf b) := by
    rw [Bool.eq_iff_iff, anyShares_iff, anyShares_iff]
    simp only [h]
  unfold outlived
  rw [key]

theorem overwrite_congr (h : ∀ id a, covered rs id a ↔ covered rs' id a) :
    overwrite u rs s = overwrite u rs' s := by
  unfold overwrite
  simp only [outlived_congr h]

/-- A unit that keeps no binding ends the same ones as any other such unit. -/
theorem outlived_unit {u' : UnitId} (h : v ≠ u) (h' : v ≠ u') :
    outlived u v rs b = outlived u' v rs b := by
  unfold outlived
  simp [h, h']

theorem outlived_outlived : outlived u v rs (outlived u v rs' b) = outlived u v (rs' ++ rs) b := by
  rcases outlived_cases u v rs' b with ⟨h1, hv, id, a, h2, h3⟩ | ⟨h1, h2⟩
  · rw [h1, outlived_none]
    unfold outlived
    rw [if_pos ⟨hv, anyShares_iff.mpr ⟨id, a, (covered_append id a).mpr (.inl h2), h3⟩⟩]
  · rw [h1]
    unfold outlived
    refine if_congr (and_congr_right fun hv => ?_) rfl rfl
    rw [anyShares_iff, anyShares_iff]
    constructor
    · rintro ⟨id, a, h3, h4⟩
      exact ⟨id, a, (covered_append id a).mpr (.inr h3), h4⟩
    · rintro ⟨id, a, h3, h4⟩
      exact ⟨id, a, ((covered_append id a).mp h3).resolve_left fun h => h2 hv id a h h4, h4⟩

/-- Two writes of a unit end what their bytes together end. -/
@[simp] theorem overwrite_overwrite :
    overwrite u rs (overwrite u rs' s) = overwrite u (rs' ++ rs) s := by
  simp only [overwrite, outlived_outlived]

@[simp] theorem overwrite_nil : overwrite u [] s = s := by simp [overwrite]

/-- Bytes written already, or none, end nothing more. -/
theorem overwrite_of_covered (h : ∀ id a, covered rs id a → covered rs' id a) :
    overwrite u rs (overwrite u rs' s) = overwrite u rs' s := by
  rw [overwrite_overwrite]
  exact overwrite_congr fun id a => by
    rw [covered_append]
    exact ⟨fun h' => h'.elim (·) (h id a), .inl⟩

/-- A write of a unit's whole claim ends what the claim ended. -/
theorem overwrite_claim (h : ∀ id a, inWindow r id a → covered rs id a) :
    overwrite u rs (claim u r s) = overwrite u rs s := by
  have key : ∀ v b, outlived u v rs (outlived u v [r] b) = outlived u v rs b := fun v b => by
    rw [outlived_outlived]
    exact outlived_congr fun id a => by
      rw [covered_append, covered_cons]
      exact ⟨fun h' => h'.elim (fun h'' => h''.elim (h id a) (absurd · (covered_nil id a))) (·),
        .inr⟩
  simp only [overwrite, claim, key]

end Sys2Proof.Machine
end

