-- ==== Sys2Proof/Laws/Formats.lean ====
section
/-! SUPPORT. The codes of the format are distinct where the scan tells them apart, what each chunk
leaves in the scan's registers, and the sizes of the byte lists of containers. -/

namespace Sys2Proof.Machine

/-! ### The codes -/

/-- The words that the scan tells apart differ from each other (R104, R317, R318). -/
theorem chunkTags_nodup :
    [Config.codes.hdr, Config.codes.mode, Config.codes.pal, Config.codes.bodyLine,
      Config.codes.bodyContig, Config.codes.rast1, Config.codes.rast2, Config.codes.rast3].Nodup :=
  List.Nodup.map (f := Config.tagWord) (l := [0, 1, 2, 3, 4, 5, 6, 7]) Config.tagWord.injective
    (by decide)

/-- Each of these words differs from those before it, in the order of the scan's tests. -/
theorem chunkTags_ne :
    [Config.codes.rast3, Config.codes.rast2, Config.codes.rast1, Config.codes.bodyContig,
      Config.codes.bodyLine, Config.codes.pal, Config.codes.mode,
      Config.codes.hdr].Pairwise (· ≠ ·) :=
  List.nodup_reverse.mpr chunkTags_nodup

/-- Each channel has a selector (R289). -/
theorem hamSel_cover (ch : Config.Channel) :
    ch = Config.hamSel1 ∨ ch = Config.hamSel2 ∨ ch = Config.hamSel3 := by
  obtain ⟨c, rfl⟩ := Config.hamSel.surjective ch
  cases c
  · exact .inr (.inl rfl)
  · exact .inr (.inr rfl)
  · exact .inl rfl

/-- The code of strip RLE is neither that of a raw body nor that of generic RLE (R319). -/
theorem compStrip_ne : Config.codes.compStrip ≠ 0 ∧ Config.codes.compStrip ≠ 1 := by
  have h := Config.compStripBeyond2.isLt
  constructor <;> intro e <;>
    · have e' := congrArg BitVec.toNat e
      simp only [Config.codes, BitVec.toNat_ofNat] at e'
      rw [Nat.mod_eq_of_lt (by omega)] at e'
      simp at e'

/-! ### One chunk -/

section
variable (base : Nat) (b : List Byte) (q : Seq)

@[simp] theorem noteChunk_hdr :
    noteChunk Config.codes base (Config.codes.hdr, b) q =
      { q with hdr := hdrOf b } := by simp [noteChunk]

@[simp] theorem noteChunk_mode :
    noteChunk Config.codes base (Config.codes.mode, b) q =
      { q with mode := b.getD 0 0 ++ b.getD 1 0 ++ b.getD 2 0 ++ b.getD 3 0 } := by
  have h := chunkTags_ne
  simp only [List.pairwise_cons, List.mem_cons, forall_eq_or_imp] at h
  simp [noteChunk, h]

@[simp] theorem noteChunk_pal :
    noteChunk Config.codes base (Config.codes.pal, b) q =
      { q with palPresent := true } := by
  have h := chunkTags_ne
  simp only [List.pairwise_cons, List.mem_cons, forall_eq_or_imp] at h
  simp [noteChunk, h]

@[simp] theorem noteChunk_bodyLine :
    noteChunk Config.codes base (Config.codes.bodyLine, b) q =
      { q with body := ⟨true, base, b.length, .line⟩ } := by
  have h := chunkTags_ne
  simp only [List.pairwise_cons, List.mem_cons, forall_eq_or_imp] at h
  simp [noteChunk, h]

@[simp] theorem noteChunk_bodyContig :
    noteChunk Config.codes base (Config.codes.bodyContig, b) q =
      { q with body := ⟨true, base, b.length, .contig⟩ } := by
  have h := chunkTags_ne
  simp only [List.pairwise_cons, List.mem_cons, forall_eq_or_imp] at h
  simp [noteChunk, h]

@[simp] theorem noteChunk_rast1 :
    noteChunk Config.codes base (Config.codes.rast1, b) q =
      { q with rdesc1 := ⟨true, Config.codes.rast1, base, b.length⟩ } := by
  have h := chunkTags_ne
  simp only [List.pairwise_cons, List.mem_cons, forall_eq_or_imp] at h
  simp [noteChunk, h]

@[simp] theorem noteChunk_rast2 :
    noteChunk Config.codes base (Config.codes.rast2, b) q =
      { q with rdesc2 := ⟨true, Config.codes.rast2, base, b.length⟩ } := by
  have h := chunkTags_ne
  simp only [List.pairwise_cons, List.mem_cons, forall_eq_or_imp] at h
  simp [noteChunk, h]

@[simp] theorem noteChunk_rast3 :
    noteChunk Config.codes base (Config.codes.rast3, b) q =
      { q with rdesc3 := ⟨true, Config.codes.rast3, base, b.length⟩ } := by
  have h := chunkTags_ne
  simp only [List.pairwise_cons, List.mem_cons, forall_eq_or_imp] at h
  simp [noteChunk, h]

end

/-- A chunk of another tag is skipped (R323). -/
theorem noteChunk_other (k : Config.Codes) (base : Nat) (c : U32 × List Byte) (q : Seq)
    (h : c.1 ∉ [k.hdr, k.mode, k.pal, k.bodyLine, k.bodyContig, k.rast1, k.rast2, k.rast3]) :
    noteChunk k base c q = q := by
  simp only [List.mem_cons, List.not_mem_nil, or_false, not_or] at h
  simp [noteChunk, h]

/-! ### Sizes and contents -/

@[simp] theorem beBytes_length : ∀ n v : Nat, (beBytes n v).length = n
  | 0, _ => rfl
  | n + 1, v => by simp [beBytes, beBytes_length n]

@[simp] theorem chunkBytes_length (tag : U32) (payload : List Byte) :
    (chunkBytes tag payload).length = 8 + payload.length := by
  simp [chunkBytes]; omega

/-- A chunk takes its header, its payload and the pad byte of an odd payload (R100, R101). -/
@[simp] theorem paddedChunk_length (c : U32 × List Byte) :
    (paddedChunk c).length = 8 + c.2.length + c.2.length % 2 := by
  simp [paddedChunk]

@[simp] theorem bytesOf_length (m : Mem) (r : BufRef) (off n : Nat) :
    (bytesOf m r off n).length = n := by
  simp [bytesOf]

/-- A buffer that lists the bytes `bs` from its start holds them. -/
theorem bytesOf_sofFrom {m : Mem} {id : Nat} {bs : List Byte}
    (h : bufAt m id = ⟨bs.length, sofFrom 0 0 bs⟩) :
    bytesOf m (wholeBuf m id) 0 (bufAt m id).len = bs := by
  refine List.ext_getElem (by simp [h]) fun i hi hb => ?_
  simp [bytesOf, refByte, byteAt, wholeBuf, h, sget_sofFrom, hb]

end Sys2Proof.Machine
end

