-- ==== Sys2Proof/Laws/Run.lean ====
section
/-! SUPPORT. A calculus for statements about the state an operation leaves, whether it completes,
faults or is refused: `Leads R x s` says that `R` relates `s` to that state. One lemma for each way
operations are composed, for any `R` that is reflexive and transitive. -/

namespace Sys2Proof.Machine

/-- The state an operation leaves. -/
def endOf {α : Type} (x : Op α) (s : State) : State :=
  match x s with
  | .ok _ t => t
  | .error _ t => t

/-- `R` relates the state before an operation to the state after it. -/
def Leads {α : Type} (R : State → State → Prop) (x : Op α) (s : State) : Prop := R s (endOf x s)

/-- A reflexive and transitive relation. -/
structure Closed (R : State → State → Prop) : Prop where
  refl : ∀ s, R s s
  trans : ∀ {s t u}, R s t → R t u → R s u

variable {α β : Type} {x : Op α} {f : α → Op β} {s t : State} {R : State → State → Prop}

theorem Leads.ok {a : α} (h : Leads R x s) (hx : x s = .ok a t) : R s t := by
  unfold Leads endOf at h
  rwa [hx] at h

theorem Leads.error {e : Stop} (h : Leads R x s) (hx : x s = .error e t) : R s t := by
  unfold Leads endOf at h
  rwa [hx] at h

theorem leads_of (hok : ∀ a t, x s = .ok a t → R s t) (herr : ∀ e t, x s = .error e t → R s t) :
    Leads R x s := by
  unfold Leads endOf
  cases h : x s with
  | ok a t => exact hok a t h
  | error e t => exact herr e t h

theorem Leads.mono {Q : State → State → Prop} (h : Leads R x s) (hq : ∀ t, R s t → Q s t) :
    Leads Q x s := hq _ h

/-- What the host's operation does to the state, the reply apart. -/
theorem Leads.runOp {x : Op Result} (h : Leads R x s) (ht : runOp x s = .next t) :
    ∃ u r, R s u ∧ t = { u with reply := r } := by
  unfold Machine.runOp at ht
  cases hx : x s with
  | ok a u =>
    rw [hx] at ht
    exact ⟨u, _, h.ok hx, (Host.Outcome.next.inj ht).symm⟩
  | error e u =>
    rw [hx] at ht
    cases e
    · exact ⟨u, _, h.error hx, (Host.Outcome.next.inj ht).symm⟩
    · exact ⟨u, _, h.error hx, (Host.Outcome.next.inj ht).symm⟩
    · cases ht

theorem leads_modify {g : State → State} (h : R s (g s)) : Leads R (modify g) s := h

/-- A fault of unit `u` is raised. -/
theorem leads_raise {u : UnitId} {c : FaultCode} {n : Nat}
    (h : R s (withFault u (raisedReg c n) s)) : Leads R (raise u c n : Op α) s := h

theorem leads_clearFault {u : UnitId} (h : R s (clearedFault u s)) :
    Leads R (clearFault u) s := h

namespace Closed

theorem pure (c : Closed R) (a : α) : Leads R (pure a : Op α) s := c.refl s

theorem bind (c : Closed R) (hx : Leads R x s)
    (hf : ∀ a t, R s t → x s = .ok a t → Leads R (f a) t) : Leads R (x >>= f) s := by
  unfold Leads endOf
  rw [bind_run]
  cases h : x s with
  | ok a t => exact c.trans (hx.ok h) (hf a t (hx.ok h) h)
  | error e t => exact hx.error h

theorem get {g : State → Op β} (h : Leads R (g s) s) : Leads R (get >>= g) s := h

theorem set (c : Closed R) {g : State → State} {k : Unit → Op β} (hg : R s (g s))
    (hk : Leads R (k ()) (g s)) : Leads R (modify g >>= k) s :=
  c.bind (leads_modify hg) fun _ _ _ h => by cases h; exact hk

/-- A check: it raises, or the rest runs on the same state with the check's negation known. -/
theorem check (c : Closed R) {p : Prop} [Decidable p] {u : UnitId} {k : FaultCode} {n : Nat}
    {g : Unit → Op β} (hr : p → R s (withFault u (raisedReg k n) s))
    (h : ¬ p → Leads R (g ()) s) : Leads R (raiseIf p u k n >>= g) s := by
  by_cases hp : p
  · refine c.bind ?_ fun a t _ ht => ?_
    · unfold Leads endOf
      rw [raiseIf_true hp]
      exact hr hp
    · rw [raiseIf_true hp] at ht
      cases ht
  · refine c.bind ?_ fun a t _ ht => ?_
    · unfold Leads endOf
      rw [raiseIf_false hp]
      exact c.refl s
    · rw [raiseIf_false hp] at ht
      cases ht
      exact h hp

/-- A refusal of the model leaves the state. -/
theorem refuseIf (c : Closed R) {p : Prop} [Decidable p] {r : Refusal} :
    Leads R (refuseIf p r) s := by
  unfold Leads endOf
  by_cases hp : p
  · rw [refuseIf_true hp]
    exact c.refl s
  · rw [refuseIf_false hp]
    exact c.refl s

/-- The entry of every operation that does not clear its unit: refused, `NOT_INIT`, outside the spec,
or the rest runs on a ready unit. -/
theorem enter (c : Closed R) {u : UnitId} {g : Unit → Op β}
    (hr : (faultOf u s).valid = false → initOf u s = false →
      R s (withFault u (raisedReg .notInit 0) s))
    (h : ready u s → Leads R (g ()) s) : Leads R (enter u >>= g) s := by
  cases hv : (faultOf u s).valid with
  | true =>
    unfold Leads endOf
    rw [bind_error (enter_faulted hv)]
    exact c.refl s
  | false =>
    cases hi : initOf u s with
    | false =>
      unfold Leads endOf
      rw [bind_error (enter_unready hv hi)]
      exact hr hv hi
    | true =>
      unfold Leads endOf
      cases hb : bound u s with
      | false =>
        rw [bind_error (enter_dead hv hi hb)]
        exact c.refl s
      | true =>
        rw [bind_ok (enter_ready ⟨hv, hi, hb⟩)]
        exact h ⟨hv, hi, hb⟩

theorem onStop (c : Closed R) {g : State → State} (hx : Leads R x s)
    (hg : ∀ t, R s t → R t (g t)) : Leads R (onStop g x) s :=
  leads_of
    (fun a t h => by
      cases hx' : x s with
      | ok b u => rw [onStop_ok hx'] at h; cases h; exact hx.ok hx'
      | error e u => rw [onStop_error hx'] at h; cases h)
    (fun e t h => by
      cases hx' : x s with
      | ok b u => rw [onStop_ok hx'] at h; cases h
      | error e' u =>
        rw [onStop_error hx'] at h
        cases h
        exact c.trans (hx.error hx') (hg u (hx.error hx')))

theorem callFrom (c : Closed R) {u v : UnitId} (hx : Leads R x s)
    (hw : ∀ t, R s t → R t (withFault u (faultOf v t) t)) : Leads R (callFrom u v x) s :=
  leads_of
    (fun a t h => by
      cases hx' : x s with
      | ok b u => rw [callFrom_ok hx'] at h; cases h; exact hx.ok hx'
      | error e u =>
        cases e
        · rw [callFrom_faulted hx'] at h; cases h
        · rw [callFrom_refused hx'] at h; cases h
        · rw [callFrom_outside hx'] at h; cases h)
    (fun e t h => by
      cases hx' : x s with
      | ok b u => rw [callFrom_ok hx'] at h; cases h
      | error e' u =>
        have hu := hx.error hx'
        cases e'
        · rw [callFrom_faulted hx'] at h; cases h; exact c.trans hu (hw u hu)
        · rw [callFrom_refused hx'] at h; cases h; exact c.trans hu (hw u hu)
        · rw [callFrom_outside hx'] at h; cases h; exact hu)

theorem endPass (c : Closed R) {u : UnitId} (hx : Leads R x s)
    (hw : ∀ t, R s t → R t (unbind u t)) : Leads R (endPass u x) s :=
  leads_of
    (fun a t h => by
      cases hx' : x s with
      | ok b u => rw [endPass_ok hx'] at h; cases h; exact c.trans (hx.ok hx') (hw u (hx.ok hx'))
      | error e u => rw [endPass_error hx'] at h; cases h)
    (fun e t h => by
      cases hx' : x s with
      | ok b u => rw [endPass_ok hx'] at h; cases h
      | error e' u =>
        rw [endPass_error hx'] at h
        cases h
        exact c.trans (hx.error hx') (hw u (hx.error hx')))

/-- `n` repetitions, with a fact `I` about the state that every round keeps while it completes. -/
theorem times (c : Closed R) {x : Op Unit} {I : State → Prop}
    (hx : ∀ s, I s → Leads R x s) (hI : ∀ s t a, I s → x s = .ok a t → I t) :
    ∀ n s, I s → Leads R (times x n) s
  | 0, s, _ => c.refl s
  | n + 1, s, h =>
    c.bind (hx s h) fun a t _ ht => times c hx hI n t (hI s t a h ht)

theorem forFrom (c : Closed R) {g : Nat → Op Unit} {I : State → Prop}
    (hx : ∀ i s, I s → Leads R (g i) s) (hI : ∀ i s t a, I s → g i s = .ok a t → I t) :
    ∀ n i s, I s → Leads R (forFrom g i n) s
  | 0, _, s, _ => c.refl s
  | n + 1, i, s, h =>
    c.bind (hx i s h) fun a t _ ht => forFrom c hx hI n (i + 1) t (hI i s t a h ht)

end Closed

end Sys2Proof.Machine
end

