-- ==== Sys2Proof/Laws/Micro.lean ====
section
/-! SUPPORT. Everything a step can do to the state, said once: `Micro` lists the elementary updates,
each with the guard under which an operation makes it, and every instruction's next state is reached
by a chain of them (Laws/Reach.lean). What each of these updates keeps, every step keeps. -/

namespace Sys2Proof.Machine

/-- A slot that a palette can be read from (R140). -/
def readableSlot (s : State) (slot : Nat) : Prop :=
  slot < Config.npal ∧ (slotAt s slot).made = true

/-- A legal `bitsPerChannel` (R7). -/
def legalBpc (b : Nat) : Prop := Config.bpcMin ≤ b ∧ b ≤ Config.bpcMax

/-- The elementary updates of the state. -/
inductive Micro (s : State) : State → Prop
  | fault (u : UnitId) (f : FaultReg) : Micro s (withFault u f s)
  | mem (m : Mem) (h : Writes (fun _ _ => True) s.mem m) : Micro s { s with mem := m }
  | draws (n : Nat) : Micro s { s with draws := n }
  | reset : Micro s (resetUnits s)
  | unbind (u : UnitId) : Micro s (unbind u s)
  | palCreate (slot count bpc : Nat) (h1 : slot < Config.npal) (h2 : count ≤ Config.palMax)
      (h3 : legalBpc bpc) : Micro s (setSlot slot ⟨true, count, bpcStored bpc, []⟩ s)
  | palSet (slot i : Nat) (r g b : U32) (a : Option U32) (h1 : readableSlot s slot)
      (h2 : i < (slotAt s slot).count) :
      Micro s (setEntry slot i (clampedEntry (slotAt s slot).bpc r g b a) s)
  | palResample (sd ss nb : Nat) (h1 : sd < Config.npal) (h2 : readableSlot s ss)
      (h3 : legalBpc nb) : Micro s (setSlot sd (resampled (slotAt s ss) nb) s)
  | palValues (slot : Nat) (vs : List U32) (bpc : Nat) (alpha : Bool) (h1 : slot < Config.npal)
      (h2 : vs.length ≤ Config.palMax) (h3 : legalBpc bpc) :
      Micro s (setSlot slot (paletteOfValues vs bpc alpha) s)
  | palMono (slot : Nat) (h1 : slot < Config.npal) : Micro s (setSlot slot monoPalette s)
  | palEhb (sd ss : Nat) (h1 : sd < Config.npal) (h2 : readableSlot s ss)
      (h3 : 32 ≤ (slotAt s ss).count)
      (h4 : ∀ i < 32, (entryAt (slotAt s ss) i).set = true) :
      Micro s (setSlot sd (ehbPalette (slotAt s ss)) s)
  | bprInit (r : BufRef) (g : Geometry) (h1 : geometryOk g = true) (h2 : refOk s.mem r) :
      Micro s { s with bpr := { s.bpr with init := true, geom := registerGeometry g, cur := .zero,
                                           buf := some r } }
  | bprCache (l : List Byte) (h : l.length = 8) :
      Micro s { s with bpr := { s.bpr with cache := l } }
  | bprStep (h : s.bpr.init = true) :
      Micro s { s with bpr := { s.bpr with cur := stepCursor s.bpr.geom s.bpr.cur } }
  | bpwInit (r : BufRef) (g : Geometry) (h1 : geometryOk g = true) (h2 : refOk s.mem r) :
      Micro s { s with bpw := { s.bpw with init := true, geom := registerGeometry g, cur := .zero,
                                           buf := some r } }
  | bpwStep (h : s.bpw.init = true) :
      Micro s { s with bpw := { s.bpw with cur := stepCursor s.bpw.geom s.bpw.cur } }
  | pxrInit (r : BufRef) (slot : Nat) (h1 : refOk s.mem r) (h2 : readableSlot s slot) :
      Micro s { s with pxr := { s.pxr with buf := some r, pos := 0, init := true,
                                           lut := viewOf (slotAt s slot) } }
  | pxrLut (slot : Nat) (h : readableSlot s slot) :
      Micro s { s with pxr := { s.pxr with lut := viewOf (slotAt s slot) } }
  | pxrPos (n : Nat) : Micro s { s with pxr := { s.pxr with pos := n } }
  | pxwInit (r : BufRef) (slot : Nat) (h1 : refOk s.mem r) (h2 : readableSlot s slot) :
      Micro s { s with pxw := { s.pxw with buf := some r, pos := 0, init := true,
                                           lut := viewOf (slotAt s slot) } }
  | pxwLut (slot : Nat) (h : readableSlot s slot) :
      Micro s { s with pxw := { s.pxw with lut := viewOf (slotAt s slot) } }
  | pxwPos (n : Nat) : Micro s { s with pxw := { s.pxw with pos := n } }
  | pbdStart (src dst : BufRef) (sp dbase outSize : Nat) (h1 : refOk s.mem src)
      (h2 : refOk s.mem dst) (h3 : dbase + outSize ≤ dst.len) :
      Micro s { s with pbd := { s.pbd with src := some src, dst := some dst, sp := sp,
                                           dbase := dbase, outSize := outSize, produced := 0 } }
  | pbdSkip (n : Nat) : Micro s { s with pbd := { s.pbd with sp := n } }
  | pbdProduced (h : s.pbd.produced < s.pbd.outSize) :
      Micro s { s with pbd := { s.pbd with produced := s.pbd.produced + 1 } }
  | vddStart (src dst : BufRef) (cp cend dp rend dbase bpl h : Nat) (h1 : refOk s.mem src)
      (h2 : refOk s.mem dst) (h3 : h ≠ 0) (h4 : bpl % 2 = 0) (h5 : rend ≤ src.len)
      (h6 : dbase + bpl * h ≤ dst.len) :
      Micro s { s with vdd := { s.vdd with src := some src, dst := some dst, cp := cp, cend := cend,
                                           dp := dp, rend := rend, dbase := dbase,
                                           bytesPerLine := bpl, h := h, x := 0, y := 0 } }
  | vddStatus (st : VddStatus) : Micro s { s with vdd := { s.vdd with status := st } }
  | vddPtr (cp dp : Nat) : Micro s { s with vdd := { s.vdd with cp := cp, dp := dp } }
  | vddEmit (h : s.vdd.x < s.vdd.bytesPerLine) :
      Micro s { s with
        vdd := { s.vdd with
          y := if s.vdd.y + 1 = s.vdd.h then 0 else s.vdd.y + 1
          x := if s.vdd.y + 1 = s.vdd.h then s.vdd.x + 2 else s.vdd.x } }
  | ckrOpen (r : BufRef) (h : refOk s.mem r) :
      Micro s { s with
        ckr := { s.ckr with src := some r, depth := 1,
                            views := sput View.zero s.ckr.views 0 ⟨0, r.len, 0⟩, init := true } }
  | ckrPos (p : Nat) (h1 : s.ckr.init = true) (h2 : p ≤ (curView s).len) :
      Micro s (setViewPos p s)
  | ckrEnter (base length : Nat) (h1 : s.ckr.init = true) (h2 : s.ckr.depth ≠ Config.ckDepth)
      (h3 : base + length ≤ (refOf s.ckr.src).len) :
      Micro s { s with
        ckr := { s.ckr with views := sput View.zero s.ckr.views s.ckr.depth ⟨base, length, 0⟩,
                            depth := s.ckr.depth + 1 } }
  | ckrLeave (h : 1 < s.ckr.depth) :
      Micro s { s with ckr := { s.ckr with depth := s.ckr.depth - 1 } }
  | ckwInit (r : BufRef) (h : refOk s.mem r) :
      Micro s { s with ckw := { s.ckw with dst := some r, pos := 0, sd := 0, init := true } }
  | ckwStart (h : s.ckw.sd ≠ Config.ckDepth) :
      Micro s { s with
        ckw := { s.ckw with start := sput 0 s.ckw.start s.ckw.sd (evenUp s.ckw.pos),
                            sd := s.ckw.sd + 1, pos := evenUp s.ckw.pos + 8 } }
  | ckwEnd (h : s.ckw.sd ≠ 0) : Micro s { s with ckw := { s.ckw with sd := s.ckw.sd - 1 } }
  | ckwPos (n : Nat) : Micro s { s with ckw := { s.ckw with pos := n } }
  | hamInit (p slot : Nat) (h1 : 3 ≤ p) (h2 : p ≤ Config.planesMax) (h3 : readableSlot s slot) :
      Micro s { s with
        ham := { s.ham with planes := p, lut := viewOf (slotAt s slot), cur := Config.hamInit,
                            curSet := false, init := true } }
  | hamLut (slot : Nat) (h : readableSlot s slot) :
      Micro s { s with ham := { s.ham with lut := viewOf (slotAt s slot) } }
  | hamCur (v : U32) (b : Bool) : Micro s { s with ham := { s.ham with cur := v, curSet := b } }
  | rpaConfig (height : Nat) (c : Consumer) :
      Micro s { s with
        rpa := { s.rpa with height := height, consumer := c, count := 0, init := true } }
  | rpaLoad (k slot : Nat) (h1 : k < Config.rastMax) (h2 : k ≤ s.rpa.count)
      (h3 : readableSlot s slot) :
      Micro s { s with
        rpa := { s.rpa with
          ras := sput Lut.empty s.rpa.ras k (viewOf (slotAt s slot))
          count := if k = s.rpa.count then s.rpa.count + 1 else s.rpa.count } }
  | rpaSelect (i : Nat) :
      Micro s (installLut s.rpa.consumer (sget Lut.empty s.rpa.ras i) s)
  | rpaTarget (c : Consumer) (h : Nat) :
      Micro s { s with rpa := { s.rpa with consumer := c, height := h } }
  | seq (q : Seq) : Micro s { s with seq := q }

/-- Chains of elementary updates. -/
abbrev Reach : State → State → Prop := Relation.ReflTransGen Micro

theorem reach_closed : Closed Reach := ⟨fun _ => .refl, fun h1 h2 => h1.trans h2⟩

variable {s t : State}

theorem Micro.reach (h : Micro s t) : Reach s t := .single h

/-- A chain keeps what every elementary update keeps. -/
theorem Reach.keeps {I : State → Prop} (hI : ∀ s t, Micro s t → I s → I t) (h : Reach s t) :
    I s → I t := by
  induction h with
  | refl => exact id
  | tail _ hm ih => exact fun hs => hI _ _ hm (ih hs)

/-- No update changes a buffer's length. -/
theorem Micro.len_eq (h : Micro s t) (id : Nat) : (bufAt t.mem id).len = (bufAt s.mem id).len := by
  cases h with
  | mem m hw => exact hw.len_eq id
  | fault u f => rw [withFault_mem]
  | unbind u => rw [unbind_mem]
  | rpaSelect i =>
    cases s.rpa.consumer <;> rfl
  | _ => rfl

theorem Reach.len_eq (h : Reach s t) (id : Nat) : (bufAt t.mem id).len = (bufAt s.mem id).len :=
  Reach.keeps (I := fun u => (bufAt u.mem id).len = (bufAt s.mem id).len)
    (fun _ _ hm hi => (hm.len_eq id).trans hi) h rfl

theorem Reach.refOk (h : Reach s t) {r : BufRef} (hr : refOk s.mem r) : refOk t.mem r :=
  (refOk_of_len (h.len_eq r.id)).mpr hr

end Sys2Proof.Machine
end

