-- ==== Sys2Proof/Laws/PerInstr.lean ====
section
/-! SUPPORT. Statements about every instruction, one lemma for each constructor. Family `DecodeWf`: what
the decoder answers is well formed, so an ill-formed instruction has no encoding. -/

namespace Sys2Proof.Laws

/-- Every packet that decodes to `i` shows `i` well formed. -/
def DecodeWf.Statement (i : Instr) : Prop := ∀ pk, decode pk = .ok i → WellFormed i = true

/-- Where the packet of a decoded instruction comes from, for the in-stream commands: a host operation
never decodes to one. -/
theorem decodeHop_wf (code : Byte) (ops : List Operand) (i : Instr)
    (h : decodeHop code ops = .ok i) : WellFormed i = true := by
  unfold decodeHop at h
  split at h <;> first
    | cases h
    | (split at h <;> cases h <;> rfl)

theorem instrOfPb_wf (c : Byte) : WellFormed (instrOfPb (decodePb c)) = true := by
  revert c
  decide +kernel

theorem instrOfVd_wf (c : Byte) : WellFormed (instrOfVd (decodeVd c)) = true := by
  revert c
  decide +kernel

theorem instrOfHam_wf (p raw : Nat) (h3 : 3 ≤ p) (h8 : p ≤ Config.planesMax) :
    WellFormed (instrOfHam p (decodeHam p raw).1 (decodeHam p raw).2) = true := by
  have hd : pixelCodeOk p (raw % 2 ^ (p - 2)) = true := by
    simp [pixelCodeOk, h3, h8, Nat.mod_lt]
  unfold decodeHam
  cases hamSelOf (raw / 2 ^ (p - 2)) <;> exact hd

/-- Whatever decodes is well formed. -/
theorem decode_wf (pk : Packet) (i : Instr) (h : decode pk = .ok i) : WellFormed i = true := by
  cases pk with
  | hop code ops => exact decodeHop_wf code ops i h
  | pb c => obtain rfl := Except.ok.inj h; exact instrOfPb_wf c
  | vd c => obtain rfl := Except.ok.inj h; exact instrOfVd_wf c
  | ham p raw =>
    simp only [decode] at h
    split at h
    · rename_i hp
      obtain rfl := Except.ok.inj h
      exact instrOfHam_wf p raw hp.1 hp.2.1
    · exact nomatch h

theorem DecodeWf.pbLit (n : BitVec 7) : DecodeWf.Statement (.pbLit n) :=
  fun _ _ => rfl
theorem DecodeWf.pbRun (n : BitVec 7) : DecodeWf.Statement (.pbRun n) :=
  fun pk h => decode_wf pk _ h
theorem DecodeWf.pbNop : DecodeWf.Statement (.pbNop) :=
  fun _ _ => rfl
theorem DecodeWf.vdCopyx : DecodeWf.Statement (.vdCopyx) :=
  fun _ _ => rfl
theorem DecodeWf.vdCopy (n : BitVec 7) : DecodeWf.Statement (.vdCopy n) :=
  fun _ _ => rfl
theorem DecodeWf.vdRunx : DecodeWf.Statement (.vdRunx) :=
  fun _ _ => rfl
theorem DecodeWf.vdRun (n : BitVec 7) : DecodeWf.Statement (.vdRun n) :=
  fun pk h => decode_wf pk _ h
theorem DecodeWf.hamBase (p data : Nat) : DecodeWf.Statement (.hamBase p data) :=
  fun pk h => decode_wf pk _ h
theorem DecodeWf.hamModb (p data : Nat) : DecodeWf.Statement (.hamModb p data) :=
  fun pk h => decode_wf pk _ h
theorem DecodeWf.hamModr (p data : Nat) : DecodeWf.Statement (.hamModr p data) :=
  fun pk h => decode_wf pk _ h
theorem DecodeWf.hamModg (p data : Nat) : DecodeWf.Statement (.hamModg p data) :=
  fun pk h => decode_wf pk _ h
theorem DecodeWf.sysReset : DecodeWf.Statement (.sysReset) :=
  fun _ _ => rfl
theorem DecodeWf.palCreate (slot count : Nat) (bpc : Option Nat) :
    DecodeWf.Statement (.palCreate slot count bpc) :=
  fun _ _ => rfl
theorem DecodeWf.palSet (slot i : Nat) (r g b : U32) (a : Option U32) :
    DecodeWf.Statement (.palSet slot i r g b a) :=
  fun _ _ => rfl
theorem DecodeWf.palGet (slot i : Nat) : DecodeWf.Statement (.palGet slot i) :=
  fun _ _ => rfl
theorem DecodeWf.palResample (sd ss newBpc : Nat) :
    DecodeWf.Statement (.palResample sd ss newBpc) :=
  fun _ _ => rfl
theorem DecodeWf.palToval (slot : Nat) (alpha : Option Bool) :
    DecodeWf.Statement (.palToval slot alpha) :=
  fun _ _ => rfl
theorem DecodeWf.palFromval (slot : Nat) (values : List U32) (bpc : Option Nat) (alpha : Option Bool) :
    DecodeWf.Statement (.palFromval slot values bpc alpha) :=
  fun _ _ => rfl
theorem DecodeWf.palFrompix (slot buf : Nat) : DecodeWf.Statement (.palFrompix slot buf) :=
  fun _ _ => rfl
theorem DecodeWf.palMono (slot : Nat) : DecodeWf.Statement (.palMono slot) :=
  fun _ _ => rfl
theorem DecodeWf.palEhb (sd ss : Nat) : DecodeWf.Statement (.palEhb sd ss) :=
  fun _ _ => rfl
theorem DecodeWf.palPlanes (slot : Nat) : DecodeWf.Statement (.palPlanes slot) :=
  fun _ _ => rfl
theorem DecodeWf.bprInit (buf : Nat) (g : Geometry) : DecodeWf.Statement (.bprInit buf g) :=
  fun _ _ => rfl
theorem DecodeWf.bprRead : DecodeWf.Statement (.bprRead) :=
  fun _ _ => rfl
theorem DecodeWf.bprAdv (n : Nat) : DecodeWf.Statement (.bprAdv n) :=
  fun _ _ => rfl
theorem DecodeWf.bprEof : DecodeWf.Statement (.bprEof) :=
  fun _ _ => rfl
theorem DecodeWf.bpwInit (buf : Nat) (g : Geometry) : DecodeWf.Statement (.bpwInit buf g) :=
  fun _ _ => rfl
theorem DecodeWf.bpwWrite (index : Nat) : DecodeWf.Statement (.bpwWrite index) :=
  fun _ _ => rfl
theorem DecodeWf.bpwAdv (n : Nat) : DecodeWf.Statement (.bpwAdv n) :=
  fun _ _ => rfl
theorem DecodeWf.bpwEof : DecodeWf.Statement (.bpwEof) :=
  fun _ _ => rfl
theorem DecodeWf.pxrInit (buf slot : Nat) : DecodeWf.Statement (.pxrInit buf slot) :=
  fun _ _ => rfl
theorem DecodeWf.pxrRead : DecodeWf.Statement (.pxrRead) :=
  fun _ _ => rfl
theorem DecodeWf.pxrSetpal (slot : Nat) : DecodeWf.Statement (.pxrSetpal slot) :=
  fun _ _ => rfl
theorem DecodeWf.pxrAdv (n : Nat) : DecodeWf.Statement (.pxrAdv n) :=
  fun _ _ => rfl
theorem DecodeWf.pxwInit (buf slot : Nat) : DecodeWf.Statement (.pxwInit buf slot) :=
  fun _ _ => rfl
theorem DecodeWf.pxwWrite (index : Nat) : DecodeWf.Statement (.pxwWrite index) :=
  fun _ _ => rfl
theorem DecodeWf.pxwSetpal (slot : Nat) : DecodeWf.Statement (.pxwSetpal slot) :=
  fun _ _ => rfl
theorem DecodeWf.pxwAdv (n : Nat) : DecodeWf.Statement (.pxwAdv n) :=
  fun _ _ => rfl
theorem DecodeWf.pxwWritec (colour : U32) : DecodeWf.Statement (.pxwWritec colour) :=
  fun _ _ => rfl
theorem DecodeWf.pbdDepack (src sp0 dst dbase outSize : Nat) :
    DecodeWf.Statement (.pbdDepack src sp0 dst dbase outSize) :=
  fun _ _ => rfl
theorem DecodeWf.vddDecode (src base len dst dbase bytesPerLine h : Nat) :
    DecodeWf.Statement (.vddDecode src base len dst dbase bytesPerLine h) :=
  fun _ _ => rfl
theorem DecodeWf.ckrOpen (buf : Nat) : DecodeWf.Statement (.ckrOpen buf) :=
  fun _ _ => rfl
theorem DecodeWf.ckrReadchunk : DecodeWf.Statement (.ckrReadchunk) :=
  fun _ _ => rfl
theorem DecodeWf.ckrPeek : DecodeWf.Statement (.ckrPeek) :=
  fun _ _ => rfl
theorem DecodeWf.ckrEof : DecodeWf.Statement (.ckrEof) :=
  fun _ _ => rfl
theorem DecodeWf.ckrEnter (base length : Nat) : DecodeWf.Statement (.ckrEnter base length) :=
  fun _ _ => rfl
theorem DecodeWf.ckrLeave : DecodeWf.Statement (.ckrLeave) :=
  fun _ _ => rfl
theorem DecodeWf.ckrRd8 : DecodeWf.Statement (.ckrRd8) :=
  fun _ _ => rfl
theorem DecodeWf.ckrRd16 : DecodeWf.Statement (.ckrRd16) :=
  fun _ _ => rfl
theorem DecodeWf.ckrRd32 : DecodeWf.Statement (.ckrRd32) :=
  fun _ _ => rfl
theorem DecodeWf.hamInit (p slot : Nat) : DecodeWf.Statement (.hamInit p slot) :=
  fun _ _ => rfl
theorem DecodeWf.hamRead : DecodeWf.Statement (.hamRead) :=
  fun _ _ => rfl
theorem DecodeWf.hamSetpal (slot : Nat) : DecodeWf.Statement (.hamSetpal slot) :=
  fun _ _ => rfl
theorem DecodeWf.hamAdv (n : Nat) : DecodeWf.Statement (.hamAdv n) :=
  fun _ _ => rfl
theorem DecodeWf.rpaConfig (height : Nat) (consumer : Consumer) :
    DecodeWf.Statement (.rpaConfig height consumer) :=
  fun _ _ => rfl
theorem DecodeWf.rpaLoad (k slot : Nat) : DecodeWf.Statement (.rpaLoad k slot) :=
  fun _ _ => rfl
theorem DecodeWf.rpaSelect (y : Nat) : DecodeWf.Statement (.rpaSelect y) :=
  fun _ _ => rfl
theorem DecodeWf.seqDecode (planeBuf slot w h p : Nat) (format : PlaneFormat) (pixBuf : Nat) :
    DecodeWf.Statement (.seqDecode planeBuf slot w h p format pixBuf) :=
  fun _ _ => rfl
theorem DecodeWf.seqEncode (pixBuf slot w h : Nat) (p : Option Nat) (format : PlaneFormat) (planeBuf : Nat) :
    DecodeWf.Statement (.seqEncode pixBuf slot w h p format planeBuf) :=
  fun _ _ => rfl
theorem DecodeWf.seqDecodec (container work pixBuf : Nat) :
    DecodeWf.Statement (.seqDecodec container work pixBuf) :=
  fun _ _ => rfl
theorem DecodeWf.seqScan (container : Nat) : DecodeWf.Statement (.seqScan container) :=
  fun _ _ => rfl
theorem DecodeWf.seqAssemble (container work pixBuf : Nat) :
    DecodeWf.Statement (.seqAssemble container work pixBuf) :=
  fun _ _ => rfl
theorem DecodeWf.pbePack (src bytesPerLine dst : Nat) :
    DecodeWf.Statement (.pbePack src bytesPerLine dst) :=
  fun _ _ => rfl
theorem DecodeWf.ckwStart (tag : U32) : DecodeWf.Statement (.ckwStart tag) :=
  fun _ _ => rfl
theorem DecodeWf.ckwEnd : DecodeWf.Statement (.ckwEnd) :=
  fun _ _ => rfl
theorem DecodeWf.seqEncodec (pixBuf slot : Nat) (options : EncOptions) (container : Nat) :
    DecodeWf.Statement (.seqEncodec pixBuf slot options container) :=
  fun _ _ => rfl
theorem DecodeWf.ckwInit (buf : Nat) : DecodeWf.Statement (.ckwInit buf) :=
  fun _ _ => rfl
theorem DecodeWf.ckwWr8 (v : Byte) : DecodeWf.Statement (.ckwWr8 v) :=
  fun _ _ => rfl
theorem DecodeWf.ckwWr16 (v : U16) : DecodeWf.Statement (.ckwWr16 v) :=
  fun _ _ => rfl
theorem DecodeWf.ckwWr32 (v : U32) : DecodeWf.Statement (.ckwWr32 v) :=
  fun _ _ => rfl

end Sys2Proof.Laws
end

