-- ==== Sys2Proof/Laws/Reach.lean ====
section
/-! SUPPORT. Every operation of a unit is a chain of the elementary updates of Laws/Micro.lean, on
every path: one lemma for each operation, and `exec_reach` and `step_reach` for the whole. -/

namespace Sys2Proof.Machine

variable {α β : Type} {x : Op α} {s t : State}

/-- The state an operation leaves is reached by elementary updates. -/
abbrev Walks (x : Op α) (s : State) : Prop := Leads Reach x s

theorem walks_pure (a : α) : Walks (pure a : Op α) s := reach_closed.pure a

theorem walks_bind {f : α → Op β} (hx : Walks x s)
    (hf : ∀ a t, Reach s t → x s = .ok a t → Walks (f a) t) : Walks (x >>= f) s :=
  reach_closed.bind hx hf

theorem walks_raise {u : UnitId} {k : FaultCode} {n : Nat} : Walks (raise u k n : Op α) s :=
  leads_raise (Micro.fault u _).reach

theorem walks_check {p : Prop} [Decidable p] {u : UnitId} {k : FaultCode} {n : Nat}
    {g : Unit → Op β} (h : ¬ p → Walks (g ()) s) : Walks (raiseIf p u k n >>= g) s :=
  reach_closed.check (fun _ => (Micro.fault u _).reach) h

theorem walks_raiseIf {p : Prop} [Decidable p] {u : UnitId} {k : FaultCode} {n : Nat} :
    Walks (raiseIf p u k n) s := by
  unfold raiseIf
  split
  · exact walks_raise
  · exact walks_pure _

theorem walks_enter {u : UnitId} {g : Unit → Op β} (h : ready u s → Walks (g ()) s) :
    Walks (enter u >>= g) s :=
  reach_closed.enter (fun _ _ => (Micro.fault u _).reach) h

theorem walks_clear {u : UnitId} {g : Unit → Op β} (h : Walks (g ()) (clearedFault u s)) :
    Walks (clearFault u >>= g) s :=
  walks_bind (leads_clearFault (Micro.fault u _).reach) fun _ _ _ ht => by cases ht; exact h

theorem walks_set {g : State → State} {k : Unit → Op β} (hg : Reach s (g s))
    (hk : Walks (k ()) (g s)) : Walks (modify g >>= k) s := reach_closed.set hg hk

theorem walks_onStop {g : State → State} (hx : Walks x s) (hg : ∀ t, Reach t (g t)) :
    Walks (onStop g x) s := reach_closed.onStop hx fun t _ => hg t

theorem walks_callFrom {u v : UnitId} (hx : Walks x s) : Walks (callFrom u v x) s :=
  reach_closed.callFrom hx fun _ _ => (Micro.fault u _).reach

theorem walks_endPass {u : UnitId} (hx : Walks x s) : Walks (endPass u x) s :=
  reach_closed.endPass hx fun _ _ => (Micro.unbind u).reach

theorem reach_outlived_bpr (u : UnitId) (rs : List BufRef) (s : State) :
    Reach s { s with bpr := { s.bpr with buf := outlived u .bpr rs s.bpr.buf } } := by
  unfold outlived
  split
  · exact (Micro.unbind .bpr).reach
  · exact .refl

theorem reach_outlived_bpw (u : UnitId) (rs : List BufRef) (s : State) :
    Reach s { s with bpw := { s.bpw with buf := outlived u .bpw rs s.bpw.buf } } := by
  unfold outlived
  split
  · exact (Micro.unbind .bpw).reach
  · exact .refl

theorem reach_outlived_pxr (u : UnitId) (rs : List BufRef) (s : State) :
    Reach s { s with pxr := { s.pxr with buf := outlived u .pxr rs s.pxr.buf } } := by
  unfold outlived
  split
  · exact (Micro.unbind .pxr).reach
  · exact .refl

theorem reach_outlived_pxw (u : UnitId) (rs : List BufRef) (s : State) :
    Reach s { s with pxw := { s.pxw with buf := outlived u .pxw rs s.pxw.buf } } := by
  unfold outlived
  split
  · exact (Micro.unbind .pxw).reach
  · exact .refl

theorem reach_outlived_ckr (u : UnitId) (rs : List BufRef) (s : State) :
    Reach s { s with ckr := { s.ckr with src := outlived u .ckr rs s.ckr.src } } := by
  unfold outlived
  split
  · exact (Micro.unbind .ckr).reach
  · exact .refl

theorem reach_outlived_ckw (u : UnitId) (rs : List BufRef) (s : State) :
    Reach s { s with ckw := { s.ckw with dst := outlived u .ckw rs s.ckw.dst } } := by
  unfold outlived
  split
  · exact (Micro.unbind .ckw).reach
  · exact .refl

/-- A claim is the end of some bindings. -/
theorem reach_claim (u : UnitId) (r : BufRef) (s : State) : Reach s (claim u r s) :=
  (reach_outlived_bpw u [r] s).trans <| (reach_outlived_pxw u [r] _).trans <|
    reach_outlived_ckw u [r] _

/-- And so is a write, as far as it concerns bindings. -/
theorem reach_overwrite (u : UnitId) (rs : List BufRef) (s : State) :
    Reach s (overwrite u rs s) :=
  (reach_outlived_bpr u rs s).trans <| (reach_outlived_bpw u rs _).trans <|
    (reach_outlived_pxr u rs _).trans <| (reach_outlived_pxw u rs _).trans <|
    (reach_outlived_ckr u rs _).trans <| reach_outlived_ckw u rs _

theorem reach_seqFaulted (t : State) : Reach t (seqFaulted t) := (Micro.seq _).reach

theorem walks_seqCall {v : UnitId} (hx : Walks x s) : Walks (seqCall v x) s :=
  walks_onStop (walks_callFrom hx) reach_seqFaulted

theorem walks_seqCheck {p : Prop} [Decidable p] {k : FaultCode} {n : Nat} {g : Unit → Op β}
    (h : ¬ p → Walks (g ()) s) : Walks (seqRaiseIf p k n >>= g) s := by
  refine walks_bind (walks_onStop walks_raiseIf reach_seqFaulted) fun a t _ ht => ?_
  by_cases hp : p
  · rw [seqRaiseIf_true hp] at ht
    cases ht
  · rw [seqRaiseIf_false hp] at ht
    cases ht
    exact h hp

theorem walks_seqRaiseIf {p : Prop} [Decidable p] {k : FaultCode} {n : Nat} :
    Walks (seqRaiseIf p k n) s := walks_onStop walks_raiseIf reach_seqFaulted

/-- Repetitions of an operation that walks from every state. -/
theorem walks_times {x : Op Unit} (hx : ∀ s, Walks x s) (n : Nat) : Walks (times x n) s :=
  reach_closed.times (I := fun _ => True) (fun s _ => hx s) (fun _ _ _ _ _ => trivial) n s trivial

theorem walks_forFrom {g : Nat → Op Unit} (hx : ∀ i s, Walks (g i) s) (i n : Nat) :
    Walks (forFrom g i n) s :=
  reach_closed.forFrom (I := fun _ => True) (fun i s _ => hx i s) (fun _ _ _ _ _ _ => trivial)
    n i s trivial

/-! ### Buffers -/

theorem Writes.reach {P : Nat → Nat → Prop} {m : Mem} (h : Writes P s.mem m) :
    Reach s { s with mem := m } := (Micro.mem m (h.mono fun _ _ _ => trivial)).reach

theorem reach_spoil (u : UnitId) (r : BufRef) (off n : Nat) (t : State) :
    Reach t (spoil u r off n t) :=
  ((writes_freeRange t.mem r off t.draws _).reach.trans (Micro.draws _).reach).trans
    (reach_overwrite _ _ _)

theorem walks_memRead {u : UnitId} {r : BufRef} {off n : Nat} : Walks (memRead u r off n) s :=
  walks_check fun _ => Closed.get (walks_pure _)

theorem walks_memWrite {u : UnitId} {r : BufRef} {off n v : Nat} :
    Walks (memWrite u r off n v) s :=
  walks_check fun _ => leads_modify
    ((writes_beWrite s.mem r off n v).reach.trans (reach_overwrite _ _ _))

/-! ### PAL -/

theorem walks_checkSlot {u : UnitId} {slot : Nat} {g : Unit → Op β}
    (h : slot < Config.npal → Walks (g ()) s) : Walks (checkSlot u slot >>= g) s :=
  walks_check fun hn => h (Nat.lt_of_not_le hn)

theorem walks_checkMade {u : UnitId} {slot : Nat} {g : Unit → Op β}
    (h : (slotAt s slot).made = true → Walks (g ()) s) : Walks (checkMade u slot >>= g) s := by
  cases hm : (slotAt s slot).made with
  | true =>
    refine walks_bind ?_ fun a t _ ht => ?_
    · exact walks_raiseIf
    · rw [checkMade_ok hm] at ht
      cases ht
      exact h hm
  | false =>
    refine walks_bind ?_ fun a t _ ht => ?_
    · exact walks_raiseIf
    · rw [checkMade_bad hm] at ht
      cases ht

theorem walks_view8 {u : UnitId} {slot : Nat} {g : Lut → Op β}
    (h : readableSlot s slot → Walks (g (viewOf (slotAt s slot))) s) :
    Walks (view8 u slot >>= g) s := by
  refine walks_bind ?_ fun a t _ ht => ?_
  · exact walks_checkSlot fun _ => walks_checkMade fun _ => Closed.get (walks_pure _)
  · by_cases hs : slot < Config.npal
    · cases hm : (slotAt s slot).made with
      | true =>
        rw [view8_ok hs hm] at ht
        cases ht
        exact h ⟨hs, hm⟩
      | false =>
        unfold view8 at ht
        rw [bind_ok (checkSlot_ok hs s), bind_error (checkMade_bad hm)] at ht
        cases ht
    · unfold view8 at ht
      rw [bind_error (checkSlot_bad (Nat.le_of_not_lt hs) s)] at ht
      cases ht

theorem walks_palCreate (slot count : Nat) (bpc : Option Nat) :
    Walks (palCreateOp slot count bpc) s :=
  walks_clear <| walks_checkSlot fun h1 => walks_check fun h2 => walks_check fun h3 =>
    walks_set (Micro.palCreate slot count (bpcOr8 bpc) h1 (Nat.le_of_not_lt h2)
      ⟨by omega, by omega⟩).reach (walks_pure _)

theorem walks_palSet (slot i : Nat) (r g b : U32) (a : Option U32) :
    Walks (palSetOp slot i r g b a) s :=
  walks_enter fun _ => walks_checkSlot fun h1 => walks_checkMade fun h2 => Closed.get <|
    walks_check fun h3 =>
      walks_set (Micro.palSet slot i r g b a ⟨h1, h2⟩ (Nat.lt_of_not_le h3)).reach (walks_pure _)

theorem walks_palGet (slot i : Nat) : Walks (palGetOp slot i) s :=
  walks_enter fun _ => walks_checkSlot fun _ => walks_checkMade fun _ => Closed.get <|
    walks_check fun _ => walks_check fun _ => walks_pure _

theorem walks_palResample (sd ss nb : Nat) : Walks (palResampleOp sd ss nb) s :=
  walks_enter fun _ => walks_checkSlot fun h1 => walks_checkSlot fun h2 => walks_checkMade fun h3 =>
    walks_check fun h4 => Closed.get <|
      walks_set (Micro.palResample sd ss nb h1 ⟨h2, h3⟩ ⟨by omega, by omega⟩).reach (walks_pure _)

theorem walks_raiseUnset {u : UnitId} {p : Slot} {n : Nat} {g : Unit → Op β}
    (h : firstUnset p 0 n = none → Walks (g ()) s) : Walks (raiseUnset u p n >>= g) s := by
  unfold raiseUnset
  cases hf : firstUnset p 0 n with
  | some i => exact walks_bind walks_raise fun _ _ _ ht => by cases ht
  | none => exact walks_bind (walks_pure _) fun _ _ _ ht => by cases ht; exact h hf

/-- No unset entry found: all are set. -/
theorem set_of_firstUnset_none {p : Slot} : ∀ {n start : Nat}, firstUnset p start n = none →
    ∀ i < n, (entryAt p (start + i)).set = true
  | 0, _, _, _, hi => absurd hi (Nat.not_lt_zero _)
  | n + 1, start, h, i, hi => by
    unfold firstUnset at h
    split at h
    · cases h
    · rename_i hs
      cases i with
      | zero => simpa using hs
      | succ i =>
        have := set_of_firstUnset_none h i (by omega)
        rwa [show start + 1 + i = start + (i + 1) by omega] at this

theorem walks_palToval (slot : Nat) (alpha : Option Bool) : Walks (palTovalOp slot alpha) s :=
  walks_enter fun _ => walks_checkSlot fun _ => walks_checkMade fun _ => Closed.get <|
    walks_raiseUnset fun _ => walks_pure _

theorem walks_palFromval (slot : Nat) (vs : List U32) (bpc : Option Nat) (alpha : Option Bool) :
    Walks (palFromvalOp slot vs bpc alpha) s :=
  walks_enter fun _ => walks_checkSlot fun h1 => walks_check fun h2 => walks_check fun h3 =>
    walks_set (Micro.palValues slot vs _ _ h1 (Nat.le_of_not_lt h2) ⟨by omega, by omega⟩).reach
      (walks_pure _)

theorem walks_collectColours (r : BufRef) : ∀ (n k : Nat) (found : List U32) (s : State),
    Walks (collectColours r k n found) s
  | 0, _, _, _ => walks_pure _
  | n + 1, k, found, s => walks_bind walks_memRead fun v t _ _ => by
    dsimp only
    split
    · exact walks_collectColours r n _ _ _
    · exact walks_check fun _ => walks_collectColours r n _ _ _

theorem walks_palFrompix (slot buf : Nat) : Walks (palFrompixOp slot buf) s :=
  walks_enter fun _ => walks_checkSlot fun _ => Closed.get <|
    walks_bind (walks_collectColours _ _ _ _ _) fun _ _ _ _ => walks_palFromval _ _ _ _

theorem walks_palMono (slot : Nat) : Walks (palMonoOp slot) s :=
  walks_enter fun _ => walks_checkSlot fun h => walks_set (Micro.palMono slot h).reach (walks_pure _)

theorem walks_palEhb (sd ss : Nat) : Walks (palEhbOp sd ss) s :=
  walks_enter fun _ => walks_checkSlot fun h1 => walks_checkSlot fun h2 => walks_checkMade fun h3 =>
    Closed.get <| walks_check fun h4 => walks_raiseUnset fun h5 =>
      walks_set (Micro.palEhb sd ss h1 ⟨h2, h3⟩ (Nat.le_of_not_lt h4) fun i hi => by
        simpa using set_of_firstUnset_none h5 i hi).reach (walks_pure _)

theorem walks_palPlanes (slot : Nat) : Walks (palPlanesOp slot) s :=
  walks_enter fun _ => walks_checkSlot fun _ => walks_checkMade fun _ => Closed.get (walks_pure _)

/-! ### BPR and BPW -/

theorem walks_bprInit {r : BufRef} (g : Geometry) (hr : refOk s.mem r) :
    Walks (bprInitOp r g) s :=
  walks_clear <| walks_check fun h =>
    walks_set (Micro.bprInit r g (by simpa using h) (by simpa [clearedFault] using hr)).reach
      (walks_pure _)

theorem walks_bprFetch : Walks bprFetch s := by
  refine Closed.get ?_
  dsimp only
  split
  · exact walks_raise
  · exact leads_modify (Micro.bprCache _ (by simp [columnIndices])).reach

/-- "`BPR.init` stays", which a read keeps. -/
theorem bprInit_closed : Closed fun s t : State => t.bpr.init = s.bpr.init :=
  ⟨fun _ => rfl, fun h1 h2 => h2.trans h1⟩

theorem bprFetch_init : Leads (fun s t => t.bpr.init = s.bpr.init) bprFetch s := by
  refine Closed.get ?_
  dsimp only
  split
  · exact rfl
  · exact rfl

theorem walks_bprReadCore (hi : s.bpr.init = true) : Walks bprReadCore s := by
  have rest : ∀ u, u.bpr.init = true → Walks (do
      let t ← get
      modify fun s => { s with bpr := { s.bpr with cur := stepCursor s.bpr.geom s.bpr.cur } }
      pure (bprCached t) : Op Byte) u := fun u hu =>
    Closed.get <| walks_set (Micro.bprStep hu).reach (walks_pure _)
  refine Closed.get ?_
  dsimp only
  split
  · exact walks_bind walks_bprFetch fun _ t _ ht => rest t ((bprFetch_init.ok ht).trans hi)
  · exact walks_bind reach_closed.refuseIf fun _ t _ ht =>
      rest t (((bprInit_closed.refuseIf (s := s)).ok ht).trans hi)

theorem bprReadCore_init : Leads (fun s t => t.bpr.init = s.bpr.init) bprReadCore s := by
  refine Closed.get ?_
  dsimp only
  split
  · exact bprInit_closed.bind bprFetch_init fun _ _ _ _ => rfl
  · exact bprInit_closed.bind bprInit_closed.refuseIf fun _ _ _ _ => rfl

theorem walks_bprRead : Walks bprReadOp s := walks_enter fun h => walks_bprReadCore h.2.1

theorem walks_bprAdv (n : Nat) : Walks (bprAdvOp n) s :=
  walks_enter fun h => walks_bind
    (reach_closed.times (I := fun s => s.bpr.init = true)
      (fun _ hi => walks_bind (walks_bprReadCore hi) fun _ _ _ _ => walks_pure _)
      (fun s t a hi ht => by
        obtain ⟨b, u, h1, h2⟩ := ok_of_bind_ok ht
        cases h2
        exact (bprReadCore_init.ok h1).trans hi) n s h.2.1)
    fun _ _ _ _ => walks_pure _

theorem walks_bprEof : Walks bprEofOp s :=
  walks_enter fun _ => Closed.get (walks_pure _)

theorem walks_bpwInit {r : BufRef} (g : Geometry) (hr : refOk s.mem r) :
    Walks (bpwInitOp r g) s :=
  walks_clear <| walks_check fun h =>
    walks_set
      ((Micro.bpwInit r g (by simpa using h) (by simpa [clearedFault] using hr)).reach.trans
        (reach_claim .bpw r _))
      (walks_pure _)

theorem walks_bpwWrite (index : Nat) : Walks (bpwWriteOp index) s :=
  walks_enter fun h => Closed.get <| walks_check fun _ => by
    dsimp only
    split
    · exact walks_raise
    · exact walks_set
        (((writes_orPlanes s.mem _ _ _ index _).reach.trans
          (Micro.bpwStep (s := { s with mem := orPlanes s.mem _ _ _ index _ }) h.2.1).reach).trans
            (reach_overwrite _ _ _))
        (walks_pure _)

theorem reach_bpwSteps (n : Nat) : ∀ s : State, s.bpw.init = true →
    Reach s { s with bpw := { s.bpw with cur := stepCursorN s.bpw.geom n s.bpw.cur } } := by
  induction n with
  | zero => exact fun _ _ => .refl
  | succ n ih =>
    exact fun s h => (Micro.bpwStep h).reach.trans
      (ih { s with bpw := { s.bpw with cur := stepCursor s.bpw.geom s.bpw.cur } } h)

theorem walks_bpwAdv (n : Nat) : Walks (bpwAdvOp n) s :=
  walks_enter fun h => walks_set (reach_bpwSteps n s h.2.1) (walks_pure _)

theorem walks_bpwEof : Walks bpwEofOp s :=
  walks_enter fun _ => Closed.get (walks_pure _)

/-! ### PXR and PXW -/

theorem walks_pxrInit {r : BufRef} (slot : Nat) (hr : refOk s.mem r) :
    Walks (pxrInitOp r slot) s :=
  walks_clear <| walks_view8 fun h =>
    walks_set (Micro.pxrInit r slot (by simpa [clearedFault] using hr) h).reach (walks_pure _)

theorem walks_pxrSetpal (slot : Nat) : Walks (pxrSetpalOp slot) s :=
  walks_enter fun _ => walks_view8 fun h => walks_set (Micro.pxrLut slot h).reach (walks_pure _)

theorem walks_pxrRead : Walks pxrReadOp s :=
  walks_enter fun _ => Closed.get <| walks_bind walks_memRead fun v t _ _ => by
    dsimp only
    split
    · exact walks_raise
    · exact walks_set (Micro.pxrPos _).reach (walks_pure _)

theorem walks_pxrAdv (n : Nat) : Walks (pxrAdvOp n) s :=
  walks_enter fun _ => walks_set (Micro.pxrPos _).reach (walks_pure _)

theorem walks_pxwInit {r : BufRef} (slot : Nat) (hr : refOk s.mem r) :
    Walks (pxwInitOp r slot) s :=
  walks_clear <| walks_view8 fun h =>
    walks_set
      ((Micro.pxwInit r slot (by simpa [clearedFault] using hr) h).reach.trans
        (reach_claim .pxw r _))
      (walks_pure _)

theorem walks_pxwSetpal (slot : Nat) : Walks (pxwSetpalOp slot) s :=
  walks_enter fun _ => walks_view8 fun h => walks_set (Micro.pxwLut slot h).reach (walks_pure _)

theorem walks_pxwStore (colour : U32) : Walks (pxwStore colour) s :=
  Closed.get <| walks_bind walks_memWrite fun _ _ _ _ =>
    walks_set (Micro.pxwPos _).reach (walks_pure _)

theorem walks_pxwWrite (index : Nat) : Walks (pxwWriteOp index) s :=
  walks_enter fun _ => Closed.get <| walks_check fun _ => walks_check fun _ => walks_pxwStore _

theorem walks_pxwWritec (colour : U32) : Walks (pxwWritecOp colour) s :=
  walks_enter fun _ => walks_pxwStore _

theorem walks_pxwAdv (n : Nat) : Walks (pxwAdvOp n) s :=
  walks_enter fun _ => walks_set (Micro.pxwPos _).reach (walks_pure _)

/-! ### PBD -/

theorem reach_pbdSpoil (t : State) : Reach t (pbdSpoil t) := reach_spoil _ _ _ _ t

theorem walks_pbdSkip (n : Nat) : Walks (pbdSkip n) s := leads_modify (Micro.pbdSkip _).reach

theorem walks_pbdNext : Walks pbdNext s :=
  Closed.get <| walks_check fun _ => walks_bind (walks_pbdSkip 1) fun _ _ _ _ => walks_pure _

/-- Reading a source byte leaves the room as it was. -/
theorem pbdNext_pbd {v : Byte} (h : pbdNext s = .ok v t) :
    t.pbd.produced = s.pbd.produced ∧ t.pbd.outSize = s.pbd.outSize := by
  unfold pbdNext at h
  rw [get_bind] at h
  by_cases hb : (refOf s.pbd.src).len ≤ s.pbd.sp
  · rw [bind_error (raiseIf_true hb _ _ _ _)] at h
    cases h
  · rw [bind_ok (raiseIf_false hb _ _ _ _)] at h
    cases h
    exact ⟨rfl, rfl⟩

theorem walks_pbdEmit (v : Byte) (h : s.pbd.produced < s.pbd.outSize) : Walks (pbdEmit v) s := by
  refine Closed.get <| walks_bind walks_memWrite fun a t _ ht => ?_
  have hp : t.pbd = s.pbd := by rw [memWrite_state ht]; rfl
  exact leads_modify (Micro.pbdProduced (by rw [hp]; exact h)).reach

theorem walks_whileRoom {x : Op Unit} (h : s.pbd.produced < s.pbd.outSize → Walks x s) :
    Walks (whileRoom x) s := by
  refine Closed.get ?_
  split
  · rename_i hr
    exact h hr
  · exact walks_pure _

theorem walks_pbCommand (c : PbCmd) : Walks (pbCommand c) s := by
  cases c with
  | nop => exact walks_pbdSkip 1
  | run n =>
    exact walks_bind (walks_pbdSkip 1) fun _ _ _ _ => walks_bind walks_pbdNext fun v _ _ _ =>
      walks_times (fun _ => walks_whileRoom (walks_pbdEmit v)) _
  | lit n =>
    exact walks_bind (walks_pbdSkip 1) fun _ _ _ _ =>
      walks_times (fun s => walks_whileRoom fun h => walks_bind walks_pbdNext fun v t _ ht =>
        walks_pbdEmit v (by rw [(pbdNext_pbd ht).1, (pbdNext_pbd ht).2]; exact h)) _

theorem walks_depackLoop : ∀ (n : Nat) (s : State), Walks (depackLoop n) s
  | 0, _ => walks_pure _
  | n + 1, s => by
    refine Closed.get ?_
    split
    · exact walks_bind (Closed.get (walks_check fun _ => walks_pure _)) fun c _ _ _ =>
        walks_bind (walks_pbCommand _) fun _ t _ _ => walks_depackLoop n t
    · exact walks_pure _

theorem walks_pbdDepack {src dst : BufRef} (sp dbase outSize : Nat) (hs : refOk s.mem src)
    (hd : refOk s.mem dst) : Walks (pbdDepackOp src sp dst dbase outSize) s :=
  walks_clear <| walks_check fun h1 => walks_check fun _ =>
    walks_set
      ((Micro.pbdStart src dst sp dbase outSize (by simpa [clearedFault] using hs)
        (by simpa [clearedFault] using hd) (Nat.le_of_not_lt h1)).reach.trans (reach_claim _ _ _)) <|
      walks_bind (walks_endPass (walks_onStop (walks_depackLoop _ _) reach_pbdSpoil)) fun _ _ _ _ =>
        Closed.get (walks_pure _)

theorem walks_pbAlone {x : Op Unit} (h : ∀ s, Walks x s) : Walks (pbAlone x) s :=
  walks_enter fun _ => walks_bind (walks_onStop (h _) reach_pbdSpoil) fun _ _ _ _ => walks_pure _

/-! ### VDD -/

variable {lay : Config.VdatLayout}

theorem walks_vddStop (st : VddStatus) : Walks (vddStop st) s :=
  walks_set (Micro.vddStatus st).reach (walks_pure _)

theorem walks_vddSkipCmd : Walks (vddSkipCmd lay) s := leads_modify (Micro.vddPtr _ _).reach

theorem walks_vddNextWord : Walks (vddNextWord lay) s := by
  refine Closed.get ?_
  dsimp only
  split
  · exact walks_pure _
  · exact walks_bind walks_memRead fun _ _ _ _ =>
      walks_set (Micro.vddPtr _ _).reach (walks_pure _)

theorem walks_vddEmit (w : Byte × Byte) : Walks (vddEmit w) s := by
  refine Closed.get ?_
  dsimp only
  split
  · exact walks_vddStop _
  · rename_i hx
    refine walks_bind walks_memWrite fun a t _ ht => ?_
    have hp : t.vdd = s.vdd := by rw [memWrite_state ht]; rfl
    refine walks_set (Micro.reach ?_) (walks_pure _)
    have := Micro.vddEmit (s := t) (by rw [hp]; exact Nat.lt_of_not_le hx)
    exact this

theorem walks_vddCopyOne : Walks (vddCopyOne lay) s :=
  walks_bind walks_vddNextWord fun w t _ _ => by
    cases w with
    | none => exact Closed.get (walks_vddStop _)
    | some w => exact walks_vddEmit w

theorem walks_vddRepeat {x : Op Bool} (hx : ∀ s, Walks x s) : ∀ (n : Nat) (s : State),
    Walks (vddRepeat x n) s
  | 0, _ => walks_pure _
  | n + 1, s => walks_bind (hx s) fun b t _ _ => by
    split
    · exact walks_pure _
    · exact walks_vddRepeat hx n t

theorem walks_vdCommand (c : VdCmd) : Walks (vdCommand lay c) s := by
  cases c with
  | copyx =>
    exact walks_bind walks_vddSkipCmd fun _ _ _ _ => walks_bind walks_vddNextWord fun w t _ _ => by
      cases w with
      | none => exact walks_vddStop _
      | some w => exact walks_vddRepeat (fun _ => walks_vddCopyOne) _ _
  | copy n =>
    exact walks_bind walks_vddSkipCmd fun _ _ _ _ => walks_vddRepeat (fun _ => walks_vddCopyOne) _ _
  | runx =>
    exact walks_bind walks_vddSkipCmd fun _ _ _ _ => walks_bind walks_vddNextWord fun w t _ _ => by
      cases w with
      | none => exact walks_vddStop _
      | some w =>
        exact walks_bind walks_vddNextWord fun w t _ _ => by
          cases w with
          | none => exact walks_vddStop _
          | some w => exact walks_vddRepeat (fun _ => walks_vddEmit w) _ _
  | run n =>
    exact walks_bind walks_vddSkipCmd fun _ _ _ _ => walks_bind walks_vddNextWord fun w t _ _ => by
      cases w with
      | none => exact walks_vddStop _
      | some w => exact walks_vddRepeat (fun _ => walks_vddEmit w) _ _

theorem walks_vddLoop : ∀ (n : Nat) (s : State), Walks (vddLoop lay n) s
  | 0, _ => walks_pure _
  | n + 1, s => by
    refine Closed.get ?_
    split
    · exact walks_bind (walks_vddStop _) fun _ _ _ _ => walks_pure _
    · split
      · exact walks_bind (walks_vddStop _) fun _ _ _ _ => walks_pure _
      · exact walks_bind walks_memRead fun c _ _ _ => walks_bind (walks_vdCommand _) fun b t _ _ => by
          split
          · exact walks_pure _
          · exact walks_vddLoop n t

theorem walks_vddDecode {src dst : BufRef} (base len dbase bpl h : Nat) (hs : refOk s.mem src)
    (hd : refOk s.mem dst) : Walks (vddDecodeOp lay src base len dst dbase bpl h) s :=
  walks_clear <| walks_check fun h1 => walks_check fun h2 => walks_check fun h3 =>
    walks_check fun _ =>
      walks_set
        ((Micro.vddStart src dst _ _ _ _ dbase bpl h (by simpa [clearedFault] using hs)
          (by simpa [clearedFault] using hd) (by omega) (by omega) (Nat.le_of_not_lt h2)
          (Nat.le_of_not_lt h3)).reach.trans (reach_claim _ _ _)) <|
        walks_bind (walks_endPass (walks_vddLoop _ _)) fun _ _ _ _ => Closed.get (walks_pure _)

theorem walks_vdAlone {x : Op Bool} (h : ∀ s, Walks x s) : Walks (vdAlone x) s :=
  walks_enter fun _ => walks_bind (walks_onStop (h _) fun t => reach_spoil _ _ _ _ t)
    fun _ _ _ _ => walks_pure _

/-! ### CKR -/

theorem walks_ckrOpen {r : BufRef} (hr : refOk s.mem r) : Walks (ckrOpenOp r) s :=
  walks_clear <| walks_set (Micro.ckrOpen r (by simpa [clearedFault] using hr)).reach (walks_pure _)

/-- The pad probe stays inside the view. -/
theorem padProbe_le {np : Nat} (h : np ≤ (curView s).len) : padProbe s np ≤ (curView s).len := by
  unfold padProbe
  split <;> omega

theorem walks_ckrReadchunk : Walks ckrReadchunkOp s :=
  walks_enter fun h => Closed.get <| walks_check fun _ => walks_check fun h2 =>
    walks_set (Micro.ckrPos _ h.2.1 (padProbe_le (Nat.le_of_not_lt h2))).reach (walks_pure _)

theorem walks_ckrPeek : Walks ckrPeekOp s :=
  walks_enter fun _ => Closed.get <| by
    dsimp only
    split <;> exact walks_pure _

theorem walks_ckrEof : Walks ckrEofOp s :=
  walks_enter fun _ => Closed.get (walks_pure _)

theorem walks_ckrEnter (base length : Nat) : Walks (ckrEnterOp base length) s :=
  walks_enter fun h => Closed.get <| walks_check fun h1 => walks_check fun h2 =>
    leads_modify (Micro.ckrEnter base length h.2.1 h1 (Nat.le_of_not_lt h2)).reach

theorem walks_ckrLeave : Walks ckrLeaveOp s :=
  walks_enter fun _ => Closed.get <| walks_check fun h =>
    leads_modify (Micro.ckrLeave (Nat.lt_of_not_le h)).reach

theorem walks_ckrRead (n : Nat) : Walks (ckrReadOp n) s :=
  walks_enter fun h => Closed.get <| walks_check fun h1 =>
    walks_set (Micro.ckrPos _ h.2.1 (Nat.le_of_not_lt h1)).reach (walks_pure _)

/-! ### HAM -/

theorem walks_hamPixel (sel : HamSel) (p data : Nat) : Walks (hamPixel sel p data) s := by
  cases sel with
  | base =>
    exact Closed.get <| walks_check fun _ => walks_check fun _ =>
      leads_modify (Micro.hamCur _ _).reach
  | modb => exact leads_modify (Micro.hamCur _ s.ham.curSet).reach
  | modr => exact leads_modify (Micro.hamCur _ s.ham.curSet).reach
  | modg => exact leads_modify (Micro.hamCur _ s.ham.curSet).reach

theorem walks_hamInit (p slot : Nat) : Walks (hamInitOp p slot) s :=
  walks_clear <| walks_check fun h1 => walks_view8 fun h2 =>
    walks_set (Micro.hamInit p slot (by omega) (by omega) h2).reach (walks_pure _)

theorem walks_hamSetpal (slot : Nat) : Walks (hamSetpalOp slot) s :=
  walks_enter fun _ => walks_view8 fun h => walks_set (Micro.hamLut slot h).reach (walks_pure _)

theorem walks_hamRead : Walks hamReadOp s :=
  walks_enter fun _ => Closed.get <| walks_check fun _ =>
    walks_bind (walks_callFrom walks_bprRead) fun _ _ _ _ =>
      walks_bind (walks_hamPixel _ _ _) fun _ _ _ _ => Closed.get (walks_pure _)

theorem walks_hamAdv (n : Nat) : Walks (hamAdvOp n) s :=
  walks_enter fun _ => walks_callFrom (walks_bprAdv n)

theorem walks_hamAlone (sel : HamSel) (p data : Nat) : Walks (hamAlone sel p data) s :=
  walks_enter fun _ => Closed.get <| walks_check fun _ =>
    walks_bind (walks_hamPixel _ _ _) fun _ _ _ _ => Closed.get (walks_pure _)

/-! ### RPA -/

theorem walks_rpaConfig (height : Nat) (c : Consumer) : Walks (rpaConfigOp height c) s :=
  walks_clear <| walks_set (Micro.rpaConfig height c).reach (walks_pure _)

theorem walks_rpaLoad (k slot : Nat) : Walks (rpaLoadOp k slot) s :=
  walks_enter fun _ => Closed.get <| walks_check fun h1 => walks_view8 fun h2 =>
    walks_set (Micro.rpaLoad k slot (by omega) (by omega) h2).reach (walks_pure _)

theorem walks_rpaSelect (y : Nat) : Walks (rpaSelectOp y) s :=
  walks_enter fun _ => Closed.get <| by
    split
    · exact walks_pure _
    · exact walks_check fun _ => walks_set (Micro.rpaSelect _).reach (walks_pure _)

/-! ### PBE and CKW -/

theorem walks_pbeEmit (dst : BufRef) (pos : Nat) (bytes : List Byte) :
    Walks (pbeEmit dst pos bytes) s :=
  walks_check fun _ => walks_set
    ((writes_writeBytes dst bytes s.mem pos).reach.trans (reach_overwrite _ _ _)) (walks_pure _)

theorem walks_pbeFlush (dst : BufRef) (pos : Nat) (dump : List Byte) :
    Walks (pbeFlush dst pos dump) s := by
  unfold pbeFlush
  split
  · exact walks_pure _
  · exact walks_pbeEmit _ _ _

theorem walks_packLine (src dst : BufRef) (e : Nat) : ∀ (n i pos : Nat) (dump : List Byte)
    (s : State), Walks (packLine src dst e n i pos dump) s
  | 0, _, _, _, _ => walks_pbeFlush _ _ _
  | n + 1, i, pos, dump, s => by
    unfold packLine
    split
    · exact walks_pbeFlush _ _ _
    · refine Closed.get ?_
      dsimp only
      split
      · exact walks_bind (walks_pbeFlush _ _ _) fun _ _ _ _ =>
          walks_bind (walks_pbeEmit _ _ _) fun _ t _ _ => walks_packLine src dst e n _ _ _ t
      · split
        · exact walks_bind (walks_pbeEmit _ _ _) fun _ t _ _ => walks_packLine src dst e n _ _ _ t
        · exact walks_packLine src dst e n _ _ _ s

theorem walks_packLines (src dst : BufRef) (bpl : Nat) : ∀ (n start pos : Nat) (s : State),
    Walks (packLines src dst bpl n start pos) s
  | 0, _, _, _ => walks_pure _
  | n + 1, _, _, _ => walks_bind (walks_packLine _ _ _ _ _ _ _ _) fun _ t _ _ =>
    walks_packLines src dst bpl n _ _ t

theorem walks_pbePack (src dst : BufRef) (bpl : Nat) : Walks (pbePackOp src bpl dst) s :=
  walks_clear <| walks_check fun _ => walks_set (reach_claim _ _ _) <|
    walks_onStop (walks_packLines _ _ _ _ _ _ _) fun t => reach_spoil _ _ _ _ t

theorem walks_ckwInit {r : BufRef} (hr : refOk s.mem r) : Walks (ckwInitOp r) s :=
  walks_clear <| leads_modify
    ((Micro.ckwInit r (by simpa [clearedFault] using hr)).reach.trans (reach_claim .ckw r _))

theorem reach_ckwStart (tag : U32) (h : s.ckw.sd ≠ Config.ckDepth) :
    Reach s (overwrite .ckw
      [windowOf (refOf s.ckw.dst) s.ckw.pos (evenUp s.ckw.pos + 8 - s.ckw.pos)] { s with
      mem := startChunkMem s.mem (refOf s.ckw.dst) s.ckw.pos tag
      ckw := { s.ckw with
        start := sput 0 s.ckw.start s.ckw.sd (evenUp s.ckw.pos)
        sd := s.ckw.sd + 1
        pos := evenUp s.ckw.pos + 8 } }) := by
  refine Relation.ReflTransGen.trans ?_ (reach_overwrite _ _ _)
  have h1 := (writes_startChunk s.mem (refOf s.ckw.dst) s.ckw.pos tag).reach
  generalize startChunkMem s.mem (refOf s.ckw.dst) s.ckw.pos tag = m at h1 ⊢
  exact h1.trans (Micro.ckwStart (s := { s with mem := m }) h).reach

theorem walks_ckwStart (tag : U32) : Walks (ckwStartOp tag) s := by
  refine walks_enter fun _ => Closed.get ?_
  refine walks_check fun h1 => ?_
  refine walks_check fun _ => ?_
  refine walks_check fun _ => ?_
  refine walks_check fun _ => ?_
  exact leads_modify (reach_ckwStart tag h1)

theorem walks_ckwEnd : Walks ckwEndOp s := by
  refine walks_enter fun _ => Closed.get <| walks_check fun h1 =>
    walks_bind walks_memWrite fun a t _ ht => ?_
  have hp : t.ckw.sd = s.ckw.sd := by rw [memWrite_state ht]; rfl
  exact walks_set (Micro.ckwEnd (by rw [hp]; exact h1)).reach (walks_pure _)

theorem walks_ckwWrite (n v : Nat) : Walks (ckwWriteOp n v) s :=
  walks_enter fun _ => Closed.get <| walks_bind walks_memWrite fun _ _ _ _ =>
    leads_modify (Micro.ckwPos _).reach

end Sys2Proof.Machine
end

