-- ==== Sys2Proof/Laws/ReachSeq.lean ====
section
/-! SUPPORT. The sequencer's operations, and with them every instruction and every step, are chains
of the elementary updates of Laws/Micro.lean. -/

namespace Sys2Proof.Machine

variable {α β : Type} {s t : State}

theorem reach_seq (f : Seq → Seq) (s : State) : Reach s { s with seq := f s.seq } :=
  (Micro.seq _).reach

theorem walks_setSeqState (st : SeqState) : Walks (setSeqState st) s :=
  leads_modify (Micro.seq _).reach

theorem walks_seqClear {g : Unit → Op β} (h : ∀ t, Reach s t → Walks (g ()) t) :
    Walks (clearFault .seq >>= g) s :=
  walks_clear (h _ (Micro.fault .seq _).reach)

/-! ### The generic codec -/

theorem reach_clearRange (r : BufRef) (n : Nat) (s : State) : Reach s (clearRange r n s) :=
  (writes_zeroRange s.mem r 0 n).reach.trans (reach_overwrite _ _ _)

theorem walks_decodePixel : Walks decodePixel s :=
  walks_bind (walks_seqCall walks_bprRead) fun _ _ _ _ =>
    walks_bind (walks_seqCall (walks_pxwWrite _)) fun _ _ _ _ => walks_pure _

theorem walks_decodePass {b x : BufRef} (slot w h p : Nat) (f : PlaneFormat)
    (hb : refOk s.mem b) (hx : refOk s.mem x) : Walks (decodePass b slot w h p f x) s :=
  walks_bind (walks_seqCall (walks_bprInit _ hb)) fun _ _ h1 _ => walks_endPass <|
    walks_bind (walks_seqCall (walks_pxwInit slot (h1.refOk hx))) fun _ _ _ _ => walks_endPass <|
      walks_times (fun _ => walks_bind (walks_times (fun _ => walks_decodePixel) w) fun _ _ _ _ =>
        walks_bind (walks_seqCall (walks_bprAdv _)) fun _ _ _ _ => walks_pure _) h

theorem walks_seqDecode {b x : BufRef} (slot w h p : Nat) (f : PlaneFormat)
    (hb : refOk s.mem b) (hx : refOk s.mem x) : Walks (seqDecodeOp b slot w h p f x) s :=
  walks_seqClear fun _ h0 => walks_check fun _ => walks_check fun _ =>
    walks_bind (walks_onStop (walks_decodePass slot w h p f (h0.refOk hb) (h0.refOk hx))
      (reach_spoil _ _ _ _)) fun _ _ _ _ =>
        walks_bind (walks_setSeqState _) fun _ _ _ _ => walks_pure _

theorem walks_encodePixel : Walks encodePixel s :=
  walks_bind (walks_seqCall walks_pxrRead) fun _ _ _ _ =>
    walks_bind (walks_seqCall (walks_bpwWrite _)) fun _ _ _ _ => walks_pure _

theorem walks_encodeChecks (x : BufRef) (slot w h : Nat) (p : Option Nat) (b : BufRef) :
    Walks (encodeChecks x slot w h p b) s := by
  have rest : ∀ (p : Nat) (s : State), Walks (do
      raiseIf (p = 0 ∨ Config.planesMax < p) .seq .badPlanes p
      raiseIf (w % 16 ≠ 0) .seq .badWidth w
      raiseIf (b.len < encodeSize w h p) .seq .bufSmall (encodeSize w h p)
      raiseIf (x.len < 4 * w * h) .seq .bufSmall (4 * w * h)
      pure p : Op Nat) s := fun p s =>
    walks_check fun _ => walks_check fun _ => walks_check fun _ => walks_check fun _ =>
      walks_pure _
  cases p with
  | some p => exact rest p s
  | none => exact walks_bind (walks_seqCall (walks_palPlanes slot)) fun p t _ _ => rest p t

theorem walks_encodePass {x b : BufRef} (slot w h p : Nat) (f : PlaneFormat)
    (hx : refOk s.mem x) (hb : refOk s.mem b) : Walks (encodePass x slot w h p f b) s :=
  walks_onStop
    (walks_bind (leads_modify (reach_clearRange b _ s)) fun _ _ h0 _ =>
      walks_bind (walks_seqCall (walks_pxrInit slot (h0.refOk hx))) fun _ _ h1 _ =>
        walks_bind (walks_endPass <|
          walks_bind (walks_seqCall (walks_bpwInit _ (h1.refOk (h0.refOk hb)))) fun _ _ _ _ =>
            walks_endPass (walks_times (fun _ => walks_encodePixel) _)) fun _ _ _ _ =>
          walks_setSeqState _)
    (reach_spoil _ _ _ _)

theorem walks_seqEncode {x b : BufRef} (slot w h : Nat) (p : Option Nat) (f : PlaneFormat)
    (hx : refOk s.mem x) (hb : refOk s.mem b) : Walks (seqEncodeOp x slot w h p f b) s :=
  walks_seqClear fun _ h0 => walks_bind (walks_encodeChecks _ _ _ _ _ _) fun _ _ h1 _ =>
    walks_bind (walks_encodePass _ _ _ _ _ (h1.refOk (h0.refOk hx)) (h1.refOk (h0.refOk hb)))
      fun _ _ _ _ => walks_pure _

/-! ### The scan -/

theorem walks_seqRd (n : Nat) : Walks (seqRd n) s := walks_seqCall (walks_ckrRead n)

theorem walks_modHdr (f : Hdr → Hdr) : Walks (modHdr f) s := leads_modify (Micro.seq _).reach

theorem walks_readHeader : Walks readHeader s := by
  unfold readHeader
  iterate 12
    refine walks_bind (walks_seqRd _) fun _ _ _ _ => ?_
    refine walks_bind (walks_modHdr _) fun _ _ _ _ => ?_
  exact walks_bind (walks_seqRd 2) fun _ _ _ _ => walks_modHdr _

theorem walks_scanHeader (base len : Nat) : Walks (scanHeader base len) s :=
  walks_seqCheck fun _ =>
    walks_bind (walks_seqCall (walks_ckrEnter base len)) fun _ _ _ _ =>
      walks_bind walks_readHeader fun _ _ _ _ =>
        walks_bind (walks_seqCall walks_ckrLeave) fun _ _ _ _ =>
          walks_bind (walks_modHdr _) fun _ _ _ _ => Closed.get <|
            walks_seqCheck fun _ => walks_seqRaiseIf

theorem walks_scanMode (base len : Nat) : Walks (scanMode base len) s :=
  walks_seqCheck fun _ =>
    walks_bind (walks_seqCall (walks_ckrEnter base len)) fun _ _ _ _ =>
      walks_bind (walks_seqRd 4) fun _ _ _ _ =>
        walks_set (Micro.seq _).reach (walks_seqCall walks_ckrLeave)

theorem walks_scanPaletteEntry (i : Nat) : Walks (scanPaletteEntry i) s :=
  walks_bind (walks_seqRd 1) fun _ _ _ _ => walks_bind (walks_seqRd 1) fun _ _ _ _ =>
    walks_bind (walks_seqRd 1) fun _ _ _ _ =>
      walks_bind (walks_seqCall (walks_palSet _ _ _ _ _ _)) fun _ _ _ _ => walks_pure _

theorem walks_scanPalette (base len : Nat) : Walks (scanPalette base len) s :=
  walks_seqCheck fun _ =>
    walks_bind (walks_seqCall (walks_palCreate _ _ _)) fun _ _ _ _ =>
      walks_bind (walks_seqCall (walks_ckrEnter base len)) fun _ _ _ _ =>
        walks_bind (walks_forFrom (fun i _ => walks_scanPaletteEntry i) 0 _) fun _ _ _ _ =>
          walks_bind (walks_seqCall walks_ckrLeave) fun _ _ _ _ =>
            leads_modify (Micro.seq _).reach

theorem walks_scanChunk (k : Config.Codes) (tag : U32) (len base : Nat) : Walks (scanChunk k tag len base) s := by
  unfold scanChunk
  split_ifs
  · exact walks_scanHeader base len
  · exact walks_scanMode base len
  · exact walks_scanPalette base len
  · exact leads_modify (Micro.seq _).reach
  · exact leads_modify (Micro.seq _).reach
  · exact leads_modify (Micro.seq _).reach
  · exact leads_modify (Micro.seq _).reach
  · exact leads_modify (Micro.seq _).reach
  · exact walks_pure _

theorem walks_scanLoop (k : Config.Codes) : ∀ (n : Nat) (s : State), Walks (scanLoop k n) s
  | 0, _ => walks_pure _
  | n + 1, s => walks_bind (walks_seqCall walks_ckrEof) fun e t _ _ => by
    cases e
    · exact walks_bind (walks_seqCall walks_ckrReadchunk) fun _ _ _ _ =>
        walks_bind (walks_scanChunk k _ _ _) fun _ t _ _ => walks_scanLoop k n t
    · exact walks_pure _

theorem walks_scanSide (k : Config.Codes) : Walks (scanSide k) s :=
  walks_bind (walks_seqCall walks_ckrPeek) fun pk t _ _ => leads_modify (by
    dsimp only
    split
    · exact (Micro.seq _).reach
    · exact (Micro.seq _).reach)

theorem walks_scanComplete : Walks scanComplete s :=
  Closed.get <| walks_seqCheck fun _ => walks_seqCheck fun _ => walks_seqCheck fun _ =>
    walks_setSeqState _

theorem walks_scanPass (k : Config.Codes) (c : BufRef) : Walks (scanPass k c) s :=
  walks_bind (walks_seqCall walks_ckrReadchunk) fun _ _ _ _ => walks_seqCheck fun _ =>
    walks_bind (walks_seqCall (walks_ckrEnter _ _)) fun _ _ _ _ => walks_seqCheck fun _ =>
      walks_bind (walks_seqRd 4) fun _ _ _ _ => walks_seqCheck fun _ =>
        walks_bind (walks_scanLoop k _ _) fun _ _ _ _ =>
          walks_bind (walks_seqCall walks_ckrLeave) fun _ _ _ _ =>
            walks_bind (walks_scanSide k) fun _ _ _ _ => walks_scanComplete

theorem walks_seqScan (k : Config.Codes) {c : BufRef} (hc : refOk s.mem c) :
    Walks (seqScanOp k c) s :=
  walks_seqClear fun t h0 => walks_set (reach_seq scanStart t) <|
    walks_bind (walks_seqCall (walks_ckrOpen (h0.refOk hc))) fun _ _ _ _ =>
      walks_bind (walks_onStop (walks_scanPass k c) fun _ => (Micro.unbind _).reach)
        fun _ _ _ _ => walks_pure _

/-! ### The assembly -/

theorem walks_stripLoop (tag : U32) {c w : BufRef} (lineBytes h p : Nat) : ∀ (n k : Nat) (s : State),
    refOk s.mem c → refOk s.mem w → Walks (stripLoop tag c w lineBytes h p n k) s
  | 0, _, _, _, _ => walks_pure _
  | n + 1, k, s, hc, hw => walks_bind (walks_seqCall walks_ckrEof) fun e t h1 _ => by
    split
    · exact walks_pure _
    · refine walks_bind (walks_seqCall walks_ckrReadchunk) fun ck u h2 _ => ?_
      have hc2 := h2.refOk (h1.refOk hc)
      have hw2 := h2.refOk (h1.refOk hw)
      split
      · exact walks_bind (walks_seqCall (walks_vddDecode _ _ _ _ _ hc2 hw2)) fun _ v h3 _ =>
          walks_stripLoop tag lineBytes h p n _ v (h3.refOk hc2) (h3.refOk hw2)
      · exact walks_stripLoop tag lineBytes h p n _ u hc2 hw2

/-- The plane bytes are where the assembly reads them: in the container or in the work buffer. -/
theorem assemblePlanes_ref {tag : U32} {c w : BufRef} {hd : Hdr} {body : BodyDesc}
    {pg : BufRef × Geometry} (h : assemblePlanes tag c w hd body s = .ok pg t) :
    pg.1 = windowOf c body.base body.len ∨
      pg.1 = windowOf w 0 (hd.bytesPerLine * hd.planes.toNat * hd.height.toNat) := by
  unfold assemblePlanes at h
  split_ifs at h
  · cases h
    exact .inl rfl
  · obtain ⟨_, u, _, h2⟩ := ok_of_bind_ok h
    cases h2
    exact .inr rfl
  · obtain ⟨_, _, _, h⟩ := ok_of_bind_ok h
    obtain ⟨_, _, _, h⟩ := ok_of_bind_ok h
    obtain ⟨_, _, _, h⟩ := ok_of_bind_ok h
    obtain ⟨_, _, _, h⟩ := ok_of_bind_ok h
    obtain ⟨_, _, _, h⟩ := ok_of_bind_ok h
    cases h
    exact .inr rfl

theorem walks_assemblePlanes (tag : U32) {c w : BufRef} (hd : Hdr) (body : BodyDesc)
    (hc : refOk s.mem c) (hw : refOk s.mem w) : Walks (assemblePlanes tag c w hd body) s := by
  unfold assemblePlanes
  dsimp only
  split_ifs
  · exact walks_pure _
  · exact walks_bind (walks_seqCall (walks_pbdDepack _ _ _ (refOk_windowOf hc _ _) hw))
      fun _ _ _ _ => walks_pure _
  · exact walks_bind (leads_modify (reach_clearRange w _ s)) fun _ _ h1 _ =>
      walks_bind (walks_seqCall (walks_ckrEnter _ _)) fun _ _ h2 _ =>
        walks_bind (walks_stripLoop tag _ _ _ _ _ _ (h2.refOk (h1.refOk hc))
          (h2.refOk (h1.refOk hw))) fun _ _ _ _ =>
          walks_bind (walks_seqCall walks_ckrLeave) fun _ _ _ _ =>
            walks_seqCheck fun _ => walks_pure _

theorem walks_activeSlot : Walks activeSlot s :=
  Closed.get <| by
    split
    · exact walks_bind (walks_seqCall (walks_palEhb 1 0)) fun _ _ _ _ => walks_pure _
    · exact walks_pure _

theorem walks_hamPixelOut : Walks hamPixelOut s :=
  walks_bind (walks_seqCall walks_hamRead) fun _ _ _ _ =>
    walks_bind (walks_seqCall (walks_pxwWritec _)) fun _ _ _ _ => walks_pure _

theorem walks_paintLines (raster : Bool) {pixel skip : Op Unit} (hp : ∀ s, Walks pixel s)
    (hs : ∀ s, Walks skip s) (w h : Nat) : Walks (paintLines raster pixel skip w h) s :=
  walks_forFrom (fun y s => by
    cases raster
    · exact walks_bind (walks_times hp w) fun _ t _ _ => hs t
    · exact walks_bind (walks_seqCall (walks_rpaSelect y)) fun _ _ _ _ =>
        walks_bind (walks_times hp w) fun _ t _ _ => hs t) 0 h

theorem walks_setRaster (c : Consumer) (h : Nat) : Walks (setRaster c h) s :=
  leads_modify (Micro.rpaTarget c h).reach

theorem walks_skipBpr (n : Nat) : Walks (do let _ ← seqCall .bpr (bprAdvOp n)) s :=
  walks_bind (walks_seqCall (walks_bprAdv n)) fun _ _ _ _ => walks_pure _

theorem walks_skipHam (n : Nat) : Walks (do let _ ← seqCall .ham (hamAdvOp n)) s :=
  walks_bind (walks_seqCall (walks_hamAdv n)) fun _ _ _ _ => walks_pure _

theorem walks_assemblePixels (hd : Hdr) : Walks (assemblePixels hd) s := by
  refine Closed.get ?_
  dsimp only
  split_ifs
  · exact walks_bind (walks_setRaster _ _) fun _ _ _ _ =>
      walks_paintLines _ (fun _ => walks_hamPixelOut) (fun _ => walks_skipHam _) _ _
  · exact walks_paintLines _ (fun _ => walks_hamPixelOut) (fun _ => walks_skipHam _) _ _
  · exact walks_bind (walks_setRaster _ _) fun _ _ _ _ =>
      walks_paintLines _ (fun _ => walks_decodePixel) (fun _ => walks_skipBpr _) _ _
  · exact walks_paintLines _ (fun _ => walks_decodePixel) (fun _ => walks_skipBpr _) _ _

theorem walks_assembleImage {x : BufRef} {pg : BufRef × Geometry} (hd : Hdr)
    (hb : refOk s.mem pg.1) (hx : refOk s.mem x) : Walks (assembleImage x pg hd) s :=
  walks_bind (walks_seqCall (walks_bprInit _ hb)) fun _ _ h2 _ => walks_endPass <|
    walks_bind walks_activeSlot fun sa _ h3 _ =>
      walks_bind (walks_seqCall (walks_pxwInit sa (h3.refOk (h2.refOk hx)))) fun _ _ _ _ =>
        walks_endPass <| Closed.get <| by
          dsimp only
          split
          · exact walks_bind (walks_seqCall (walks_hamInit _ _)) fun _ _ _ _ =>
              walks_assemblePixels hd
          · exact walks_assemblePixels hd

theorem reach_closeContainer (c : BufRef) (s : State) : Reach s (closeContainer c s) := by
  unfold closeContainer
  split
  · exact (Micro.unbind _).reach
  · exact .refl

theorem walks_assemblePass (tag : U32) {c w x : BufRef} (hd : Hdr) (body : BodyDesc)
    (hc : refOk s.mem c) (hw : refOk s.mem w) (hx : refOk s.mem x) :
    Walks (assemblePass tag c w x hd body) s := by
  refine walks_bind (walks_assemblePlanes tag hd body hc hw) fun pg t h1 hpg => ?_
  have hb : refOk t.mem pg.1 := by
    rcases assemblePlanes_ref hpg with h | h
    · rw [h]; exact refOk_windowOf (h1.refOk hc) _ _
    · rw [h]; exact refOk_windowOf (h1.refOk hw) _ _
  exact walks_bind (walks_assembleImage hd hb (h1.refOk hx)) fun _ _ _ _ =>
    walks_bind (walks_setSeqState _) fun _ _ _ _ => leads_modify (reach_closeContainer _ _)

theorem reach_assembleSpoil (w x : BufRef) (hd : Hdr) (t : State) :
    Reach t (assembleSpoil w x hd t) := by
  unfold assembleSpoil
  dsimp only
  split
  · exact reach_spoil _ _ _ _ _
  · exact (reach_spoil _ _ _ _ _).trans (reach_spoil _ _ _ _ _)

theorem walks_seqAssemble (k : Config.Codes) {c w x : BufRef} (hc : refOk s.mem c)
    (hw : refOk s.mem w) (hx : refOk s.mem x) : Walks (seqAssembleOp k c w x) s := by
  refine walks_enter fun _ => Closed.get <| walks_check fun _ => ?_
  refine walks_bind (walks_onStop walks_seqRaiseIf (reach_spoil _ _ _ _)) fun _ _ h _ => ?_
  refine walks_check fun _ => walks_check fun _ => ?_
  exact walks_bind (walks_onStop (walks_assemblePass _ _ _ (h.refOk hc) (h.refOk hw)
    (h.refOk hx)) fun t => (reach_assembleSpoil _ _ _ t).trans (reach_closeContainer _ _))
    fun _ _ _ _ => walks_pure _

theorem walks_seqDecodec (k : Config.Codes) {c w x : BufRef} (hc : refOk s.mem c)
    (hw : refOk s.mem w) (hx : refOk s.mem x) : Walks (seqDecodecOp k c w x) s :=
  walks_bind (walks_onStop (walks_seqScan k hc) (reach_spoil _ _ _ _)) fun _ _ h1 _ =>
    walks_onStop (walks_seqAssemble k (h1.refOk hc) (h1.refOk hw) (h1.refOk hx))
      (reach_closeContainer _)

/-! ### The container encode -/

theorem walks_seqWr (n v : Nat) : Walks (seqWr n v) s := walks_seqCall (walks_ckwWrite n v)

theorem walks_seqChunk (tag : U32) {body : Op Unit} (h : ∀ s, Walks body s) :
    Walks (seqChunk tag body) s :=
  walks_bind (walks_seqCall (walks_ckwStart tag)) fun _ t _ _ => walks_bind (h t) fun _ _ _ _ =>
    walks_bind (walks_seqCall walks_ckwEnd) fun _ _ _ _ => walks_pure _

theorem walks_writeHeader (o : EncOptions) (p : Nat) : Walks (writeHeader o p) s := by
  unfold writeHeader
  iterate 12 refine walks_bind (walks_seqWr _ _) fun _ _ _ _ => ?_
  exact walks_seqWr _ _

theorem walks_writeMode (tag : U32) (flags : Option U32) : Walks (writeMode tag flags) s := by
  cases flags with
  | none => exact walks_pure _
  | some v => exact walks_seqChunk _ fun _ => walks_seqWr _ _

theorem walks_writePaletteEntry (slot i : Nat) : Walks (writePaletteEntry slot i) s :=
  walks_bind (walks_seqCall (walks_palGet slot i)) fun _ _ _ _ => Closed.get <|
    walks_bind (walks_seqWr _ _) fun _ _ _ _ => walks_bind (walks_seqWr _ _) fun _ _ _ _ =>
      walks_seqWr _ _

theorem walks_writePalette (tag : U32) (slot : Nat) : Walks (writePalette tag slot) s :=
  Closed.get <| walks_seqChunk _ fun _ => walks_forFrom (fun i _ => walks_writePaletteEntry slot i) _ _

theorem walks_writeBody (k : Config.Codes) (layout : BodyLayout) (body : BufRef) :
    Walks (writeBody k layout body) s :=
  walks_seqChunk _ fun _ => walks_forFrom (fun _ _ => Closed.get (walks_seqWr _ _)) _ _

theorem walks_encodecBody (o : EncOptions) (work pack : BufRef) (size : Nat) :
    Walks (encodecBody o work pack size) s := by
  unfold encodecBody
  split
  · exact walks_bind (walks_seqCall (walks_pbePack _ _ _)) fun _ _ _ _ => walks_pure _
  · exact walks_pure _

theorem walks_encodecTree (k : Config.Codes) (o : EncOptions) (slot p : Nat) (body : BufRef)
    {cout : BufRef} (hc : refOk s.mem cout) : Walks (encodecTree k o slot p body cout) s :=
  walks_bind (walks_seqCall (walks_ckwInit hc)) fun _ _ _ _ => walks_endPass <| walks_seqChunk _ fun _ =>
    walks_bind (walks_seqWr _ _) fun _ _ _ _ =>
      walks_bind (walks_seqChunk _ fun _ => walks_writeHeader o p) fun _ _ _ _ =>
        walks_bind (walks_writeMode _ _) fun _ _ _ _ =>
          walks_bind (walks_writePalette _ slot) fun _ _ _ _ => walks_writeBody _ _ _

theorem reach_encodecSpoil (o : EncOptions) (work pack cout : BufRef) (size : Nat) (t : State) :
    Reach t (encodecSpoil o work pack cout size t) := by
  unfold encodecSpoil
  dsimp only
  split
  · exact ((reach_spoil _ _ _ _ _).trans (reach_spoil _ _ _ _ _)).trans (reach_spoil _ _ _ _ _)
  · exact (reach_spoil _ _ _ _ _).trans (reach_spoil _ _ _ _ _)

theorem walks_seqEncodec (k : Config.Codes) {x work pack cout : BufRef} (slot : Nat) (o : EncOptions)
    (hx : refOk s.mem x) (hw : refOk s.mem work) (hc : refOk s.mem cout) :
    Walks (seqEncodecOp k x slot o work pack cout) s :=
  walks_seqClear fun _ h0 => walks_bind (walks_encodeChecks _ _ _ _ _ _) fun _ _ h1 _ =>
    walks_bind (walks_onStop
      (walks_bind (walks_encodePass _ _ _ _ _ (h1.refOk (h0.refOk hx)) (h1.refOk (h0.refOk hw)))
        fun _ _ h2 _ => walks_bind (walks_encodecBody _ _ _ _) fun _ _ h3 _ =>
          walks_encodecTree _ _ _ _ _ (h3.refOk (h2.refOk (h1.refOk (h0.refOk hc)))))
      (reach_encodecSpoil _ _ _ _ _)) fun _ _ _ _ =>
        walks_bind (walks_setSeqState _) fun _ _ _ _ => Closed.get (walks_pure _)

/-! ### Every instruction -/

/-- An operation followed by a computation of its result from its answer. -/
theorem walks_map {x : Op α} {f : α → Result} (h : Walks x s) :
    Walks (do let a ← x; pure (f a) : Op Result) s :=
  walks_bind h fun _ _ _ _ => walks_pure _

theorem walks_unit {x : Op Unit} (h : Walks x s) : Walks (do x; pure .unit : Op Result) s :=
  walks_bind h fun _ _ _ _ => walks_pure _

/-- Everything an instruction can do: elementary updates, then the reply. -/
theorem exec_reach {i : Instr} (h : exec i s = .next t) :
    ∃ u r, Reach s u ∧ t = { u with reply := r } := by
  have whole := refOk_wholeBuf s.mem
  cases i with
  | pbLit n => exact (walks_pbAlone fun _ => walks_pbCommand (.lit n)).runOp h
  | pbRun n => exact (walks_pbAlone fun _ => walks_pbCommand (.run n)).runOp h
  | pbNop => exact (walks_pbAlone fun _ => walks_pbCommand .nop).runOp h
  | vdCopyx => exact (walks_vdAlone fun _ => walks_vdCommand .copyx).runOp h
  | vdCopy n => exact (walks_vdAlone fun _ => walks_vdCommand (.copy n)).runOp h
  | vdRunx => exact (walks_vdAlone fun _ => walks_vdCommand .runx).runOp h
  | vdRun n => exact (walks_vdAlone fun _ => walks_vdCommand (.run n)).runOp h
  | hamBase p d => exact (walks_hamAlone .base p d).runOp h
  | hamModb p d => exact (walks_hamAlone .modb p d).runOp h
  | hamModr p d => exact (walks_hamAlone .modr p d).runOp h
  | hamModg p d => exact (walks_hamAlone .modg p d).runOp h
  | sysReset =>
    exact Leads.runOp (x := sysResetOp) (walks_set Micro.reset.reach (walks_pure _)) h
  | palCreate a b c => exact (walks_palCreate a b c).runOp h
  | palSet a b c d e f => exact (walks_palSet a b c d e f).runOp h
  | palGet a b => exact (walks_map (walks_palGet a b)).runOp h
  | palResample a b c => exact (walks_palResample a b c).runOp h
  | palToval a b => exact (walks_palToval a b).runOp h
  | palFromval a b c d => exact (walks_palFromval a b c d).runOp h
  | palFrompix a b => exact (walks_palFrompix a b).runOp h
  | palMono a => exact (walks_palMono a).runOp h
  | palEhb a b => exact (walks_palEhb a b).runOp h
  | palPlanes a => exact (walks_map (walks_palPlanes a)).runOp h
  | bprInit b g => exact (walks_bprInit g (whole b)).runOp h
  | bprRead => exact (walks_map walks_bprRead).runOp h
  | bprAdv n => exact (walks_bprAdv n).runOp h
  | bprEof => exact (walks_map walks_bprEof).runOp h
  | bpwInit b g => exact (walks_bpwInit g (whole b)).runOp h
  | bpwWrite n => exact (walks_bpwWrite n).runOp h
  | bpwAdv n => exact (walks_bpwAdv n).runOp h
  | bpwEof => exact (walks_map walks_bpwEof).runOp h
  | pxrInit b n => exact (walks_pxrInit n (whole b)).runOp h
  | pxrRead => exact (walks_map walks_pxrRead).runOp h
  | pxrSetpal n => exact (walks_pxrSetpal n).runOp h
  | pxrAdv n => exact (walks_pxrAdv n).runOp h
  | pxwInit b n => exact (walks_pxwInit n (whole b)).runOp h
  | pxwWrite n => exact (walks_pxwWrite n).runOp h
  | pxwSetpal n => exact (walks_pxwSetpal n).runOp h
  | pxwAdv n => exact (walks_pxwAdv n).runOp h
  | pxwWritec c => exact (walks_pxwWritec c).runOp h
  | pbdDepack a b c d e => exact (walks_pbdDepack b d e (whole a) (whole c)).runOp h
  | vddDecode a b c d e f g => exact (walks_vddDecode b c e f g (whole a) (whole d)).runOp h
  | ckrOpen b => exact (walks_ckrOpen (whole b)).runOp h
  | ckrReadchunk => exact (walks_map walks_ckrReadchunk).runOp h
  | ckrPeek => exact (walks_map walks_ckrPeek).runOp h
  | ckrEof => exact (walks_map walks_ckrEof).runOp h
  | ckrEnter a b => exact (walks_unit (walks_ckrEnter a b)).runOp h
  | ckrLeave => exact (walks_unit walks_ckrLeave).runOp h
  | ckrRd8 => exact (walks_map (walks_ckrRead 1)).runOp h
  | ckrRd16 => exact (walks_map (walks_ckrRead 2)).runOp h
  | ckrRd32 => exact (walks_map (walks_ckrRead 4)).runOp h
  | hamInit a b => exact (walks_hamInit a b).runOp h
  | hamRead => exact (walks_map walks_hamRead).runOp h
  | hamSetpal n => exact (walks_hamSetpal n).runOp h
  | hamAdv n => exact (walks_hamAdv n).runOp h
  | rpaConfig a b => exact (walks_rpaConfig a b).runOp h
  | rpaLoad a b => exact (walks_rpaLoad a b).runOp h
  | rpaSelect n => exact (walks_rpaSelect n).runOp h
  | seqDecode a b c d e f g => exact (walks_seqDecode b c d e f (whole a) (whole g)).runOp h
  | seqEncode a b c d e f g => exact (walks_seqEncode b c d e f (whole a) (whole g)).runOp h
  | seqDecodec a b c => exact (walks_seqDecodec _ (whole a) (whole b) (whole c)).runOp h
  | seqScan a => exact (walks_seqScan _ (whole a)).runOp h
  | seqAssemble a b c => exact (walks_seqAssemble _ (whole a) (whole b) (whole c)).runOp h
  | pbePack a b c => exact (walks_map (walks_pbePack _ _ b)).runOp h
  | ckwStart t => exact (walks_unit (walks_ckwStart t)).runOp h
  | ckwEnd => exact (walks_map walks_ckwEnd).runOp h
  | seqEncodec a b o c =>
    exact (walks_seqEncodec _ b o (whole a) (whole o.workBuf) (whole c)).runOp h
  | ckwInit b => exact (walks_unit (walks_ckwInit (whole b))).runOp h
  | ckwWr8 v => exact (walks_unit (walks_ckwWrite 1 _)).runOp h
  | ckwWr16 v => exact (walks_unit (walks_ckwWrite 2 _)).runOp h
  | ckwWr32 v => exact (walks_unit (walks_ckwWrite 4 _)).runOp h

/-- Everything a step can do: take requests, elementary updates, a reply. -/
theorem step_reach (h : step s = .next t) :
    ∃ pending u r, Reach { s with pending := pending } u ∧ t = { u with reply := r } := by
  unfold step servePort at h
  split at h
  · cases h
    exact ⟨s.pending, s, s.reply, .refl, rfl⟩
  · rename_i pk rest _
    unfold runPacket at h
    split at h
    · obtain ⟨u, r, h1, h2⟩ := exec_reach h
      exact ⟨rest, u, r, h1, h2⟩
    · cases h
      exact ⟨rest, _, _, .refl, rfl⟩
    · cases h
    · cases h

/-- A property of the state that reads neither the waiting requests nor the reply, and that every
elementary update keeps, is kept by every step. -/
theorem step_keeps {I : State → Prop} (hp : ∀ s p, I s → I { s with pending := p })
    (hr : ∀ s r, I s → I { s with reply := r }) (hI : ∀ s t, Micro s t → I s → I t)
    (h : step s = .next t) (hs : I s) : I t := by
  obtain ⟨p, u, r, hu, rfl⟩ := step_reach h
  exact hr u r (hu.keeps hI (hp s p hs))

end Sys2Proof.Machine
end

