-- ==== Sys2Proof/Tests/Slice0.lean ====
section
/-! SUPPORT. Tests: ill-formed instructions, packets written out from spec/30_encoding.md, vectors of
spec/95_test_vectors.md (each test's comment names its row), and for every obligation with hypotheses
a concrete state and operands that meet them. -/

namespace Sys2Proof.Tests

set_option Elab.async false

open Sys2Proof.Machine

/-! ### Helpers -/

/-- A host buffer that holds these bytes. -/
def bufOf (bs : List Byte) : Buffer := ⟨bs.length, sofFrom 0 0 bs⟩

/-- The state after reset with host buffers 0, 1, 2, … of these bytes. -/
def withBufs (bs : List (List Byte)) : State :=
  { State.reset with mem := sofFrom Buffer.empty 0 (bs.map bufOf) }

/-- `s` with palette slot `k` holding these entries, all set, at `bpc` bits. -/
def withPal (k bpc : Nat) (es : List (Byte × Byte × Byte × Byte)) (s : State) : State :=
  setSlot k
    ⟨true, es.length, bpcStored bpc,
      sofFrom Entry.unset 0 (es.map fun e => ⟨true, e.1, e.2.1, e.2.2.1, e.2.2.2⟩)⟩ s

/-- The state an instruction leaves. -/
def after (i : Instr) (s : State) : State :=
  match exec i s with
  | .next t => t
  | _ => s

/-- What the host receives from an instruction. -/
def replyOf (i : Instr) (s : State) : Reply := (after i s).reply

/-- The model's refusal of an instruction. -/
def refusalOf (i : Instr) (s : State) : Option Refusal :=
  match exec i s with
  | .refused r => some r
  | _ => none

theorem exec_of_refusalOf {i : Instr} {s : State} {r : Refusal} (h : refusalOf i s = some r) :
    exec i s = .refused r := by
  unfold refusalOf at h
  split at h
  · cases h
    assumption
  · cases h

/-- The state an operation leaves that the host issues. -/
def afterOp (x : Op Result) (s : State) : State :=
  match runOp x s with
  | .next t => t
  | _ => s

/-- The first `n` bytes of a host buffer. -/
def bytesIn (s : State) (id n : Nat) : List Byte := (List.range n).map fun k => byteAt s.mem id k

/-- A table of these colours, all set. -/
def lutOf (cs : List U32) : Lut := ⟨cs.length, sofFrom LutElem.unset 0 (cs.map fun c => ⟨true, c⟩)⟩

/-- White and black, the table of spec/95 section 2.3. -/
def whiteBlack : Lut := lutOf [0xFFFFFFFF, 0x000000FF]

/-- The pixel reader on buffer 0 at pixel `pos`. -/
def withPxr (pos : Nat) (l : Lut) (s : State) : State :=
  { s with pxr := ⟨true, some (wholeBuf s.mem 0), pos, l, .clear⟩ }

/-- The pixel writer on buffer 0 at pixel `pos`. -/
def withPxw (pos : Nat) (l : Lut) (s : State) : State :=
  { s with pxw := ⟨true, some (wholeBuf s.mem 0), pos, l, .clear⟩ }

/-- The plane reader on buffer 0, inside a pass: its cache holds the column's indices. -/
def withBpr (g : Geometry) (c : Cursor) (s : State) : State :=
  { s with
    bpr := ⟨true, g, c, some (wholeBuf s.mem 0), columnIndices s.mem (wholeBuf s.mem 0) g c,
      .clear⟩ }

/-- The plane writer on buffer 0. -/
def withBpw (g : Geometry) (c : Cursor) (s : State) : State :=
  { s with bpw := ⟨true, g, c, some (wholeBuf s.mem 0), .clear⟩ }

/-- The chunk reader on buffer 0 with these views, the outermost first. -/
def withCkr (vs : List View) (s : State) : State :=
  { s with
    ckr := ⟨true, some (wholeBuf s.mem 0), vs.length, sofFrom View.zero 0 vs, .clear⟩ }

/-- The chunk writer on buffer 0. -/
def withCkw (pos : Nat) (starts : List Nat) (s : State) : State :=
  { s with
    ckw := ⟨true, some (wholeBuf s.mem 0), pos, starts.length, sofFrom 0 0 starts, .clear⟩ }

/-- The Hold-and-Modify unit at a colour. -/
def withHam (p : Nat) (cur : U32) (l : Lut) (s : State) : State :=
  { s with ham := ⟨true, p, cur, true, l, .clear⟩ }

/-- The Packbits decoder from buffer 0 to buffer 1. -/
def withPbd (sp outSize produced : Nat) (s : State) : State :=
  { s with
    pbd := ⟨some (wholeBuf s.mem 0), some (wholeBuf s.mem 1), sp, 0, outSize, produced, .clear⟩ }

/-- The strip decoder from buffer 0, all of it, to buffer 1; the data pointer one past the command
byte, so that both layouts of R237 read the same bytes. -/
def withVdd (cp bytesPerLine h x y : Nat) (s : State) : State :=
  { s with
    vdd := ⟨some (wholeBuf s.mem 0), some (wholeBuf s.mem 1), cp, (bufAt s.mem 0).len, cp + 1,
      (bufAt s.mem 0).len, 0, bytesPerLine, h, x, y, .idle, .clear⟩ }

/-- The raster arbiter with two raster palettes, for a consumer. -/
def withRpa (height : Nat) (c : Consumer) (s : State) : State :=
  { s with rpa := ⟨true, 2, height, [(0, whiteBlack), (1, lutOf [0x11223344])], c, .clear⟩ }

/-! ### What WellFormed refuses -/

/-- 0x80 is the no-op, not a run (R109, R110). -/
theorem test_wf_pbRun_zero : WellFormed (.pbRun 0) = false := by decide
/-- Command byte 0x00 is `VD.COPYX` (R111). -/
theorem test_wf_vdRun_zero : WellFormed (.vdRun 0) = false := by decide
/-- Command byte 0x01 is `VD.RUNX` (R113). -/
theorem test_wf_vdRun_one : WellFormed (.vdRun 1) = false := by decide
/-- Two planes leave no data bit (R286). -/
theorem test_wf_hamBase_planes : WellFormed (.hamBase 2 0) = false := by decide
/-- More than `PLANES_MAX` planes (R286). -/
theorem test_wf_hamModb_planes : WellFormed (.hamModb 9 0) = false := by decide
/-- 6 planes leave 4 data bits (R115). -/
theorem test_wf_hamBase_data : WellFormed (.hamBase 6 16) = false := by decide
theorem test_wf_hamModb_data : WellFormed (.hamModb 6 16) = false := by decide
theorem test_wf_hamModr_data : WellFormed (.hamModr 8 64) = false := by decide
theorem test_wf_hamModg_data : WellFormed (.hamModg 3 2) = false := by decide

/-! ### Decoding, from the tables of spec/30_encoding.md -/

/-- R108: control bytes 0x00 to 0x7F, `n` in bits 6:0. -/
theorem test_decode_pbLit : decode (.pb 0x7F) = .ok (.pbLit 127) := by decide
/-- R109: 0x81 to 0xFF; 0x81 is the longest run. -/
theorem test_decode_pbRun : decode (.pb 0x81) = .ok (.pbRun 1) := by decide
/-- R110. -/
theorem test_decode_pbNop : decode (.pb 0x80) = .ok .pbNop := by decide
/-- R111. -/
theorem test_decode_vdCopyx : decode (.vd 0x00) = .ok .vdCopyx := by decide
/-- R112: 0x80 to 0xFF. -/
theorem test_decode_vdCopy : decode (.vd 0x80) = .ok (.vdCopy 0) := by decide
/-- R113. -/
theorem test_decode_vdRunx : decode (.vd 0x01) = .ok .vdRunx := by decide
/-- R114: 0x02 to 0x7F. -/
theorem test_decode_vdRun : decode (.vd 0x02) = .ok (.vdRun 2) := by decide
/-- R115: raw 0x03 of 6 planes (HM-1). -/
theorem test_decode_hamBase : decode (.ham 6 0x03) = .ok (.hamBase 6 3) := by decide
/-- R116: raw 0x1F of 6 planes, selector 1 (HM-1). -/
theorem test_decode_hamModb : decode (.ham 6 0x1F) = .ok (.hamModb 6 15) := by decide
/-- R116: raw 0xAA of 8 planes, selector 2 (HM-2). -/
theorem test_decode_hamModr : decode (.ham 8 0xAA) = .ok (.hamModr 8 42) := by decide
/-- R116: raw 0x38 of 6 planes, selector 3 (HM-1). -/
theorem test_decode_hamModg : decode (.ham 6 0x38) = .ok (.hamModg 6 8) := by decide

/-- R120, the SYS and PAL rows. -/
theorem test_decode_sysReset : decode (.hop 0x00 []) = .ok .sysReset := by decide
theorem test_decode_palCreate :
    decode (.hop 0x10 [.nat 1, .nat 2, .optNat (some 4)]) = .ok (.palCreate 1 2 (some 4)) := by decide
theorem test_decode_palSet :
    decode (.hop 0x11 [.nat 1, .nat 2, .u32 3, .u32 4, .u32 5, .optU32 none]) =
      .ok (.palSet 1 2 3 4 5 none) := by decide
theorem test_decode_palGet : decode (.hop 0x12 [.nat 1, .nat 2]) = .ok (.palGet 1 2) := by decide
theorem test_decode_palResample :
    decode (.hop 0x13 [.nat 1, .nat 2, .nat 3]) = .ok (.palResample 1 2 3) := by decide
theorem test_decode_palToval :
    decode (.hop 0x14 [.nat 1, .optFlag (some false)]) = .ok (.palToval 1 (some false)) := by decide
theorem test_decode_palFromval :
    decode (.hop 0x15 [.nat 1, .words [0xF07F], .optNat (some 4), .optFlag none]) =
      .ok (.palFromval 1 [0xF07F] (some 4) none) := by decide
theorem test_decode_palFrompix :
    decode (.hop 0x16 [.nat 1, .buf 2]) = .ok (.palFrompix 1 2) := by decide
theorem test_decode_palMono : decode (.hop 0x17 [.nat 3]) = .ok (.palMono 3) := by decide
theorem test_decode_palEhb : decode (.hop 0x18 [.nat 1, .nat 2]) = .ok (.palEhb 1 2) := by decide
theorem test_decode_palPlanes : decode (.hop 0x19 [.nat 1]) = .ok (.palPlanes 1) := by decide

/-- A geometry operand whose fields all differ. -/
def geom : Geometry := ⟨1, 2, 3, 4, 5, 6⟩

/-- R120, the BPR and BPW rows. -/
theorem test_decode_bprInit :
    decode (.hop 0x20 [.buf 1, .geometry geom]) = .ok (.bprInit 1 geom) := by decide
theorem test_decode_bprRead : decode (.hop 0x21 []) = .ok .bprRead := by decide
theorem test_decode_bprAdv : decode (.hop 0x22 [.nat 1]) = .ok (.bprAdv 1) := by decide
theorem test_decode_bprEof : decode (.hop 0x23 []) = .ok .bprEof := by decide
theorem test_decode_bpwInit :
    decode (.hop 0x30 [.buf 1, .geometry geom]) = .ok (.bpwInit 1 geom) := by decide
theorem test_decode_bpwWrite : decode (.hop 0x31 [.nat 1]) = .ok (.bpwWrite 1) := by decide
theorem test_decode_bpwAdv : decode (.hop 0x32 [.nat 1]) = .ok (.bpwAdv 1) := by decide
theorem test_decode_bpwEof : decode (.hop 0x33 []) = .ok .bpwEof := by decide

/-- R120, the PXR and PXW rows. -/
theorem test_decode_pxrInit : decode (.hop 0x40 [.buf 1, .nat 2]) = .ok (.pxrInit 1 2) := by decide
theorem test_decode_pxrRead : decode (.hop 0x41 []) = .ok .pxrRead := by decide
theorem test_decode_pxrSetpal : decode (.hop 0x42 [.nat 1]) = .ok (.pxrSetpal 1) := by decide
theorem test_decode_pxrAdv : decode (.hop 0x43 [.nat 1]) = .ok (.pxrAdv 1) := by decide
theorem test_decode_pxwInit : decode (.hop 0x50 [.buf 1, .nat 2]) = .ok (.pxwInit 1 2) := by decide
theorem test_decode_pxwWrite : decode (.hop 0x51 [.nat 1]) = .ok (.pxwWrite 1) := by decide
theorem test_decode_pxwSetpal : decode (.hop 0x52 [.nat 1]) = .ok (.pxwSetpal 1) := by decide
theorem test_decode_pxwAdv : decode (.hop 0x53 [.nat 1]) = .ok (.pxwAdv 1) := by decide
theorem test_decode_pxwWritec :
    decode (.hop 0x54 [.u32 0xCC8022FF]) = .ok (.pxwWritec 0xCC8022FF) := by decide

/-- R120, the PBD and VDD rows. -/
theorem test_decode_pbdDepack :
    decode (.hop 0x60 [.buf 1, .nat 2, .buf 3, .nat 4, .nat 5]) = .ok (.pbdDepack 1 2 3 4 5) := by
  decide
theorem test_decode_vddDecode :
    decode (.hop 0x70 [.buf 1, .nat 2, .nat 3, .buf 4, .nat 5, .nat 6, .nat 7]) =
      .ok (.vddDecode 1 2 3 4 5 6 7) := by decide

/-- R120, the CKR rows. -/
theorem test_decode_ckrOpen : decode (.hop 0x80 [.buf 1]) = .ok (.ckrOpen 1) := by decide
theorem test_decode_ckrReadchunk : decode (.hop 0x81 []) = .ok .ckrReadchunk := by decide
theorem test_decode_ckrPeek : decode (.hop 0x82 []) = .ok .ckrPeek := by decide
theorem test_decode_ckrEof : decode (.hop 0x83 []) = .ok .ckrEof := by decide
theorem test_decode_ckrEnter : decode (.hop 0x84 [.nat 1, .nat 2]) = .ok (.ckrEnter 1 2) := by decide
theorem test_decode_ckrLeave : decode (.hop 0x85 []) = .ok .ckrLeave := by decide
theorem test_decode_ckrRd8 : decode (.hop 0x86 []) = .ok .ckrRd8 := by decide
theorem test_decode_ckrRd16 : decode (.hop 0x87 []) = .ok .ckrRd16 := by decide
theorem test_decode_ckrRd32 : decode (.hop 0x88 []) = .ok .ckrRd32 := by decide

/-- R120, the HAM and RPA rows. -/
theorem test_decode_hamInit : decode (.hop 0x90 [.nat 1, .nat 2]) = .ok (.hamInit 1 2) := by decide
theorem test_decode_hamRead : decode (.hop 0x91 []) = .ok .hamRead := by decide
theorem test_decode_hamSetpal : decode (.hop 0x92 [.nat 1]) = .ok (.hamSetpal 1) := by decide
theorem test_decode_hamAdv : decode (.hop 0x93 [.nat 1]) = .ok (.hamAdv 1) := by decide
theorem test_decode_rpaConfig :
    decode (.hop 0xA0 [.nat 1, .consumer .ham]) = .ok (.rpaConfig 1 .ham) := by decide
theorem test_decode_rpaLoad : decode (.hop 0xA1 [.nat 1, .nat 2]) = .ok (.rpaLoad 1 2) := by decide
theorem test_decode_rpaSelect : decode (.hop 0xA2 [.nat 1]) = .ok (.rpaSelect 1) := by decide

/-- R120, the SEQ rows. -/
theorem test_decode_seqDecode :
    decode (.hop 0xB0 [.buf 1, .nat 2, .nat 3, .nat 4, .nat 5, .format .word, .buf 6]) =
      .ok (.seqDecode 1 2 3 4 5 .word 6) := by decide
theorem test_decode_seqEncode :
    decode (.hop 0xB1 [.buf 1, .nat 2, .nat 3, .nat 4, .optNat none, .format .line, .buf 6]) =
      .ok (.seqEncode 1 2 3 4 none .line 6) := by decide
theorem test_decode_seqDecodec :
    decode (.hop 0xB2 [.buf 1, .buf 2, .buf 3]) = .ok (.seqDecodec 1 2 3) := by decide
theorem test_decode_seqScan : decode (.hop 0xB3 [.buf 1]) = .ok (.seqScan 1) := by decide
theorem test_decode_seqAssemble :
    decode (.hop 0xB4 [.buf 1, .buf 2, .buf 3]) = .ok (.seqAssemble 1 2 3) := by decide
theorem test_decode_seqEncodec :
    decode (.hop 0xC3 [.buf 1, .nat 2, .options zeroOptions, .buf 3]) =
      .ok (.seqEncodec 1 2 zeroOptions 3) := by decide

/-- R120, the PBE and CKW rows. -/
theorem test_decode_pbePack :
    decode (.hop 0xC0 [.buf 1, .nat 2, .buf 3]) = .ok (.pbePack 1 2 3) := by decide
theorem test_decode_ckwStart :
    decode (.hop 0xC1 [.u32 0x464F524D]) = .ok (.ckwStart 0x464F524D) := by decide
theorem test_decode_ckwEnd : decode (.hop 0xC2 []) = .ok .ckwEnd := by decide
theorem test_decode_ckwInit : decode (.hop 0xC4 [.buf 1]) = .ok (.ckwInit 1) := by decide
theorem test_decode_ckwWr8 : decode (.hop 0xC5 [.u8 1]) = .ok (.ckwWr8 1) := by decide
theorem test_decode_ckwWr16 : decode (.hop 0xC6 [.u16 0x0102]) = .ok (.ckwWr16 0x0102) := by decide
theorem test_decode_ckwWr32 :
    decode (.hop 0xC7 [.u32 0x01020304]) = .ok (.ckwWr32 0x01020304) := by decide

/-- R121: a code outside the table, spec/95 section 2.11. -/
theorem test_decode_badOp : decode (.hop 0x0F []) = .error (.badOp 0x0F) := by decide
/-- R120: no host passes these operands. -/
theorem test_decode_illTyped : decode (.hop 0x17 []) = .error (.illTyped 0x17) := by decide
/-- A pixel code has no bit above its planes. -/
theorem test_decode_badPixel : decode (.ham 6 64) = .error (.badPixel 6 64) := by decide

/-- The opcode table's words: a host operation with zero operands, the strip command that fixes eight
bits, pixel codes of 6 and of 8 planes. -/
theorem test_table_palMono : decodeTableWord 8 0x17 = some (.palMono 0) := by decide
theorem test_table_vdRunx : decodeTableWord 8 0x01 = some .vdRunx := by decide
theorem test_table_ham6 : decodeTableWord 8 0x2A = some (.hamModr 6 10) := by decide
theorem test_table_ham8 : decodeTableWord 8 0xE0 = some (.hamModg 8 32) := by decide

/-! ### The step -/

/-- A request is taken and executed. -/
theorem test_step_runs :
    step (State.reset.withFetchWord 8 0x17) = exec (.palMono 0) State.reset := by rfl

/-- R13: with no request the block does nothing. -/
theorem test_step_idle : step State.reset = .next State.reset := by rfl

/-! ### One step each: vectors of spec/95_test_vectors.md -/

/-- R20, R410: after reset `bpc` is 8, stored as 0; a depth of 4 reads as 4. -/
theorem test_bpc :
    ((slotAt (after .sysReset State.reset) 0).bpc, (slotAt State.reset 0).bpcBits,
      (slotAt (after (.palCreate 0 1 (some 4)) State.reset) 0).bpc) = (8, 0, 4) := by decide +kernel
/-- R410, R39: a faulted unit is cleared. -/
theorem test_sysReset :
    (after .sysReset (withPxw 3 whiteBlack (after .bprRead State.reset))).pxw = PixUnit.reset ∧
      (after .sysReset (after .bprRead State.reset)).bpr.fault = ⟨false, 0, 0, 0⟩ := by
  decide +kernel

/-- PAL-19. -/
theorem test_palCreate_badBpc :
    (after (.palCreate 0 4 (some 9)) State.reset).pal.fault = ⟨true, 4, 4, 9⟩ := by decide +kernel
/-- PAL-1: 20 clamps to 15 and -1 to 0. -/
theorem test_palSet :
    entryAt (slotAt (after (.palSet 0 0 20 (-1) 7 (some 15)) (withPal 0 4 [(0, 0, 0, 0)] State.reset))
      0) 0 = ⟨true, 15, 0, 7, 15⟩ := by decide +kernel
/-- PAL-2. -/
theorem test_palGet :
    replyOf (.palGet 0 0) (withPal 0 4 [(15, 0, 7, 15)] State.reset) =
      .done (.colour 15 0 7 15) := by decide +kernel
/-- PAL-3. -/
theorem test_palGet_badIndex :
    (after (.palGet 0 1) (withPal 0 4 [(15, 0, 7, 15)] State.reset)).pal.fault = ⟨true, 3, 2, 1⟩ := by
  decide +kernel
/-- PAL-8. -/
theorem test_palResample :
    entryAt (slotAt (after (.palResample 1 0 8) (withPal 0 4 [(15, 0, 7, 15)] State.reset)) 1) 0 =
      ⟨true, 255, 0, 119, 255⟩ := by decide +kernel
/-- S2: 7 of 8 bits goes to 0 of 4 bits, 9 to 1. -/
theorem test_palResample_down :
    entryAt (slotAt (after (.palResample 0 0 4) (withPal 0 8 [(7, 9, 200, 255)] State.reset)) 0) 0 =
      ⟨true, 0, 1, 12, 15⟩ := by decide +kernel
/-- PAL-6. -/
theorem test_palToval_noAlpha :
    replyOf (.palToval 0 (some false)) (withPal 0 4 [(15, 0, 7, 15)] State.reset) =
      .done (.values [0xF07]) := by decide +kernel
/-- PAL-10, alpha omitted. -/
theorem test_palToval_alpha :
    replyOf (.palToval 0 none) (withPal 0 8 [(255, 128, 0, 255), (1, 2, 3, 4)] State.reset) =
      .done (.values [0xFF8000FF, 0x01020304]) := by decide +kernel
/-- PAL-12. -/
theorem test_palFromval :
    entryAt (slotAt (after (.palFromval 1 [0x1FF] (some 3) (some false)) State.reset) 1) 0 =
      ⟨true, 7, 7, 7, 7⟩ := by decide +kernel
/-- PAL-13. -/
theorem test_palFrompix :
    (slotAt (after (.palFrompix 2 0)
      (withBufs [[0xFF, 0, 0, 0xFF, 0, 0xFF, 0, 0xFF, 0xFF, 0, 0, 0xFF]])) 2).ent =
      [(0, ⟨true, 255, 0, 0, 255⟩), (1, ⟨true, 0, 255, 0, 255⟩)] := by decide +kernel
/-- PAL-15. -/
theorem test_palMono :
    (slotAt (after (.palMono 3) State.reset) 3).ent =
      [(0, ⟨true, 255, 255, 255, 255⟩), (1, ⟨true, 0, 0, 0, 255⟩)] := by decide +kernel
/-- S7: entry 0 = (255, 128, 1, 255) gives entry 32 = (127, 64, 0, 255). -/
theorem test_palEhb :
    entryAt (slotAt (after (.palEhb 1 0)
      (withPal 0 8 (List.replicate 32 (255, 128, 1, 255)) State.reset)) 1) 32 =
      ⟨true, 127, 64, 0, 255⟩ := by decide +kernel
/-- PAL-18, 17 colours. -/
theorem test_palPlanes :
    replyOf (.palPlanes 0) (withPal 0 8 (List.replicate 17 (0, 0, 0, 0)) State.reset) =
      .done (.nat 5) := by decide +kernel

/-- BP-8. -/
theorem test_bprInit_badGeometry :
    (after (.bprInit 0 ⟨1, 0, 1, 0, 1, 9⟩) State.reset).bpr.fault = ⟨true, 4, 6, 0⟩ := by
  decide +kernel
/-- BP-2 read back: the first index of the second byte-column, plane bytes 33 and 0F, is 0. -/
theorem test_bprRead :
    replyOf .bprRead (withBpr ⟨2, 0, 1, 4, 2, 2⟩ ⟨1, 0, 0, 0⟩
      (withBufs [[0x5A, 0x33, 0x3C, 0x0F, 0xF0, 0xA5, 0xF0, 0x5A]])) = .done (.u8 0) ∧
    (after .bprRead (withBpr ⟨2, 0, 1, 4, 2, 2⟩ ⟨1, 0, 0, 0⟩
      (withBufs [[0x5A, 0x33, 0x3C, 0x0F, 0xF0, 0xA5, 0xF0, 0x5A]]))).bpr.cache =
        [0, 0, 1, 1, 2, 2, 3, 3] := by decide +kernel
/-- Section 2.11: the byte of plane 1 that is missing. -/
theorem test_bprRead_pastEnd :
    (after .bprRead (withBpr ⟨2, 0, 1, 4, 2, 2⟩ ⟨1, 0, 1, 0⟩
      (withBufs [[0x5A, 0x33, 0x3C, 0x0F, 0xF0, 0xA5, 0xF0]]))).bpr.fault = ⟨true, 3, 1, 7⟩ := by
  decide +kernel
/-- A reader inside a column whose first byte was modified after the fetch. -/
def staleReader : State :=
  let s := withBpr ⟨2, 0, 1, 4, 2, 2⟩ ⟨0, 0, 0, 4⟩ (withBufs [[1, 1, 1, 1]])
  { s with mem := setByte s.mem 0 0 2 }

/-- R422, U10: a pixel written into the reader's buffer, by the pixel writer. -/
theorem test_binding_overwritten_pxr :
    exec .pxrRead (after (.pxwWrite 1) (withPxr 0 whiteBlack (withPxw 1 whiteBlack
      (withBufs [List.replicate 8 0])))) = .refused (.deadBinding .pxr) :=
  exec_of_refusalOf (by decide +kernel)
/-- R422, U10: a byte decoded into the chunk reader's buffer. -/
theorem test_binding_overwritten_ckr :
    exec .ckrRd8 (after (.pbdDepack 1 0 0 3 1) (withCkr [⟨0, 8, 0⟩]
      (withBufs [List.replicate 8 0, [0, 7]]))) = .refused (.deadBinding .ckr) :=
  exec_of_refusalOf (by decide +kernel)
/-- R88, U10. -/
theorem test_bprRead_stale : exec .bprRead staleReader = .refused .staleCache :=
  exec_of_refusalOf (by decide +kernel)
/-- BP-16. -/
theorem test_bprAdv :
    (after (.bprAdv 4) (withBpr ⟨2, 0, 1, 4, 2, 2⟩ ⟨1, 0, 0, 4⟩
      (withBufs [List.replicate 8 0]))).bpr.cur = ⟨0, 0, 1, 0⟩ := by decide +kernel
/-- BP-18: plane 1 of a 2-byte buffer. -/
theorem test_bprEof :
    replyOf .bprEof (withBpr ⟨2, 0, 1, 4, 2, 2⟩ ⟨0, 0, 0, 0⟩ (withBufs [[0, 1]])) =
      .done (.flag true) := by decide +kernel
/-- R182: INIT rewinds. -/
theorem test_bpwInit :
    (after (.bpwInit 0 geom) (withBpw geom ⟨0, 2, 9, 5⟩ State.reset)).bpw.cur = ⟨0, 0, 0, 0⟩ := by
  decide +kernel
/-- BP-12. -/
theorem test_bpwWrite :
    bytesIn (after (.bpwWrite 2) (withBpw ⟨1, 0, 1, 2, 1, 2⟩ ⟨0, 0, 0, 0⟩ (withBufs [[0, 0, 7]]))) 0 2 =
      [0x00, 0x80] := by decide +kernel
/-- BP-14: plane 1 is checked although the index sets no bit. -/
theorem test_bpwWrite_pastEnd :
    (after (.bpwWrite 0) (withBpw ⟨1, 0, 1, 2, 1, 2⟩ ⟨0, 0, 0, 0⟩ (withBufs [[1]]))).bpw.fault =
      ⟨true, 3, 1, 1⟩ := by decide +kernel
/-- BP-17. -/
theorem test_bpwAdv :
    (after (.bpwAdv 5) (withBpw ⟨2, 0, 1, 4, 2, 2⟩ ⟨0, 0, 0, 6⟩ State.reset)).bpw.cur =
      ⟨1, 0, 0, 3⟩ := by decide +kernel
/-- BP-1: offset 0 again in the contiguous layout. -/
theorem test_bpwEof :
    replyOf .bpwEof (withBpw ⟨4, 0, 1, 0, 4, 2⟩ ⟨0, 0, 1, 0⟩
      (withBufs [[0, 0, 0, 0, 0, 0, 0, 1]])) = .done (.flag false) := by decide +kernel

/-- PX-11: the fault is PXR's, not PAL's. -/
theorem test_pxrInit_badSlot :
    (after (.pxrInit 0 4) State.reset).pxr.fault = ⟨true, 4, 2, 4⟩ ∧
      (after (.pxrInit 0 4) State.reset).pal.fault.valid = false := by decide +kernel
/-- PX-8: the lowest index. -/
theorem test_pxrRead :
    replyOf .pxrRead (withPxr 0 (lutOf [0xFFFFFFFF, 0x000000FF, 0xFFFFFFFF])
      (withBufs [[0xFF, 0xFF, 0xFF, 0xFF]])) = .done (.nat 0) := by decide +kernel
/-- PX-7. -/
theorem test_pxrRead_notFound :
    (after .pxrRead (withPxr 0 whiteBlack (withBufs [[0, 0, 0, 0xFE]]))).pxr.fault =
      ⟨true, 2, 1, 0x000000FE⟩ := by decide +kernel
/-- PAL-7 as a view. -/
theorem test_pxrSetpal :
    (after (.pxrSetpal 0) (withPxr 5 whiteBlack (withPal 0 4 [(15, 0, 7, 15)] State.reset))).pxr.lut =
      lutOf [0xFF0077FF] := by decide +kernel
/-- R206. -/
theorem test_pxrAdv : (after (.pxrAdv 3) (withPxr 4 whiteBlack State.reset)).pxr.pos = 7 := by
  decide +kernel
/-- PX-11. -/
theorem test_pxwInit_unmade :
    (after (.pxwInit 0 2) State.reset).pxw.fault = ⟨true, 4, 1, 2⟩ ∧
      (after (.pxwInit 0 2) State.reset).pxw.init = false := by decide +kernel
/-- PX-5. -/
theorem test_pxwWrite :
    bytesIn (after (.pxwWrite 1) (withPxw 3 whiteBlack (withBufs [List.replicate 16 0xEE]))) 0 16 =
      List.replicate 12 0xEE ++ [0, 0, 0, 0xFF] := by decide +kernel
/-- PX-2. -/
theorem test_pxwWrite_pastEnd :
    (after (.pxwWrite 0) (withPxw 2 whiteBlack (withBufs [[0, 0, 0, 0, 0, 0, 0, 1]]))).pxw.fault =
      ⟨true, 3, 1, 8⟩ := by decide +kernel
/-- PX-9. -/
theorem test_pxwSetpal :
    (after (.pxwSetpal 0) (withPxw 1 whiteBlack (withPal 0 8 [(255, 0, 0, 255)] State.reset))).pxw.lut =
      lutOf [0xFF0000FF] := by decide +kernel
/-- R206: an advance is not checked. -/
theorem test_pxwAdv : (after (.pxwAdv 3) (withPxw 0 whiteBlack State.reset)).pxw.pos = 3 := by
  decide +kernel
/-- PX-4. -/
theorem test_pxwWritec :
    bytesIn (after (.pxwWritec 0xCC8022FF) (withPxw 0 whiteBlack (withBufs [[0, 0, 0, 1]]))) 0 4 =
      [0xCC, 0x80, 0x22, 0xFF] := by decide +kernel

/-- R221. -/
theorem test_pbNop :
    (after .pbNop (withPbd 0 4 0 (withBufs [[0x80], [1, 1, 1, 1]]))).pbd.sp = 1 := by decide +kernel
/-- PB-9: a run cut at the output's end. -/
theorem test_pbRun :
    bytesIn (after (.pbRun 126) (withPbd 0 2 0 (withBufs [[0xFE, 0x07], [1, 1, 1]]))) 1 3 =
      [7, 7, 1] := by decide +kernel
/-- PB-10: a literal cut at the output's end. -/
theorem test_pbLit :
    (after (.pbLit 2) (withPbd 0 2 0 (withBufs [[2, 0x0A, 0x0B, 0x0C], [1, 1, 1]]))).pbd.sp = 3 ∧
      bytesIn (after (.pbLit 2) (withPbd 0 2 0 (withBufs [[2, 0x0A, 0x0B, 0x0C], [1, 1, 1]]))) 1 3 =
        [0x0A, 0x0B, 1] := by decide +kernel
/-- PB-8. -/
theorem test_pbdDepack :
    replyOf (.pbdDepack 0 0 1 0 5)
      (withBufs [[0, 0x11, 0xFF, 0x22, 0x80, 1, 0x33, 0x44], [9, 9, 9, 9, 9]]) =
        .done (.depacked 8 5) ∧
    bytesIn (after (.pbdDepack 0 0 1 0 5)
      (withBufs [[0, 0x11, 0xFF, 0x22, 0x80, 1, 0x33, 0x44], [9, 9, 9, 9, 9]])) 1 5 =
        [0x11, 0x22, 0x22, 0x33, 0x44] := by decide +kernel
/-- PB-15. -/
theorem test_pbdDepack_srcEnd :
    (after (.pbdDepack 0 0 1 0 3) (withBufs [[2, 0x0A], [9, 9, 9]])).pbd.fault = ⟨true, 3, 6, 2⟩ := by
  decide +kernel

/-- VD-1, interleaved. -/
theorem test_vddDecode_interleaved :
    (match vddDecodeOp .interleaved ⟨0, 0, 8⟩ 0 8 ⟨1, 0, 8⟩ 0 2 4
        (withBufs [[2, 0xFF, 0xFF, 0xFE, 0x12, 0x34, 0x56, 0x78], List.replicate 8 1]) with
      | .ok r t => (r, bytesIn t 1 8, t.vdd.cp)
      | .error _ t => (.unit, bytesIn t 1 8, t.vdd.cp)) =
    (.status .full, [0xFF, 0xFF, 0xFF, 0xFF, 0x12, 0x34, 0x56, 0x78], 8) := by decide +kernel
/-- VD-2, split. -/
theorem test_vddDecode_split :
    (match vddDecodeOp .split ⟨0, 0, 10⟩ 0 10 ⟨1, 0, 8⟩ 0 2 4
        (withBufs [[0, 4, 2, 0xFE, 0xFF, 0xFF, 0x12, 0x34, 0x56, 0x78], List.replicate 8 1]) with
      | .ok r t => (r, bytesIn t 1 8, t.vdd.cp, t.vdd.dp)
      | .error _ t => (.unit, bytesIn t 1 8, t.vdd.cp, t.vdd.dp)) =
    (.status .full, [0xFF, 0xFF, 0xFF, 0xFF, 0x12, 0x34, 0x56, 0x78], 4, 10) := by decide +kernel
/-- A copy of 2 with room for 1 and a source of 1 value: the plane is complete, FULL (R244 c, g). -/
theorem test_vdCopy_full :
    (match vdAlone (vdCopyOp .interleaved 126)
        (withVdd 0 2 1 0 0 (withBufs [[0xFE, 0xAA, 0xBB], [1, 1]])) with
      | .ok _ t => (bytesIn t 1 2, t.vdd.status)
      | .error _ t => (bytesIn t 1 2, t.vdd.status)) = ([0xAA, 0xBB], .full) := by decide +kernel
/-- VD-5: a run of 5 with room for 2 ends FULL (R244 c). -/
theorem test_vdRun :
    (match vdAlone (vdRunOp .interleaved 5)
        (withVdd 0 2 2 0 0 (withBufs [[5, 0xAA, 0xBB], [1, 1, 1, 1]])) with
      | .ok _ t => (bytesIn t 1 4, t.vdd.status)
      | .error _ t => (bytesIn t 1 4, t.vdd.status)) = ([0xAA, 0xBB, 0xAA, 0xBB], .full) := by
  decide +kernel
/-- VD-3: the second command, from line 3, wraps into the next columns. -/
theorem test_vdRunx :
    (match vdAlone (vdRunxOp .interleaved)
        (withVdd 0 4 4 0 3 (withBufs [[1, 0, 3, 0x11, 0x22], List.replicate 16 7])) with
      | .ok _ t => (bytesIn t 1 16, t.vdd.x, t.vdd.y)
      | .error _ t => (bytesIn t 1 16, t.vdd.x, t.vdd.y)) =
    ([7, 7, 0x11, 0x22, 7, 7, 0x11, 0x22, 7, 7, 7, 7, 0x11, 0x22, 7, 7], 2, 2) := by decide +kernel
/-- VD-9: `FF` copies one value. -/
theorem test_vdCopy :
    (match vdAlone (vdCopyOp .interleaved 127)
        (withVdd 0 2 4 0 0 (withBufs [[0xFF, 0x12, 0x34, 2], List.replicate 8 1])) with
      | .ok _ t => (bytesIn t 1 8, t.vdd.y, t.vdd.cp)
      | .error _ t => (bytesIn t 1 8, t.vdd.y, t.vdd.cp)) =
    ([0x12, 0x34, 1, 1, 1, 1, 1, 1], 1, 3) := by decide +kernel
/-- VD-3: `VD.COPYX 2`. -/
theorem test_vdCopyx :
    (match vdAlone (vdCopyxOp .interleaved)
        (withVdd 0 2 4 0 2 (withBufs [[0, 0, 2, 0xA1, 0xA2, 0xB1, 0xB2], List.replicate 8 1])) with
      | .ok _ t => (bytesIn t 1 8, t.vdd.x, t.vdd.y)
      | .error _ t => (bytesIn t 1 8, t.vdd.x, t.vdd.y)) =
    ([1, 1, 1, 1, 0xA1, 0xA2, 0xB1, 0xB2], 2, 0) := by decide +kernel

/-- R261. -/
theorem test_ckrOpen :
    curView (after (.ckrOpen 0) (withCkr [⟨0, 9, 4⟩, ⟨1, 2, 0⟩] (withBufs [[1, 2, 3]]))) =
      ⟨0, 3, 0⟩ := by decide +kernel
/-- CK-1: the pad byte is consumed. -/
theorem test_ckrReadchunk :
    replyOf .ckrReadchunk (withCkr [⟨0, 18, 0⟩] (withBufs [[0x41, 0x42, 0x43, 0x44, 0, 0, 0, 1, 0xAA,
      0, 0x45, 0x46, 0x47, 0x48, 0, 0, 0, 0]])) = .done (.chunk 0x41424344 1 8) ∧
    (curView (after .ckrReadchunk (withCkr [⟨0, 18, 0⟩] (withBufs [[0x41, 0x42, 0x43, 0x44, 0, 0, 0, 1,
      0xAA, 0, 0x45, 0x46, 0x47, 0x48, 0, 0, 0, 0]])))).pos = 10 := by decide +kernel
/-- CK-2: the pad byte is missing. -/
theorem test_ckrReadchunk_noPad :
    (curView (after .ckrReadchunk (withCkr [⟨0, 17, 0⟩] (withBufs [[0x41, 0x42, 0x43, 0x44, 0, 0, 0, 1,
      0xAA, 0x45, 0x46, 0x47, 0x48, 0, 0, 0, 0]])))).pos = 9 := by decide +kernel
/-- Section 2.6: peeking at CK-1's second chunk. -/
theorem test_ckrPeek :
    replyOf .ckrPeek (withCkr [⟨0, 18, 10⟩] (withBufs [[0x41, 0x42, 0x43, 0x44, 0, 0, 0, 1, 0xAA,
      0, 0x45, 0x46, 0x47, 0x48, 0, 0, 0, 0]])) = .done (.peek (some (0x45464748, 0))) := by
  decide +kernel
/-- CK-1's end. -/
theorem test_ckrEof :
    replyOf .ckrEof (withCkr [⟨0, 18, 18⟩] State.reset) = .done (.flag true) := by decide +kernel
/-- Section 2.6: the ninth nested view. -/
theorem test_ckrEnter_full :
    (after (.ckrEnter 0 0) (withCkr (List.replicate 8 ⟨0, 1, 1⟩) (withBufs [[1]]))).ckr.fault =
      ⟨true, 4, 8, 8⟩ := by decide +kernel
/-- Section 2.6: the last view stays. -/
theorem test_ckrLeave_last :
    (after .ckrLeave (withCkr [⟨0, 1, 1⟩] (withBufs [[1]]))).ckr.fault = ⟨true, 4, 8, 1⟩ := by
  decide +kernel
/-- Section 2.6. -/
theorem test_ckrRd8 :
    replyOf .ckrRd8 (withCkr [⟨0, 3, 2⟩] (withBufs [[1, 2, 3]])) = .done (.u8 3) := by decide +kernel
/-- Section 2.6. -/
theorem test_ckrRd16 :
    replyOf .ckrRd16 (withCkr [⟨0, 3, 0⟩] (withBufs [[1, 2, 3]])) = .done (.u16 0x0102) := by
  decide +kernel
/-- Section 2.6: beyond the view. -/
theorem test_ckrRd16_pastEnd :
    (after .ckrRd16 (withCkr [⟨0, 3, 2⟩] (withBufs [[1, 2, 3]]))).ckr.fault = ⟨true, 3, 1, 2⟩ := by
  decide +kernel
/-- Section 2.6, the sub-type of buffer N. -/
theorem test_ckrRd32 :
    replyOf .ckrRd32 (withCkr [⟨0, 9, 9⟩, ⟨1, 5, 0⟩] (withBufs [[0, 0x49, 0x4C, 0x42, 0x4D, 1]])) =
      .done (.u32 0x494C424D) := by decide +kernel

/-- HM-1, the first pixel. -/
theorem test_hamBase :
    replyOf (.hamBase 6 3)
      (withHam 6 0 (lutOf [0x000000FF, 0x111111FF, 0x222222FF, 0xCC4422FF]) State.reset) =
        .done (.u32 0xCC4422FF) := by decide +kernel
/-- HM-1 in the `shift` reading: green, blue and red in turn. -/
theorem test_hamModes :
    modifiedColour .shift .green 6 8 0xCC4422FF = 0xCC8022FF ∧
      modifiedColour .shift .blue 6 15 0xCC8022FF = 0xCC80F0FF ∧
      modifiedColour .shift .red 6 10 0xCC80F0FF = 0xA080F0FF := by decide +kernel
/-- HM-1 and section 2.7's tables in the other readings, at the data where they differ. -/
theorem test_hamScales :
    modifiedColour .linear .green 6 8 0xCC4422FF = 0xCC8822FF ∧ hamScaled .linear 48 6 = 194 ∧
      hamScaled .replicate 48 6 = 195 ∧ hamScaled .replicate 3 5 = 24 := by decide +kernel
/-- R289: a modify code leaves alpha and its two other channels, whatever the scaling and the selector's
channel. -/
theorem test_hamModb :
    (after (.hamModb 6 15) (withHam 6 0xCC8022FF whiteBlack State.reset)).ham.cur &&&
        ~~~((0xFF : U32) <<< channelShift Config.hamSel1) =
      0xCC8022FF &&& ~~~((0xFF : U32) <<< channelShift Config.hamSel1) := by
  show modifiedColour Config.hamScale Config.hamSel1 6 15 0xCC8022FF &&& _ = _
  cases Config.hamSel1 <;> cases Config.hamScale <;> decide +kernel
/-- R289: a modify code leaves alpha and its two other channels, whatever the scaling and the selector's
channel. -/
theorem test_hamModr :
    (after (.hamModr 6 10) (withHam 6 0xCC8022FF whiteBlack State.reset)).ham.cur &&&
        ~~~((0xFF : U32) <<< channelShift Config.hamSel2) =
      0xCC8022FF &&& ~~~((0xFF : U32) <<< channelShift Config.hamSel2) := by
  show modifiedColour Config.hamScale Config.hamSel2 6 10 0xCC8022FF &&& _ = _
  cases Config.hamSel2 <;> cases Config.hamScale <;> decide +kernel
/-- R289: a modify code leaves alpha and its two other channels, whatever the scaling and the selector's
channel. -/
theorem test_hamModg :
    (after (.hamModg 6 8) (withHam 6 0xCC4422FF whiteBlack State.reset)).ham.cur &&&
        ~~~((0xFF : U32) <<< channelShift Config.hamSel3) =
      0xCC4422FF &&& ~~~((0xFF : U32) <<< channelShift Config.hamSel3) := by
  show modifiedColour Config.hamScale Config.hamSel3 6 8 0xCC4422FF &&& _ = _
  cases Config.hamSel3 <;> cases Config.hamScale <;> decide +kernel
/-- HM-6. -/
theorem test_hamInit_badGeometry :
    (after (.hamInit 9 0) State.reset).ham.fault = ⟨true, 4, 6, 9⟩ := by decide +kernel
/-- HM-3: the reader has advanced, the colour is unchanged. -/
theorem test_hamRead_badIndex :
    let t := after .hamRead (withHam 6 0x11223344 (lutOf [0, 0, 0, 0])
      (withBpr ⟨2, 0, 1, 12, 2, 6⟩ ⟨0, 0, 0, 0⟩ (withBufs [[0, 0, 0, 0, 0x80, 0, 0, 0, 0, 0, 0, 1]])))
    t.ham.fault = ⟨true, 3, 2, 4⟩ ∧ t.bpr.cur = ⟨0, 0, 0, 1⟩ ∧ t.ham.cur = 0x11223344 := by
  decide +kernel
/-- HM-8. -/
theorem test_hamRead_planes :
    (after .hamRead (withHam 6 0 whiteBlack (withBpr ⟨2, 0, 1, 10, 2, 5⟩ ⟨0, 0, 0, 0⟩
      (withBufs [[1]])))).ham.fault = ⟨true, 4, 6, 0⟩ := by decide +kernel
/-- HM-7. -/
theorem test_hamSetpal :
    (after (.hamSetpal 0) (withHam 6 0x11223344 whiteBlack
      (withPal 0 8 [(255, 0, 0, 255)] State.reset))).ham.cur = 0x11223344 := by decide +kernel
/-- R294: the reader moves. -/
theorem test_hamAdv :
    (after (.hamAdv 4) (withHam 6 0 whiteBlack (withBpr ⟨2, 0, 1, 4, 2, 2⟩ ⟨1, 0, 0, 4⟩
      (withBufs [[1, 1, 1, 1]])))).bpr.cur = ⟨0, 0, 1, 0⟩ := by decide +kernel

/-- R295: the count is emptied. -/
theorem test_rpaConfig :
    (after (.rpaConfig 4 .pxw) (withRpa 9 .none State.reset)).rpa.count = 0 := by decide +kernel
/-- Section 2.8: replacing palette 0 leaves the count. -/
theorem test_rpaLoad :
    (after (.rpaLoad 0 0) (withRpa 200 .none (withPal 0 8 [(1, 2, 3, 4)] State.reset))).rpa.ras =
      [(0, lutOf [0x01020304]), (1, lutOf [0x11223344])] ∧
    (after (.rpaLoad 0 0) (withRpa 200 .none (withPal 0 8 [(1, 2, 3, 4)] State.reset))).rpa.count =
      2 := by
  have h : ¬ Config.rastMax ≤ 0 := by unfold Config.rastMax; omega
  simp only [after, exec, execRpaLoad, rpaLoadOp]
  simp [runOp, bind, EStateM.bind, enter, faultOf, initOf, withRpa, withPal, setSlot, FaultReg.clear,
    get, getThe, MonadStateOf.get, EStateM.get, raiseIf, h, pure, EStateM.pure, modify, modifyGet,
    MonadStateOf.modifyGet, EStateM.modifyGet, view8, checkSlot, checkMade]
  decide +kernel
/-- Section 2.8, count 2, height 3: lines 0, 1, 2 select 0, 0, 1. -/
theorem test_rpaSelect :
    (after (.rpaSelect 1) (withRpa 3 .ham (withHam 6 0 (lutOf []) State.reset))).ham.lut =
      whiteBlack ∧
    (after (.rpaSelect 2) (withRpa 3 .ham (withHam 6 0 (lutOf []) State.reset))).ham.lut =
      lutOf [0x11223344] := by decide +kernel

/-- S4 on one byte: pixels black and white in turn. -/
theorem test_seqDecode :
    bytesIn (after (.seqDecode 0 0 2 1 1 .contiguous 1)
      (withPal 0 8 [(255, 255, 255, 255), (0, 0, 0, 255)] (withBufs [[0x80], List.replicate 8 7]))) 1 8 =
      [0, 0, 0, 255, 255, 255, 255, 255] := by decide +kernel
/-- Section 2.9: a width that 16 does not divide. -/
theorem test_seqEncode_badWidth :
    (after (.seqEncode 0 0 20 1 (some 1) .line 1) State.reset).seq.fault = ⟨true, 1, 14, 20⟩ := by
  decide +kernel
/-- R313 on 16 pixels, black but for the last: the buffer is zeroed first. -/
theorem test_seqEncode :
    bytesIn (after (.seqEncode 0 0 16 1 none .word 1)
      (withPal 0 8 [(255, 255, 255, 255), (0, 0, 0, 255)]
        (withBufs [(List.replicate 15 [0, 0, 0, 255]).flatten ++ [255, 255, 255, 255], [9, 9, 9]]))) 1 3 =
      [0xFF, 0xFE, 9] := by decide +kernel

/-- A header payload: width 16, one plane, raw (R105). -/
def header (height : Byte) : List Byte :=
  [0, 16, 0, height, 0, 0, 0, 0, 1, 0, 0, 0, 0, 0, 1, 1, 0, 16, 0, height]

/-- The format's codes at R7's defaults, for the vectors. -/
def dk : Config.Codes := Config.defaultCodes 1 2 3

/-- The palette payload black, white. -/
def blackWhite : List Byte := [0, 0, 0, 255, 255, 255]

/-- A container of one line: palette black, white; body AA 00. -/
def container (k : Config.Codes) : List Byte :=
  containerBytes k k.typeLine [(k.hdr, header 1), (k.pal, blackWhite), (k.bodyLine, [0xAA, 0x00])] []

/-- SQ-1, the outer tag "LIST". -/
theorem test_seqScan_badTopTag :
    (afterOp (seqScanOp dk ⟨0, 0, 12⟩)
      (withBufs [chunkBytes 0x4C495354 (beBytes 4 0x494C424D)])).seq.fault =
      ⟨true, 1, 3, 0x4C495354⟩ := by decide +kernel
/-- R317, R318, R322 and R327 on the container of one line. -/
theorem test_seqScan :
    let t := afterOp (seqScanOp dk ⟨0, 0, 64⟩) (withBufs [container dk])
    t.reply = .done .unit ∧ t.seq.hdr.bytesPerLine = 2 ∧ t.seq.body = ⟨true, 62, 2, .line⟩ ∧
      (slotAt t 0).ent = [(0, ⟨true, 0, 0, 0, 255⟩), (1, ⟨true, 255, 255, 255, 255⟩)] := by
  decide +kernel
/-- R316, R321: the first two pixels of body AA, white and black. -/
theorem test_seqDecodec :
    bytesIn (afterOp (seqDecodecOp dk ⟨0, 0, 64⟩ ⟨1, 0, 1⟩ ⟨2, 0, 64⟩)
      (withBufs [container dk, [1], List.replicate 64 7])) 2 8 =
      [255, 255, 255, 255, 0, 0, 0, 255] := by decide +kernel
/-- P4's body chunk, raw bytes read with each layout's geometry (R326): two planes, one line. -/
theorem test_seqAssemble :
    let s := withPal 0 8 [(0, 0, 0, 0), (1, 1, 1, 1), (2, 2, 2, 2), (3, 3, 3, 3)]
      (withBufs [[9, 0x80, 0, 0xC0, 0], [1], List.replicate 64 7])
    bytesIn (after (.seqAssemble 0 1 2)
      { s with seq := { s.seq with
          state := .assemble, body := ⟨true, 1, 4, .line⟩
          hdr := { s.seq.hdr with width := 16, height := 1, planes := 2, bytesPerLine := 2,
                                  valid := true } } }) 2 12 =
      [3, 3, 3, 3, 2, 2, 2, 2, 0, 0, 0, 0] := by decide +kernel
/-- R358 on one line of 16 black pixels of a two-colour palette: the chunk tree's length, and the
bytes of the outer header and sub-type. -/
theorem test_seqEncodec :
    let t := afterOp (seqEncodecOp dk ⟨0, 0, 64⟩ 0
        { zeroOptions with width := 16, height := 1, workBuf := 1 } ⟨1, 0, 2⟩ ⟨3, 0, 0⟩ ⟨2, 0, 64⟩)
      (withPal 0 8 [(255, 255, 255, 255), (0, 0, 0, 255)]
        (withBufs [(List.replicate 16 [0, 0, 0, 255]).flatten, [7, 7], List.replicate 64 7]))
    t.reply = .done (.nat 64) ∧
      bytesIn t 2 12 = [0x46, 0x4F, 0x52, 0x4D, 0, 0, 0, 56, 0x49, 0x4C, 0x42, 0x4D] := by
  decide +kernel
/-- R311, R383: SEQ's own BUF_SMALL leaves SEQ.state. -/
theorem test_seqDecode_bufSmall :
    let t := after (.seqDecode 0 0 2 1 1 .line 1) (withBufs [[0], List.replicate 7 9])
    t.seq.fault = ⟨true, 1, 13, 8⟩ ∧ t.seq.state = .idle := by decide +kernel
/-- R328: outside ASSEMBLE. -/
theorem test_seqAssemble_notInit :
    (after (.seqAssemble 0 1 2) State.reset).seq.fault = ⟨true, 4, 1, 0⟩ := by decide +kernel
/-- Section 2.10, CKW: the first chunk of the sequence. -/
theorem test_ckwStart :
    bytesIn (after (.ckwStart 0x42424242) (withCkw 23 [0] (withBufs [List.replicate 40 1]))) 0 33 =
      List.replicate 23 1 ++ [0, 0x42, 0x42, 0x42, 0x42, 0, 0, 0, 0, 1] := by decide +kernel
/-- Section 2.10, CKW: the last `CKW.END -> 33`. -/
theorem test_ckwEnd :
    replyOf .ckwEnd (withCkw 33 [0] (withBufs [List.replicate 33 1])) = .done (.nat 33) ∧
      bytesIn (after .ckwEnd (withCkw 33 [0] (withBufs [List.replicate 33 1]))) 0 9 =
        [1, 1, 1, 1, 0, 0, 0, 0x19, 1] := by decide +kernel
/-- Section 2.10, CKW. -/
theorem test_ckwInit :
    (after (.ckwInit 0) (withCkw 33 [0, 4] State.reset)).ckw.sd = 0 := by decide +kernel
/-- R357. -/
theorem test_ckwWr8 :
    bytesIn (after (.ckwWr8 9) (withCkw 1 [] (withBufs [[1, 1, 1]]))) 0 3 = [1, 9, 1] := by
  decide +kernel
/-- R357. -/
theorem test_ckwWr16 :
    bytesIn (after (.ckwWr16 0x0203) (withCkw 0 [] (withBufs [[1, 1, 1]]))) 0 3 = [2, 3, 1] := by
  decide +kernel
/-- Section 2.10, CKW: the sub-type. -/
theorem test_ckwWr32 :
    bytesIn (after (.ckwWr32 0x494C424D) (withCkw 8 [0] (withBufs [List.replicate 13 1]))) 0 13 =
      List.replicate 8 1 ++ [0x49, 0x4C, 0x42, 0x4D, 1] := by decide +kernel
/-- PK-2: the run is cut at the line. -/
theorem test_pbePack :
    bytesIn (after (.pbePack 0 3 1) (withBufs [[0xAA, 0xAA, 0xAA, 0xAA, 1, 2], List.replicate 7 9])) 1 7 =
      [0xFE, 0xAA, 2, 0xAA, 1, 2, 9] := by decide +kernel
/-- PK-7: a run of 128, then two literal bytes. -/
theorem test_pbePack_longRun :
    bytesIn (after (.pbePack 0 130 1) (withBufs [List.replicate 130 7, List.replicate 6 9])) 1 6 =
      [0x81, 7, 1, 7, 7, 9] := by decide +kernel

/-! ### The hypotheses of the obligations can be met

One theorem for each clause: a concrete state and operands that meet the clause's hypotheses together,
at a boundary where the clause has one. -/

/-- Black and white palette in slots 0 and 3. -/
def twoColours (s : State) : State :=
  withPal 0 8 [(255, 255, 255, 255), (0, 0, 0, 255)]
    (withPal 3 8 [(255, 255, 255, 255), (0, 0, 0, 255)] s)

/-- A slot whose second entry is unset. -/
def gapPal (s : State) : State :=
  setSlot 3 ⟨true, 2, 1, [(0, ⟨true, 1, 0, 1, 1⟩)]⟩ s

theorem witness_DecodeEncodeAgree :
    WellFormed (.pbRun 1) = true ∧ WellFormed (.vdRun 2) = true ∧ WellFormed (.hamModg 3 1) = true ∧
      WellFormed (.hamBase 8 63) = true := by decide
theorem witness_EncodeDecodeAgree :
    decode (.pb 0x81) = .ok (.pbRun 1) ∧ decode (.ham 8 255) = .ok (.hamModg 8 63) := by decide
theorem witness_StepRunsDecoded_badOp :
    (0x01 : Byte).toNat ∉ hopCodes ∧ (0xC8 : Byte).toNat ∉ hopCodes ∧
      { State.reset with pending := [.hop 0x01 []] }.pending = .hop 0x01 [] :: [] := by decide
theorem witness_StepRunsDecoded :
    { State.reset with pending := [.pb 0x80] }.pending = .pb 0x80 :: [] ∧
      decode (.pb 0x80) = .ok .pbNop ∧ State.reset.pending = [] := by decide
theorem witness_UnreadyUnitsDoNothing_faulted :
    guardOf .bprEof = some .bpr ∧ (faultOf .bpr (after .bprRead State.reset)).valid = true ∧
      guardOf .pbNop = some .pbd ∧
      (faultOf .pbd (after (.pbdDepack 0 0 0 0 1) State.reset)).valid = true := by decide +kernel

theorem witness_UnreadyUnitsDoNothing_notInit :
    guardOf .hamRead = some .ham ∧ guardOf (.hamModg 3 1) = some .ham ∧
      (faultOf .ham State.reset).valid = false ∧ initOf .ham State.reset = false := by decide
theorem witness_FirstFaultStays :
    (faultOf .bpr (after .bprRead State.reset)).valid = true ∧ UnitId.bpr ∉ clearedBy (.palMono 0) ∧
      exec (.palMono 0) (after .bprRead State.reset) =
        .next (after (.palMono 0) (after .bprRead State.reset)) :=
  ⟨by decide +kernel, by decide, rfl⟩
/-- The byte after the written pixel, in the same buffer, and another buffer. -/
theorem witness_WritesStayInRange :
    let s := withPxw 0 whiteBlack (withBufs [[0, 0, 0, 0, 9], [3]])
    memoryOk s ∧ (∀ r ∈ writtenBy (.pxwWrite 1) s, ¬ inWindow r 0 4) ∧
      (∀ r ∈ writtenBy (.pxwWrite 1) s, r.id ≠ 1) ∧
      exec (.pxwWrite 1) s = .next (after (.pxwWrite 1) s) :=
  ⟨by unfold memoryOk; decide +kernel, by unfold inWindow; decide +kernel, by decide +kernel, rfl⟩
/-- A failed `PBD.DEPACK` between bytes 1 and 3 of its destination. -/
theorem witness_WritesStayInRange_faulted :
    let s := withBufs [[2, 7], [9, 9, 9, 9, 9]]
    memoryOk s ∧
      (∀ r ∈ writtenBy (.pbdDepack 0 0 1 1 3) s, ¬ inWindow r 1 0 ∧ ¬ inWindow r 1 4) ∧
      (after (.pbdDepack 0 0 1 1 3) s).reply = .faulted :=
  ⟨by unfold memoryOk; decide +kernel, by unfold inWindow; decide +kernel, by decide +kernel⟩

/-- A state in which every unit that binds buffers is initialised. -/
def busy : State :=
  withCkw 0 [] <| withCkr [⟨0, 8, 0⟩] <| withPbd 0 4 1 <| withVdd 1 2 2 0 1 <|
    withPxr 1 whiteBlack <| withPxw 1 whiteBlack <| withBpw ⟨1, 0, 1, 2, 1, 2⟩ ⟨0, 0, 0, 7⟩ <|
    withBpr ⟨2, 0, 1, 4, 2, 2⟩ ⟨1, 0, 0, 7⟩ <| withHam 8 0 whiteBlack <| withRpa 2 .pxw <|
    twoColours (withBufs [[1, 2, 3, 4, 5, 6, 7, 8], [1, 2, 3, 4]])

/-- `busy` with a request to write a pixel waiting. -/
def busyWithRequest : State := { busy with pending := [.hop 0x51 [.nat 1]] }

/-- The plane reader, its pass over. -/
def readerDone : State := { busy with bpr := { busy.bpr with buf := none } }

theorem witness_DeadBindings_refused :
    guardOf .bprRead = some .bpr ∧ (faultOf .bpr readerDone).valid = false ∧
      initOf .bpr readerDone = true ∧ bound .bpr readerDone = false := by decide +kernel
theorem witness_DeadBindings_ham :
    let s := { readerDone with ham := { readerDone.ham with planes := 2 } }
    ready .ham s ∧ s.bpr.fault.valid = false ∧ s.bpr.init = true ∧ s.bpr.buf = none ∧
      s.bpr.geom.planeCount = s.ham.planes := by unfold ready; decide +kernel
theorem witness_DeadBindings_next : exec (.bprInit 0 geom) busy = .next (after (.bprInit 0 geom) busy) :=
  rfl
/-- A DECODE that completes; for ENCODE, ASSEMBLE and ENCODEC see their own witnesses. -/
theorem witness_DeadBindings_completes :
    replyOf (.seqDecode 0 3 2 1 1 .line 1) (twoColours (withBufs [[0x80], List.replicate 8 7])) =
      .done .unit := by decide +kernel
theorem witness_DeadBindings_scan : replyOf (.seqScan 0) State.reset = .faulted := by decide +kernel
/-- `BPW.INIT` on the pixel writer's buffer, of which they share byte 7. -/
theorem witness_DeadBindings_claim :
    replyOf (.bpwInit 0 geom) busy = .done .unit ∧ bindingOf .pxw busy = some ⟨0, 0, 8⟩ ∧
      inWindow ⟨0, 0, 8⟩ 0 7 ∧ 7 < (bufAt busy.mem 0).len := by unfold inWindow; decide +kernel
/-- A decode into buffer 1 leaves the pixel reader bound to buffer 0. -/
theorem witness_DeadBindings_held :
    exec (.pbdDepack 0 0 1 0 2) busy = .next (after (.pbdDepack 0 0 1 0 2) busy) ∧
      guardOf (.pbdDepack 0 0 1 0 2) ≠ some .pxr ∧
      bindingOf .pxr (after (.pbdDepack 0 0 1 0 2) busy) = some ⟨0, 0, 8⟩ ∧
      inWindow ⟨0, 0, 8⟩ 0 7 := ⟨rfl, by decide, by decide +kernel, by unfold inWindow; decide⟩
theorem witness_invariants_step :
    step busyWithRequest =
      .next (after (.pxwWrite 1) busy) := rfl
theorem witness_MemoryStaysCanonical : memoryOk busyWithRequest := by
  unfold memoryOk; decide +kernel
theorem witness_ColoursStayLegal : palettesOk busyWithRequest ∧ tablesOk busyWithRequest := by
  have h : 200 ≤ Config.rastMax := by unfold Config.rastMax; omega
  refine ⟨by unfold palettesOk slotOk entryOk; decide +kernel, ?_⟩
  refine ⟨?_, ?_, ?_, show 2 ≤ _ by omega, by decide +kernel, ?_⟩
  · unfold lutOk; decide +kernel
  · unfold lutOk; decide +kernel
  · unfold lutOk; decide +kernel
  · have hk : ∀ e ∈ busyWithRequest.rpa.ras, e.1 < 200 ∧ lutOk e.2 := by unfold lutOk; decide +kernel
    exact fun e he => ⟨(hk e he).1.trans_le h, (hk e he).2⟩
theorem witness_MemoryStaysCanonical_bindings : bindingsOk busyWithRequest := by
  unfold bindingsOk refOk; decide +kernel
theorem witness_RegistersStayLegal :
    cursorsOk busyWithRequest ∧ passesOk busyWithRequest ∧ stacksOk busyWithRequest := by
  unfold cursorsOk cursorOk geometryFits passesOk stripOk depackOk stacksOk viewOk
  decide +kernel

theorem witness_PalCreateMono :
    3 < Config.npal ∧ Config.palMax < 257 ∧ 256 ≤ Config.palMax ∧ (none : Option Nat).getD 8 ≤ 8 ∧
      (8 < (some 9).getD 8 ∧ (some 0).getD 8 < 1 ∧ 1 ≤ (some 1).getD 8) ∧ ready .pal State.reset := by
  unfold ready; decide
theorem witness_PalSet :
    ready .pal busy ∧ palettesOk busy ∧ 3 < Config.npal ∧ (slotAt busy 3).made = true ∧
      (slotAt busy 3).count ≤ 2 ∧ 1 < (slotAt busy 3).count := by
  unfold ready palettesOk slotOk entryOk; decide +kernel
theorem witness_PalGetPlanes :
    ready .pal (gapPal busy) ∧ palettesOk (gapPal busy) ∧ 3 < Config.npal ∧
      (slotAt (gapPal busy) 3).made = true ∧ (slotAt (gapPal busy) 3).count ≤ 2 ∧
      (1 < (slotAt (gapPal busy) 3).count ∧ (entryAt (slotAt (gapPal busy) 3) 1).set = false) ∧
      (entryAt (slotAt (gapPal busy) 3) 0).set = true := by
  unfold ready palettesOk slotOk entryOk; decide +kernel
theorem witness_SlotChecks :
    ready .pal busy ∧ ready .ham busy ∧ ready .rpa busy ∧ ready .pxr busy ∧ ready .pxw busy ∧
      Config.npal ≤ 4 ∧ 2 < Config.npal ∧ (slotAt busy 2).made = false := by
  unfold ready; decide +kernel
theorem witness_PalResample :
    ready .pal (gapPal busy) ∧ palettesOk (gapPal busy) ∧ 3 < Config.npal ∧
      (slotAt (gapPal busy) 3).made = true ∧ (entryAt (slotAt (gapPal busy) 3) 0).set = true ∧
      255 ≤ 2 ^ 8 - 1 ∧ 0 < 1 ∧ 8 < 9 := by
  unfold ready palettesOk slotOk entryOk; decide +kernel
theorem witness_PalToval_allSet :
    ready .pal busy ∧ palettesOk busy ∧ 3 < Config.npal ∧ (slotAt busy 3).made = true ∧
      setBelow (slotAt busy 3) (slotAt busy 3).count := by
  unfold ready palettesOk slotOk entryOk setBelow; decide +kernel
theorem witness_PalToval_unset :
    ready .pal (gapPal busy) ∧ palettesOk (gapPal busy) ∧ (slotAt (gapPal busy) 3).made = true ∧
      1 < (slotAt (gapPal busy) 3).count ∧ (entryAt (slotAt (gapPal busy) 3) 1).set = false ∧
      ∀ j < 1, (entryAt (slotAt (gapPal busy) 3) j).set = true := by
  unfold ready palettesOk slotOk entryOk; decide +kernel
theorem witness_PalFromval :
    ready .pal busy ∧ 3 < Config.npal ∧ (List.replicate 256 (0 : U32)).length ≤ Config.palMax ∧
      Config.palMax < (List.replicate 257 (0 : U32)).length ∧
      ((some 0).getD 8 < 1 ∧ 8 < (some 9).getD 8 ∧ 1 ≤ (some 1).getD 8) ∧
      slotOk (slotAt busy 3) ∧ setBelow (slotAt busy 3) (slotAt busy 3).count ∧
      ∀ i < (slotAt busy 3).count, (entryAt (slotAt busy 3) i).a.toNat = 2 ^ (slotAt busy 3).bpc - 1 := by
  unfold ready slotOk entryOk setBelow; decide +kernel
theorem witness_PalFrompix :
    ready .pal busy ∧ 3 < Config.npal ∧
      ((List.range ((wholeBuf busy.mem 0).len / 4)).map fun k =>
        refByte busy.mem (wholeBuf busy.mem 0) (4 * k) ++ refByte busy.mem (wholeBuf busy.mem 0)
          (4 * k + 1) ++ refByte busy.mem (wholeBuf busy.mem 0) (4 * k + 2) ++
          refByte busy.mem (wholeBuf busy.mem 0) (4 * k + 3)).eraseDups.length ≤ Config.palMax := by
  unfold ready; decide +kernel
/-- A buffer of 257 distinct pixels, 00000000 to 00000100. -/
def manyColours : State :=
  { State.reset with
    mem := [(0, ⟨1028, (List.range 255).map (fun k => (4 * k + 7, BitVec.ofNat 8 (k + 1))) ++
      [(1026, 1)]⟩)] }
theorem witness_PalFrompix_full :
    ready .pal manyColours ∧
      ((List.range ((wholeBuf manyColours.mem 0).len / 4)).map fun k =>
        (refByte manyColours.mem (wholeBuf manyColours.mem 0) (4 * k) ++
          refByte manyColours.mem (wholeBuf manyColours.mem 0) (4 * k + 1) ++
          refByte manyColours.mem (wholeBuf manyColours.mem 0) (4 * k + 2) ++
          refByte manyColours.mem (wholeBuf manyColours.mem 0) (4 * k + 3) : U32)).eraseDups[256]? =
        some 0x00000100 := by
  have h : ((List.range ((wholeBuf manyColours.mem 0).len / 4)).map fun k =>
        (refByte manyColours.mem (wholeBuf manyColours.mem 0) (4 * k) ++
          refByte manyColours.mem (wholeBuf manyColours.mem 0) (4 * k + 1) ++
          refByte manyColours.mem (wholeBuf manyColours.mem 0) (4 * k + 2) ++
          refByte manyColours.mem (wholeBuf manyColours.mem 0) (4 * k + 3) : U32)) =
      (List.range 257).map fun k => BitVec.ofNat 32 k := by decide +kernel
  refine ⟨⟨rfl, rfl, rfl⟩, ?_⟩
  rw [h]
  decide +kernel
theorem witness_PalEhb_unset :
    let s := setSlot 0 ⟨true, 32, bpcStored 8, [(0, ⟨true, 1, 2, 3, 4⟩)]⟩ State.reset
    ready .pal s ∧ palettesOk s ∧ (slotAt s 0).made = true ∧ 32 ≤ (slotAt s 0).count ∧
      (entryAt (slotAt s 0) 1).set = false ∧ ∀ j < 1, (entryAt (slotAt s 0) j).set = true := by
  unfold ready palettesOk slotOk entryOk; decide +kernel
theorem witness_PalEhb_few :
    ready .pal busy ∧ palettesOk busy ∧ 3 < Config.npal ∧ (slotAt busy 3).made = true ∧
      (slotAt busy 3).count < 32 := by
  unfold ready palettesOk slotOk entryOk; decide +kernel
theorem witness_PalEhb :
    let s := withPal 0 8 (List.replicate 32 (255, 128, 1, 255)) State.reset
    ready .pal s ∧ palettesOk s ∧ 0 < Config.npal ∧ (slotAt s 0).made = true ∧
      setBelow (slotAt s 0) 32 := by
  unfold ready palettesOk slotOk entryOk setBelow; decide +kernel

theorem witness_PlaneUnitsInitEof :
    ready .bpr busy ∧ ready .bpw busy ∧ Config.planesMax < 9 ∧
      ¬ ((1 : Nat) = 0 ∨ (1 : Nat) = 0 ∨ (8 : Nat) = 0 ∨ Config.planesMax < 8) ∧
      geometryFits ⟨4294967295, 0, 1, 4294967295, 0, 8⟩ := by
  unfold ready geometryFits; decide +kernel
theorem witness_CursorStep :
    cursorOk true ⟨2, 4, 2, 8, 2, 8⟩ ⟨1, 1, 0, 7⟩ ∧ ready .bpw busy := by
  unfold cursorOk geometryFits ready; decide +kernel
theorem witness_PresetPlacement :
    0 < 17 ∧ 0 < 8 ∧ 16 < 17 ∧ 1 < 2 ∧
      passFits (presetGeometry .word 17 1 2) (presetLineBytes .word 17 * 1 * 2)
        (8 * presetLineBytes .word 17 * 1) := by
  unfold passFits; decide +kernel
/-- The last byte-column of a line buffer that is one byte short. -/
theorem witness_PresetPlacement_short :
    let s := withBpr (presetGeometry .line 9 2 1) ⟨1, 0, 1, 0⟩ (withBufs [[1, 2, 3]])
    ready .bpr s ∧ (refOf s.bpr.buf).len + 1 = presetLineBytes .line 9 * 2 * 1 ∧
      s.bpr.cur = stepCursorN (presetGeometry .line 9 2 1) (8 * presetLineBytes .line 9 * 2 - 8)
        Cursor.zero := by unfold ready; decide +kernel
theorem witness_BprRead_fetch :
    let s := withBpr ⟨2, 0, 1, 4, 2, 2⟩ .zero (withBufs [[0, 1, 1]])
    ready .bpr s ∧ cursorsOk s ∧ s.bpr.cur.bit = 0 ∧
      ∀ i < s.bpr.geom.planeCount, planeOffset s.bpr.geom s.bpr.cur i < (refOf s.bpr.buf).len := by
  unfold ready cursorsOk cursorOk geometryFits; decide +kernel
theorem witness_BprRead_pastEnd :
    let s := withBpr ⟨2, 0, 1, 4, 2, 2⟩ .zero (withBufs [[0, 1]])
    ready .bpr s ∧ cursorsOk s ∧ s.bpr.cur.bit = 0 ∧ 1 < s.bpr.geom.planeCount ∧
      (refOf s.bpr.buf).len ≤ planeOffset s.bpr.geom s.bpr.cur 1 ∧
      ∀ j < 1, planeOffset s.bpr.geom s.bpr.cur j < (refOf s.bpr.buf).len := by
  unfold ready cursorsOk cursorOk geometryFits; decide +kernel
theorem witness_BprRead_cached :
    ready .bpr busy ∧ cursorsOk busy ∧ busy.bpr.cur.bit ≠ 0 ∧ cacheTrue busy := by
  unfold ready cursorsOk cursorOk geometryFits cacheTrue; decide +kernel
theorem witness_BprAdv_stale : ready .bpr staleReader ∧ ¬ cacheTrue staleReader := by
  unfold ready cacheTrue; decide +kernel
theorem witness_BprAdv :
    let s := withBpr ⟨2, 0, 1, 4, 2, 2⟩ .zero (withBufs [[0, 1, 1, 1]])
    ready .bpr s ∧ cacheTrue s ∧ (∀ k < 16, (stepCursorN s.bpr.geom k s.bpr.cur).bit = 0 →
      planeEof s.bpr.geom (stepCursorN s.bpr.geom k s.bpr.cur) (refOf s.bpr.buf).len = false) ∧
      exec .bprRead s = completes (.u8 0) (after .bprRead s) := by
  exact ⟨by unfold ready; decide +kernel, fun h => absurd rfl h, by decide +kernel, rfl⟩
/-- Step 16 is the first to leave the buffer, on plane 0. -/
theorem witness_BprAdv_fault :
    let s := withBpr ⟨2, 0, 1, 4, 2, 2⟩ .zero (withBufs [[0, 1, 1, 1]])
    let c := stepCursorN s.bpr.geom 16 s.bpr.cur
    ready .bpr s ∧ cacheTrue s ∧ 16 < 17 ∧ (∀ k < 16, (stepCursorN s.bpr.geom k s.bpr.cur).bit = 0 →
      planeEof s.bpr.geom (stepCursorN s.bpr.geom k s.bpr.cur) (refOf s.bpr.buf).len = false) ∧
      c.bit = 0 ∧ 0 < s.bpr.geom.planeCount ∧
      (refOf s.bpr.buf).len ≤ planeOffset s.bpr.geom c 0 ∧
      replyOf .bprRead (withBpr ⟨2, 0, 1, 4, 2, 2⟩ ⟨0, 0, 1, 0⟩ (withBufs [[0, 1, 1, 1]])) =
        .faulted := by
  unfold ready cacheTrue; decide +kernel
theorem witness_BpwWrite_stores :
    ready .bpw busy ∧ bindingsOk busy ∧ 3 < 2 ^ busy.bpw.geom.planeCount ∧
      ∀ i < busy.bpw.geom.planeCount,
        planeOffset busy.bpw.geom busy.bpw.cur i < (refOf busy.bpw.buf).len := by
  unfold ready bindingsOk refOk; decide +kernel
theorem witness_BpwWrite_faults :
    let s := withBpw ⟨1, 0, 1, 2, 1, 2⟩ .zero (withBufs [[1]])
    ready .bpw s ∧ bindingsOk s ∧ 2 ^ s.bpw.geom.planeCount ≤ 4 ∧ 3 < 2 ^ s.bpw.geom.planeCount ∧
      1 < s.bpw.geom.planeCount ∧ (refOf s.bpw.buf).len ≤ planeOffset s.bpw.geom s.bpw.cur 1 ∧
      ∀ j < 1, planeOffset s.bpw.geom s.bpw.cur j < (refOf s.bpw.buf).len := by
  unfold ready bindingsOk refOk; decide +kernel

theorem witness_SlotView :
    slotOk (slotAt (gapPal busy) 3) ∧ 1 < (slotAt (gapPal busy) 3).count ∧
      (slotAt (gapPal busy) 3).count ≤ 2 ∧ (entryAt (slotAt (gapPal busy) 3) 0).set = true := by
  unfold slotOk entryOk; decide +kernel
theorem witness_PixelUnitsInitAdv :
    3 < Config.npal ∧ (slotAt busy 3).made = true ∧ ready .pxr busy ∧ ready .pxw busy := by
  unfold ready; decide +kernel
theorem witness_PxrRead_pastEnd :
    let s := withPxr 1 whiteBlack (withBufs [[0, 0, 0, 0xFF, 1, 1, 1]])
    ready .pxr s ∧ (refOf s.pxr.buf).len < 4 * s.pxr.pos + 4 := by
  unfold ready; decide +kernel
theorem witness_PxrRead_notFound :
    ready .pxr busy ∧ 4 * busy.pxr.pos + 4 ≤ (refOf busy.pxr.buf).len ∧
      ∀ i < busy.pxr.lut.count, ¬ ((lutAt busy.pxr.lut i).set = true ∧
        (lutAt busy.pxr.lut i).val = 0x05060708) := by
  unfold ready; decide +kernel
theorem witness_PxrRead_found :
    let s := withPxr 0 whiteBlack (withBufs [[0, 0, 0, 0xFF]])
    ready .pxr s ∧ 4 * s.pxr.pos + 4 ≤ (refOf s.pxr.buf).len ∧ 1 < s.pxr.lut.count ∧
      (lutAt s.pxr.lut 1).set = true ∧ (lutAt s.pxr.lut 1).val = 0x000000FF ∧
      ∀ i < 1, (lutAt s.pxr.lut i).val ≠ 0x000000FF := by
  unfold ready; decide +kernel
theorem witness_PxwWrites_stores :
    ready .pxw busy ∧ bindingsOk busy ∧ 4 * busy.pxw.pos + 4 ≤ (refOf busy.pxw.buf).len ∧
      1 < busy.pxw.lut.count ∧ (lutAt busy.pxw.lut 1).set = true ∧ busy.pxw.lut.count ≤ 2 := by
  unfold ready bindingsOk refOk; decide +kernel
theorem witness_PxwWrites_faults :
    let s := withPxw 1 ⟨2, [(0, ⟨true, 5⟩)]⟩ (withBufs [[0, 0, 0, 0, 1, 1, 1]])
    ready .pxw s ∧ bindingsOk s ∧ (refOf s.pxw.buf).len < 4 * s.pxw.pos + 4 ∧ 1 < s.pxw.lut.count ∧
      (lutAt s.pxw.lut 1).set = false ∧ (lutAt s.pxw.lut 0).set = true := by
  unfold ready bindingsOk refOk; decide +kernel

theorem witness_PbNopRun :
    let s := withPbd 0 4 0 (withBufs [[0x81, 7], [1, 1, 1, 1]])
    ready .pbd s ∧ (1 : BitVec 7) ≠ 0 ∧ bindingsOk s ∧ depackOk s.pbd ∧ s.pbd.dst.isSome = true ∧
      s.pbd.sp + 1 < (refOf s.pbd.src).len := by
  unfold ready bindingsOk refOk depackOk; decide +kernel
/-- The decoder after a whole `PBD.DEPACK`. -/
theorem witness_PbNopRun_unbound :
    let s := after (.pbdDepack 0 0 1 0 1) (withBufs [[0, 7], [1]])
    s.reply = .done (.depacked 2 1) ∧ ready .pbd s ∧ s.pbd.src = none ∧ s.pbd.dst = none := by
  unfold ready; decide +kernel
theorem witness_PbLit :
    let s := withPbd 0 4 1 (withBufs [[2, 7, 8, 9], [1, 1, 1, 1]])
    ready .pbd s ∧ bindingsOk s ∧ depackOk s.pbd ∧ s.pbd.dst.isSome = true ∧
      s.pbd.sp + 1 + min (1 + (2 : BitVec 7).toNat) (s.pbd.outSize - s.pbd.produced) ≤
        (refOf s.pbd.src).len ∧
      rangesMeet (refOf s.pbd.src) s.pbd.sp (refOf s.pbd.src).len (refOf s.pbd.dst) s.pbd.dbase
        (s.pbd.dbase + s.pbd.outSize) = false := by
  unfold ready bindingsOk refOk depackOk; decide +kernel
theorem witness_PbdDepackExpands :
    let s := withBufs [[9, 0, 0x11, 0xFF, 0x22, 0x80, 1, 0x33, 0x44], [1, 1, 1, 1, 1, 1]]
    let sr := wholeBuf s.mem 0
    1 + 5 ≤ (wholeBuf s.mem 1).len ∧
      rangesMeet sr 1 sr.len (wholeBuf s.mem 1) 1 6 = false ∧
      unpackList (sr.len - 1) (bytesOf s.mem sr 1 (sr.len - 1)) 5 =
        some ([0x11, 0x22, 0x22, 0x33, 0x44], []) := by decide +kernel
/-- No byte wanted, from beyond the source's end. -/
theorem witness_PbdDepackExpands_none :
    let s := withBufs [[9, 2], [1]]
    let sr := wholeBuf s.mem 0
    1 + 0 ≤ (wholeBuf s.mem 1).len ∧ rangesMeet sr 5 sr.len (wholeBuf s.mem 1) 1 1 = false ∧
      unpackList (sr.len - 5) (bytesOf s.mem sr 5 (sr.len - 5)) 0 = some ([], []) := by decide +kernel
/-- A stream that ends within its first literal, and one that starts beyond the source's end. -/
theorem witness_PbdDepackExpands_srcEnd :
    let s := withBufs [[9, 2, 0x11], [1, 1, 1, 1, 1, 1]]
    let sr := wholeBuf s.mem 0
    1 + 5 ≤ (wholeBuf s.mem 1).len ∧ rangesMeet sr 1 sr.len (wholeBuf s.mem 1) 1 6 = false ∧
      unpackList (sr.len - 1) (bytesOf s.mem sr 1 (sr.len - 1)) 5 = none ∧
      rangesMeet sr 4 sr.len (wholeBuf s.mem 1) 1 2 = false ∧
      unpackList (sr.len - 4) (bytesOf s.mem sr 4 (sr.len - 4)) 1 = none := by decide +kernel
theorem witness_DecoderChecks :
    (bufAt busy.mem 1).len < 1 + 4 ∧ 0 + 4 ≤ (bufAt busy.mem 1).len ∧
      max 3 0 < min (bufAt busy.mem 1).len (0 + 4) ∧ (3 % 2 = 1 ∧ ¬ (1 = 0 ∨ 2 % 2 = 1)) ∧
      (bufAt busy.mem 0).len < 1 + 8 ∧ 0 + 8 ≤ (bufAt busy.mem 0).len ∧
      (bufAt busy.mem 1).len < 1 + 2 * 2 ∧ 2 + 2 * 1 ≤ (bufAt busy.mem 1).len ∧
      max 3 2 < min (3 + 1) (2 + 2 * 1) := by decide +kernel

theorem witness_VdRuns_run :
    let s := withVdd 0 2 2 0 1 (withBufs [[5, 0xAA, 0xBB], [1, 1, 1, 1]])
    let p := match Config.vdatLayout with | .interleaved => s.vdd.cp + 1 | .split => s.vdd.dp
    ready .vdd s ∧ bindingsOk s ∧ stripOk s.vdd ∧ s.vdd.src.isSome = true ∧ s.vdd.dst.isSome = true ∧
      2 ≤ (5 : BitVec 7).toNat ∧
      p + 2 * 1 ≤ s.vdd.rend ∧ stripIndex s.vdd ≤ stripRoom s.vdd ∧ 0 < s.vdd.h := by
  unfold ready bindingsOk refOk stripOk
  cases Config.vdatLayout <;> decide +kernel
/-- An unbound decoder whose registers still name a region. -/
theorem witness_VdRuns_unbound :
    let s := { State.reset with vdd := { State.reset.vdd with rend := 3 } }
    ready .vdd s ∧ s.vdd.src = none ∧ s.vdd.dst = none ∧
      (match Config.vdatLayout with | .interleaved => s.vdd.cp + 1 | .split => s.vdd.dp) + 2 ≤
        s.vdd.rend := by
  unfold ready
  cases Config.vdatLayout <;> decide +kernel
theorem witness_VdRuns_runx :
    let s := withVdd 0 2 2 2 0 (withBufs [[1, 0, 3, 0xAA, 0xBB], [1, 1, 1, 1]])
    let p := match Config.vdatLayout with | .interleaved => s.vdd.cp + 1 | .split => s.vdd.dp
    ready .vdd s ∧ bindingsOk s ∧ stripOk s.vdd ∧ s.vdd.src.isSome = true ∧ s.vdd.dst.isSome = true ∧
      (3 : Nat) = (refByte s.mem (refOf s.vdd.src) p).toNat * 256 +
        (refByte s.mem (refOf s.vdd.src) (p + 1)).toNat ∧
      p + 2 * 2 ≤ s.vdd.rend ∧ stripIndex s.vdd ≤ stripRoom s.vdd ∧ 0 < s.vdd.h := by
  unfold ready bindingsOk refOk stripOk
  cases Config.vdatLayout <;> decide +kernel
theorem witness_VdCopies_copy :
    let s := withVdd 0 2 2 0 0 (withBufs [[0xFE, 1, 2, 3, 4], [1, 1, 1, 1]])
    let p := match Config.vdatLayout with | .interleaved => s.vdd.cp + 1 | .split => s.vdd.dp
    ready .vdd s ∧ bindingsOk s ∧ stripOk s.vdd ∧ s.vdd.src.isSome = true ∧ s.vdd.dst.isSome = true ∧
      2 = 256 - (128 + (126 : BitVec 7).toNat) ∧
      p + 0 + 2 * 2 ≤ s.vdd.rend ∧ stripIndex s.vdd + 2 ≤ stripRoom s.vdd ∧ 0 < s.vdd.h ∧
      rangesMeet (refOf s.vdd.src) p s.vdd.rend (refOf s.vdd.dst) s.vdd.dbase
        (s.vdd.dbase + s.vdd.bytesPerLine * s.vdd.h) = false := by
  unfold ready bindingsOk refOk stripOk
  cases Config.vdatLayout <;> decide +kernel
theorem witness_VdCopies_copyx :
    let s := withVdd 0 2 2 0 0 (withBufs [[0, 0, 2, 1, 2, 3, 4], [1, 1, 1, 1]])
    let p := match Config.vdatLayout with | .interleaved => s.vdd.cp + 1 | .split => s.vdd.dp
    ready .vdd s ∧ bindingsOk s ∧ stripOk s.vdd ∧ s.vdd.src.isSome = true ∧ s.vdd.dst.isSome = true ∧
      (2 : Nat) = (refByte s.mem (refOf s.vdd.src) p).toNat * 256 +
        (refByte s.mem (refOf s.vdd.src) (p + 1)).toNat ∧
      p + 2 + 2 * 2 ≤ s.vdd.rend ∧ stripIndex s.vdd + 2 ≤ stripRoom s.vdd ∧ 0 < s.vdd.h ∧
      rangesMeet (refOf s.vdd.src) p s.vdd.rend (refOf s.vdd.dst) s.vdd.dbase
        (s.vdd.dbase + s.vdd.bytesPerLine * s.vdd.h) = false := by
  unfold ready bindingsOk refOk stripOk
  cases Config.vdatLayout <;> decide +kernel
/-- Two buffers, and two ranges of one buffer that touch. -/
theorem witness_VddDecodeExpands :
    2 ≠ 0 ∧ 2 % 2 = 0 ∧ 0 + 8 ≤ (bufAt busy.mem 0).len ∧ 0 + 2 * 2 ≤ (bufAt busy.mem 1).len ∧
      0 ≠ 1 ∧ 4 + 2 * 2 ≤ (bufAt busy.mem 0).len ∧ min (0 + 4) (4 + 2 * 2) ≤ max 0 4 := by
  decide +kernel

theorem witness_CkrViewsReads_views :
    ready .ckr busy ∧ busy.ckr.depth ≠ Config.ckDepth ∧ (refOf busy.ckr.src).len < 1 + 8 ∧
      0 + 8 ≤ (refOf busy.ckr.src).len ∧ busy.ckr.depth ≤ 1 := by
  unfold ready; decide +kernel
theorem witness_CkrViewsReads_deep :
    let s := withCkr (List.replicate 8 ⟨0, 1, 1⟩) (withBufs [[1]])
    ready .ckr s ∧ s.ckr.depth = Config.ckDepth ∧ 1 < s.ckr.depth := by
  unfold ready; decide +kernel
theorem witness_CkrViewsReads :
    ready .ckr busy ∧ (curView busy).pos + 8 ≤ (curView busy).len ∧
      ¬ (curView busy).len < (curView busy).pos + 4 := by
  unfold ready; decide +kernel
theorem witness_CkrViewsReads_past :
    let s := withCkr [⟨0, 3, 3⟩] (withBufs [[1, 2, 3]])
    ready .ckr s ∧ (curView s).len < (curView s).pos + 1 ∧ (curView s).len < (curView s).pos + 8 := by
  unfold ready; decide +kernel
theorem witness_CkrReadchunk :
    let s := withCkr [⟨0, 9, 0⟩] (withBufs [[1, 2, 3, 4, 0, 0, 0, 1, 9]])
    ready .ckr s ∧ (curView s).pos + 8 +
      (refByte s.mem (refOf s.ckr.src) 4 ++ refByte s.mem (refOf s.ckr.src) 5 ++
        refByte s.mem (refOf s.ckr.src) 6 ++ refByte s.mem (refOf s.ckr.src) 7 : U32).toNat ≤
      (curView s).len := by
  unfold ready; decide +kernel
theorem witness_CkrReadchunk_faults :
    let s := withCkr [⟨0, 8, 0⟩] (withBufs [[1, 2, 3, 4, 0, 0, 0, 1, 9]])
    let t := withCkr [⟨0, 8, 1⟩] (withBufs [[1, 2, 3, 4, 0, 0, 0, 1, 9]])
    ready .ckr s ∧ (curView s).pos + 8 ≤ (curView s).len ∧ (curView s).len < 0 + 8 + 1 ∧
      ready .ckr t ∧ (curView t).len < (curView t).pos + 8 := by
  unfold ready; decide +kernel

theorem witness_HamInit :
    3 < Config.npal ∧ (slotAt busy 3).made = true ∧ 2 < 3 ∧ Config.planesMax < 9 ∧
      8 ≤ Config.planesMax ∧ ready .ham busy := by
  unfold ready; decide +kernel
theorem witness_HamCodes :
    ready .ham busy ∧ busy.ham.planes = 8 ∧ 63 < 2 ^ (8 - 2) ∧ busy.ham.lut.count ≤ 63 ∧
      1 < busy.ham.lut.count ∧ (lutAt busy.ham.lut 1).set = true ∧ 1 < 2 ^ 1 ∧ 63 < 2 ^ 6 := by
  unfold ready; decide +kernel
theorem witness_HamCodes_unset :
    let s := withHam 3 0 ⟨2, [(0, ⟨true, 5⟩)]⟩ State.reset
    ready .ham s ∧ s.ham.planes = 3 ∧ 1 < 2 ^ (3 - 2) ∧ 1 < s.ham.lut.count ∧
      (lutAt s.ham.lut 1).set = false := by
  unfold ready; decide +kernel

/-- A reader of 3 planes at the first pixel of plane bytes `a`, `b`, `c`. -/
def ham3 (a b c : Byte) : State :=
  withHam 3 0 ⟨2, [(0, ⟨true, 5⟩)]⟩
    (withBpr ⟨1, 0, 1, 3, 1, 3⟩ .zero (withBufs [[a, b, c]]))

theorem witness_HamRead_planes :
    ready .ham busy ∧ ready .bpr busy ∧ cursorsOk busy ∧
      busy.bpr.geom.planeCount ≠ busy.ham.planes := by
  unfold ready cursorsOk cursorOk geometryFits; decide +kernel
theorem witness_HamRead :
    ready .ham (ham3 0 0x80 0) ∧ ready .bpr (ham3 0 0x80 0) ∧ cursorsOk (ham3 0 0x80 0) ∧
      cacheTrue (ham3 0 0x80 0) ∧
      (ham3 0 0x80 0).bpr.geom.planeCount = (ham3 0 0x80 0).ham.planes ∧
      planeEof (ham3 0 0x80 0).bpr.geom (ham3 0 0x80 0).bpr.cur
        (refOf (ham3 0 0x80 0).bpr.buf).len = false := by
  unfold ready cursorsOk cursorOk geometryFits cacheTrue; decide +kernel
/-- Each selector, and a base code with a set and an unset element and beyond the table. -/
theorem witness_HamRead_codes :
    replyOf .bprRead (ham3 0 0x80 0) = .done (.u8 2) ∧ (decodeHam 3 2).1 = .modb ∧
      (decodeHam 3 4).1 = .modr ∧ (decodeHam 3 6).1 = .modg ∧
      replyOf .bprRead (ham3 0x80 0 1) = .done (.u8 1) ∧ decodeHam 3 1 = (.base, 1) ∧
      1 < (ham3 0x80 0 1).ham.lut.count ∧ (lutAt (ham3 0x80 0 1).ham.lut 1).set = false ∧
      replyOf .bprRead (ham3 0 0 1) = .done (.u8 0) ∧ decodeHam 3 0 = (.base, 0) ∧
      (lutAt (ham3 0 0 1).ham.lut 0).set = true ∧ (lutOf []).count ≤ 0 := by decide +kernel
theorem witness_HamRead_adv :
    let s := ham3 1 1 1
    ready .ham s ∧ ready .bpr s ∧ cacheTrue s ∧ ∀ k < 8, (stepCursorN s.bpr.geom k s.bpr.cur).bit = 0 →
      planeEof s.bpr.geom (stepCursorN s.bpr.geom k s.bpr.cur) (refOf s.bpr.buf).len = false := by
  unfold ready cacheTrue; decide +kernel
/-- A reader of 2 planes whose cache is stale, under a unit of as many. -/
theorem witness_HamRead_refused :
    let s := withHam 2 0 ⟨2, [(0, ⟨true, 5⟩)]⟩ staleReader
    ready .ham s ∧ s.bpr.geom.planeCount = s.ham.planes ∧ exec .bprRead s = .refused .staleCache ∧
      exec (.bprAdv 1) s = .refused .staleCache :=
  ⟨by unfold ready; decide +kernel, by decide +kernel, exec_of_refusalOf (by decide +kernel),
    exec_of_refusalOf (by decide +kernel)⟩
theorem witness_HamRead_advFault :
    exec (.bprAdv 9) (ham3 1 1 1) = .next (after (.bprAdv 9) (ham3 1 1 1)) ∧
      (after (.bprAdv 9) (ham3 1 1 1)).reply = .faulted := ⟨rfl, by decide +kernel⟩
/-- A reader at the end of its buffer faults; after that it stands faulted and refuses. -/
theorem witness_HamRead_copied :
    let s := { ham3 1 1 1 with bpr := { (ham3 1 1 1).bpr with cur := ⟨0, 0, 1, 0⟩ } }
    let t := after .bprRead s
    ready .ham s ∧ s.bpr.geom.planeCount = s.ham.planes ∧ exec .bprRead s = .next t ∧
      t.reply = .faulted ∧ ready .ham t ∧ t.bpr.geom.planeCount = t.ham.planes ∧
      exec .bprRead t = .next (after .bprRead t) ∧ (after .bprRead t).reply = .refused :=
  ⟨by unfold ready; decide +kernel, by decide +kernel, rfl, by decide +kernel,
    by unfold ready; decide +kernel, by decide +kernel, rfl, by decide +kernel⟩

theorem witness_RasterPalettes_load :
    ready .rpa busy ∧ 2 < Config.rastMax ∧ 2 ≤ busy.rpa.count ∧ busy.rpa.count < 3 ∧
      3 < Config.npal ∧ (slotAt busy 3).made = true := by
  unfold ready
  exact ⟨by decide +kernel, by unfold Config.rastMax; omega, by decide +kernel⟩
theorem witness_RasterPalettes_select :
    ready .rpa (withRpa 3 .pxw State.reset) ∧ 0 < (withRpa 3 .pxw State.reset).rpa.count ∧
      (withRpa 3 .pxw State.reset).rpa.height ≤ 3 ∧ 2 < (withRpa 3 .pxw State.reset).rpa.height := by
  unfold ready; decide +kernel
theorem witness_RasterPalettes_none :
    let s := after (.rpaConfig 3 .ham) State.reset
    ready .rpa s ∧ s.rpa.count = 0 := by unfold ready; decide +kernel

/-- Four commands of two bytes each in lines of 2: they fit 8 bytes, and the last leaves 7. -/
theorem witness_PbePackCompletes :
    let src : List Byte := [1, 2, 3, 4, 5, 6]
    let cmds := packList 2 6 src
    0 < 2 ∧ 0 ≠ 1 ∧ bytesOf (withBufs [src]).mem (wholeBuf (withBufs [src]).mem 0) 0 6 = src ∧
      cmds.flatten.length ≤ 9 ∧ 2 < cmds.length ∧ (cmds.take 2).flatten.length ≤ 8 ∧
      8 < (cmds.take (2 + 1)).flatten.length := by decide +kernel
theorem witness_PackThenUnpack :
    0 ≠ 1 ∧ 0 < 3 ∧ 2 * (bufAt (withBufs [[1, 2], [1, 2, 3, 4]]).mem 0).len ≤
      (bufAt (withBufs [[1, 2], [1, 2, 3, 4]]).mem 1).len := by decide +kernel
theorem witness_CkwWrites :
    bindingsOk busy ∧ ready .ckw busy ∧ busy.ckw.pos + 4 ≤ (refOf busy.ckw.dst).len := by
  unfold ready bindingsOk refOk; decide +kernel
theorem witness_CkwWrites_pastEnd :
    let s := withCkw 3 [] (withBufs [[1, 1, 1]])
    bindingsOk s ∧ ready .ckw s ∧ (refOf s.ckw.dst).len < s.ckw.pos + 1 := by
  unfold ready bindingsOk refOk; decide +kernel
theorem witness_CkwChunks_start :
    let s := withCkw 1 [] (withBufs [List.replicate 10 1])
    ready .ckw s ∧ bindingsOk s ∧ s.ckw.sd ≠ Config.ckDepth ∧ s.ckw.sd = 0 ∧
      s.ckw.pos + s.ckw.pos % 2 + 8 ≤ (refOf s.ckw.dst).len ∧ s.ckw.pos % 2 = 1 := by
  unfold ready bindingsOk refOk; decide +kernel
theorem witness_CkwChunks_end :
    let s := withCkw 8 [0, 0, 0, 0, 0, 0, 0, 0] (withBufs [List.replicate 8 1])
    ready .ckw s ∧ bindingsOk s ∧ s.ckw.sd = Config.ckDepth ∧ 0 < s.ckw.sd ∧
      sget 0 s.ckw.start (s.ckw.sd - 1) + 8 ≤ (refOf s.ckw.dst).len ∧
      sget 0 s.ckw.start (s.ckw.sd - 1) + 8 ≤ s.ckw.pos ∧
      s.ckw.pos - sget 0 s.ckw.start (s.ckw.sd - 1) - 8 < 2 ^ 32 := by
  unfold ready bindingsOk refOk; decide +kernel
/-- No room for START's length, and none for END's. -/
theorem witness_CkwChunks_pastEnd :
    let s := withCkw 1 [0] (withBufs [List.replicate 9 1])
    let t := withCkw 9 [4] (withBufs [List.replicate 9 1])
    ready .ckw s ∧ bindingsOk s ∧ s.ckw.sd ≠ Config.ckDepth ∧
      (refOf s.ckw.dst).len < s.ckw.pos + s.ckw.pos % 2 + 8 ∧ ready .ckw t ∧ bindingsOk t ∧
      0 < t.ckw.sd ∧ (refOf t.ckw.dst).len < sget 0 t.ckw.start (t.ckw.sd - 1) + 8 := by
  unfold ready bindingsOk refOk; decide +kernel

theorem witness_SeqChecks_codec :
    Config.planesMax < 9 ∧ 0 < 8 ∧ 8 ≤ Config.planesMax ∧ (bufAt busy.mem 0).len < 4 * 3 * 1 ∧
      17 % 16 ≠ 0 ∧ 16 % 16 = 0 ∧ (bufAt busy.mem 1).len < 16 / 8 * 1 * 3 ∧
      16 / 8 * 1 * 2 ≤ (bufAt busy.mem 1).len ∧ (bufAt busy.mem 0).len < 4 * 16 * 1 := by
  decide +kernel
/-- The plane count omitted: one plane for slot 3's two colours, and slot 2 holds no palette. -/
theorem witness_SeqChecks_omitted :
    ready .pal busy ∧ 3 < Config.npal ∧ (slotAt busy 3).made = true ∧
      1 = planesFor (slotAt busy 3).count ∧
      exec (.palPlanes 2) busy = .next (after (.palPlanes 2) busy) ∧
      replyOf (.palPlanes 2) busy = .faulted :=
  ⟨by unfold ready; decide +kernel, by decide, by decide +kernel, by decide +kernel, rfl,
    by decide +kernel⟩
/-- A compression code that is none of the three. -/
def noCompression : Byte := if Config.codes.compStrip = 2 then 3 else 2

/-- SEQ in ASSEMBLE with these header and body registers and mode. -/
def assembling (h : Hdr) (body : BodyDesc) (mode : U32) (s : State) : State :=
  { s with seq := { s.seq with state := .assemble, hdr := h, body := body, mode := mode } }

/-- The header of a `w` times `h` image of `p` planes. -/
def hdr (w h : U16) (p compression : Byte) : Hdr :=
  { Hdr.reset with width := w, height := h, planes := p, compression := compression
                   bytesPerLine := (w.toNat + 15) / 16 * 2, valid := true }

theorem witness_SeqChecks_assemble :
    let s := assembling (hdr 1 1 1 noCompression) ⟨true, 0, 0, .line⟩ 0 State.reset
    ready .seq State.reset ∧ State.reset.seq.state ≠ .assemble ∧ ready .seq s ∧
      s.seq.state = .assemble ∧ s.seq.hdr.compression ∉ [0, 1, Config.codes.compStrip] := by
  refine ⟨by unfold ready; decide, by decide, by unfold ready; decide, rfl, ?_⟩
  show (if Config.codes.compStrip = 2 then 3 else 2 : Byte) ∉ _
  split
  · rename_i h
    rw [h]
    decide
  · rename_i h
    simpa using fun e => h e.symm
theorem witness_SeqChecks_sizes :
    let s := assembling (hdr 1 1 1 1) ⟨true, 0, 0, .line⟩ 0 (withBufs [[], [7, 7, 7], [7, 7, 7, 7], [7]])
    ready .seq s ∧ s.seq.state = .assemble ∧
      s.seq.hdr.compression ∈ [0, 1, Config.codes.compStrip] ∧
      (bufAt s.mem 1).len < 4 * 1 * 1 ∧ 4 * 1 * 1 ≤ (bufAt s.mem 2).len ∧
      s.seq.hdr.compression ≠ 0 ∧ (bufAt s.mem 3).len < s.seq.hdr.bytesPerLine * 1 * 1 :=
  ⟨by unfold ready; decide, rfl, by simp [assembling, hdr], by decide +kernel, by decide +kernel,
    by decide, by decide +kernel⟩

/-- What buffer 0 of `withBufs` holds. -/
theorem bytesOf_withBufs (bs : List Byte) (rest : List (List Byte)) :
    bytesOf (withBufs (bs :: rest)).mem (wholeBuf (withBufs (bs :: rest)).mem 0) 0
      (bufAt (withBufs (bs :: rest)).mem 0).len = bs := by
  refine bytesOf_sofFrom ?_
  simp [bufAt, withBufs, sget_sofFrom, bufOf]

/-- A word that is no sub-type. -/
def noType : U32 :=
  if Config.codes.typeLine ≠ 0 ∧ Config.codes.typeContig ≠ 0 then 0
  else if Config.codes.typeLine ≠ 1 ∧ Config.codes.typeContig ≠ 1 then 1
  else 2

/-- Containers that end too early, by their bytes: in the outer header, in the outer payload, in the
sub-type. -/
theorem witness_SeqBadContainers_short :
    let k := Config.codes
    ([1, 2, 3, 4, 0, 0, 0] : List Byte).length < 8 ∧ 5 < 2 ^ 32 ∧ ([1, 2, 3, 4] : List Byte).length < 5 ∧
      chunkBytes k.outer [1, 2, 3] ++ [] = beBytes 4 k.outer.toNat ++ beBytes 4 3 ++ [1, 2, 3] ∧
      ([1, 2, 3] : List Byte).length < 4 := by
  simp [chunkBytes]
/-- Another outer tag, and another sub-type. -/
theorem witness_SeqBadContainers_words :
    Config.codes.outer + 1 ≠ Config.codes.outer ∧ noType ≠ Config.codes.typeLine ∧
      noType ≠ Config.codes.typeContig := by
  refine ⟨by simp, ?_⟩
  unfold noType
  split
  · rename_i h; exact ⟨h.1.symm, h.2.symm⟩
  · split
    · rename_i h; exact ⟨h.1.symm, h.2.symm⟩
    · rename_i h1 h2
      rcases not_and_or.mp h1 with a | a <;> rcases not_and_or.mp h2 with b | b <;>
        rw [not_not] at a b <;> simp_all
/-- A bad chunk after the sub-type: a header chunk without a payload. -/
theorem witness_SeqBadContainers_chunk :
    let k := Config.codes
    let chunks := [(k.hdr, ([] : List Byte))]
    let s := withBufs [containerBytes k k.typeLine chunks [9] ++ [8]]
    bytesOf s.mem (wholeBuf s.mem 0) 0 (bufAt s.mem 0).len =
        containerBytes k k.typeLine chunks [9] ++ [8] ∧
      12 + (chunks.flatMap paddedChunk).length + 1 < 2 ^ 32 ∧
      noteChunks k 12 chunks (scanStart s.seq) = .error (.badHeader, 0) :=
  ⟨bytesOf_withBufs _ _, by simp, by simp [noteChunks, chunkFault]⟩
/-- No chunk, and then one byte, half a chunk, or nothing: no body, no palette, no header. -/
theorem witness_SeqBadContainers_rest :
    let k := Config.codes
    let q := scanStart Seq.reset
    noteChunks k 12 [] q = .ok q ∧ 0 < [(9 : Byte)].length ∧ [(9 : Byte)].length < 8 ∧
      ([7] : List Byte).length < 2 ∧ incomplete q = some (.noBody, 0) ∧
      incomplete (noteChunk k 12 (k.bodyLine, []) q) = some (.noPalette, 0) ∧
      incomplete (noteChunk k 12 (k.pal, []) (noteChunk k 12 (k.bodyContig, []) q)) =
        some (.noHeader, 0) := by
  refine ⟨rfl, by decide, by decide, by decide, rfl, ?_, ?_⟩ <;> simp <;> rfl

theorem witness_SeqDecodeComputesImage :
    let s := twoColours (withBufs [[0xAA], List.replicate 32 1])
    memoryOk s ∧ 0 < 8 ∧ 0 < 1 ∧ 1 ≤ Config.planesMax ∧ 0 ≠ 1 ∧ 4 * 8 * 1 ≤ (bufAt s.mem 1).len ∧
      3 < Config.npal ∧ (slotAt s 3).made = true ∧ setBelow (slotAt s 3) (2 ^ 1) ∧
      presetLineBytes .line 8 * 1 * 1 ≤ (bufAt s.mem 0).len := by
  unfold memoryOk setBelow; decide +kernel
/-- The index of pixel (0, 0) of that image is 1. -/
theorem witness_SeqDecodeComputesImage_index :
    let s := twoColours (withBufs [[0xAA], List.replicate 32 1])
    0 < 8 ∧ 0 < 1 ∧ 1 < 2 ^ 1 ∧ ∀ i < 1, (1 : Nat).testBit i =
      (byteAt s.mem 0 (planeOffset (presetGeometry .line 8 1 1)
        (stepCursorN (presetGeometry .line 8 1 1) (0 * (8 * presetLineBytes .line 8) + 0)
          Cursor.zero) i)).getLsbD (7 - 0 % 8) := by decide +kernel
/-- Two lines of 8 pixels, but one byte: the fetch of pixel 8 is the first to leave the buffer. -/
theorem witness_SeqDecodeComputesImage_short :
    let s := twoColours (withBufs [[0xAA], List.replicate 64 1])
    let g := presetGeometry .line 8 2 1
    memoryOk s ∧ 4 * 8 * 2 ≤ (bufAt s.mem 1).len ∧ setBelow (slotAt s 3) (2 ^ 1) ∧
      8 < 8 * presetLineBytes .line 8 * 2 ∧
      (∀ j < 8, planeEof g (stepCursorN g j Cursor.zero) (bufAt s.mem 0).len = false) ∧
      (bufAt s.mem 0).len ≤ planeOffset g (stepCursorN g 8 Cursor.zero) 0 := by
  unfold memoryOk setBelow; decide +kernel
/-- A buffer of 16 black pixels, and one for two plane bytes. -/
def sixteenBlack : State :=
  twoColours (withBufs [(List.replicate 16 [0, 0, 0, 255]).flatten, [7, 7], List.replicate 66 7])
theorem witness_SeqEncodeCompletes :
    memoryOk sixteenBlack ∧ 0 < 16 ∧ 16 % 16 = 0 ∧ 1 ≤ Config.planesMax ∧ 1 ≠ 0 ∧ 3 < Config.npal ∧
      (slotAt sixteenBlack 3).made = true ∧
      1 = planesFor (slotAt sixteenBlack 3).count ∧ ready .pal sixteenBlack ∧
      16 / 8 * 1 * 1 ≤ (bufAt sixteenBlack.mem 1).len ∧ 4 * 16 * 1 ≤ (bufAt sixteenBlack.mem 0).len ∧
      ∀ k < 16 * 1, ∃ j < 2 ^ 1, j < (viewOf (slotAt sixteenBlack 3)).count ∧
        (lutAt (viewOf (slotAt sixteenBlack 3)) j).set = true ∧
        (lutAt (viewOf (slotAt sixteenBlack 3)) j).val.toNat =
          beRead sixteenBlack.mem (wholeBuf sixteenBlack.mem 0) (4 * k) 4 := by
  unfold ready memoryOk; decide +kernel
/-- Black is index 1, and white, index 0, is not black. -/
theorem witness_SeqEncodeCompletes_least :
    let lut := viewOf (slotAt sixteenBlack 3)
    (lutAt lut 1).val.toNat = beRead sixteenBlack.mem (wholeBuf sixteenBlack.mem 0) (4 * 15) 4 ∧
      (lutAt lut 0).val.toNat ≠ beRead sixteenBlack.mem (wholeBuf sixteenBlack.mem 0) (4 * 15) 4 ∧
      15 < 16 ∧ 0 < 1 := by decide +kernel
/-- Sixteen black pixels over a palette without black, and over one where black needs two bits. -/
theorem witness_SeqEncodeCompletes_faults :
    let s := withPal 3 8 [(255, 255, 255, 255)] sixteenBlack
    let t := withPal 3 8 [(1, 1, 1, 1), (2, 2, 2, 2), (0, 0, 0, 255)] sixteenBlack
    let v := beRead sixteenBlack.mem (wholeBuf sixteenBlack.mem 0) (4 * 0) 4
    memoryOk s ∧ memoryOk t ∧ (slotAt s 3).made = true ∧ (slotAt t 3).made = true ∧ 0 < 16 * 1 ∧
      (∀ j < (viewOf (slotAt s 3)).count, (lutAt (viewOf (slotAt s 3)) j).val.toNat ≠ v) ∧
      2 ^ 1 ≤ 2 ∧ 2 < (viewOf (slotAt t 3)).count ∧ (lutAt (viewOf (slotAt t 3)) 2).set = true ∧
      (lutAt (viewOf (slotAt t 3)) 2).val.toNat = v ∧
      ∀ j < 2, (lutAt (viewOf (slotAt t 3)) j).val.toNat ≠ v := by
  unfold memoryOk; decide +kernel
/-- Besides what `witness_SeqEncodeCompletes` meets: the decoded image may go back over the first. -/
theorem witness_SeqCodecRoundTrip :
    1 ≠ 0 ∧ 1 ≠ 2 ∧ 4 * 16 * 1 ≤ (bufAt sixteenBlack.mem 2).len ∧
      4 * 16 * 1 ≤ (bufAt sixteenBlack.mem 0).len := by decide +kernel

/-- Chunks in an unusual order: body, an unknown chunk of odd length, a first palette, a raster chunk,
mode, header, the palette. -/
def someChunks (k : Config.Codes) (other : U32) : List (U32 × List Byte) :=
  [(k.bodyContig, [0xAA, 0x00]), (other, [1, 2, 3]), (k.pal, [1]), (k.rast2, []), (k.mode, [0, 0, 0, 4]),
    (k.hdr, header 1), (k.pal, blackWhite)]

theorem witness_SeqScanCompletes :
    let k := Config.codes
    let chunks := someChunks k k.rast1
    let q := { scanStart Seq.reset with
      body := ⟨true, 20, 2, .contig⟩, palPresent := true, mode := 4, hdr := hdrOf (header 1)
      rdesc1 := ⟨true, k.rast1, 30, 3⟩, rdesc2 := ⟨true, k.rast2, 52, 0⟩ }
    let s := withBufs [containerBytes k k.typeContig chunks [] ++ [1, 2]]
    12 + (chunks.flatMap paddedChunk).length < 2 ^ 32 ∧
      bytesOf s.mem (wholeBuf s.mem 0) 0 (bufAt s.mem 0).len =
        containerBytes k k.typeContig chunks [] ++ [1, 2] ∧
      noteChunks k 12 chunks (scanStart s.seq) = .ok q ∧ incomplete q = none := by
  refine ⟨by simp [someChunks, header, blackWhite], bytesOf_withBufs _ _, ?_, rfl⟩
  have h := chunkTags_ne
  simp only [List.pairwise_cons, List.mem_cons, forall_eq_or_imp] at h
  simp [someChunks, noteChunks, chunkFault, h]
  rfl
/-- A chunk of a word that no rule names is skipped. -/
theorem witness_SeqScanCompletes_unknown :
    (0x12345678 : U32) ∉ [dk.hdr, dk.mode, dk.pal, dk.bodyLine, dk.bodyContig, dk.rast1, dk.rast2,
      dk.rast3] ∧ noteChunk dk 12 (0x12345678, [1]) Seq.reset = Seq.reset := by decide

/-- An image of one line, 16 pixels, one plane, whose body is `body` at offset 1 of buffer 0. -/
def oneLine (compression : Byte) (mode : U32) (p : Byte) (body : List Byte) : State :=
  assembling (hdr 16 1 p compression) ⟨true, 1, body.length, .contig⟩ mode
    (twoColours (withBufs [9 :: body, List.replicate 16 7, List.replicate 64 7]))

/-- The other sequences that end their units' bindings. -/
theorem witness_DeadBindings_sequences :
    replyOf (.seqAssemble 0 1 2) (oneLine 0 0 1 [0x80, 0]) = .done .unit ∧
      replyOf (.seqEncode 0 3 16 1 none .line 1) sixteenBlack = .done .unit ∧
      replyOf (.seqEncodec 0 3 { zeroOptions with width := 16, height := 1, workBuf := 1 } 2)
        sixteenBlack = .done (.nat 64) := by decide +kernel
theorem witness_SeqAssembleRawImage :
    let s := oneLine 0 0 1 [0x80, 0]
    ready .seq s ∧ s.seq.state = .assemble ∧ s.seq.hdr.compression = 0 ∧
      modeEhb s.seq.mode = false ∧ modeHam s.seq.mode = false ∧ rasterPresent s.rpa = false ∧
      s.seq.hdr.bytesPerLine = (s.seq.hdr.width.toNat + 15) / 16 * 2 ∧
      s.seq.body.base + s.seq.body.len ≤ (bufAt s.mem 0).len ∧
      s.seq.hdr.bytesPerLine * s.seq.hdr.planes.toNat * s.seq.hdr.height.toNat ≤ s.seq.body.len ∧
      4 * s.seq.hdr.width.toNat * s.seq.hdr.height.toNat ≤ (bufAt s.mem 2).len ∧
      (slotAt s 0).made = true ∧ setBelow (slotAt s 0) (2 ^ s.seq.hdr.planes.toNat) := by
  unfold ready setBelow; decide +kernel
/-- Generic RLE: a run of two bytes, and a body that ends after its control byte. -/
theorem witness_SeqAssembleBodies_rle :
    let s := oneLine 1 0 1 [0xFF, 0xAA]
    memoryOk s ∧ ready .seq s ∧ s.seq.state = .assemble ∧ s.seq.hdr.compression = 1 ∧
      modeEhb s.seq.mode = false ∧ modeHam s.seq.mode = false ∧ rasterPresent s.rpa = false ∧
      s.seq.hdr.bytesPerLine = (16 + 15) / 16 * 2 ∧ 1 + 2 ≤ (bufAt s.mem 0).len ∧ 1 ≠ 0 ∧ 1 ≠ 2 ∧
      4 * 16 * 1 ≤ (bufAt s.mem 2).len ∧ 2 * 1 * 1 ≤ (bufAt s.mem 1).len ∧
      (slotAt s 0).made = true ∧ setBelow (slotAt s 0) (2 ^ 1) ∧
      unpackList 2 (bytesOf s.mem (wholeBuf s.mem 0) 1 2) 2 = some ([0xAA, 0xAA], []) ∧
      unpackList 1 [0xFF] 2 = none := by
  unfold memoryOk ready setBelow; decide +kernel
/-- Strip RLE, two planes: two strips of one run each and a chunk between them; a body of one strip. -/
theorem witness_SeqAssembleBodies_strip :
    let k := Config.codes
    let strip : U32 × List Byte := (k.strip, [2, 0xAA, 0xBB])
    let chunks := [strip, (k.strip + 1, [5]), strip]
    let body := chunks.flatMap paddedChunk
    let s := withCkr [⟨0, 39, 39⟩] (oneLine k.compStrip 0 2 body)
    s.seq.hdr.compression = k.compStrip ∧ ready .ckr s ∧ s.ckr.src = some (wholeBuf s.mem 0) ∧
      s.ckr.depth ≠ Config.ckDepth ∧
      bytesOf s.mem (wholeBuf s.mem 0) 1 s.seq.body.len = body ∧
      2 ≤ (stripPayloads k chunks).length ∧ (stripPayloads k [strip]).length < 2 := by
  refine ⟨rfl, by unfold ready; decide, rfl, by decide, ?_, by simp [stripPayloads],
    by simp [stripPayloads]⟩
  have h := bytesOf_withBufs (9 :: ([(Config.codes.strip, [2, 0xAA, 0xBB]),
    (Config.codes.strip + 1, [5]), (Config.codes.strip, [2, 0xAA, 0xBB])].flatMap paddedChunk))
      [List.replicate 16 7, List.replicate 64 7]
  refine List.ext_getElem (by simp [oneLine, assembling, withCkr]) fun i hi hb => ?_
  have e := congrArg (fun l => l.getD (i + 1) 0) h
  simp only [List.getD_cons_succ] at e
  rw [List.getD_eq_getElem _ _ hb] at e
  rw [← e, List.getD_eq_getElem _ _ (by
    have hi' : i < 34 := by simpa using hb
    simp [bufAt, withBufs, sget_sofFrom, bufOf]
    omega)]
  simp [bytesOf, refByte, wholeBuf, oneLine, assembling, withCkr, twoColours, withPal, setSlot,
    Nat.add_comm]
theorem witness_SeqAssembleDispatch_fault :
    let s := oneLine 0 0x80 1 [0x80, 0]
    ready .seq s ∧ s.seq.state = .assemble ∧ modeEhb s.seq.mode = true ∧
      exec (.palEhb 1 0) s = .next (after (.palEhb 1 0) s) ∧ replyOf (.palEhb 1 0) s = .faulted ∧
      s.seq.hdr.bytesPerLine = (16 + 15) / 16 * 2 ∧ 1 + 2 ≤ (bufAt s.mem 0).len ∧
      4 * 16 * 1 ≤ (bufAt s.mem 2).len :=
  ⟨by unfold ready; decide, rfl, by decide, rfl, by decide +kernel, by decide, by decide +kernel,
    by decide +kernel⟩
/-- Plain, and Hold-and-Modify with too few planes. -/
theorem witness_SeqAssembleDispatch_plain :
    let s := oneLine 0 0 1 [0x80, 0]
    modeEhb s.seq.mode = false ∧ modeHam s.seq.mode = false ∧ (slotAt s 0).made = true ∧
      (∀ xx < 16, ∀ yy < 1, lutHas (viewOf (slotAt s 0))
        (indexAt s.mem ⟨0, 1, 2⟩ (containerGeometry .contig 2 1 1) 2 xx yy 1)) ∧
      modeHam 0x800 = true ∧ 1 < 3 := by
  unfold lutHas; decide +kernel
/-- Extra-Half-Brite over 32 set entries. -/
theorem witness_SeqAssembleDispatch_ehb :
    let s := withPal 0 8 (List.replicate 32 (255, 128, 1, 255)) (oneLine 0 0x80 1 [0x80, 0])
    modeEhb s.seq.mode = true ∧ modeHam s.seq.mode = false ∧ ready .pal s ∧
      (slotAt s 0).made = true ∧ setBelow (slotAt s 0) 32 ∧
      ∀ xx < 16, ∀ yy < 1, lutHas (viewOf (ehbPalette (slotAt s 0)))
        (indexAt s.mem ⟨0, 1, 2⟩ (containerGeometry .contig 2 1 1) 2 xx yy 1) := by
  unfold ready setBelow lutHas; decide +kernel
/-- Hold-and-Modify with raster palettes: a base code, then blue codes. -/
theorem witness_SeqAssembleDispatch_hamRaster :
    let s := withRpa 9 .none (oneLine 0 0x800 3 [0x80, 0, 0x7F, 0xFF, 0, 0])
    modeEhb s.seq.mode = false ∧ modeHam s.seq.mode = true ∧ rasterPresent s.rpa = true ∧
      s.rpa.fault.valid = false ∧ (slotAt s 0).made = true ∧ 3 ≤ 3 ∧
      ∀ xx < 16, ∀ yy < 1, indexAt s.mem ⟨0, 1, 6⟩ (containerGeometry .contig 2 1 3) 2 xx yy 3 <
          2 ^ (3 - 2) → lutHas (sget Lut.empty s.rpa.ras 0)
        (indexAt s.mem ⟨0, 1, 6⟩ (containerGeometry .contig 2 1 3) 2 xx yy 3) := by
  unfold lutHas; decide +kernel
/-- The container of one line: what the scan notes, and the sizes. -/
theorem witness_SeqDecodecCompletes :
    let k := Config.codes
    let chunks := [(k.hdr, header 1), (k.pal, blackWhite), (k.bodyLine, [0xAA, 0x00])]
    let s := withBufs [container k ++ [], [1], List.replicate 64 7]
    let q := { scanStart Seq.reset with
      body := ⟨true, 62, 2, .line⟩, palPresent := true, hdr := hdrOf (header 1) }
    12 + (chunks.flatMap paddedChunk).length < 2 ^ 32 ∧
      bytesOf s.mem (wholeBuf s.mem 0) 0 (bufAt s.mem 0).len =
        containerBytes k k.typeLine chunks [] ++ [] ∧
      noteChunks k 12 chunks (scanStart s.seq) = .ok q ∧ incomplete q = none ∧
      q.hdr.compression = 0 ∧ modeEhb q.mode = false ∧ modeHam q.mode = false ∧
      rasterPresent s.rpa = false ∧
      q.hdr.bytesPerLine * q.hdr.planes.toNat * q.hdr.height.toNat ≤ q.body.len ∧ 0 ≠ 2 ∧
      4 * q.hdr.width.toNat * q.hdr.height.toNat ≤ (bufAt s.mem 2).len ∧
      2 ^ q.hdr.planes.toNat ≤ (lastPalette k chunks).length / 3 := by
  have h := chunkTags_ne
  simp only [List.pairwise_cons, List.mem_cons, forall_eq_or_imp] at h
  refine ⟨by simp [header, blackWhite], bytesOf_withBufs _ _, ?_, rfl, rfl, rfl, rfl, rfl,
    by decide +kernel, by decide, ?_, ?_⟩
  · simp [noteChunks, chunkFault, h]
    rfl
  · simp [bufAt, withBufs, sget_sofFrom, bufOf]
    decide +kernel
  · have h' := chunkTags_nodup
    simp only [List.nodup_cons, List.mem_cons, not_or] at h'
    simp [lastPalette, h, h', List.filter, blackWhite, beq_false_of_ne]
    decide +kernel
theorem witness_SeqEncodecCompletes :
    let o := { zeroOptions with width := 16, height := 1, workBuf := 1 }
    let s := sixteenBlack
    memoryOk s ∧ o.compress = false ∧ o.workBuf ≠ 0 ∧ o.workBuf ≠ 2 ∧ ready .pal s ∧ palettesOk s ∧
      (slotAt s 3).made = true ∧ setBelow (slotAt s 3) (slotAt s 3).count ∧
      (o.planes = none ∧ 1 = planesFor (slotAt s 3).count) ∧
      16 / 8 * 1 * 1 ≤ (bufAt s.mem o.workBuf).len ∧ 4 * 16 * 1 ≤ (bufAt s.mem 0).len ∧
      56 + 0 + 3 * 2 + 3 * 2 % 2 + 2 ≤ (bufAt s.mem 2).len := by
  unfold memoryOk ready palettesOk slotOk entryOk setBelow; decide +kernel
/-- With `compress`, the pack buffer may be the pixel buffer. -/
theorem witness_SeqEncodecCompletes_compress :
    let o := { zeroOptions with width := 16, height := 1, workBuf := 1, packBuf := 0, compress := true }
    o.packBuf ≠ o.workBuf ∧ o.packBuf ≠ 2 ∧
      1 * 1 * (16 / 8 + (16 / 8 + 127) / 128) ≤ (bufAt sixteenBlack.mem o.packBuf).len ∧
      56 + 0 + 3 * 2 + 3 * 2 % 2 + 1 * 1 * (16 / 8 + (16 / 8 + 127) / 128) ≤
        (bufAt sixteenBlack.mem 2).len := by decide +kernel

end Sys2Proof.Tests
end

section
/-! The step taken apart, and the two obligations about it: what a step does with the oldest request
(O4), and that no step breaks the form of the host's buffers or leaves a binding outside its buffer
(O9). -/

namespace Sys2Proof.Machine

variable {s t : State} {pk : Packet} {rest : List Packet} {i : Instr} {code : Byte}

/-! ### The decoder outside the table of R120 -/

theorem decode_badOp (h : code.toNat ∉ hopCodes) (ops : List Operand) :
    decode (.hop code ops) = .error (.badOp code) := by
  simp only [hopCodes, List.mem_cons, List.not_mem_nil, or_false, not_or] at h
  simp [decode, decodeHop, h]

/-! ### One step, by the oldest request -/

theorem step_idle (h : s.pending = []) : step s = .next s := by
  simp [step, servePort, h]

theorem step_request (h : s.pending = pk :: rest) :
    step s = runPacket pk { s with pending := rest } := by
  simp [step, servePort, h]

theorem runPacket_ok (h : decode pk = .ok i) (s : State) : runPacket pk s = exec i s := by
  simp [runPacket, h]

theorem runPacket_badOp (h : decode pk = .error (.badOp code)) (s : State) :
    runPacket pk s = .next { s with reply := .badOp code } := by
  simp [runPacket, h]

/-! ### The host's buffers and the bindings under an elementary update -/

/-- A byte write is the only elementary update of the memory. -/
theorem Micro.keeps_memoryOk (h : Micro s t) (hs : memoryOk s) : memoryOk t := by
  unfold memoryOk at hs ⊢
  cases h with
  | mem m hw => exact hw.wf hs
  | fault u f => rwa [withFault_mem]
  | unbind u => rwa [unbind_mem]
  | rpaSelect i => cases s.rpa.consumer <;> exact hs
  | _ => exact hs

/-- What the units' buffer registers hold: every binding that `bindingsOk` speaks of. -/
def bindings (s : State) : List (Option BufRef) :=
  [s.bpr.buf, s.bpw.buf, s.pxr.buf, s.pxw.buf, s.pbd.src, s.pbd.dst, s.vdd.src, s.vdd.dst, s.ckr.src,
    s.ckw.dst]

theorem bindingsOk_iff (s : State) :
    bindingsOk s ↔ ∀ b ∈ bindings s, refOk s.mem (refOf b) := by
  simp [bindingsOk, bindings]

/-- The end of a pass makes no binding (R422). -/
theorem mem_bindings_unbind {b : Option BufRef} (u : UnitId) (hb : b ∈ bindings (unbind u s)) :
    b ∈ bindings s ∨ b = none := by
  revert b
  cases u <;> simp [bindings, unbind]

/-- A binding after an elementary update is one from before, or inside its buffer: it has just been
ended, or made by an INIT or a decoder's start from a window inside its buffer (R25). -/
theorem Micro.bindings_cases (h : Micro s t) :
    ∀ b ∈ bindings t, b ∈ bindings s ∨ refOk s.mem (refOf b) := by
  have kept : ∀ b ∈ bindings s, b ∈ bindings s ∨ refOk s.mem (refOf b) := fun _ => .inl
  cases h with
  | fault u f => cases u <;> exact kept
  | unbind u =>
    intro b hb
    rcases mem_bindings_unbind u hb with hb | rfl
    · exact .inl hb
    · exact .inr (refOk_none s.mem)
  | reset => simp [bindings, resetUnits, State.reset, PixUnit.reset, refOk_none]
  | bprInit r g _ hr | bpwInit r g _ hr => simp [bindings, refOf, hr]
  | pxrInit r slot hr _ | pxwInit r slot hr _ => simp [bindings, refOf, hr]
  | pbdStart src dst _ _ _ hsrc hdst _ => simp [bindings, refOf, hsrc, hdst]
  | vddStart src dst _ _ _ _ _ _ _ hsrc hdst _ _ _ _ => simp [bindings, refOf, hsrc, hdst]
  | ckrOpen r hr | ckwInit r hr => simp [bindings, refOf, hr]
  | rpaSelect i => cases s.rpa.consumer <;> exact kept
  | _ => exact kept

theorem Micro.keeps_bindingsOk (h : Micro s t) (hs : bindingsOk s) : bindingsOk t := by
  rw [bindingsOk_iff] at hs ⊢
  intro b hb
  have before : refOk s.mem (refOf b) := (h.bindings_cases b hb).elim (hs b) id
  exact h.reach.refOk before

/-! ### The host's buffers and the bindings under a step -/

theorem step_memoryOk (hs : memoryOk s) (h : step s = .next t) : memoryOk t :=
  step_keeps (fun _ _ hs => hs) (fun _ _ hs => hs) (fun _ _ hm => hm.keeps_memoryOk) h hs

theorem step_bindingsOk (hs : bindingsOk s) (h : step s = .next t) : bindingsOk t :=
  step_keeps (fun _ _ hs => hs) (fun _ _ hs => hs) (fun _ _ hm => hm.keeps_bindingsOk) h hs

theorem step_len_eq (h : step s = .next t) (id : Nat) :
    (bufAt t.mem id).len = (bufAt s.mem id).len := by
  obtain ⟨pending, u, reply, hu, rfl⟩ := step_reach h
  exact hu.len_eq id

end Sys2Proof.Machine

namespace Sys2Proof.Proofs

open Sys2Proof.Machine

/-- Settles O9: every elementary update keeps the three, so every step does, being a chain of them. -/
theorem memoryStaysCanonical : Obligations.MemoryStaysCanonical :=
  ⟨fun _ _ => step_memoryOk, fun _ _ id h => step_len_eq h id, fun _ _ => step_bindingsOk⟩

/-- Settles O4: a step is the run of the oldest request's packet, by what the packet decodes to. -/
theorem stepRunsDecoded : Obligations.StepRunsDecoded := by
  refine ⟨fun s pk rest i hp hd => ?_, fun s => step_idle, fun s code ops rest hc hp => ?_⟩
  · rw [step_request hp, runPacket_ok hd]
  · rw [step_request hp, runPacket_badOp (decode_badOp hc ops)]

end Sys2Proof.Proofs
end

section
/-! Palette slots, look-up tables and raster palettes (R20 to R22, R28, R33): each kind of slot that an
operation stores is legal, every table taken from a legal slot is legal, and so every elementary update
of the state, and with it every step, keeps both (O10). -/

namespace Sys2Proof.Machine

variable {s t : State} {p : Slot} {e : Entry} {bpc ob nb : Nat}

/-! ### Channels -/

theorem toNat_ofNat_byte_le {n m : Nat} (h : n ≤ m) : (BitVec.ofNat 8 n).toNat ≤ m := by
  rw [BitVec.toNat_ofNat]
  exact (Nat.mod_le _ _).trans h

theorem byte_le_chanMax_eight (v : Byte) : v.toNat ≤ chanMax 8 := by
  have := v.isLt
  unfold chanMax
  omega

theorem clampChannel_le (m : Nat) (v : U32) : clampChannel m v ≤ m := by
  unfold clampChannel
  split_ifs <;> omega

/-- A rescaled channel fits its new depth (R144). -/
theorem rescale_le {v : Nat} (hob : Config.bpcMin ≤ ob) (hv : v ≤ chanMax ob) :
    rescale v ob nb ≤ chanMax nb := by
  have hpos : 0 < chanMax ob := by
    have : 2 ^ 1 ≤ 2 ^ ob := Nat.pow_le_pow_right (by omega) hob
    unfold chanMax
    omega
  have hmul : v * chanMax nb ≤ chanMax ob * chanMax nb := Nat.mul_le_mul_right _ hv
  unfold rescale
  rw [← Nat.lt_succ_iff, Nat.div_lt_iff_lt_mul (by omega)]
  calc 2 * v * chanMax nb + chanMax ob
      ≤ 2 * (chanMax ob * chanMax nb) + chanMax ob := by rw [Nat.mul_assoc]; omega
    _ < 2 * (chanMax ob * chanMax nb) + 2 * chanMax ob := by omega
    _ = (chanMax nb + 1) * (2 * chanMax ob) := by ring

theorem rescaleByte_le {v : Byte} (hob : Config.bpcMin ≤ ob) (hv : v.toNat ≤ chanMax ob) :
    (rescaleByte v ob nb).toNat ≤ chanMax nb := toNat_ofNat_byte_le (rescale_le hob hv)

theorem channelOf_le (v : U32) (k : Nat) : (channelOf v k bpc).toNat ≤ chanMax bpc := by
  have := Nat.mod_lt (v.toNat / 2 ^ k) (Nat.two_pow_pos bpc)
  exact toNat_ofNat_byte_le (by unfold chanMax; omega)

/-! ### Entries -/

/-- At eight bits per channel every set entry is legal. -/
theorem entryOk_eight : entryOk 8 e ↔ e.set = true := by
  simp [entryOk, byte_le_chanMax_eight]

theorem clampedEntry_ok (bpc : Nat) (r g b : U32) (a : Option U32) :
    entryOk bpc (clampedEntry bpc r g b a) := by
  have channel (v : U32) : (BitVec.ofNat 8 (clampChannel (chanMax bpc) v)).toNat ≤ chanMax bpc :=
    toNat_ofNat_byte_le (clampChannel_le _ v)
  refine ⟨rfl, channel r, channel g, channel b, ?_⟩
  cases a with
  | none => exact toNat_ofNat_byte_le le_rfl
  | some v => exact channel v

theorem unpackEntry_ok (bpc : Nat) (alpha : Bool) (v : U32) : entryOk bpc (unpackEntry bpc alpha v) := by
  cases alpha with
  | true =>
    exact ⟨rfl, channelOf_le v _, channelOf_le v _, channelOf_le v _, channelOf_le v _⟩
  | false =>
    exact ⟨rfl, channelOf_le v _, channelOf_le v _, channelOf_le v _, toNat_ofNat_byte_le le_rfl⟩

theorem rescaleEntry_unset (h : e.set = false) (ob nb : Nat) : rescaleEntry e ob nb = Entry.unset := by
  simp [rescaleEntry, h]

@[simp] theorem rescaleEntry_set (e : Entry) (ob nb : Nat) : (rescaleEntry e ob nb).set = e.set := by
  cases h : e.set <;> simp [rescaleEntry, h, Entry.unset]

/-- A set entry at another depth is legal there (R145). -/
theorem rescaleEntry_ok (hob : Config.bpcMin ≤ ob) (h : entryOk ob e) :
    entryOk nb (rescaleEntry e ob nb) := by
  obtain ⟨hset, hr, hg, hb, ha⟩ := h
  simp only [rescaleEntry, hset, if_true]
  exact ⟨rfl, rescaleByte_le hob hr, rescaleByte_le hob hg, rescaleByte_le hob hb,
    rescaleByte_le hob ha⟩

/-! ### Slots -/

/-- What an entry of a legal slot reads as: nothing, or a legal entry. -/
theorem entryAt_ok (h : slotOk p) (i : Nat) :
    entryAt p i = Entry.unset ∨ entryOk p.bpc (entryAt p i) := by
  obtain ⟨-, -, -, -, -, hent⟩ := h
  by_cases hi : entryAt p i = Entry.unset
  · exact .inl hi
  · exact .inr (hent _ (mem_of_sget_ne hi)).2

/-- A slot is legal if its size and its entries are. -/
theorem slotOk_mk (hc : p.count ≤ Config.palMax) (hm : p.made = true)
    (hw : swf Entry.unset p.ent = true) (he : ∀ e ∈ p.ent, e.1 < p.count ∧ entryOk p.bpc e.2) :
    slotOk p := ⟨hm, hc, p.bpc_legal.1, p.bpc_legal.2, hw, he⟩

theorem slotOk_created {count : Nat} (hc : count ≤ Config.palMax) (b : Nat) :
    slotOk ⟨true, count, bpcStored b, []⟩ := slotOk_mk hc rfl rfl (by simp)

theorem slotOk_entry (h : slotOk p) {i : Nat} (hi : i < p.count) (he : entryOk p.bpc e) :
    slotOk { p with ent := sput Entry.unset p.ent i e } := by
  obtain ⟨hm, hc, -, -, hw, hent⟩ := h
  refine slotOk_mk hc hm (swf_sput hw i e) fun x hx => ?_
  rcases mem_sput hx with ⟨rfl, -⟩ | ⟨hx, -⟩
  · exact ⟨hi, he⟩
  · exact hent x hx

/-- A slot filled entry by entry, where each set entry fits the depth. -/
theorem slotOk_stabulate {count : Nat} {f : Nat → Entry} {b : BitVec 3} (hc : count ≤ Config.palMax)
    (hf : ∀ i < count, f i ≠ Entry.unset →
      entryOk (Slot.bpc ⟨true, count, b, stabulate Entry.unset count f⟩) (f i)) :
    slotOk ⟨true, count, b, stabulate Entry.unset count f⟩ := by
  refine slotOk_mk hc rfl (swf_stabulate _ _ _) fun x hx => ?_
  obtain ⟨hlt, hval, hne⟩ := mem_stabulate hx
  rw [hval] at hne ⊢
  exact ⟨hlt, hf x.1 hlt hne⟩

theorem slotOk_resampled (h : slotOk p) (hnb : legalBpc nb) : slotOk (resampled p nb) := by
  refine slotOk_stabulate h.2.1 fun i _ hne => ?_
  rw [Slot.bpc_stored _ hnb.1 hnb.2 rfl]
  rcases entryAt_ok h i with hi | hi
  · rw [hi, rescaleEntry_unset rfl] at hne
    exact absurd rfl hne
  · exact rescaleEntry_ok p.bpc_legal.1 hi

theorem slotOk_values {vs : List U32} (hv : vs.length ≤ Config.palMax) (hb : legalBpc bpc)
    (alpha : Bool) : slotOk (paletteOfValues vs bpc alpha) := by
  refine slotOk_mk hv rfl (swf_sofFrom _ _ _) fun x hx => ?_
  obtain ⟨-, hlt, hmem, -⟩ := mem_sofFrom hx
  obtain ⟨v, -, hval⟩ := List.mem_map.mp hmem
  rw [List.length_map, Nat.zero_add] at hlt
  rw [Slot.bpc_stored _ hb.1 hb.2 rfl, ← hval]
  exact ⟨hlt, unpackEntry_ok bpc alpha v⟩

theorem slotOk_monoPalette : slotOk monoPalette := by
  refine slotOk_mk (by decide) rfl (by decide) ?_
  simp [monoPalette, entryOk, Slot.bpc, bpcStored, chanMax]

theorem slotOk_ehb (h : ∀ i < 32, (entryAt p i).set = true) : slotOk (ehbPalette p) := by
  refine slotOk_stabulate (by decide) fun i hi _ => ?_
  rw [Slot.bpc_stored (b := 8) _ (by decide) (by decide) rfl, entryOk_eight]
  unfold ehbEntry
  split
  · rename_i hlow
    rw [rescaleEntry_set]
    exact h i hlow
  · rfl

/-! ### The palette unit -/

theorem palettesOk_setSlot (h : palettesOk s) {slot : Nat} (hs : slot < Config.npal) (hp : slotOk p) :
    palettesOk (setSlot slot p s) := by
  obtain ⟨hw, hslots⟩ := h
  refine ⟨swf_sput hw slot p, fun x hx => ?_⟩
  rcases mem_sput hx with ⟨rfl, -⟩ | ⟨hx, -⟩
  · exact ⟨hs, hp⟩
  · exact hslots x hx

/-- A slot that can be read is legal (R140). -/
theorem palettesOk.slotOk (h : palettesOk s) {slot : Nat} (hr : readableSlot s slot) :
    slotOk (slotAt s slot) := by
  have hne : slotAt s slot ≠ Slot.empty := fun he => by
    have := hr.2
    rw [he] at this
    cases this
  exact (h.2 _ (mem_of_sget_ne hne)).2

theorem palettesOk_congr (h : t.pal.slots = s.pal.slots) (hs : palettesOk s) : palettesOk t := by
  unfold palettesOk
  rwa [h]

/-- The six ways a slot is filled (R141, R142, R145, R148, R150, R151) all fill it legally. -/
theorem Micro.keeps_palettesOk (h : Micro s t) (hs : palettesOk s) : palettesOk t := by
  cases h with
  | palCreate slot count bpc hslot hcount _ =>
    exact palettesOk_setSlot hs hslot (slotOk_created hcount bpc)
  | palSet slot i r g b a hslot hi =>
    exact palettesOk_setSlot hs hslot.1 (slotOk_entry (hs.slotOk hslot) hi (clampedEntry_ok _ r g b a))
  | palResample sd ss nb hsd hss hnb =>
    exact palettesOk_setSlot hs hsd (slotOk_resampled (hs.slotOk hss) hnb)
  | palValues slot vs bpc alpha hslot hvs hbpc =>
    exact palettesOk_setSlot hs hslot (slotOk_values hvs hbpc alpha)
  | palMono slot hslot => exact palettesOk_setSlot hs hslot slotOk_monoPalette
  | palEhb sd ss hsd _ _ hset => exact palettesOk_setSlot hs hsd (slotOk_ehb hset)
  | fault u f => exact palettesOk_congr (withFault_pal_slots u f s) hs
  | unbind u => exact palettesOk_congr (congrArg Pal.slots (unbind_pal u s)) hs
  | reset => exact ⟨rfl, by simp [resetUnits, State.reset]⟩
  | rpaSelect i => cases s.rpa.consumer <;> exact hs
  | _ => exact hs

/-! ### Look-up tables and raster palettes -/

theorem lutOk_empty : lutOk Lut.empty := ⟨by decide, rfl, by simp [Lut.empty]⟩

theorem viewElem_unset {i : Nat} (h : (viewElem p i).set = false) : viewElem p i = LutElem.unset := by
  have hset : (entryAt p i).set = false := by simpa [viewElem] using h
  rw [viewElem, rescaleEntry_unset hset]
  rfl

/-- The 8-bit view of a legal slot is a legal table (R28, R146). -/
theorem lutOk_viewOf (h : slotOk p) : lutOk (viewOf p) := by
  refine ⟨h.2.1, swf_stabulate _ _ _, fun x hx => ?_⟩
  obtain ⟨hlt, hval, hne⟩ := mem_stabulate hx
  rw [hval] at hne ⊢
  exact ⟨hlt, Bool.eq_true_of_not_eq_false fun hset => hne (viewElem_unset hset)⟩

/-- A raster palette that is selected is legal, loaded or not (R298). -/
theorem tablesOk.raster (h : tablesOk s) (i : Nat) : lutOk (sget Lut.empty s.rpa.ras i) := by
  obtain ⟨-, -, -, -, -, hras⟩ := h
  by_cases hi : sget Lut.empty s.rpa.ras i = Lut.empty
  · rw [hi]
    exact lutOk_empty
  · exact (hras _ (mem_of_sget_ne hi)).2

theorem tablesOk_congr (hr : t.pxr.lut = s.pxr.lut) (hw : t.pxw.lut = s.pxw.lut)
    (hh : t.ham.lut = s.ham.lut) (hc : t.rpa.count = s.rpa.count) (ha : t.rpa.ras = s.rpa.ras)
    (hs : tablesOk s) : tablesOk t := by
  unfold tablesOk
  rwa [hr, hw, hh, hc, ha]

/-- A table is the view of a legal slot or a raster palette that was loaded from one (R146, R298). -/
theorem Micro.keeps_tablesOk (h : Micro s t) (hp : palettesOk s) (hs : tablesOk s) : tablesOk t := by
  have view {slot : Nat} (hr : readableSlot s slot) : lutOk (viewOf (slotAt s slot)) :=
    lutOk_viewOf (hp.slotOk hr)
  obtain ⟨hpxr, hpxw, hham, hcount, hwf, hras⟩ := id hs
  cases h with
  | pxrInit _ slot _ hslot => exact ⟨view hslot, hpxw, hham, hcount, hwf, hras⟩
  | pxrLut slot hslot => exact ⟨view hslot, hpxw, hham, hcount, hwf, hras⟩
  | pxwInit _ slot _ hslot => exact ⟨hpxr, view hslot, hham, hcount, hwf, hras⟩
  | pxwLut slot hslot => exact ⟨hpxr, view hslot, hham, hcount, hwf, hras⟩
  | hamInit _ slot _ _ hslot => exact ⟨hpxr, hpxw, view hslot, hcount, hwf, hras⟩
  | hamLut slot hslot => exact ⟨hpxr, hpxw, view hslot, hcount, hwf, hras⟩
  | rpaConfig height c => exact ⟨hpxr, hpxw, hham, Nat.zero_le _, hwf, hras⟩
  | rpaLoad k slot hk _ hslot =>
    refine ⟨hpxr, hpxw, hham, ?_, swf_sput hwf _ _, fun x hx => ?_⟩
    · dsimp only
      split <;> omega
    · rcases mem_sput hx with ⟨rfl, -⟩ | ⟨hx, -⟩
      · exact ⟨hk, view hslot⟩
      · exact hras x hx
  | rpaSelect i =>
    cases s.rpa.consumer with
    | none => exact hs
    | pxw => exact ⟨hpxr, hs.raster i, hham, hcount, hwf, hras⟩
    | ham => exact ⟨hpxr, hpxw, hs.raster i, hcount, hwf, hras⟩
  | reset =>
    exact ⟨lutOk_empty, lutOk_empty, lutOk_empty, Nat.zero_le _, rfl,
      by simp [resetUnits, State.reset]⟩
  | fault u f => exact tablesOk_congr (by simp) (by simp) (by simp) (by simp) (by simp) hs
  | unbind u => cases u <;> exact hs
  | _ => exact hs

theorem step_palettesOk (hs : palettesOk s) (h : step s = .next t) : palettesOk t :=
  step_keeps (fun _ _ hs => hs) (fun _ _ hs => hs) (fun _ _ hm => hm.keeps_palettesOk) h hs

/-- The tables stay legal beside the slots that they are taken from. -/
theorem step_tablesOk (hp : palettesOk s) (hs : tablesOk s) (h : step s = .next t) : tablesOk t :=
  (step_keeps (I := fun s => palettesOk s ∧ tablesOk s) (fun _ _ hs => hs) (fun _ _ hs => hs)
    (fun _ _ hm hs => ⟨hm.keeps_palettesOk hs.1, hm.keeps_tablesOk hs.1 hs.2⟩) h ⟨hp, hs⟩).2

end Sys2Proof.Machine

namespace Sys2Proof.Proofs

open Sys2Proof.Machine

/-- Settles O10: every elementary update stores legal slots and takes tables from legal slots only, so
every step does. -/
theorem coloursStayLegal : Obligations.ColoursStayLegal :=
  ⟨fun _ _ => step_palettesOk, fun _ _ => step_tablesOk⟩

end Sys2Proof.Proofs
end

section
/-! The units' registers (R23, R24, R26, R31, R174, R175, R226, R238, R243, R260, R267): the geometry and
cursor of a plane unit, the pass registers of the two decoders and the stacks of the chunk units stay
legal under every elementary update of the state, and so under every step (O11). -/

namespace Sys2Proof.Machine

variable {s t : State} {g : Geometry} {c : Cursor} {init : Bool}

/-! ### Geometries and cursors -/

theorem geometryOk_iff : geometryOk g = true ↔ g.bytesPerBlock ≠ 0 ∧ g.blocksPerLine ≠ 0 ∧
    g.planeCount ≠ 0 ∧ g.planeCount ≤ Config.planesMax := by
  simp [geometryOk, and_assoc]

theorem atWidth_lt (n : Nat) : atWidth n < Config.bufLimit := by
  unfold atWidth Config.bufLimit
  omega

theorem atWidth_ne_zero {n : Nat} (h : n ≠ 0) : atWidth n ≠ 0 := by
  unfold atWidth Config.bufLimit
  omega

theorem registerGeometry_fits (g : Geometry) : geometryFits (registerGeometry g) :=
  ⟨atWidth_lt _, atWidth_lt _, atWidth_lt _, atWidth_lt _, atWidth_lt _, atWidth_lt _⟩

/-- Saturation in the registers makes no accepted geometry illegal (R23, R174). -/
theorem registerGeometry_ok (h : geometryOk g = true) : geometryOk (registerGeometry g) = true := by
  rw [geometryOk_iff] at h ⊢
  obtain ⟨hbytes, hblocks, hplanes, hmax⟩ := h
  exact ⟨atWidth_ne_zero hbytes, atWidth_ne_zero hblocks, atWidth_ne_zero hplanes,
    (Nat.min_le_left _ _).trans hmax⟩

/-- A plane unit right after its INIT (R174, R182). -/
theorem cursorOk_init (h : geometryOk g = true) : cursorOk true (registerGeometry g) .zero := by
  have hreg := registerGeometry_ok h
  obtain ⟨hbytes, hblocks, -, -⟩ := geometryOk_iff.mp hreg
  exact ⟨by decide, registerGeometry_fits g, fun _ => ⟨hreg, Nat.pos_of_ne_zero hbytes,
    Nat.pos_of_ne_zero hblocks⟩⟩

/-- A plane unit right after reset (R410). -/
theorem cursorOk_reset : cursorOk false ⟨0, 0, 0, 0, 0, 0⟩ .zero :=
  ⟨by decide, registerGeometry_fits ⟨0, 0, 0, 0, 0, 0⟩, nofun⟩

/-- `StepCursor` moves inside the geometry: each of its four cases leaves `bit`, `byte` and `block` below
their ends (R175). -/
theorem cursorOk_step (hi : init = true) (h : cursorOk init g c) :
    cursorOk init g (stepCursor g c) := by
  obtain ⟨hbit, hfits, hinit⟩ := h
  obtain ⟨hg, hbyte, hblock⟩ := hinit hi
  obtain ⟨hbytes, hblocks, -, -⟩ := geometryOk_iff.mp hg
  have inside {c' : Cursor} (h1 : c'.bit < 8) (h2 : c'.byte < g.bytesPerBlock)
      (h3 : c'.block < g.blocksPerLine) : cursorOk init g c' := ⟨h1, hfits, fun _ => ⟨hg, h2, h3⟩⟩
  unfold stepCursor
  split_ifs with hcolumn hbyteEnd hblockEnd
  · exact inside (by simp) (Nat.pos_of_ne_zero hbytes) (Nat.pos_of_ne_zero hblocks)
  · exact inside (by simp) (Nat.pos_of_ne_zero hbytes) (Nat.lt_of_le_of_ne hblock hblockEnd)
  · exact inside (by simp) (Nat.lt_of_le_of_ne hbyte hbyteEnd) hblock
  · exact inside (by dsimp only; omega) hbyte hblock

theorem Micro.keeps_cursorsOk (h : Micro s t) (hs : cursorsOk s) : cursorsOk t := by
  obtain ⟨hbpr, hcache, hbpw, hham⟩ := id hs
  cases h with
  | bprInit _ g hg _ => exact ⟨cursorOk_init hg, hcache, hbpw, hham⟩
  | bprCache l hl => exact ⟨hbpr, hl, hbpw, hham⟩
  | bprStep hi => exact ⟨cursorOk_step hi hbpr, hcache, hbpw, hham⟩
  | bpwInit _ g hg _ => exact ⟨hbpr, hcache, cursorOk_init hg, hham⟩
  | bpwStep hi => exact ⟨hbpr, hcache, cursorOk_step hi hbpw, hham⟩
  | hamInit p _ hmin hmax _ => exact ⟨hbpr, hcache, hbpw, fun _ => ⟨hmin, hmax⟩⟩
  | reset => exact ⟨cursorOk_reset, rfl, cursorOk_reset, nofun⟩
  | fault u f => simpa [cursorsOk] using hs
  | unbind u => cases u <;> exact hs
  | rpaSelect i => cases s.rpa.consumer <;> exact hs
  | _ => exact hs

/-! ### Pass registers of the decoders -/

theorem stripOk_emit {v : Vdd} (hx : v.x < v.bytesPerLine) (h : stripOk v) :
    stripOk { v with
      y := if v.y + 1 = v.h then 0 else v.y + 1
      x := if v.y + 1 = v.h then v.x + 2 else v.x } := by
  obtain ⟨heven, hxeven, hroom, hsrc, hdst⟩ := h
  have hy := hroom hx
  by_cases hcolumn : v.y + 1 = v.h
  · simp only [hcolumn, if_true]
    exact ⟨heven, by dsimp only; omega, fun _ => by dsimp only; omega, hsrc, hdst⟩
  · simp only [hcolumn, if_false]
    exact ⟨heven, hxeven, fun _ => by dsimp only; omega, hsrc, hdst⟩

/-- A decoder whose bindings have ended keeps the registers of its pass. -/
theorem stripOk_unbound {v : Vdd} (h : stripOk v) : stripOk { v with src := none, dst := none } := by
  obtain ⟨heven, hxeven, hroom, -, -⟩ := h
  exact ⟨heven, hxeven, hroom, nofun, nofun⟩

theorem depackOk_unbound {p : Pbd} (h : depackOk p) : depackOk { p with src := none, dst := none } :=
  ⟨h.1, nofun⟩

theorem Micro.keeps_passesOk (h : Micro s t) (hs : passesOk s) : passesOk t := by
  obtain ⟨hstrip, hdepack⟩ := id hs
  cases h with
  | pbdStart src dst sp dbase outSize _ _ hroom =>
    exact ⟨hstrip, Nat.zero_le _, fun _ => hroom⟩
  | pbdProduced hroom => exact ⟨hstrip, hroom, hdepack.2⟩
  | vddStart src dst cp cend dp rend dbase bpl h _ _ hh heven hsrc hdst =>
    exact ⟨⟨heven, rfl, fun _ => Nat.pos_of_ne_zero hh, fun _ => hsrc, fun _ => hdst⟩, hdepack⟩
  | vddEmit hx => exact ⟨stripOk_emit hx hstrip, hdepack⟩
  | unbind u =>
    cases u with
    | pbd => exact ⟨hstrip, depackOk_unbound hdepack⟩
    | vdd => exact ⟨stripOk_unbound hstrip, hdepack⟩
    | _ => exact hs
  | reset =>
    exact ⟨⟨rfl, rfl, fun hroom => absurd hroom (Nat.lt_irrefl 0), nofun, nofun⟩, le_rfl, nofun⟩
  | fault u f => simpa [passesOk, stripOk, depackOk] using hs
  | rpaSelect i => cases s.rpa.consumer <;> exact hs
  | _ => exact hs

/-! ### Stacks of the chunk units -/

theorem stacksOk_unbound (h : stacksOk s) : stacksOk (unbind .ckr s) := by
  obtain ⟨hdepth, hopen, -, hsd⟩ := h
  exact ⟨hdepth, hopen, nofun, hsd⟩

/-- A view is added above the open ones (R267). -/
theorem stacksOk_enter {base length : Nat} (hi : s.ckr.init = true) (hd : s.ckr.depth ≠ Config.ckDepth)
    (hr : base + length ≤ (refOf s.ckr.src).len) (h : stacksOk s) :
    stacksOk { s with
      ckr := { s.ckr with views := sput View.zero s.ckr.views s.ckr.depth ⟨base, length, 0⟩,
                          depth := s.ckr.depth + 1 } } := by
  obtain ⟨hdepth, -, hviews, hsd⟩ := h
  refine ⟨Nat.lt_of_le_of_ne hdepth hd, ⟨fun _ => Nat.le_add_left 1 _, fun _ => hi⟩,
    fun hb d hlt => ?_, hsd⟩
  dsimp only at hlt ⊢
  rw [sget_sput]
  split
  · exact ⟨hr, Nat.zero_le _⟩
  · exact hviews hb d (by omega)

/-- The position of the current view moves inside it (R260). -/
theorem stacksOk_setViewPos {p : Nat} (hi : s.ckr.init = true) (hp : p ≤ (curView s).len)
    (h : stacksOk s) : stacksOk (setViewPos p s) := by
  obtain ⟨hdepth, hopen, hviews, hsd⟩ := h
  refine ⟨hdepth, hopen, fun hb d hlt => ?_, hsd⟩
  have hcur : viewOk (refOf s.ckr.src).len (curView s) :=
    hviews hb _ (Nat.sub_lt (hopen.mp hi) Nat.one_pos)
  simp only [setViewPos]
  rw [sget_sput]
  split
  · exact ⟨hcur.1, hp⟩
  · exact hviews hb d hlt

theorem Micro.keeps_stacksOk (h : Micro s t) (hs : stacksOk s) : stacksOk t := by
  obtain ⟨hdepth, hopen, hviews, hsd⟩ := id hs
  cases h with
  | ckrOpen r _ =>
    refine ⟨Nat.le_add_left 1 7, by simp, fun _ d hlt => ?_, hsd⟩
    dsimp only at hlt ⊢
    rw [Nat.lt_one_iff.mp hlt, sget_sput_self]
    exact ⟨(Nat.zero_add _).le, Nat.zero_le _⟩
  | ckrPos p hi hp => exact stacksOk_setViewPos hi hp hs
  | ckrEnter base length hi hd hr => exact stacksOk_enter hi hd hr hs
  | ckrLeave hd =>
    refine ⟨(Nat.sub_le _ _).trans hdepth, ?_, fun hb d hlt => hviews hb d (by dsimp only at hlt; omega),
      hsd⟩
    exact ⟨fun _ => by dsimp only; omega, fun _ => hopen.mpr hd.le⟩
  | ckwInit r _ => exact ⟨hdepth, hopen, hviews, Nat.zero_le _⟩
  | ckwStart hd => exact ⟨hdepth, hopen, hviews, Nat.lt_of_le_of_ne hsd hd⟩
  | ckwEnd _ => exact ⟨hdepth, hopen, hviews, (Nat.sub_le _ _).trans hsd⟩
  | unbind u =>
    cases u with
    | ckr => exact stacksOk_unbound hs
    | _ => exact hs
  | reset => exact ⟨Nat.zero_le _, ⟨nofun, nofun⟩, nofun, Nat.zero_le _⟩
  | fault u f => simpa [stacksOk] using hs
  | rpaSelect i => cases s.rpa.consumer <;> exact hs
  | _ => exact hs

/-! ### A step -/

theorem step_cursorsOk (h : step s = .next t) : cursorsOk s → cursorsOk t :=
  step_keeps (fun _ _ hs => hs) (fun _ _ hs => hs) (fun _ _ hm => hm.keeps_cursorsOk) h

theorem step_passesOk (h : step s = .next t) : passesOk s → passesOk t :=
  step_keeps (fun _ _ hs => hs) (fun _ _ hs => hs) (fun _ _ hm => hm.keeps_passesOk) h

theorem step_stacksOk (h : step s = .next t) : stacksOk s → stacksOk t :=
  step_keeps (fun _ _ hs => hs) (fun _ _ hs => hs) (fun _ _ hm => hm.keeps_stacksOk) h

end Sys2Proof.Machine

namespace Sys2Proof.Proofs

open Sys2Proof.Machine

/-- Settles O11: every elementary update keeps each of the three, so every step does. -/
theorem registersStayLegal : Obligations.RegistersStayLegal :=
  fun _ _ h => ⟨step_cursorsOk h, step_passesOk h, step_stacksOk h⟩

end Sys2Proof.Proofs
end

section
/-! What an operation does to the bindings of the units (R25, R422): `Spared E W` relates two states when
every unit has lost its bindings, or has kept them and holds under them the bytes it held; the units of
`E` may be bound anew, those of `W` may have written bytes of their own. -/

namespace Sys2Proof.Machine

variable {α β : Type} {x : Op α} {f : α → Op β} {s t u : State} {v w : UnitId} {E W : List UnitId}

/-! ### What a unit holds -/

/-- The bindings of a unit: a reader's or writer's, and both of a decoder. -/
def holds (v : UnitId) (s : State) : Option BufRef × Option BufRef :=
  match v with
  | .pbd => (s.pbd.src, s.pbd.dst)
  | .vdd => (s.vdd.src, s.vdd.dst)
  | .pal | .bpr | .bpw | .pxr | .pxw | .ckr | .ham | .rpa | .seq | .pbe | .ckw => (bindingOf v s, none)

/-- The unit is bound to nothing. -/
def Freed (v : UnitId) (s : State) : Prop := holds v s = (none, none)

theorem bindingOf_of_holds (h : holds v t = holds v s) : bindingOf v t = bindingOf v s := by
  cases v <;> first | rfl | exact congrArg Prod.fst h

theorem Freed.bindingOf (h : Freed v s) : bindingOf v s = none := by
  cases v <;> first | rfl | exact congrArg Prod.fst h

theorem freed_of_holds (h : holds v t = holds v s) (hs : Freed v s) : Freed v t := h.trans hs

theorem holds_of_bindings (h : bindings t = bindings s) (v : UnitId) : holds v t = holds v s := by
  simp only [bindings, List.cons.injEq, and_true] at h
  obtain ⟨h1, h2, h3, h4, h5, h6, h7, h8, h9, h10⟩ := h
  cases v <;> simp [holds, bindingOf, *]

theorem holds_keeps (h : keepsBinding v = true) (s : State) : holds v s = (bindingOf v s, none) := by
  cases v <;> first | rfl | cases h

theorem bindingOf_keepsNot (h : keepsBinding v = false) (s : State) : bindingOf v s = none := by
  cases v <;> first | rfl | cases h

@[simp] theorem bindings_withFault (u : UnitId) (g : FaultReg) (s : State) :
    bindings (withFault u g s) = bindings s := by cases u <;> rfl

theorem holds_unbind (v w : UnitId) (s : State) :
    holds v (unbind w s) = if v = w then (none, none) else holds v s := by
  cases v <;> cases w <;> rfl

theorem freed_unbind (v : UnitId) (s : State) : Freed v (unbind v s) := by
  rw [Freed, holds_unbind, if_pos rfl]

theorem freed_reset (v : UnitId) (s : State) : Freed v (resetUnits s) := by cases v <;> rfl

theorem holds_overwrite (v w : UnitId) (rs : List BufRef) (s : State) : holds v (overwrite w rs s) =
    if keepsBinding v then (outlived w v rs (bindingOf v s), none) else holds v s := by
  cases v <;> rfl

theorem bindingOf_claim {v : UnitId} (hv : v ∈ [UnitId.bpw, .pxw, .ckw]) (w : UnitId) (r : BufRef)
    (s : State) : bindingOf v (claim w r s) = outlived w v [r] (bindingOf v s) := by
  simp only [List.mem_cons, List.not_mem_nil, or_false] at hv
  rcases hv with rfl | rfl | rfl <;> rfl

/-- A claim ends some bindings and makes none. -/
theorem holds_claim (v w : UnitId) (r : BufRef) (s : State) :
    Freed v (claim w r s) ∨ holds v (claim w r s) = holds v s := by
  have ended {v : UnitId} (hv : v ∈ [UnitId.bpw, .pxw, .ckw]) (hk : keepsBinding v = true) :
      Freed v (claim w r s) ∨ holds v (claim w r s) = holds v s := by
    unfold Freed
    rw [holds_keeps hk, holds_keeps hk, bindingOf_claim hv]
    rcases outlived_cases w v [r] (bindingOf v s) with ⟨h, -⟩ | ⟨h, -⟩
    · exact .inl (by rw [h])
    · exact .inr (by rw [h])
  cases v with
  | bpw => exact ended (by simp) rfl
  | pxw => exact ended (by simp) rfl
  | ckw => exact ended (by simp) rfl
  | _ => exact .inr rfl

/-! ### The relation -/

/-- The bytes under the binding that `v` has in `t` are those of `s`. -/
def sameBytes (v : UnitId) (s t : State) : Prop :=
  ∀ r, bindingOf v t = some r → ∀ a, inWindow r r.id a → byteAt t.mem r.id a = byteAt s.mem r.id a

/-- Each unit has lost its bindings or has them as before; the units outside `W` have the bytes under them
as before too, and nothing is said of those in `E`. -/
def Spared (E W : List UnitId) (s t : State) : Prop :=
  ∀ v, Freed v t ∨ v ∈ E ∨ holds v t = holds v s ∧ (v ∈ W ∨ sameBytes v s t)

theorem sameBytes_of_mem (h : t.mem = s.mem) : sameBytes v s t := fun _ _ _ _ => by rw [h]

theorem sameBytes.trans (h1 : sameBytes v s t) (hu : holds v u = holds v t)
    (h2 : sameBytes v t u) : sameBytes v s u := fun r hr a ha =>
  (h2 r hr a ha).trans (h1 r ((bindingOf_of_holds hu).symm.trans hr) a ha)

theorem spared_closed (E W : List UnitId) : Closed (Spared E W) where
  refl _ _ := .inr (.inr ⟨rfl, .inr (sameBytes_of_mem rfl)⟩)
  trans {s t u} hst htu v := by
    rcases htu v with h | h | ⟨hu, hub⟩
    · exact .inl h
    · exact .inr (.inl h)
    · rcases hst v with h | h | ⟨ht, htb⟩
      · exact .inl (freed_of_holds hu h)
      · exact .inr (.inl h)
      · refine .inr (.inr ⟨hu.trans ht, ?_⟩)
        rcases htb, hub with ⟨hw | hsame, hw' | hsame'⟩
        · exact .inl hw
        · exact .inl hw
        · exact .inl hw'
        · exact .inr (hsame.trans hu hsame')

theorem Spared.mono {E' W' : List UnitId} (h : Spared E W s t) (hE : E ⊆ E') (hW : W ⊆ W') :
    Spared E' W' s t := fun v => by
  rcases h v with h | h | ⟨hs, hb⟩
  · exact .inl h
  · exact .inr (.inl (hE h))
  · exact .inr (.inr ⟨hs, hb.imp (hW ·) id⟩)

/-- A unit that ends unbound need not be excepted. -/
theorem Spared.drop (h : Spared (v :: E) W s t) (hv : Freed v t) : Spared E W s t := fun w => by
  rcases h w with hw | hw | hw
  · exact .inl hw
  · rcases List.mem_cons.mp hw with rfl | hw
    · exact .inl hv
    · exact .inr (.inl hw)
  · exact .inr (.inr hw)

/-- A unit that is unbound stays so, if it is not one of those bound anew. -/
theorem Spared.freed (h : Spared E W s t) (hv : v ∉ E) (hs : Freed v s) : Freed v t := by
  rcases h v with h | h | ⟨h, -⟩
  · exact h
  · exact absurd h hv
  · exact freed_of_holds h hs

/-- An operation that binds nothing leaves a unit bound as before or unbound. -/
theorem Spared.bindingOf_cases (h : Spared [] W s t) (v : UnitId) :
    bindingOf v t = bindingOf v s ∨ bindingOf v t = none := by
  rcases h v with hfree | hnew | ⟨hsame, -⟩
  · exact .inr hfree.bindingOf
  · exact absurd hnew List.not_mem_nil
  · exact .inl (bindingOf_of_holds hsame)

/-! ### The updates -/

/-- An update of neither the bindings nor the host's buffers. -/
theorem spared_quiet (hb : bindings t = bindings s) (hm : t.mem = s.mem) : Spared E W s t :=
  fun v => .inr (.inr ⟨holds_of_bindings hb v, .inr (sameBytes_of_mem hm)⟩)

/-- Bindings and buffers are as they were. -/
def Still (s t : State) : Prop := bindings t = bindings s ∧ t.mem = s.mem

theorem still_closed : Closed Still where
  refl _ := ⟨rfl, rfl⟩
  trans h1 h2 := ⟨h2.1.trans h1.1, h2.2.trans h1.2⟩

theorem still_withFault (w : UnitId) (g : FaultReg) (s : State) : Still s (withFault w g s) :=
  ⟨bindings_withFault w g s, withFault_mem w g s⟩

theorem spared_withFault (w : UnitId) (g : FaultReg) (s : State) : Spared E W s (withFault w g s) :=
  spared_quiet (bindings_withFault w g s) (withFault_mem w g s)

theorem spared_unbind (w : UnitId) (s : State) : Spared E W s (unbind w s) := fun v => by
  by_cases h : v = w
  · subst h
    exact .inl (freed_unbind v s)
  · exact .inr (.inr ⟨by rw [holds_unbind, if_neg h], .inr (sameBytes_of_mem (unbind_mem w s))⟩)

theorem spared_reset (s : State) : Spared E W s (resetUnits s) := fun v => .inl (freed_reset v s)

theorem spared_claim (w : UnitId) (r : BufRef) (s : State) : Spared E W s (claim w r s) := fun v =>
  (holds_claim v w r s).imp id fun h => .inr ⟨h, .inr (sameBytes_of_mem rfl)⟩

/-- Bytes of the windows `rs` written by unit `w`: of the other units only those keep a binding that hold
none of them (R422). -/
theorem spared_overwrite {rs : List BufRef} (hb : bindings t = bindings s)
    (hm : Writes (covered rs) s.mem t.mem) (hw : keepsBinding w = true → w ∈ E ∨ w ∈ W) :
    Spared E W s (overwrite w rs t) := fun v => by
  have hv := holds_of_bindings hb v
  have hover := holds_overwrite v w rs t
  cases hk : keepsBinding v with
  | false =>
    rw [hk, if_neg Bool.false_ne_true, hv] at hover
    refine .inr (.inr ⟨hover, .inr fun r hr => ?_⟩)
    rw [bindingOf_keepsNot hk] at hr
    cases hr
  | true =>
    rw [hk, if_pos rfl] at hover
    rcases outlived_cases w v rs (bindingOf v t) with ⟨h, -⟩ | ⟨h, hout⟩
    · exact .inl (by rw [Freed, hover, h])
    · rw [h, ← holds_keeps hk, hv] at hover
      by_cases hvw : v = w
      · subst hvw
        exact .inr ((hw hk).imp id fun h => ⟨hover, .inl h⟩)
      · refine .inr (.inr ⟨hover, .inr fun r hr a ha => hm.byteAt_eq fun hc => ?_⟩)
        rw [bindingOf_of_holds (hover.trans hv.symm)] at hr
        rw [hr] at hout
        exact hout hvw _ _ hc ha

theorem covered_window {r : BufRef} {off n id a : Nat} (h : off + n ≤ r.len)
    (ha : inRange r off (off + n) id a) : covered [windowOf r off n] id a := by
  obtain ⟨rfl, hlo, hhi⟩ := ha
  refine (covered_cons _ _).mpr (.inl ⟨rfl, ?_, ?_⟩) <;> simp only [windowOf] <;> omega

/-- One window written, up to its end. -/
theorem spared_write {r : BufRef} {off n : Nat} (hn : off + n ≤ r.len) (hb : bindings t = bindings s)
    (hm : Writes (inRange r off (off + n)) s.mem t.mem)
    (hw : keepsBinding w = true → w ∈ E ∨ w ∈ W) :
    Spared E W s (overwrite w [windowOf r off n] t) :=
  spared_overwrite hb (hm.mono fun _ _ => covered_window hn) hw

/-- A failed pass's range, cut at its buffer's end, is written by the pass's unit (log 13). -/
theorem spared_spoil (hw : keepsBinding w = true → w ∈ E ∨ w ∈ W) (r : BufRef) (off n : Nat)
    (s : State) : Spared E W s (spoil w r off n s) := by
  refine spared_overwrite rfl ((writes_freeRange s.mem r off s.draws _).mono fun id a ha => ?_) hw
  obtain ⟨rfl, hlo, hhi⟩ := ha
  exact (covered_cons _ _).mpr (.inl ⟨rfl, hlo, by simp only [windowOf]; omega⟩)

theorem spared_seqFaulted (s : State) : Spared E W s (seqFaulted s) := spared_quiet rfl rfl

theorem spared_closeContainer (c : BufRef) (s : State) : Spared E W s (closeContainer c s) := by
  unfold closeContainer
  split
  · exact spared_unbind _ _
  · exact (spared_closed E W).refl s

/-! ### Operations -/

/-- The operation spares all bindings, however it ends. -/
abbrev Spares (E W : List UnitId) (x : Op α) (s : State) : Prop := Leads (Spared E W) x s

theorem spares_pure (a : α) : Spares E W (pure a : Op α) s := (spared_closed E W).pure a

theorem spares_bind (hx : Spares E W x s) (hf : ∀ a t, x s = .ok a t → Spares E W (f a) t) :
    Spares E W (x >>= f) s := (spared_closed E W).bind hx fun a t _ => hf a t

/-- An operation followed by a computation of its result from its answer. -/
theorem spares_map {g : α → β} (hx : Spares E W x s) : Spares E W (do let a ← x; pure (g a)) s :=
  spares_bind hx fun _ _ _ => spares_pure _

theorem spares_quiet {g : State → State} (hb : bindings (g s) = bindings s)
    (hm : (g s).mem = s.mem) : Spares E W (modify g) s := leads_modify (spared_quiet hb hm)

theorem spares_set {g : State → State} {k : Unit → Op β} (hb : bindings (g s) = bindings s)
    (hm : (g s).mem = s.mem) (hk : Spares E W (k ()) (g s)) : Spares E W (modify g >>= k) s :=
  (spared_closed E W).set (spared_quiet hb hm) hk

theorem spares_raise {c : FaultCode} {n : Nat} : Spares E W (raise w c n : Op α) s :=
  leads_raise (spared_withFault _ _ _)

theorem spares_check {p : Prop} [Decidable p] {c : FaultCode} {n : Nat} {g : Unit → Op β}
    (h : ¬ p → Spares E W (g ()) s) : Spares E W (raiseIf p w c n >>= g) s :=
  (spared_closed E W).check (fun _ => spared_withFault _ _ _) h

theorem spares_raiseIf {p : Prop} [Decidable p] {c : FaultCode} {n : Nat} :
    Spares E W (raiseIf p w c n) s := by
  unfold raiseIf
  split
  · exact spares_raise
  · exact spares_pure _

theorem spares_enter {g : Unit → Op β} (h : Spares E W (g ()) s) : Spares E W (enter w >>= g) s :=
  (spared_closed E W).enter (fun _ _ => spared_withFault _ _ _) fun _ => h

theorem spares_clear {g : Unit → Op β} (h : Spares E W (g ()) (clearedFault w s)) :
    Spares E W (clearFault w >>= g) s :=
  (spared_closed E W).set (spared_withFault _ _ _) h

theorem spares_onStop {g : State → State} (hx : Spares E W x s) (hg : ∀ t, Spared E W t (g t)) :
    Spares E W (onStop g x) s := (spared_closed E W).onStop hx fun t _ => hg t

theorem spares_callFrom (hx : Spares E W x s) : Spares E W (callFrom v w x) s :=
  (spared_closed E W).callFrom hx fun _ _ => spared_withFault _ _ _

theorem spares_seqCall (hx : Spares E W x s) : Spares E W (seqCall w x) s :=
  spares_onStop (spares_callFrom hx) spared_seqFaulted

theorem spares_seqRaiseIf {p : Prop} [Decidable p] {c : FaultCode} {n : Nat} :
    Spares E W (seqRaiseIf p c n) s := spares_onStop spares_raiseIf spared_seqFaulted

theorem spares_endPass (hx : Spares E W x s) : Spares E W (endPass w x) s :=
  (spared_closed E W).endPass hx fun _ _ => spared_unbind _ _

theorem spares_times {x : Op Unit} (hx : ∀ s, Spares E W x s) (n : Nat) : Spares E W (times x n) s :=
  (spared_closed E W).times (I := fun _ => True) (fun s _ => hx s) (fun _ _ _ _ _ => trivial) n s
    trivial

theorem spares_forFrom {g : Nat → Op Unit} (hx : ∀ i s, Spares E W (g i) s) (i n : Nat) :
    Spares E W (forFrom g i n) s :=
  (spared_closed E W).forFrom (I := fun _ => True) (fun i s _ => hx i s)
    (fun _ _ _ _ _ _ => trivial) n i s trivial

/-! ### Passes: a binding made and ended -/

/-- The operation ends with unit `v` unbound, however it ends. -/
abbrev Frees (v : UnitId) (x : Op α) (s : State) : Prop := Leads (fun _ => Freed v) x s

theorem frees_endPass : Frees v (endPass v x) s := by
  unfold Frees Leads endOf
  cases hx : x s with
  | ok a t => rw [endPass_ok hx]; exact freed_unbind v t
  | error e t => rw [endPass_error hx]; exact freed_unbind v t

/-- What follows the end of a pass and binds nothing leaves the unit unbound. -/
theorem frees_bind (hx : Frees v x s) (hf : ∀ a t, Spares [] [] (f a) t) : Frees v (x >>= f) s := by
  unfold Frees Leads endOf
  rw [bind_run]
  cases h : x s with
  | ok a t => exact (hf a t).freed List.not_mem_nil (hx.ok h)
  | error e t => exact hx.error h

/-- A pass spares all bindings if its unit is bound anew at most where it begins, and unbound where it
ends (R25, R422). -/
theorem spares_pass (hbegin : ∀ a t, x s = .ok a t → Spared (v :: E) W s t)
    (hfail : ∀ e t, x s = .error e t → Spared E W s t)
    (hf : ∀ a t, x s = .ok a t → Spares (v :: E) W (f a) t ∧ Frees v (f a) t) :
    Spares E W (x >>= f) s := by
  unfold Spares Leads endOf
  rw [bind_run]
  cases h : x s with
  | ok a t =>
    obtain ⟨hspares, hfrees⟩ := hf a t h
    exact ((spared_closed _ W).trans (hbegin a t h) hspares).drop hfrees
  | error e t => exact hfail e t h

/-- The same, where the pass begins with an update of the state. -/
theorem spares_passFrom {g : State → State} {k : Unit → Op β} (hbegin : Spared (v :: E) W s (g s))
    (hk : Spares (v :: E) W (k ()) (g s)) (hfree : Frees v (k ()) (g s)) :
    Spares E W (modify g >>= k) s := ((spared_closed _ W).trans hbegin hk).drop hfree

/-! ### A binding made -/

/-- `u` is `s` with unit `v` bound to `r` and nothing else changed in bindings or buffers. -/
def Anew (v : UnitId) (r : BufRef) (s u : State) : Prop :=
  u.mem = s.mem ∧ bindingOf v u = some r ∧ ∀ w, w ≠ v → holds w u = holds w s

/-- Only unit `v`'s bindings differ. -/
theorem spared_except (hm : u.mem = s.mem) (h : ∀ w, w ≠ v → holds w u = holds w s) :
    Spared (v :: E) W s u := fun w => by
  by_cases hw : w = v
  · exact .inr (.inl (hw ▸ List.mem_cons_self))
  · exact .inr (.inr ⟨h w hw, .inr (sameBytes_of_mem hm)⟩)

theorem Anew.spared {r : BufRef} (h : Anew v r s u) : Spared [v] [] s u := spared_except h.1 h.2.2

/-- An INIT: where it completes it has bound unit `v` to `r`, and from there on has done `K`; where it
stops it has bound nothing. -/
def Binds (K : State → State → Prop) (v : UnitId) (r : BufRef) (x : Op α) (s : State) : Prop :=
  (∀ a t, x s = .ok a t → ∃ u, Anew v r s u ∧ K u t) ∧ ∀ e t, x s = .error e t → Spared [] [] s t

/-- The state after a writing unit's INIT: its claim is made (R422). -/
def Claimed (v : UnitId) (r : BufRef) (u t : State) : Prop := t = claim v r u

variable {K : State → State → Prop} {r : BufRef}

theorem Binds.mono {K' : State → State → Prop} (h : Binds K v r x s) (hK : ∀ u t, K u t → K' u t) :
    Binds K' v r x s :=
  ⟨fun a t ht => (h.1 a t ht).imp fun _ hu => ⟨hu.1, hK _ _ hu.2⟩, h.2⟩

theorem Binds.of_eq (h : Binds Eq v r x s) : Binds (Spared [] []) v r x s :=
  h.mono fun u _ hut => hut ▸ (spared_closed [] []).refl u

theorem Binds.of_claimed (h : Binds (Claimed v r) v r x s) : Binds (Spared [] []) v r x s :=
  h.mono fun u _ hut => by
    rw [Claimed] at hut
    exact hut ▸ spared_claim v r u

theorem Binds.spared (h : Binds (Spared [] []) v r x s) {a : α} (ht : x s = .ok a t) :
    Spared (v :: E) W s t := by
  obtain ⟨u, hu, hut⟩ := h.1 a t ht
  exact ((spared_closed [v] []).trans hu.spared (hut.mono (List.nil_subset _) (List.nil_subset _))).mono
    (List.cons_subset_cons v (List.nil_subset E)) (List.nil_subset W)

theorem Binds.spares (h : Binds (Spared [] []) v r x s) : Spares [v] [] x s :=
  leads_of (fun _ _ => h.spared) fun e t ht =>
    (h.2 e t ht).mono (List.nil_subset _) (List.nil_subset _)

theorem binds_set {g : State → State} (h : Anew v r s (g s)) : Binds Eq v r (modify g) s :=
  ⟨fun _ _ ht => by cases ht; exact ⟨g s, h, rfl⟩, fun _ _ ht => nomatch ht⟩

theorem binds_claim {g : State → State} (h : Anew v r s (g s)) :
    Binds (Claimed v r) v r (modify fun s => claim v r (g s)) s :=
  ⟨fun _ _ ht => by cases ht; exact ⟨g s, h, rfl⟩, fun _ _ ht => nomatch ht⟩

/-- A sequence that stops: its first part did, or its second after it. -/
theorem error_of_bind_error {b : State} {e : Stop} (h : (x >>= f) s = .error e b) :
    x s = .error e b ∨ ∃ a t, x s = .ok a t ∧ f a t = .error e b := by
  rw [bind_run] at h
  cases hx : x s with
  | ok a t => rw [hx] at h; exact .inr ⟨a, t, rfl, h⟩
  | error e' t => rw [hx] at h; cases h; exact .inl rfl

/-- The checks before the binding change neither bindings nor buffers. -/
theorem binds_after (hb : Leads Still x s)
    (hf : ∀ a t, Binds K v r (f a) t) : Binds K v r (x >>= f) s := by
  refine ⟨fun b t h => ?_, fun e t h => ?_⟩
  · obtain ⟨a, u, hx, hfu⟩ := ok_of_bind_ok h
    obtain ⟨hbind, hmem⟩ := hb.ok hx
    obtain ⟨u', ⟨hm, hr, hother⟩, hk⟩ := (hf a u).1 b t hfu
    exact ⟨u', ⟨hm.trans hmem, hr, fun w hw => (hother w hw).trans (holds_of_bindings hbind w)⟩, hk⟩
  · rcases error_of_bind_error h with hx | ⟨a, u, hx, hfu⟩
    · obtain ⟨hbind, hmem⟩ := hb.error hx
      exact spared_quiet hbind hmem
    · obtain ⟨hbind, hmem⟩ := hb.ok hx
      exact (spared_closed [] []).trans (spared_quiet hbind hmem) ((hf a u).2 e t hfu)

theorem Binds.bind (hx : Binds (Spared [] []) v r x s) (hf : ∀ a t, Spares [] [] (f a) t)
    (hstop : ∀ a t e u, f a t = .error e u → Freed v u) : Binds (Spared [] []) v r (x >>= f) s := by
  refine ⟨fun b t h => ?_, fun e t h => ?_⟩
  · obtain ⟨a, u, hxu, hfu⟩ := ok_of_bind_ok h
    obtain ⟨u', hu', hk⟩ := hx.1 a u hxu
    exact ⟨u', hu', (spared_closed [] []).trans hk ((hf a u).ok hfu)⟩
  · rcases error_of_bind_error h with hxu | ⟨a, u, hxu, hfu⟩
    · exact hx.2 e t hxu
    · exact ((spared_closed [v] []).trans (hx.spared hxu)
        (((hf a u).error hfu).mono (List.nil_subset _) (List.nil_subset _))).drop
        (hstop a u e t hfu)

theorem Binds.map (hx : Binds K v r x s) (g : α → β) : Binds K v r (do let a ← x; pure (g a)) s := by
  refine ⟨fun b t h => ?_, fun e t h => ?_⟩
  · obtain ⟨a, u, hxu, hgu⟩ := ok_of_bind_ok h
    cases hgu
    exact hx.1 a _ hxu
  · rcases error_of_bind_error h with hxu | ⟨a, u, -, hgu⟩
    · exact hx.2 e t hxu
    · cases hgu

theorem Binds.seqCall (hx : Binds K v r x s) : Binds K v r (seqCall w x) s := by
  cases hxu : x s with
  | ok a u =>
    refine ⟨fun b t h => ?_, fun e t h => ?_⟩ <;> rw [seqCall_ok hxu] at h <;> cases h
    exact hx.1 _ _ hxu
  | error e' u =>
    have hspares : Spares [] [] x s := by
      unfold Spares Leads endOf
      rw [hxu]
      exact hx.2 _ _ hxu
    refine ⟨fun b t h => ?_, fun e t h => (spares_seqCall hspares).error h⟩
    cases e' with
    | faulted => rw [seqCall_faulted hxu] at h; cases h
    | refused => rw [seqCall_refused hxu] at h; cases h
    | outside _ => rw [seqCall_outside hxu] at h; cases h

theorem Binds.onStop {g : State → State} (hx : Binds K v r x s) (hg : ∀ t, Spared [] [] t (g t)) :
    Binds K v r (onStop g x) s := by
  cases hxu : x s with
  | ok a u =>
    refine ⟨fun b t h => ?_, fun e t h => ?_⟩ <;> rw [onStop_ok hxu] at h <;> cases h
    exact hx.1 _ _ hxu
  | error e' u =>
    refine ⟨fun b t h => ?_, fun e t h => ?_⟩ <;> rw [onStop_error hxu] at h <;> cases h
    exact (spared_closed [] []).trans (hx.2 _ _ hxu) (hg u)

/-- Where it completes, the unit has the new binding, or has lost it again. -/
theorem Binds.bindingOf (hx : Binds (Spared [] []) v r x s) {a : α} (h : x s = .ok a t) :
    bindingOf v t = some r ∨ bindingOf v t = none := by
  obtain ⟨u, ⟨-, hr, -⟩, hut⟩ := hx.1 a t h
  exact (hut.bindingOf_cases v).imp (·.trans hr) id

/-- A pass that begins with its unit's INIT. -/
theorem Binds.pass (hx : Binds (Spared [] []) v r x s)
    (hf : ∀ a t, x s = .ok a t → Spares (v :: E) W (f a) t ∧ Frees v (f a) t) :
    Spares E W (x >>= f) s :=
  spares_pass (fun _ _ => hx.spared)
    (fun e t h => (hx.2 e t h).mono (List.nil_subset _) (List.nil_subset _)) hf

/-! ### What holds where an operation completes -/

/-- Where the operation completes, the state has `P`. -/
def Ends (P : State → Prop) (x : Op α) (s : State) : Prop := ∀ a t, x s = .ok a t → P t

/-- What no operation that binds nothing undoes. -/
def Lasting (P : State → Prop) : Prop := ∀ s t, Spared [] [] s t → P s → P t

variable {P : State → Prop}

theorem lasting_freed (v : UnitId) : Lasting (Freed v) := fun _ _ h => h.freed List.not_mem_nil

theorem lasting_bindingOf_ne (v : UnitId) (r : BufRef) : Lasting fun s => bindingOf v s ≠ some r :=
  fun s t h hs => by
    rcases h.bindingOf_cases v with hsame | hnone
    · rwa [hsame]
    · rw [hnone]
      exact nofun

theorem ends_of_frees (h : Frees v x s) : Ends (Freed v) x s := fun _ _ ht => h.ok ht

theorem ends_modify {g : State → State} (h : P (g s)) : Ends P (modify g) s := fun _ _ ht => by
  cases ht
  exact h

theorem ends_last (hf : ∀ a t, Ends P (f a) t) : Ends P (x >>= f) s := fun b t h => by
  obtain ⟨a, u, -, hfu⟩ := ok_of_bind_ok h
  exact hf a u b t hfu

theorem ends_first (hP : Lasting P) (hx : Ends P x s) (hf : ∀ a t, Spares [] [] (f a) t) :
    Ends P (x >>= f) s := fun b t h => by
  obtain ⟨a, u, hxu, hfu⟩ := ok_of_bind_ok h
  exact hP u t ((hf a u).ok hfu) (hx a u hxu)

theorem ends_onStop {g : State → State} (hx : Ends P x s) : Ends P (onStop g x) s := fun a t h => by
  cases hxu : x s with
  | ok b u => rw [onStop_ok hxu] at h; cases h; exact hx _ _ hxu
  | error e u => rw [onStop_error hxu] at h; cases h

theorem ends_endPass (hP : Lasting P) (hx : Ends P x s) : Ends P (endPass w x) s := fun a t h => by
  cases hxu : x s with
  | ok b u => rw [endPass_ok hxu] at h; cases h; exact hP u _ (spared_unbind w u) (hx _ _ hxu)
  | error e u => rw [endPass_error hxu] at h; cases h

end Sys2Proof.Machine
end

section
/-! What each unit's operation does to the bindings (R25, R422): most spare all of them; a writing
operation may have written under its own unit's binding; an INIT makes its unit's. -/

namespace Sys2Proof.Machine

variable {α β : Type} {s t : State} {v w : UnitId} {E W : List UnitId}

/-! ### PAL -/

theorem spares_checkSlot {slot : Nat} : Spares E W (checkSlot w slot) s := spares_raiseIf

theorem spares_checkMade {slot : Nat} : Spares E W (checkMade w slot) s := Closed.get spares_raiseIf

theorem spares_view8 {slot : Nat} : Spares E W (view8 w slot) s :=
  spares_bind spares_checkSlot fun _ _ _ => spares_bind spares_checkMade fun _ _ _ =>
    Closed.get (spares_pure _)

theorem spares_raiseUnset {p : Slot} {n : Nat} : Spares E W (raiseUnset w p n) s := by
  unfold raiseUnset
  split
  · exact spares_raise
  · exact spares_pure _

theorem spares_palCreate (slot count : Nat) (bpc : Option Nat) :
    Spares E W (palCreateOp slot count bpc) s :=
  spares_clear <| spares_bind spares_checkSlot fun _ _ _ => spares_check fun _ => spares_check fun _ =>
    spares_set rfl rfl (spares_pure _)

theorem spares_palSet (slot i : Nat) (r g b : U32) (a : Option U32) :
    Spares E W (palSetOp slot i r g b a) s :=
  spares_enter <| spares_bind spares_checkSlot fun _ _ _ => spares_bind spares_checkMade fun _ _ _ =>
    Closed.get <| spares_check fun _ => spares_set rfl rfl (spares_pure _)

theorem spares_palGet (slot i : Nat) : Spares E W (palGetOp slot i) s :=
  spares_enter <| spares_bind spares_checkSlot fun _ _ _ => spares_bind spares_checkMade fun _ _ _ =>
    Closed.get <| spares_check fun _ => spares_check fun _ => spares_pure _

theorem spares_palResample (sd ss nb : Nat) : Spares E W (palResampleOp sd ss nb) s :=
  spares_enter <| spares_bind spares_checkSlot fun _ _ _ => spares_bind spares_checkSlot fun _ _ _ =>
    spares_bind spares_checkMade fun _ _ _ => spares_check fun _ =>
      Closed.get <| spares_set rfl rfl (spares_pure _)

theorem spares_palToval (slot : Nat) (alpha : Option Bool) : Spares E W (palTovalOp slot alpha) s :=
  spares_enter <| spares_bind spares_checkSlot fun _ _ _ => spares_bind spares_checkMade fun _ _ _ =>
    Closed.get <| spares_bind spares_raiseUnset fun _ _ _ => spares_pure _

theorem spares_palFromval (slot : Nat) (vs : List U32) (bpc : Option Nat) (alpha : Option Bool) :
    Spares E W (palFromvalOp slot vs bpc alpha) s :=
  spares_enter <| spares_bind spares_checkSlot fun _ _ _ => spares_check fun _ => spares_check fun _ =>
    spares_set rfl rfl (spares_pure _)

theorem spares_memRead {r : BufRef} {off n : Nat} : Spares E W (memRead w r off n) s :=
  spares_check fun _ => Closed.get (spares_pure _)

theorem spares_collectColours (r : BufRef) : ∀ (n k : Nat) (found : List U32) (s : State),
    Spares E W (collectColours r k n found) s
  | 0, _, _, _ => spares_pure _
  | n + 1, k, found, s => spares_bind spares_memRead fun c t _ => by
    dsimp only
    split
    · exact spares_collectColours r n _ _ t
    · exact spares_check fun _ => spares_collectColours r n _ _ t

theorem spares_palFrompix (slot buf : Nat) : Spares E W (palFrompixOp slot buf) s :=
  spares_enter <| spares_bind spares_checkSlot fun _ _ _ => Closed.get <|
    spares_bind (spares_collectColours _ _ _ _ _) fun _ _ _ => spares_palFromval _ _ _ _

theorem spares_palMono (slot : Nat) : Spares E W (palMonoOp slot) s :=
  spares_enter <| spares_bind spares_checkSlot fun _ _ _ => spares_set rfl rfl (spares_pure _)

theorem spares_palEhb (sd ss : Nat) : Spares E W (palEhbOp sd ss) s :=
  spares_enter <| spares_bind spares_checkSlot fun _ _ _ => spares_bind spares_checkSlot fun _ _ _ =>
    spares_bind spares_checkMade fun _ _ _ => Closed.get <| spares_check fun _ =>
      spares_bind spares_raiseUnset fun _ _ _ => spares_set rfl rfl (spares_pure _)

theorem spares_palPlanes (slot : Nat) : Spares E W (palPlanesOp slot) s :=
  spares_enter <| spares_bind spares_checkSlot fun _ _ _ => spares_bind spares_checkMade fun _ _ _ =>
    Closed.get (spares_pure _)

/-! ### BPR and BPW -/

theorem spares_bprReadCore : Spares E W bprReadCore s := by
  have step (t : State) : Spares E W (do
      let t ← get
      modify fun s => { s with bpr := { s.bpr with cur := stepCursor s.bpr.geom s.bpr.cur } }
      pure (bprCached t) : Op Byte) t := Closed.get <| spares_set rfl rfl (spares_pure _)
  have fetch : Spares E W bprFetch s := by
    refine Closed.get ?_
    dsimp only
    split
    · exact spares_raise
    · exact spares_quiet rfl rfl
  refine Closed.get ?_
  dsimp only
  split
  · exact spares_bind fetch fun _ t _ => step t
  · exact spares_bind (spared_closed E W).refuseIf fun _ t _ => step t

theorem spares_bprRead : Spares E W bprReadOp s := spares_enter spares_bprReadCore

theorem spares_bprAdv (n : Nat) : Spares E W (bprAdvOp n) s :=
  spares_enter <| spares_bind (spares_times (fun _ => spares_map spares_bprReadCore) n)
    fun _ _ _ => spares_pure _

theorem spares_bprEof : Spares E W bprEofOp s := spares_enter <| Closed.get (spares_pure _)

theorem lt_of_firstPlanePastEnd_none {g : Geometry} {c : Cursor} {len : Nat} : ∀ {n start : Nat},
    firstPlanePastEnd g c len start n = none → ∀ i < n, planeOffset g c (start + i) < len
  | 0, _, _, _, hi => absurd hi (Nat.not_lt_zero _)
  | n + 1, start, h, i, hi => by
    unfold firstPlanePastEnd at h
    split at h
    · cases h
    · rename_i hlt
      cases i with
      | zero => exact Nat.lt_of_not_le hlt
      | succ i =>
        have := lt_of_firstPlanePastEnd_none h i (by omega)
        rwa [Nat.add_right_comm] at this

/-- The bytes that a write ORs are those of the set planes, all inside the buffer (R183). -/
theorem writes_planesWritten {m : Mem} {r : BufRef} {g : Geometry} {c : Cursor} {index : Nat}
    (h : firstPlanePastEnd g c r.len 0 g.planeCount = none) :
    Writes (covered (planesWritten r g c index)) m (orPlanes m r g c index g.planeCount) := by
  refine (writes_orPlanes m r g c index g.planeCount).mono fun id a ha => ?_
  obtain ⟨rfl, i, hi, hbit, rfl⟩ := ha
  have hlt := lt_of_firstPlanePastEnd_none h i hi
  rw [Nat.zero_add] at hlt
  refine ⟨windowOf r (planeOffset g c i) 1, ?_, rfl, le_rfl, by simp only [windowOf]; omega⟩
  exact List.mem_map.mpr ⟨i, List.mem_filter.mpr ⟨List.mem_range.mpr hi, hbit⟩, rfl⟩

theorem spares_bpwWrite (hw : .bpw ∈ E ∨ .bpw ∈ W) (index : Nat) :
    Spares E W (bpwWriteOp index) s :=
  spares_enter <| Closed.get <| spares_check fun _ => by
    dsimp only
    split
    · exact spares_raise
    · rename_i h
      exact (spared_closed E W).set
        (spared_overwrite (by rfl) (by exact writes_planesWritten h) fun _ => hw) (spares_pure _)

theorem spares_bpwAdv (n : Nat) : Spares E W (bpwAdvOp n) s :=
  spares_enter <| spares_set rfl rfl (spares_pure _)

theorem spares_bpwEof : Spares E W bpwEofOp s := spares_enter <| Closed.get (spares_pure _)

/-! ### PXR and PXW -/

theorem spares_memWrite {r : BufRef} {off n k : Nat} (hw : keepsBinding w = true → w ∈ E ∨ w ∈ W) :
    Spares E W (memWrite w r off n k) s :=
  spares_check fun h => leads_modify <|
    spared_write (Nat.le_of_not_lt h) rfl (writes_beWrite s.mem r off n k) hw

theorem spares_pxrRead : Spares E W pxrReadOp s :=
  spares_enter <| Closed.get <| spares_bind spares_memRead fun _ _ _ => by
    dsimp only
    split
    · exact spares_raise
    · exact spares_set rfl rfl (spares_pure _)

theorem spares_pxrSetpal (slot : Nat) : Spares E W (pxrSetpalOp slot) s :=
  spares_enter <| spares_bind spares_view8 fun _ _ _ => spares_set rfl rfl (spares_pure _)

theorem spares_pxrAdv (n : Nat) : Spares E W (pxrAdvOp n) s :=
  spares_enter <| spares_set rfl rfl (spares_pure _)

theorem spares_pxwStore (hw : .pxw ∈ E ∨ .pxw ∈ W) (colour : U32) :
    Spares E W (pxwStore colour) s :=
  Closed.get <| spares_bind (spares_memWrite fun _ => hw) fun _ _ _ =>
    spares_set rfl rfl (spares_pure _)

theorem spares_pxwWrite (hw : .pxw ∈ E ∨ .pxw ∈ W) (index : Nat) :
    Spares E W (pxwWriteOp index) s :=
  spares_enter <| Closed.get <| spares_check fun _ => spares_check fun _ => spares_pxwStore hw _

theorem spares_pxwWritec (hw : .pxw ∈ E ∨ .pxw ∈ W) (colour : U32) :
    Spares E W (pxwWritecOp colour) s := spares_enter <| spares_pxwStore hw colour

theorem spares_pxwSetpal (slot : Nat) : Spares E W (pxwSetpalOp slot) s :=
  spares_enter <| spares_bind spares_view8 fun _ _ _ => spares_set rfl rfl (spares_pure _)

theorem spares_pxwAdv (n : Nat) : Spares E W (pxwAdvOp n) s :=
  spares_enter <| spares_set rfl rfl (spares_pure _)

/-! ### PBD -/

/-- A decoder keeps no binding between operations, so nothing of its own is in its writes' reach. -/
theorem spared_pbdSpoil (s : State) : Spared E W s (pbdSpoil s) := spared_spoil (w := .pbd) nofun _ _ _ s

theorem spares_pbdNext : Spares E W pbdNext s :=
  Closed.get <| spares_check fun _ => spares_set rfl rfl (spares_pure _)

theorem spares_pbdEmit (b : Byte) : Spares E W (pbdEmit b) s :=
  Closed.get <| spares_bind (spares_memWrite nofun) fun _ _ _ => spares_quiet rfl rfl

theorem spares_whileRoom {x : Op Unit} (hx : ∀ s, Spares E W x s) : Spares E W (whileRoom x) s := by
  refine Closed.get ?_
  split
  · exact hx s
  · exact spares_pure _

theorem spares_pbCommand (c : PbCmd) : Spares E W (pbCommand c) s := by
  cases c with
  | nop => exact spares_quiet rfl rfl
  | run n =>
    exact spares_set rfl rfl <| spares_bind spares_pbdNext fun v _ _ =>
      spares_times (fun _ => spares_whileRoom fun _ => spares_pbdEmit v) _
  | lit n =>
    exact spares_set rfl rfl <| spares_times (fun _ => spares_whileRoom fun _ =>
      spares_bind spares_pbdNext fun _ _ _ => spares_pbdEmit _) _

theorem spares_depackLoop : ∀ (n : Nat) (s : State), Spares E W (depackLoop n) s
  | 0, _ => spares_pure _
  | n + 1, s => by
    refine Closed.get ?_
    split
    · exact spares_bind (Closed.get (spares_check fun _ => spares_pure _)) fun _ _ _ =>
        spares_bind (spares_pbCommand _) fun _ t _ => spares_depackLoop n t
    · exact spares_pure _

theorem spares_pbAlone {x : Op Unit} (hx : ∀ s, Spares E W x s) : Spares E W (pbAlone x) s :=
  spares_enter <| spares_bind (spares_onStop (hx s) spared_pbdSpoil) fun _ _ _ => spares_pure _

/-! ### VDD -/

variable {lay : Config.VdatLayout}

theorem spares_vddStop (st : VddStatus) : Spares E W (vddStop st) s :=
  spares_set rfl rfl (spares_pure _)

theorem spares_vddSkipCmd : Spares E W (vddSkipCmd lay) s := spares_quiet rfl rfl

theorem spares_vddNextWord : Spares E W (vddNextWord lay) s := by
  refine Closed.get ?_
  dsimp only
  split
  · exact spares_pure _
  · exact spares_bind spares_memRead fun _ _ _ => spares_set rfl rfl (spares_pure _)

theorem spares_vddEmit (b : Byte × Byte) : Spares E W (vddEmit b) s := by
  refine Closed.get ?_
  dsimp only
  split
  · exact spares_vddStop _
  · exact spares_bind (spares_memWrite nofun) fun _ _ _ => spares_set rfl rfl (spares_pure _)

theorem spares_vddCopyOne : Spares E W (vddCopyOne lay) s :=
  spares_bind spares_vddNextWord fun b _ _ => by
    cases b with
    | none => exact Closed.get (spares_vddStop _)
    | some b => exact spares_vddEmit b

theorem spares_vddRepeat {x : Op Bool} (hx : ∀ s, Spares E W x s) : ∀ (n : Nat) (s : State),
    Spares E W (vddRepeat x n) s
  | 0, _ => spares_pure _
  | n + 1, s => spares_bind (hx s) fun _ t _ => by
    split
    · exact spares_pure _
    · exact spares_vddRepeat hx n t

/-- A word of the source, or the end of it. -/
theorem spares_vddWord {k : Option (Byte × Byte) → Op Bool} {st : VddStatus}
    (hnone : k none = vddStop st) (hsome : ∀ b s, Spares E W (k (some b)) s) :
    Spares E W (vddNextWord lay >>= k) s :=
  spares_bind spares_vddNextWord fun b t _ => by
    cases b with
    | none =>
      rw [hnone]
      exact spares_vddStop st
    | some b => exact hsome b t

theorem spares_vdCommand (c : VdCmd) : Spares E W (vdCommand lay c) s := by
  cases c with
  | copyx =>
    exact spares_bind spares_vddSkipCmd fun _ _ _ => spares_vddWord rfl fun _ _ =>
      spares_vddRepeat (fun _ => spares_vddCopyOne) _ _
  | copy n =>
    exact spares_bind spares_vddSkipCmd fun _ _ _ => spares_vddRepeat (fun _ => spares_vddCopyOne) _ _
  | runx =>
    exact spares_bind spares_vddSkipCmd fun _ _ _ => spares_vddWord rfl fun _ _ =>
      spares_vddWord rfl fun b _ => spares_vddRepeat (fun _ => spares_vddEmit b) _ _
  | run n =>
    exact spares_bind spares_vddSkipCmd fun _ _ _ => spares_vddWord rfl fun b _ =>
      spares_vddRepeat (fun _ => spares_vddEmit b) _ _

theorem spares_vddLoop : ∀ (n : Nat) (s : State), Spares E W (vddLoop lay n) s
  | 0, _ => spares_pure _
  | n + 1, s => by
    refine Closed.get ?_
    split
    · exact spares_map (spares_vddStop _)
    · split
      · exact spares_map (spares_vddStop _)
      · exact spares_bind spares_memRead fun _ _ _ => spares_bind (spares_vdCommand _) fun _ t _ => by
          split
          · exact spares_pure _
          · exact spares_vddLoop n t

theorem spares_vdAlone {x : Op Bool} (hx : ∀ s, Spares E W x s) : Spares E W (vdAlone x) s :=
  spares_enter <| spares_bind (spares_onStop (hx s) fun t => spared_spoil (w := .vdd) nofun _ _ _ t)
    fun _ _ _ => spares_pure _

/-! ### CKR -/

theorem spares_ckrReadchunk : Spares E W ckrReadchunkOp s :=
  spares_enter <| Closed.get <| spares_check fun _ => spares_check fun _ =>
    spares_set rfl rfl (spares_pure _)

theorem spares_ckrPeek : Spares E W ckrPeekOp s :=
  spares_enter <| Closed.get <| by
    dsimp only
    split <;> exact spares_pure _

theorem spares_ckrEof : Spares E W ckrEofOp s := spares_enter <| Closed.get (spares_pure _)

theorem spares_ckrEnter (base length : Nat) : Spares E W (ckrEnterOp base length) s :=
  spares_enter <| Closed.get <| spares_check fun _ => spares_check fun _ => spares_quiet rfl rfl

theorem spares_ckrLeave : Spares E W ckrLeaveOp s :=
  spares_enter <| Closed.get <| spares_check fun _ => spares_quiet rfl rfl

theorem spares_ckrRead (n : Nat) : Spares E W (ckrReadOp n) s :=
  spares_enter <| Closed.get <| spares_check fun _ => spares_set rfl rfl (spares_pure _)

/-! ### HAM -/

theorem spares_hamPixel (sel : HamSel) (p data : Nat) : Spares E W (hamPixel sel p data) s := by
  cases sel with
  | base =>
    exact Closed.get <| spares_check fun _ => spares_check fun _ => spares_quiet rfl rfl
  | modb => exact spares_quiet rfl rfl
  | modr => exact spares_quiet rfl rfl
  | modg => exact spares_quiet rfl rfl

theorem spares_hamInit (p slot : Nat) : Spares E W (hamInitOp p slot) s :=
  spares_clear <| spares_check fun _ => spares_bind spares_view8 fun _ _ _ =>
    spares_set rfl rfl (spares_pure _)

theorem spares_hamSetpal (slot : Nat) : Spares E W (hamSetpalOp slot) s :=
  spares_enter <| spares_bind spares_view8 fun _ _ _ => spares_set rfl rfl (spares_pure _)

theorem spares_hamRead : Spares E W hamReadOp s :=
  spares_enter <| Closed.get <| spares_check fun _ =>
    spares_bind (spares_callFrom spares_bprRead) fun _ _ _ =>
      spares_bind (spares_hamPixel _ _ _) fun _ _ _ => Closed.get (spares_pure _)

theorem spares_hamAdv (n : Nat) : Spares E W (hamAdvOp n) s :=
  spares_enter <| spares_callFrom (spares_bprAdv n)

theorem spares_hamAlone (sel : HamSel) (p data : Nat) : Spares E W (hamAlone sel p data) s :=
  spares_enter <| Closed.get <| spares_check fun _ =>
    spares_bind (spares_hamPixel _ _ _) fun _ _ _ => Closed.get (spares_pure _)

/-! ### RPA -/

theorem spares_rpaConfig (height : Nat) (c : Consumer) : Spares E W (rpaConfigOp height c) s :=
  spares_clear <| spares_set rfl rfl (spares_pure _)

theorem spares_rpaLoad (k slot : Nat) : Spares E W (rpaLoadOp k slot) s :=
  spares_enter <| Closed.get <| spares_check fun _ => spares_bind spares_view8 fun _ _ _ =>
    spares_set rfl rfl (spares_pure _)

theorem spared_installLut (c : Consumer) (l : Lut) (s : State) : Spared E W s (installLut c l s) := by
  cases c <;> exact spared_quiet rfl rfl

theorem spares_rpaSelect (y : Nat) : Spares E W (rpaSelectOp y) s :=
  spares_enter <| Closed.get <| by
    split
    · exact spares_pure _
    · exact spares_check fun _ => (spared_closed E W).set (spared_installLut _ _ _) (spares_pure _)

/-! ### PBE and CKW -/

theorem spares_pbeEmit (dst : BufRef) (pos : Nat) (bytes : List Byte) :
    Spares E W (pbeEmit dst pos bytes) s :=
  spares_check fun h => (spared_closed E W).set
    (spared_write (Nat.le_of_not_lt h) rfl (writes_writeBytes dst bytes s.mem pos) nofun)
    (spares_pure _)

theorem spares_pbeFlush (dst : BufRef) (pos : Nat) (dump : List Byte) :
    Spares E W (pbeFlush dst pos dump) s := by
  unfold pbeFlush
  split
  · exact spares_pure _
  · exact spares_pbeEmit _ _ _

theorem spares_packLine (src dst : BufRef) (e : Nat) : ∀ (n i pos : Nat) (dump : List Byte)
    (s : State), Spares E W (packLine src dst e n i pos dump) s
  | 0, _, _, _, _ => spares_pbeFlush _ _ _
  | n + 1, i, pos, dump, s => by
    unfold packLine
    split
    · exact spares_pbeFlush _ _ _
    · refine Closed.get ?_
      dsimp only
      split
      · exact spares_bind (spares_pbeFlush _ _ _) fun _ _ _ =>
          spares_bind (spares_pbeEmit _ _ _) fun _ t _ => spares_packLine src dst e n _ _ _ t
      · split
        · exact spares_bind (spares_pbeEmit _ _ _) fun _ t _ => spares_packLine src dst e n _ _ _ t
        · exact spares_packLine src dst e n _ _ _ s

theorem spares_packLines (src dst : BufRef) (bpl : Nat) : ∀ (n start pos : Nat) (s : State),
    Spares E W (packLines src dst bpl n start pos) s
  | 0, _, _, _ => spares_pure _
  | n + 1, _, _, _ => spares_bind (spares_packLine _ _ _ _ _ _ _ _) fun _ t _ =>
    spares_packLines src dst bpl n _ _ t

theorem spares_pbePack (src dst : BufRef) (bpl : Nat) : Spares E W (pbePackOp src bpl dst) s :=
  spares_clear <| spares_check fun _ => (spared_closed E W).set (spared_claim _ _ _) <|
    spares_onStop (spares_packLines _ _ _ _ _ _ _) fun t => spared_spoil (w := .pbe) nofun _ _ _ t

theorem spared_ckwStart (hw : .ckw ∈ E ∨ .ckw ∈ W) {m : Mem} {c : Ckw}
    (hroom : evenUp s.ckw.pos + 8 ≤ (refOf s.ckw.dst).len) (hc : c.dst = s.ckw.dst)
    (hm : Writes (inRange (refOf s.ckw.dst) s.ckw.pos (evenUp s.ckw.pos + 8)) s.mem m) :
    Spared E W s (overwrite .ckw
      [windowOf (refOf s.ckw.dst) s.ckw.pos (evenUp s.ckw.pos + 8 - s.ckw.pos)]
      { s with mem := m, ckw := c }) := by
  have hend : s.ckw.pos + (evenUp s.ckw.pos + 8 - s.ckw.pos) = evenUp s.ckw.pos + 8 := by
    unfold evenUp
    omega
  refine spared_write (by omega) (by simp [bindings, hc]) ?_ fun _ => hw
  rwa [hend]

theorem spares_ckwStart (hw : .ckw ∈ E ∨ .ckw ∈ W) (tag : U32) : Spares E W (ckwStartOp tag) s :=
  spares_enter <| Closed.get <| spares_check fun _ => spares_check fun _ => spares_check fun _ =>
    spares_check fun hroom => leads_modify <|
      spared_ckwStart hw (Nat.le_of_not_lt hroom) rfl (writes_startChunk _ _ _ tag)

theorem spares_ckwEnd (hw : .ckw ∈ E ∨ .ckw ∈ W) : Spares E W ckwEndOp s :=
  spares_enter <| Closed.get <| spares_check fun _ =>
    spares_bind (spares_memWrite fun _ => hw) fun _ _ _ => spares_set rfl rfl (spares_pure _)

theorem spares_ckwWrite (hw : .ckw ∈ E ∨ .ckw ∈ W) (n k : Nat) : Spares E W (ckwWriteOp n k) s :=
  spares_enter <| Closed.get <| spares_bind (spares_memWrite fun _ => hw) fun _ _ _ =>
    spares_quiet rfl rfl

end Sys2Proof.Machine
end

section
/-! The operations that make bindings (R25, R422): each INIT makes its unit's and no other; every pass,
those of a decoder's and of the sequencer's operations, ends the ones it made. -/

namespace Sys2Proof.Machine

variable {α β : Type} {s t : State} {u v w : UnitId} {E W : List UnitId} {r : BufRef}

/-! ### The checks of an INIT -/

theorem still_clear : Leads Still (clearFault w) s := leads_clearFault (still_withFault _ _ _)

theorem still_raiseIf {p : Prop} [Decidable p] {c : FaultCode} {n : Nat} :
    Leads Still (raiseIf p w c n) s := by
  unfold raiseIf
  split
  · exact leads_raise (still_withFault _ _ _)
  · exact still_closed.pure _

theorem still_view8 {slot : Nat} : Leads Still (view8 w slot) s :=
  still_closed.bind still_raiseIf fun _ _ _ _ =>
    still_closed.bind (Closed.get still_raiseIf) fun _ _ _ _ => Closed.get (still_closed.pure _)

/-! ### A unit's own record: no other unit's bindings stand in it -/

theorem holds_bpr_ne (b : Bpr) (s : State) (w : UnitId) (hw : w ≠ .bpr) :
    holds w { s with bpr := b } = holds w s := by
  cases w with
  | bpr => exact absurd rfl hw
  | _ => rfl

theorem holds_bpw_ne (b : Bpw) (s : State) (w : UnitId) (hw : w ≠ .bpw) :
    holds w { s with bpw := b } = holds w s := by
  cases w with
  | bpw => exact absurd rfl hw
  | _ => rfl

theorem holds_pxr_ne (b : PixUnit) (s : State) (w : UnitId) (hw : w ≠ .pxr) :
    holds w { s with pxr := b } = holds w s := by
  cases w with
  | pxr => exact absurd rfl hw
  | _ => rfl

theorem holds_pxw_ne (b : PixUnit) (s : State) (w : UnitId) (hw : w ≠ .pxw) :
    holds w { s with pxw := b } = holds w s := by
  cases w with
  | pxw => exact absurd rfl hw
  | _ => rfl

theorem holds_ckr_ne (b : Ckr) (s : State) (w : UnitId) (hw : w ≠ .ckr) :
    holds w { s with ckr := b } = holds w s := by
  cases w with
  | ckr => exact absurd rfl hw
  | _ => rfl

theorem holds_ckw_ne (b : Ckw) (s : State) (w : UnitId) (hw : w ≠ .ckw) :
    holds w { s with ckw := b } = holds w s := by
  cases w with
  | ckw => exact absurd rfl hw
  | _ => rfl

theorem holds_pbd_ne (b : Pbd) (s : State) (w : UnitId) (hw : w ≠ .pbd) :
    holds w { s with pbd := b } = holds w s := by
  cases w with
  | pbd => exact absurd rfl hw
  | _ => rfl

theorem holds_vdd_ne (b : Vdd) (s : State) (w : UnitId) (hw : w ≠ .vdd) :
    holds w { s with vdd := b } = holds w s := by
  cases w with
  | vdd => exact absurd rfl hw
  | _ => rfl

/-! ### The INITs -/

theorem binds_bprInit (r : BufRef) (g : Geometry) : Binds Eq .bpr r (bprInitOp r g) s :=
  binds_after still_clear fun _ _ => binds_after still_raiseIf fun _ _ =>
    (binds_set ⟨rfl, rfl, holds_bpr_ne _ _⟩).map _

theorem binds_bpwInit (r : BufRef) (g : Geometry) :
    Binds (Claimed .bpw r) .bpw r (bpwInitOp r g) s :=
  binds_after still_clear fun _ _ => binds_after still_raiseIf fun _ _ =>
    (binds_claim ⟨rfl, rfl, holds_bpw_ne _ _⟩).map _

theorem binds_pxrInit (r : BufRef) (slot : Nat) : Binds Eq .pxr r (pxrInitOp r slot) s :=
  binds_after still_clear fun _ _ => binds_after still_view8 fun _ _ =>
    (binds_set ⟨rfl, rfl, holds_pxr_ne _ _⟩).map _

theorem binds_pxwInit (r : BufRef) (slot : Nat) :
    Binds (Claimed .pxw r) .pxw r (pxwInitOp r slot) s :=
  binds_after still_clear fun _ _ => binds_after still_view8 fun _ _ =>
    (binds_claim ⟨rfl, rfl, holds_pxw_ne _ _⟩).map _

theorem binds_ckrOpen (r : BufRef) : Binds Eq .ckr r (ckrOpenOp r) s :=
  binds_after still_clear fun _ _ => (binds_set ⟨rfl, rfl, holds_ckr_ne _ _⟩).map _

theorem binds_ckwInit (r : BufRef) : Binds (Claimed .ckw r) .ckw r (ckwInitOp r) s :=
  binds_after still_clear fun _ _ => binds_claim ⟨rfl, rfl, holds_ckw_ne _ _⟩

/-- After a writing unit's INIT no other writing unit is bound to any of its bytes. -/
theorem Claimed.ends {r' : BufRef} {id a : Nat} (h : Claimed u r s t)
    (hv : v ∈ [UnitId.bpw, .pxw, .ckw]) (hvu : v ≠ u) (hr : bindingOf v s = some r')
    (ha : inWindow r id a) (ha' : inWindow r' id a) : bindingOf v t = none := by
  rw [h, bindingOf_claim hv]
  rcases outlived_cases u v [r] (bindingOf v s) with ⟨hnone, -⟩ | ⟨-, hout⟩
  · exact hnone
  · rw [hr] at hout
    exact absurd ha' (hout hvu id a ((covered_cons id a).mpr (.inl ha)))

theorem inWindow_wholeBuf {m : Mem} {id a : Nat} (h : a < (bufAt m id).len) :
    inWindow (wholeBuf m id) id a := ⟨rfl, Nat.zero_le a, (Nat.zero_add _).symm ▸ h⟩

/-- The same where the INIT completes. -/
theorem Binds.ends_claimed {x : Op β} {r' : BufRef} {id a : Nat} (hx : Binds (Claimed u r) u r x s)
    (hv : v ∈ [UnitId.bpw, .pxw, .ckw]) (hvu : v ≠ u) (hr : Machine.bindingOf v s = some r')
    (ha : inWindow r id a) (ha' : inWindow r' id a) :
    Ends (fun t => Machine.bindingOf v t = none) x s := fun b t h => by
  obtain ⟨w, ⟨-, -, hother⟩, hclaim⟩ := hx.1 b t h
  exact hclaim.ends hv hvu ((bindingOf_of_holds (hother v hvu)).trans hr) ha ha'

/-! ### The decoders -/

/-- A decoder's start binds only the decoder (R226, R243). -/
theorem spared_pbdStart (p : Pbd) (r : BufRef) (s : State) :
    Spared (.pbd :: E) W s (claim .pbd r { s with pbd := p }) :=
  (spared_closed _ W).trans (spared_except (u := { s with pbd := p }) rfl (holds_pbd_ne p s)) (spared_claim .pbd r _)

theorem spared_vddStart (p : Vdd) (r : BufRef) (s : State) :
    Spared (.vdd :: E) W s (claim .vdd r { s with vdd := p }) :=
  (spared_closed _ W).trans (spared_except (u := { s with vdd := p }) rfl (holds_vdd_ne p s)) (spared_claim .vdd r _)

theorem spares_pbdDepack (src dst : BufRef) (sp dbase outSize : Nat) :
    Spares E W (pbdDepackOp src sp dst dbase outSize) s :=
  spares_clear <| spares_check fun _ => spares_check fun _ =>
    spares_passFrom (spared_pbdStart _ _ _)
      (spares_bind (spares_endPass (spares_onStop (spares_depackLoop _ _) spared_pbdSpoil))
        fun _ _ _ => Closed.get (spares_pure _))
      (frees_bind frees_endPass fun _ _ => Closed.get (spares_pure _))

theorem spares_vddDecode {lay : Config.VdatLayout} (src dst : BufRef) (base len dbase bpl h : Nat) :
    Spares E W (vddDecodeOp lay src base len dst dbase bpl h) s :=
  spares_clear <| spares_check fun _ => spares_check fun _ => spares_check fun _ =>
    spares_check fun _ =>
      spares_passFrom (spared_vddStart _ _ _)
        (spares_bind (spares_endPass (spares_vddLoop _ _)) fun _ _ _ => Closed.get (spares_pure _))
        (frees_bind frees_endPass fun _ _ => Closed.get (spares_pure _))

/-! ### The generic codec -/

theorem spares_setSeqState (st : SeqState) : Spares E W (setSeqState st) s := spares_quiet rfl rfl

theorem spares_decodePixel (hw : .pxw ∈ E ∨ .pxw ∈ W) : Spares E W decodePixel s :=
  spares_bind (spares_seqCall spares_bprRead) fun _ _ _ =>
    spares_map (spares_seqCall (spares_pxwWrite hw _))

theorem spares_decodeLine (hw : .pxw ∈ E ∨ .pxw ∈ W) (w pad : Nat) :
    Spares E W (decodeLine w pad) s :=
  spares_bind (spares_times (fun _ => spares_decodePixel hw) w) fun _ _ _ =>
    spares_map (spares_seqCall (spares_bprAdv pad))

theorem spares_decodePass (b : BufRef) (slot w h p : Nat) (f : PlaneFormat) (x : BufRef) :
    Spares [] [] (decodePass b slot w h p f x) s :=
  (binds_bprInit b _).of_eq.seqCall.pass fun _ _ _ => ⟨spares_endPass <|
    (binds_pxwInit x slot).of_claimed.seqCall.pass fun _ _ _ => ⟨spares_endPass <|
      spares_times (fun _ => spares_decodeLine (.inl List.mem_cons_self) _ _) h, frees_endPass⟩,
    frees_endPass⟩

theorem decodePass_ends_bpr (b : BufRef) (slot w h p : Nat) (f : PlaneFormat) (x : BufRef) :
    Ends (Freed .bpr) (decodePass b slot w h p f x) s :=
  ends_last fun _ _ => ends_of_frees frees_endPass

theorem decodePass_ends_pxw (b : BufRef) (slot w h p : Nat) (f : PlaneFormat) (x : BufRef) :
    Ends (Freed .pxw) (decodePass b slot w h p f x) s :=
  ends_last fun _ _ => ends_endPass (lasting_freed _) <| ends_last fun _ _ => ends_of_frees frees_endPass

theorem spared_seqSpoil (r : BufRef) (off n : Nat) (s : State) : Spared E W s (spoil .seq r off n s) :=
  spared_spoil (w := .seq) nofun r off n s

theorem spares_seqDecode (b : BufRef) (slot w h p : Nat) (f : PlaneFormat) (x : BufRef) :
    Spares [] [] (seqDecodeOp b slot w h p f x) s :=
  spares_clear <| spares_check fun _ => spares_check fun _ =>
    spares_bind (spares_onStop (spares_decodePass b slot w h p f x) (spared_seqSpoil _ _ _))
      fun _ _ _ => spares_map (spares_setSeqState _)

/-- What holds after the pass holds after `SEQ.DECODE`. -/
theorem seqDecode_ends {P : State → Prop} (hP : Lasting P) {b x : BufRef} {slot w h p : Nat}
    {f : PlaneFormat} (hpass : ∀ s, Ends P (decodePass b slot w h p f x) s) :
    Ends P (seqDecodeOp b slot w h p f x) s :=
  ends_last fun _ _ => ends_last fun _ _ => ends_last fun _ _ =>
    ends_first hP (ends_onStop (hpass _)) fun _ _ => spares_map (spares_setSeqState _)

theorem spared_clearRange {r : BufRef} {n : Nat} (h : n ≤ r.len) (s : State) :
    Spared E W s (clearRange r n s) := by
  have hwrites := writes_zeroRange s.mem r 0 n
  exact spared_write (w := .seq) (by omega) rfl hwrites nofun

theorem spares_encodePixel (hw : .bpw ∈ E ∨ .bpw ∈ W) : Spares E W encodePixel s :=
  spares_bind (spares_seqCall spares_pxrRead) fun _ _ _ =>
    spares_map (spares_seqCall (spares_bpwWrite hw _))

/-- The checks of `SEQ.ENCODE` once the plane count is known (R313). -/
def sizeChecks (x : BufRef) (w h : Nat) (b : BufRef) (p : Nat) : Op Nat := do
  raiseIf (p = 0 ∨ Config.planesMax < p) .seq .badPlanes p
  raiseIf (w % 16 ≠ 0) .seq .badWidth w
  raiseIf (b.len < encodeSize w h p) .seq .bufSmall (encodeSize w h p)
  raiseIf (x.len < 4 * w * h) .seq .bufSmall (4 * w * h)
  pure p

theorem encodeChecks_eq (x : BufRef) (slot w h : Nat) (p : Option Nat) (b : BufRef) :
    encodeChecks x slot w h p b =
      p.elim (seqCall .pal (palPlanesOp slot)) pure >>= sizeChecks x w h b := by
  cases p <;> rfl

theorem spares_encodeChecks (x : BufRef) (slot w h : Nat) (p : Option Nat) (b : BufRef) :
    Spares E W (encodeChecks x slot w h p b) s := by
  rw [encodeChecks_eq]
  refine spares_bind ?_ fun _ _ _ => spares_check fun _ => spares_check fun _ => spares_check fun _ =>
    spares_check fun _ => spares_pure _
  cases p with
  | some p => exact spares_pure p
  | none => exact spares_seqCall (spares_palPlanes slot)

theorem ok_of_raiseIf_ok {p : Prop} [Decidable p] {c : FaultCode} {n : Nat} {a : Unit}
    (h : raiseIf p u c n s = .ok a t) : ¬ p ∧ t = s := by
  by_cases hp : p
  · rw [raiseIf_true hp] at h
    cases h
  · rw [raiseIf_false hp] at h
    cases h
    exact ⟨hp, rfl⟩

/-- The planes fit their buffer, or the checks fail (R313). -/
theorem encodeChecks_room {x b : BufRef} {slot w h : Nat} {p : Option Nat} {q : Nat}
    (hq : encodeChecks x slot w h p b s = .ok q t) : encodeSize w h q ≤ b.len := by
  rw [encodeChecks_eq] at hq
  obtain ⟨p, t0, -, hq⟩ := ok_of_bind_ok hq
  obtain ⟨_, t1, -, hq⟩ := ok_of_bind_ok hq
  obtain ⟨_, t2, -, hq⟩ := ok_of_bind_ok hq
  obtain ⟨_, t3, hroom, hq⟩ := ok_of_bind_ok hq
  obtain ⟨_, t4, -, hq⟩ := ok_of_bind_ok hq
  cases hq
  exact Nat.le_of_not_lt (ok_of_raiseIf_ok hroom).1

theorem spares_encodePass {b : BufRef} {w h p : Nat} (hroom : encodeSize w h p ≤ b.len) (x : BufRef)
    (slot : Nat) (f : PlaneFormat) : Spares [] [] (encodePass x slot w h p f b) s := by
  refine spares_onStop ?_ (spared_seqSpoil _ _ _)
  refine (spared_closed [] []).set (spared_clearRange hroom s) ?_
  refine (binds_pxrInit x slot).of_eq.seqCall.pass fun _ _ _ =>
    ⟨spares_bind (spares_endPass ?_) fun _ _ _ => spares_setSeqState _,
      frees_bind frees_endPass fun _ _ => spares_setSeqState _⟩
  exact (binds_bpwInit b _).of_claimed.seqCall.pass fun _ _ _ =>
    ⟨spares_endPass (spares_times (fun _ => spares_encodePixel (.inl List.mem_cons_self)) _),
      frees_endPass⟩

theorem encodePass_ends_pxr (x : BufRef) (slot w h p : Nat) (f : PlaneFormat) (b : BufRef) :
    Ends (Freed .pxr) (encodePass x slot w h p f b) s :=
  ends_onStop <| ends_last fun _ _ => ends_last fun _ _ =>
    ends_first (lasting_freed _) (ends_of_frees frees_endPass) fun _ _ => spares_setSeqState _

theorem encodePass_ends_bpw (x : BufRef) (slot w h p : Nat) (f : PlaneFormat) (b : BufRef) :
    Ends (Freed .bpw) (encodePass x slot w h p f b) s :=
  ends_onStop <| ends_last fun _ _ => ends_last fun _ _ =>
    ends_first (lasting_freed _) (ends_endPass (lasting_freed _) <| ends_last fun _ _ => ends_of_frees frees_endPass)
      fun _ _ => spares_setSeqState _

theorem spares_seqEncode (x : BufRef) (slot w h : Nat) (p : Option Nat) (f : PlaneFormat) (b : BufRef) :
    Spares [] [] (seqEncodeOp x slot w h p f b) s :=
  spares_clear <| spares_bind (spares_encodeChecks _ _ _ _ _ _) fun _ _ hq =>
    spares_bind (spares_encodePass (encodeChecks_room hq) x slot f) fun _ _ _ => spares_pure _

/-- What holds after the pass holds after `SEQ.ENCODE`. -/
theorem seqEncode_ends {P : State → Prop} (hP : Lasting P) {x b : BufRef} {slot w h : Nat}
    {p : Option Nat} {f : PlaneFormat} (hpass : ∀ p s, Ends P (encodePass x slot w h p f b) s) :
    Ends P (seqEncodeOp x slot w h p f b) s :=
  ends_last fun _ _ => ends_last fun _ _ => ends_first hP (hpass _ _) fun _ _ => spares_pure _

/-! ### The scan of a container -/

theorem spares_seqRd (n : Nat) : Spares E W (seqRd n) s := spares_seqCall (spares_ckrRead n)

theorem spares_modHdr (f : Hdr → Hdr) : Spares E W (modHdr f) s := spares_quiet rfl rfl

theorem spares_readHeader : Spares E W readHeader s := by
  unfold readHeader
  iterate 12
    refine spares_bind (spares_seqRd _) fun _ _ _ => ?_
    refine spares_bind (spares_modHdr _) fun _ _ _ => ?_
  exact spares_bind (spares_seqRd 2) fun _ _ _ => spares_modHdr _

theorem spares_scanHeader (base len : Nat) : Spares E W (scanHeader base len) s :=
  spares_bind spares_seqRaiseIf fun _ _ _ =>
    spares_bind (spares_seqCall (spares_ckrEnter base len)) fun _ _ _ =>
      spares_bind spares_readHeader fun _ _ _ =>
        spares_bind (spares_seqCall spares_ckrLeave) fun _ _ _ =>
          spares_bind (spares_modHdr _) fun _ _ _ => Closed.get <|
            spares_bind spares_seqRaiseIf fun _ _ _ => spares_seqRaiseIf

theorem spares_scanMode (base len : Nat) : Spares E W (scanMode base len) s :=
  spares_bind spares_seqRaiseIf fun _ _ _ =>
    spares_bind (spares_seqCall (spares_ckrEnter base len)) fun _ _ _ =>
      spares_bind (spares_seqRd 4) fun _ _ _ => spares_set rfl rfl (spares_seqCall spares_ckrLeave)

theorem spares_scanPaletteEntry (i : Nat) : Spares E W (scanPaletteEntry i) s :=
  spares_bind (spares_seqRd 1) fun _ _ _ => spares_bind (spares_seqRd 1) fun _ _ _ =>
    spares_bind (spares_seqRd 1) fun _ _ _ => spares_map (spares_seqCall (spares_palSet _ _ _ _ _ _))

theorem spares_scanPalette (base len : Nat) : Spares E W (scanPalette base len) s :=
  spares_bind spares_seqRaiseIf fun _ _ _ =>
    spares_bind (spares_seqCall (spares_palCreate _ _ _)) fun _ _ _ =>
      spares_bind (spares_seqCall (spares_ckrEnter base len)) fun _ _ _ =>
        spares_bind (spares_forFrom (fun i _ => spares_scanPaletteEntry i) 0 _) fun _ _ _ =>
          spares_bind (spares_seqCall spares_ckrLeave) fun _ _ _ => spares_quiet rfl rfl

theorem spares_scanChunk (k : Config.Codes) (tag : U32) (len base : Nat) :
    Spares E W (scanChunk k tag len base) s := by
  unfold scanChunk
  split_ifs
  · exact spares_scanHeader base len
  · exact spares_scanMode base len
  · exact spares_scanPalette base len
  · exact spares_quiet rfl rfl
  · exact spares_quiet rfl rfl
  · exact spares_quiet rfl rfl
  · exact spares_quiet rfl rfl
  · exact spares_quiet rfl rfl
  · exact spares_pure _

theorem spares_scanLoop (k : Config.Codes) : ∀ (n : Nat) (s : State), Spares E W (scanLoop k n) s
  | 0, _ => spares_pure _
  | n + 1, s => spares_bind (spares_seqCall spares_ckrEof) fun e t _ => by
    cases e with
    | false =>
      exact spares_bind (spares_seqCall spares_ckrReadchunk) fun _ _ _ =>
        spares_bind (spares_scanChunk k _ _ _) fun _ t _ => spares_scanLoop k n t
    | true => exact spares_pure _

theorem spares_scanSide (k : Config.Codes) : Spares E W (scanSide k) s :=
  spares_bind (spares_seqCall spares_ckrPeek) fun _ _ _ => leads_modify <| by
    dsimp only
    split
    · exact spared_quiet rfl rfl
    · exact spared_quiet rfl rfl

theorem spares_scanComplete : Spares E W scanComplete s :=
  Closed.get <| spares_bind spares_seqRaiseIf fun _ _ _ => spares_bind spares_seqRaiseIf fun _ _ _ =>
    spares_bind spares_seqRaiseIf fun _ _ _ => spares_setSeqState _

theorem spares_scanPass (k : Config.Codes) (c : BufRef) : Spares E W (scanPass k c) s :=
  spares_bind (spares_seqCall spares_ckrReadchunk) fun _ _ _ =>
    spares_bind spares_seqRaiseIf fun _ _ _ =>
      spares_bind (spares_seqCall (spares_ckrEnter _ _)) fun _ _ _ =>
        spares_bind spares_seqRaiseIf fun _ _ _ => spares_bind (spares_seqRd 4) fun _ _ _ =>
          spares_bind spares_seqRaiseIf fun _ _ _ => spares_bind (spares_scanLoop k _ _) fun _ _ _ =>
            spares_bind (spares_seqCall spares_ckrLeave) fun _ _ _ =>
              spares_bind (spares_scanSide k) fun _ _ _ => spares_scanComplete

/-- A scan that stops after the container was opened unbinds the chunk reader. -/
theorem freed_of_scan_error {k : Config.Codes} {c : BufRef} {e : Stop}
    (h : (do onStop (unbind .ckr) (scanPass k c); pure Result.unit : Op Result) s = .error e t) :
    Freed .ckr t := by
  rcases error_of_bind_error h with h | ⟨_, _, -, h⟩
  · cases hx : scanPass k c s with
    | ok a u => rw [onStop_ok hx] at h; cases h
    | error e' u => rw [onStop_error hx] at h; cases h; exact freed_unbind .ckr u
  · cases h

/-- `SEQ.SCAN` binds the chunk reader as `CKR.OPEN` does, and a failed one unbinds it (R317, R422). -/
theorem binds_seqScan (k : Config.Codes) (c : BufRef) :
    Binds (Spared [] []) .ckr c (seqScanOp k c) s :=
  binds_after still_clear fun _ _ => binds_after (x := modify _) ⟨rfl, rfl⟩ fun _ _ =>
    (binds_ckrOpen c).of_eq.seqCall.bind
      (fun _ _ => spares_map (spares_onStop (spares_scanPass k c) (spared_unbind .ckr)))
      fun _ _ _ _ => freed_of_scan_error

theorem ckrOpen_completes (r : BufRef) (s : State) : ∃ t, ckrOpenOp r s = .ok .unit t := ⟨_, rfl⟩

theorem seqScan_error {k : Config.Codes} {c : BufRef} {e : Stop}
    (h : seqScanOp k c s = .error e t) : Freed .ckr t := by
  rcases error_of_bind_error h with h | ⟨_, _, -, h⟩
  · cases h
  rcases error_of_bind_error h with h | ⟨_, u, -, h⟩
  · cases h
  obtain ⟨u', hopen⟩ := ckrOpen_completes c u
  rw [bind_ok (seqCall_ok hopen)] at h
  exact freed_of_scan_error h

end Sys2Proof.Machine
end

section
/-! The container operations of the sequencer and the bindings (R328, R358, R422). -/

namespace Sys2Proof.Machine

variable {s t : State} {v : UnitId} {E W : List UnitId}

/-! ### The assembly of a container -/

theorem spares_stripLoop (tag : U32) (c w : BufRef) (lineBytes h p : Nat) : ∀ (n k : Nat) (s : State),
    Spares E W (stripLoop tag c w lineBytes h p n k) s
  | 0, _, _ => spares_pure _
  | n + 1, k, s => spares_bind (spares_seqCall spares_ckrEof) fun e t _ => by
    split
    · exact spares_pure _
    · refine spares_bind (spares_seqCall spares_ckrReadchunk) fun ck t _ => ?_
      split
      · exact spares_bind (spares_seqCall (spares_vddDecode _ _ _ _ _ _ _)) fun _ t _ =>
          spares_stripLoop tag c w lineBytes h p n _ t
      · exact spares_stripLoop tag c w lineBytes h p n _ t

/-- The bytes of the planes of a container's image (R318, R319). -/
def containerPlaneBytes (hd : Hdr) : Nat := hd.bytesPerLine * hd.planes.toNat * hd.height.toNat

theorem spares_assemblePlanes {hd : Hdr} {w : BufRef}
    (hroom : hd.compression ≠ 0 → containerPlaneBytes hd ≤ w.len) (tag : U32) (c : BufRef)
    (body : BodyDesc) : Spares E W (assemblePlanes tag c w hd body) s := by
  unfold assemblePlanes
  dsimp only
  split_ifs with hraw
  · exact spares_pure _
  · exact spares_map (spares_seqCall (spares_pbdDepack _ _ _ _ _))
  · refine (spared_closed E W).set (spared_clearRange (hroom hraw) s) ?_
    exact spares_bind (spares_seqCall (spares_ckrEnter _ _)) fun _ _ _ =>
      spares_bind (spares_stripLoop tag _ _ _ _ _ _ _ _) fun _ _ _ =>
        spares_bind (spares_seqCall spares_ckrLeave) fun _ _ _ => spares_map spares_seqRaiseIf

theorem spares_activeSlot : Spares E W activeSlot s :=
  Closed.get <| by
    split
    · exact spares_map (spares_seqCall (spares_palEhb 1 0))
    · exact spares_pure _

theorem spares_hamPixelOut (hw : .pxw ∈ E ∨ .pxw ∈ W) : Spares E W hamPixelOut s :=
  spares_bind (spares_seqCall spares_hamRead) fun _ _ _ =>
    spares_map (spares_seqCall (spares_pxwWritec hw _))

theorem spares_paintLines (raster : Bool) {pixel skip : Op Unit} (hp : ∀ s, Spares E W pixel s)
    (hs : ∀ s, Spares E W skip s) (w h : Nat) : Spares E W (paintLines raster pixel skip w h) s :=
  spares_forFrom (fun y s => by
    cases raster with
    | false => exact spares_bind (spares_times hp w) fun _ t _ => hs t
    | true =>
      exact spares_bind (spares_seqCall (spares_rpaSelect y)) fun _ _ _ =>
        spares_bind (spares_times hp w) fun _ t _ => hs t) 0 h

theorem spares_setRaster (c : Consumer) (h : Nat) : Spares E W (setRaster c h) s :=
  spares_quiet rfl rfl

theorem spares_skipBpr (n : Nat) : Spares E W (do let _ ← seqCall .bpr (bprAdvOp n)) s :=
  spares_map (spares_seqCall (spares_bprAdv n))

theorem spares_skipHam (n : Nat) : Spares E W (do let _ ← seqCall .ham (hamAdvOp n)) s :=
  spares_map (spares_seqCall (spares_hamAdv n))

theorem spares_assemblePixels (hw : .pxw ∈ E ∨ .pxw ∈ W) (hd : Hdr) :
    Spares E W (assemblePixels hd) s := by
  refine Closed.get ?_
  dsimp only
  split_ifs
  · exact spares_bind (spares_setRaster _ _) fun _ _ _ =>
      spares_paintLines _ (fun _ => spares_hamPixelOut hw) (fun _ => spares_skipHam _) _ _
  · exact spares_paintLines _ (fun _ => spares_hamPixelOut hw) (fun _ => spares_skipHam _) _ _
  · exact spares_bind (spares_setRaster _ _) fun _ _ _ =>
      spares_paintLines _ (fun _ => spares_decodePixel hw) (fun _ => spares_skipBpr _) _ _
  · exact spares_paintLines _ (fun _ => spares_decodePixel hw) (fun _ => spares_skipBpr _) _ _

theorem spares_assembleImage (x : BufRef) (pg : BufRef × Geometry) (hd : Hdr) :
    Spares [] [] (assembleImage x pg hd) s := by
  refine (binds_bprInit pg.1 pg.2).of_eq.seqCall.pass fun _ _ _ => ⟨spares_endPass ?_, frees_endPass⟩
  refine spares_bind spares_activeSlot fun sa _ _ => ?_
  refine (binds_pxwInit x sa).of_claimed.seqCall.pass fun _ _ _ => ⟨spares_endPass ?_, frees_endPass⟩
  refine Closed.get ?_
  dsimp only
  split
  · exact spares_bind (spares_seqCall (spares_hamInit _ _)) fun _ _ _ =>
      spares_assemblePixels (.inl List.mem_cons_self) hd
  · exact spares_assemblePixels (.inl List.mem_cons_self) hd

theorem assembleImage_ends_bpr (x : BufRef) (pg : BufRef × Geometry) (hd : Hdr) :
    Ends (Freed .bpr) (assembleImage x pg hd) s := ends_last fun _ _ => ends_of_frees frees_endPass

theorem assembleImage_ends_pxw (x : BufRef) (pg : BufRef × Geometry) (hd : Hdr) :
    Ends (Freed .pxw) (assembleImage x pg hd) s :=
  ends_last fun _ _ => ends_endPass (lasting_freed _) <| ends_last fun _ _ => ends_last fun _ _ =>
    ends_of_frees frees_endPass

theorem spares_closeContainer (c : BufRef) : Spares E W (modify (closeContainer c)) s :=
  leads_modify (spared_closeContainer c s)

theorem spares_assemblePass {hd : Hdr} {w : BufRef}
    (hroom : hd.compression ≠ 0 → containerPlaneBytes hd ≤ w.len) (tag : U32) (c x : BufRef)
    (body : BodyDesc) : Spares [] [] (assemblePass tag c w x hd body) s :=
  spares_bind (spares_assemblePlanes hroom tag c body) fun _ _ _ =>
    spares_bind (spares_assembleImage x _ hd) fun _ _ _ =>
      spares_bind (spares_setSeqState _) fun _ _ _ => spares_closeContainer c

/-- What holds after the image holds after the assembly's pass. -/
theorem assemblePass_ends {P : State → Prop} (hP : Lasting P) {tag : U32} {c w x : BufRef} {hd : Hdr}
    {body : BodyDesc} (himage : ∀ pg s, Ends P (assembleImage x pg hd) s) :
    Ends P (assemblePass tag c w x hd body) s :=
  ends_last fun _ _ => ends_first hP (himage _ _) fun _ _ =>
    spares_bind (spares_setSeqState _) fun _ _ _ => spares_closeContainer c

theorem spared_assembleSpoil (w x : BufRef) (hd : Hdr) (s : State) :
    Spared E W s (assembleSpoil w x hd s) := by
  unfold assembleSpoil
  dsimp only
  split
  · exact spared_seqSpoil _ _ _ s
  · exact (spared_closed E W).trans (spared_seqSpoil _ _ _ s) (spared_seqSpoil _ _ _ _)

theorem spares_seqAssemble (k : Config.Codes) (c w x : BufRef) :
    Spares [] [] (seqAssembleOp k c w x) s := by
  refine spares_enter <| Closed.get <| spares_check fun _ => ?_
  refine spares_bind (spares_onStop spares_seqRaiseIf (spared_seqSpoil _ _ _)) fun _ _ _ => ?_
  refine spares_check fun _ => spares_check fun hroom => ?_
  refine spares_bind (spares_onStop (spares_assemblePass ?_ _ c x _) fun t =>
    (spared_closed [] []).trans (spared_assembleSpoil _ _ _ t) (spared_closeContainer c _))
    fun _ _ _ => spares_pure _
  exact fun hraw => Nat.le_of_not_lt fun hlt => hroom ⟨hraw, hlt⟩

/-- What holds after its pass holds after `SEQ.ASSEMBLE`. -/
theorem seqAssemble_ends {P : State → Prop} (hP : Lasting P) {k : Config.Codes} {c w x : BufRef}
    (hpass : ∀ tag hd body s, Ends P (assemblePass tag c w x hd body) s) :
    Ends P (seqAssembleOp k c w x) s :=
  ends_last fun _ _ => ends_last fun _ _ => ends_last fun _ _ => ends_last fun _ _ =>
    ends_last fun _ _ => ends_last fun _ _ =>
      ends_first hP (ends_onStop (hpass _ _ _ _)) fun _ _ => spares_pure _

theorem seqAssemble_ends_bpr (k : Config.Codes) (c w x : BufRef) :
    Ends (Freed .bpr) (seqAssembleOp k c w x) s :=
  seqAssemble_ends (lasting_freed _) fun _ _ _ _ =>
    assemblePass_ends (lasting_freed _) fun _ _ => assembleImage_ends_bpr _ _ _

theorem seqAssemble_ends_pxw (k : Config.Codes) (c w x : BufRef) :
    Ends (Freed .pxw) (seqAssembleOp k c w x) s :=
  seqAssemble_ends (lasting_freed _) fun _ _ _ _ =>
    assemblePass_ends (lasting_freed _) fun _ _ => assembleImage_ends_pxw _ _ _

/-! ### The chunk reader after an assembly -/

theorem closeContainer_src_ne (c : BufRef) (s : State) :
    bindingOf .ckr (closeContainer c s) ≠ some c := by
  unfold closeContainer
  split
  · exact nofun
  · assumption

/-- A chunk reader that reads the container, or nothing, reads nothing after it. -/
theorem freed_closeContainer {c : BufRef} (h : bindingOf .ckr s = some c ∨ bindingOf .ckr s = none) :
    Freed .ckr (closeContainer c s) := by
  unfold closeContainer
  split
  · exact freed_unbind .ckr s
  · rename_i hne
    exact congrArg (·, none) (h.resolve_left hne)

/-- Its last act is to close the container (R422). -/
theorem seqAssemble_closes (k : Config.Codes) (c w x : BufRef) :
    Ends (fun t => bindingOf .ckr t ≠ some c) (seqAssembleOp k c w x) s :=
  seqAssemble_ends (lasting_bindingOf_ne .ckr c) fun _ _ _ _ => ends_last fun _ _ =>
    ends_last fun _ _ => ends_last fun _ _ => ends_modify (closeContainer_src_ne c _)

/-- Over the container that it has opened, an assembly ends with the chunk reader unbound. -/
theorem frees_decodec {k : Config.Codes} {c w x : BufRef}
    (h : bindingOf .ckr s = some c ∨ bindingOf .ckr s = none) :
    Frees .ckr (onStop (closeContainer c) (seqAssembleOp k c w x)) s := by
  have after {t : State} (ht : Spared [] [] s t) :
      bindingOf .ckr t = some c ∨ bindingOf .ckr t = none := by
    rcases ht.bindingOf_cases .ckr with hsame | hnone
    · rwa [hsame]
    · exact .inr hnone
  have hspares := spares_seqAssemble (s := s) k c w x
  unfold Frees Leads endOf
  cases hx : seqAssembleOp k c w x s with
  | ok a t =>
    rw [onStop_ok hx]
    have hnone := (after (hspares.ok hx)).resolve_left (seqAssemble_closes k c w x a t hx)
    exact congrArg (·, none) hnone
  | error e t =>
    rw [onStop_error hx]
    exact freed_closeContainer (after (hspares.error hx))

theorem spares_seqDecodec (k : Config.Codes) (c w x : BufRef) :
    Spares [] [] (seqDecodecOp k c w x) s := by
  have hscan := (binds_seqScan (s := s) k c).onStop (spared_seqSpoil x 0 x.len)
  exact hscan.pass fun _ _ h =>
    ⟨spares_onStop ((spares_seqAssemble k c w x).mono fun _ ht =>
      ht.mono (List.nil_subset _) (List.nil_subset _)) (spared_closeContainer c),
      frees_decodec (hscan.bindingOf h)⟩

/-- What holds after the assembly holds after `SEQ.DECODEC`. -/
theorem seqDecodec_ends {P : State → Prop} {k : Config.Codes} {c w x : BufRef}
    (h : ∀ s, Ends P (seqAssembleOp k c w x) s) : Ends P (seqDecodecOp k c w x) s :=
  ends_last fun _ _ => ends_onStop (h _)

/-! ### The container encode -/

theorem spares_seqWr (hw : .ckw ∈ E ∨ .ckw ∈ W) (n k : Nat) : Spares E W (seqWr n k) s :=
  spares_seqCall (spares_ckwWrite hw n k)

theorem spares_seqChunk (hw : .ckw ∈ E ∨ .ckw ∈ W) (tag : U32) {body : Op Unit}
    (h : ∀ s, Spares E W body s) : Spares E W (seqChunk tag body) s :=
  spares_bind (spares_seqCall (spares_ckwStart hw tag)) fun _ t _ => spares_bind (h t) fun _ _ _ =>
    spares_map (spares_seqCall (spares_ckwEnd hw))

theorem spares_writeHeader (hw : .ckw ∈ E ∨ .ckw ∈ W) (o : EncOptions) (p : Nat) :
    Spares E W (writeHeader o p) s := by
  unfold writeHeader
  iterate 12 refine spares_bind (spares_seqWr hw _ _) fun _ _ _ => ?_
  exact spares_seqWr hw _ _

theorem spares_writeMode (hw : .ckw ∈ E ∨ .ckw ∈ W) (tag : U32) (flags : Option U32) :
    Spares E W (writeMode tag flags) s := by
  cases flags with
  | none => exact spares_pure _
  | some b => exact spares_seqChunk hw tag fun _ => spares_seqWr hw _ _

theorem spares_writePaletteEntry (hw : .ckw ∈ E ∨ .ckw ∈ W) (slot i : Nat) :
    Spares E W (writePaletteEntry slot i) s :=
  spares_bind (spares_seqCall (spares_palGet slot i)) fun _ _ _ => Closed.get <|
    spares_bind (spares_seqWr hw _ _) fun _ _ _ => spares_bind (spares_seqWr hw _ _) fun _ _ _ =>
      spares_seqWr hw _ _

theorem spares_writePalette (hw : .ckw ∈ E ∨ .ckw ∈ W) (tag : U32) (slot : Nat) :
    Spares E W (writePalette tag slot) s :=
  Closed.get <| spares_seqChunk hw tag fun _ =>
    spares_forFrom (fun i _ => spares_writePaletteEntry hw slot i) _ _

theorem spares_writeBody (hw : .ckw ∈ E ∨ .ckw ∈ W) (k : Config.Codes) (layout : BodyLayout)
    (body : BufRef) : Spares E W (writeBody k layout body) s :=
  spares_seqChunk hw _ fun _ => spares_forFrom (fun _ _ => Closed.get (spares_seqWr hw _ _)) _ _

theorem spares_encodecBody (o : EncOptions) (work pack : BufRef) (size : Nat) :
    Spares E W (encodecBody o work pack size) s := by
  unfold encodecBody
  split
  · exact spares_map (spares_seqCall (spares_pbePack _ _ _))
  · exact spares_pure _

theorem spares_encodecTree (k : Config.Codes) (o : EncOptions) (slot p : Nat) (body cout : BufRef) :
    Spares [] [] (encodecTree k o slot p body cout) s := by
  have hw : UnitId.ckw ∈ [UnitId.ckw] ∨ UnitId.ckw ∈ [] := .inl List.mem_cons_self
  exact (binds_ckwInit cout).of_claimed.seqCall.pass fun _ _ _ => ⟨spares_endPass <|
    spares_seqChunk hw _ fun _ => spares_bind (spares_seqWr hw _ _) fun _ _ _ =>
      spares_bind (spares_seqChunk hw _ fun _ => spares_writeHeader hw o p) fun _ _ _ =>
        spares_bind (spares_writeMode hw _ _) fun _ _ _ =>
          spares_bind (spares_writePalette hw _ slot) fun _ _ _ => spares_writeBody hw _ _ _,
    frees_endPass⟩

theorem spared_encodecSpoil (o : EncOptions) (work pack cout : BufRef) (size : Nat) (s : State) :
    Spared E W s (encodecSpoil o work pack cout size s) := by
  have both := (spared_closed E W).trans (spared_seqSpoil cout 0 cout.len s)
    (spared_seqSpoil work 0 size _)
  unfold encodecSpoil
  dsimp only
  split
  · exact (spared_closed E W).trans both (spared_seqSpoil _ _ _ _)
  · exact both

theorem spares_seqEncodec (k : Config.Codes) (x : BufRef) (slot : Nat) (o : EncOptions)
    (work pack cout : BufRef) : Spares [] [] (seqEncodecOp k x slot o work pack cout) s := by
  refine spares_clear <| spares_bind (spares_encodeChecks _ _ _ _ _ _) fun p _ hp => ?_
  refine spares_bind (spares_onStop ?_ (spared_encodecSpoil _ _ _ _ _)) fun _ _ _ =>
    spares_bind (spares_setSeqState _) fun _ _ _ => Closed.get (spares_pure _)
  exact spares_bind (spares_encodePass (encodeChecks_room hp) _ _ _) fun _ _ _ =>
    spares_bind (spares_encodecBody _ _ _ _) fun _ _ _ => spares_encodecTree _ _ _ _ _ _

/-- What holds after its three parts holds after `SEQ.ENCODEC`. -/
theorem seqEncodec_ends {P : State → Prop} (hP : Lasting P) {k : Config.Codes} {x : BufRef}
    {slot : Nat} {o : EncOptions} {work pack cout : BufRef}
    (h : ∀ p s, Ends P (do
      encodePass x slot o.width.toNat o.height.toNat p (formatOf o.layout) work
      let body ← encodecBody o work pack (encodeSize o.width.toNat o.height.toNat p)
      encodecTree k o slot p body cout) s) :
    Ends P (seqEncodecOp k x slot o work pack cout) s :=
  ends_last fun _ _ => ends_last fun p _ => ends_first hP (ends_onStop (h p _)) fun _ _ =>
    spares_bind (spares_setSeqState _) fun _ _ _ => Closed.get (spares_pure _)

theorem seqEncodec_ends_pass {P : State → Prop} (hP : Lasting P) {k : Config.Codes} {x : BufRef}
    {slot : Nat} {o : EncOptions} {work pack cout : BufRef}
    (h : ∀ p s, Ends P (encodePass x slot o.width.toNat o.height.toNat p (formatOf o.layout) work) s) :
    Ends P (seqEncodecOp k x slot o work pack cout) s :=
  seqEncodec_ends hP fun p _ => ends_first hP (h p _) fun _ _ =>
    spares_bind (spares_encodecBody _ _ _ _) fun _ _ _ => spares_encodecTree _ _ _ _ _ _

theorem seqEncodec_ends_ckw (k : Config.Codes) (x : BufRef) (slot : Nat) (o : EncOptions)
    (work pack cout : BufRef) : Ends (Freed .ckw) (seqEncodecOp k x slot o work pack cout) s :=
  seqEncodec_ends (lasting_freed _) fun _ _ => ends_last fun _ _ => ends_last fun _ _ =>
    ends_last fun _ _ => ends_of_frees frees_endPass

end Sys2Proof.Machine
end

section
/-! Bindings under every instruction (R25, R422; log 20), and O6: which instructions make a binding, what
the others leave of it, and the operations that meet a dead one. -/

namespace Sys2Proof.Machine

variable {s t : State} {u v w : UnitId} {E W : List UnitId} {i : Instr}

/-! ### An operation on a dead binding -/

/-- The operation meets a stop of `enter` before anything else. -/
theorem stops_of_enter {α : Type} {k : Unit → Op α} {e : Stop} (h : enter u s = .error e t) :
    (enter u >>= k) s = .error e t := bind_error h

/-- The same for an operation whose answer becomes the result. -/
theorem stops_of_enter_map {α β : Type} {k : Unit → Op α} {f : α → Op β} {e : Stop}
    (h : enter u s = .error e t) : ((enter u >>= k) >>= f) s = .error e t :=
  bind_error (bind_error h)

/-- A guarded instruction of a unit whose binding is dead is refused (R422, log 20). -/
theorem exec_dead (hg : guardOf i = some u) (hf : (faultOf u s).valid = false)
    (hi : initOf u s = true) (hb : bound u s = false) : exec i s = .refused (.deadBinding u) := by
  have dead := enter_dead hf hi hb
  cases i with
  | palGet _ _ | palPlanes _ | bprRead | bprEof | bpwEof | pxrRead | ckrReadchunk | ckrPeek | ckrEof
  | ckrEnter _ _ | ckrLeave | ckrRd8 | ckrRd16 | ckrRd32 | hamRead | ckwStart _ | ckwEnd | ckwWr8 _
  | ckwWr16 _ | ckwWr32 _ =>
    cases hg
    exact runOp_outside (stops_of_enter_map dead)
  | _ =>
    cases hg <;> exact runOp_outside (stops_of_enter dead)

/-- HAM's reads use BPR's, and a dead binding of BPR refuses them too (R288, R294). -/
theorem hamAdv_dead (n : Nat) (hr : ready .ham s) (hf : s.bpr.fault.valid = false)
    (hi : s.bpr.init = true) (hb : s.bpr.buf = none) :
    exec (.hamAdv n) s = .refused (.deadBinding .bpr) := by
  have dead : enter .bpr s = .error (.outside (.deadBinding .bpr)) s :=
    enter_dead hf hi (by simp [bound, keepsBinding, bindingOf, hb])
  exact runOp_outside ((bind_ok (enter_ready hr)).trans (callFrom_outside (stops_of_enter dead)))

theorem hamRead_dead (hr : ready .ham s) (hf : s.bpr.fault.valid = false) (hi : s.bpr.init = true)
    (hb : s.bpr.buf = none) (hp : s.bpr.geom.planeCount = s.ham.planes) :
    exec .hamRead s = .refused (.deadBinding .bpr) := by
  have dead : enter .bpr s = .error (.outside (.deadBinding .bpr)) s :=
    enter_dead hf hi (by simp [bound, keepsBinding, bindingOf, hb])
  refine runOp_outside (t := s) (bind_error ((bind_ok (enter_ready hr)).trans ?_))
  rw [get_bind, bind_ok (raiseIf_false (not_not_intro hp) _ _ _ _)]
  exact bind_error (callFrom_outside (stops_of_enter dead))

/-! ### The instructions that make a binding -/

/-- The unit that an instruction binds, and to which buffer: the six INITs and `SEQ.SCAN` (R25, R317). -/
def makes (i : Instr) : Option (UnitId × Nat) :=
  match i with
  | .bprInit buf _ => some (.bpr, buf)
  | .bpwInit buf _ => some (.bpw, buf)
  | .pxrInit buf _ => some (.pxr, buf)
  | .pxwInit buf _ => some (.pxw, buf)
  | .ckrOpen buf => some (.ckr, buf)
  | .seqScan buf => some (.ckr, buf)
  | .ckwInit buf => some (.ckw, buf)
  | _ => none

/-- The unit that an instruction binds, if it binds one. -/
def makesFor (i : Instr) : List UnitId := (makes i).toList.map Prod.fst

theorem mem_makesFor : v ∈ makesFor i ↔ ∃ buf, makes i = some (v, buf) := by
  simp [makesFor]

theorem makes_cases {buf : Nat} (h : makes i = some (u, buf)) :
    (∃ g, u = .bpr ∧ i = .bprInit buf g) ∨ (∃ g, u = .bpw ∧ i = .bpwInit buf g) ∨
      (∃ slot, u = .pxr ∧ i = .pxrInit buf slot) ∨ (∃ slot, u = .pxw ∧ i = .pxwInit buf slot) ∨
      (u = .ckr ∧ (i = .ckrOpen buf ∨ i = .seqScan buf)) ∨ (u = .ckw ∧ i = .ckwInit buf) := by
  cases i <;> cases h <;> simp

theorem Leads.runOp_spared {x : Op Result} (h : Spares E W x s) (ht : Machine.runOp x s = .next t) :
    Spared E W s t := by
  obtain ⟨u, r, hu, rfl⟩ := h.runOp ht
  exact (spared_closed E W).trans hu (spared_quiet rfl rfl)

/-- An instruction that makes a binding: it has made that one and bound nothing since, or it has
stopped and bound nothing at all. -/
theorem Binds.runOp_cases {x : Op Result} {r : BufRef} (h : Binds (Spared [] []) v r x s)
    (ht : runOp x s = .next t) : Spared [] [] s t ∨ ∃ u, Anew v r s u ∧ Spared [] [] u t := by
  have reply {u t : State} (k : Reply) (hu : Spared [] [] u t) : Spared [] [] u { t with reply := k } :=
    (spared_closed [] []).trans hu (spared_quiet rfl rfl)
  unfold runOp at ht
  cases hx : x s with
  | ok a u =>
    rw [hx] at ht
    cases ht
    obtain ⟨u', hu', hk⟩ := h.1 a u hx
    exact .inr ⟨u', hu', reply _ hk⟩
  | error e u =>
    rw [hx] at ht
    cases e <;> cases ht <;> exact .inl (reply _ (h.2 _ u hx))

theorem exec_makes {buf : Nat} (hm : makes i = some (v, buf)) (h : exec i s = .next t) :
    Spared [] [] s t ∨ ∃ u, Anew v (wholeBuf s.mem buf) s u ∧ Spared [] [] u t := by
  rcases makes_cases hm with ⟨g, rfl, rfl⟩ | ⟨g, rfl, rfl⟩ | ⟨slot, rfl, rfl⟩ | ⟨slot, rfl, rfl⟩ |
    ⟨rfl, rfl | rfl⟩ | ⟨rfl, rfl⟩
  · exact (binds_bprInit _ g).of_eq.runOp_cases h
  · exact (binds_bpwInit _ g).of_claimed.runOp_cases h
  · exact (binds_pxrInit _ slot).of_eq.runOp_cases h
  · exact (binds_pxwInit _ slot).of_claimed.runOp_cases h
  · exact (binds_ckrOpen _).of_eq.runOp_cases h
  · exact (binds_seqScan Config.codes _).runOp_cases h
  · exact ((binds_ckwInit _).of_claimed.map fun _ => Result.unit).runOp_cases h

/-! ### Every instruction -/

theorem spares_then {x : Op Unit} (h : Spares E W x s) (r : Result) :
    Spares E W (do x; pure r : Op Result) s := spares_bind h fun _ _ _ => spares_pure r

/-- An instruction spares all bindings, but the one it makes and the bytes under its own unit's. -/
theorem exec_spared (h : exec i s = .next t) : Spared (makesFor i) (guardOf i).toList s t := by
  have own {v : UnitId} {E : List UnitId} : v ∈ E ∨ v ∈ [v] := .inr List.mem_cons_self
  cases i with
  | pbLit n => exact (spares_pbAlone fun _ => spares_pbCommand (.lit n)).runOp_spared h
  | pbRun n => exact (spares_pbAlone fun _ => spares_pbCommand (.run n)).runOp_spared h
  | pbNop => exact (spares_pbAlone fun _ => spares_pbCommand .nop).runOp_spared h
  | vdCopyx => exact (spares_vdAlone fun _ => spares_vdCommand .copyx).runOp_spared h
  | vdCopy n => exact (spares_vdAlone fun _ => spares_vdCommand (.copy n)).runOp_spared h
  | vdRunx => exact (spares_vdAlone fun _ => spares_vdCommand .runx).runOp_spared h
  | vdRun n => exact (spares_vdAlone fun _ => spares_vdCommand (.run n)).runOp_spared h
  | hamBase p d => exact (spares_hamAlone .base p d).runOp_spared h
  | hamModb p d => exact (spares_hamAlone .modb p d).runOp_spared h
  | hamModr p d => exact (spares_hamAlone .modr p d).runOp_spared h
  | hamModg p d => exact (spares_hamAlone .modg p d).runOp_spared h
  | sysReset =>
    exact Leads.runOp_spared (x := sysResetOp)
      ((spared_closed _ _).set (spared_reset s) (spares_pure _)) h
  | palCreate a b c => exact (spares_palCreate a b c).runOp_spared h
  | palSet a b c d e f => exact (spares_palSet a b c d e f).runOp_spared h
  | palGet a b => exact (spares_map (spares_palGet a b)).runOp_spared h
  | palResample a b c => exact (spares_palResample a b c).runOp_spared h
  | palToval a b => exact (spares_palToval a b).runOp_spared h
  | palFromval a b c d => exact (spares_palFromval a b c d).runOp_spared h
  | palFrompix a b => exact (spares_palFrompix a b).runOp_spared h
  | palMono a => exact (spares_palMono a).runOp_spared h
  | palEhb a b => exact (spares_palEhb a b).runOp_spared h
  | palPlanes a => exact (spares_map (spares_palPlanes a)).runOp_spared h
  | bprInit b g => exact (binds_bprInit _ g).of_eq.spares.runOp_spared h
  | bprRead => exact (spares_map spares_bprRead).runOp_spared h
  | bprAdv n => exact (spares_bprAdv n).runOp_spared h
  | bprEof => exact (spares_map spares_bprEof).runOp_spared h
  | bpwInit b g => exact (binds_bpwInit _ g).of_claimed.spares.runOp_spared h
  | bpwWrite n => exact (spares_bpwWrite own n).runOp_spared h
  | bpwAdv n => exact (spares_bpwAdv n).runOp_spared h
  | bpwEof => exact (spares_map spares_bpwEof).runOp_spared h
  | pxrInit b n => exact (binds_pxrInit _ n).of_eq.spares.runOp_spared h
  | pxrRead => exact (spares_map spares_pxrRead).runOp_spared h
  | pxrSetpal n => exact (spares_pxrSetpal n).runOp_spared h
  | pxrAdv n => exact (spares_pxrAdv n).runOp_spared h
  | pxwInit b n => exact (binds_pxwInit _ n).of_claimed.spares.runOp_spared h
  | pxwWrite n => exact (spares_pxwWrite own n).runOp_spared h
  | pxwSetpal n => exact (spares_pxwSetpal n).runOp_spared h
  | pxwAdv n => exact (spares_pxwAdv n).runOp_spared h
  | pxwWritec c => exact (spares_pxwWritec own c).runOp_spared h
  | pbdDepack a b c d e => exact (spares_pbdDepack _ _ b d e).runOp_spared h
  | vddDecode a b c d e f g => exact (spares_vddDecode _ _ b c e f g).runOp_spared h
  | ckrOpen b => exact (binds_ckrOpen _).of_eq.spares.runOp_spared h
  | ckrReadchunk => exact (spares_map spares_ckrReadchunk).runOp_spared h
  | ckrPeek => exact (spares_map spares_ckrPeek).runOp_spared h
  | ckrEof => exact (spares_map spares_ckrEof).runOp_spared h
  | ckrEnter a b => exact (spares_then (spares_ckrEnter a b) _).runOp_spared h
  | ckrLeave => exact (spares_then spares_ckrLeave _).runOp_spared h
  | ckrRd8 => exact (spares_map (spares_ckrRead 1)).runOp_spared h
  | ckrRd16 => exact (spares_map (spares_ckrRead 2)).runOp_spared h
  | ckrRd32 => exact (spares_map (spares_ckrRead 4)).runOp_spared h
  | hamInit a b => exact (spares_hamInit a b).runOp_spared h
  | hamRead => exact (spares_map spares_hamRead).runOp_spared h
  | hamSetpal n => exact (spares_hamSetpal n).runOp_spared h
  | hamAdv n => exact (spares_hamAdv n).runOp_spared h
  | rpaConfig a b => exact (spares_rpaConfig a b).runOp_spared h
  | rpaLoad a b => exact (spares_rpaLoad a b).runOp_spared h
  | rpaSelect n => exact (spares_rpaSelect n).runOp_spared h
  | seqDecode a b c d e f g => exact (spares_seqDecode _ b c d e f _).runOp_spared h
  | seqEncode a b c d e f g => exact (spares_seqEncode _ b c d e f _).runOp_spared h
  | seqDecodec a b c => exact (spares_seqDecodec Config.codes _ _ _).runOp_spared h
  | seqScan a => exact (binds_seqScan Config.codes _).spares.runOp_spared h
  | seqAssemble a b c =>
    exact (Leads.runOp_spared (spares_seqAssemble Config.codes _ _ _) h).mono (List.Subset.refl _)
      (List.nil_subset _)
  | pbePack a b c => exact (spares_map (spares_pbePack _ _ b)).runOp_spared h
  | ckwStart t => exact (spares_then (spares_ckwStart own t) _).runOp_spared h
  | ckwEnd => exact (spares_map (spares_ckwEnd own)).runOp_spared h
  | seqEncodec a b o c => exact (spares_seqEncodec Config.codes _ b o _ _ _).runOp_spared h
  | ckwInit b => exact (((binds_ckwInit _).of_claimed.map fun _ => Result.unit).spares).runOp_spared h
  | ckwWr8 n => exact (spares_then (spares_ckwWrite own 1 _) _).runOp_spared h
  | ckwWr16 n => exact (spares_then (spares_ckwWrite own 2 _) _).runOp_spared h
  | ckwWr32 n => exact (spares_then (spares_ckwWrite own 4 _) _).runOp_spared h

/-- A binding after an instruction is the one before it, or the one that the instruction makes. -/
theorem exec_bindingOf (h : exec i s = .next t) (v : UnitId) :
    bindingOf v t = bindingOf v s ∨ bindingOf v t = none ∨
      ∃ buf, bindingOf v t = some (wholeBuf s.mem buf) ∧ makes i = some (v, buf) := by
  rcases exec_spared h v with hfree | hnew | ⟨hsame, -⟩
  · exact .inr (.inl hfree.bindingOf)
  · obtain ⟨buf, hm⟩ := mem_makesFor.mp hnew
    rcases exec_makes hm h with hs | ⟨u, ⟨-, hr, -⟩, hu⟩
    · exact (hs.bindingOf_cases v).imp id .inl
    · rcases hu.bindingOf_cases v with hsame | hnone
      · exact .inr (.inr ⟨buf, hsame.trans hr, hm⟩)
      · exact .inr (.inl hnone)
  · exact .inl (bindingOf_of_holds hsame)

/-- An operation that spares a unit's bytes leaves under its binding what was there. -/
theorem Spared.sameBytes (h : Spared [] [] s t) (v : UnitId) : sameBytes v s t := by
  rcases h v with hfree | hnew | ⟨-, hown | hbytes⟩
  · intro r hr
    rw [hfree.bindingOf] at hr
    cases hr
  · exact absurd hnew List.not_mem_nil
  · exact absurd hown List.not_mem_nil
  · exact hbytes

/-- Under a binding that is alive after an instruction of another unit stand the bytes of before. -/
theorem exec_sameBytes (h : exec i s = .next t) (hg : guardOf i ≠ some v) : sameBytes v s t := by
  rcases exec_spared h v with hfree | hnew | ⟨-, hown | hbytes⟩
  · intro r hr
    rw [hfree.bindingOf] at hr
    cases hr
  · obtain ⟨buf, hm⟩ := mem_makesFor.mp hnew
    rcases exec_makes hm h with hs | ⟨u, ⟨hmem, -, -⟩, hu⟩
    · exact hs.sameBytes v
    · intro r hr a ha
      rw [hu.sameBytes v r hr a ha, hmem]
  · exact absurd (Option.mem_toList.mp hown) hg
  · exact hbytes

/-- No instruction leaves a decoder bound that was not. -/
theorem exec_decoder (h : exec i s = .next t) (hv : keepsBinding v = false) :
    holds v t = holds v s ∨ Freed v t := by
  rcases exec_spared h v with hfree | hnew | ⟨hsame, -⟩
  · exact .inr hfree
  · obtain ⟨buf, hm⟩ := mem_makesFor.mp hnew
    rcases makes_cases hm with ⟨_, rfl, -⟩ | ⟨_, rfl, -⟩ | ⟨_, rfl, -⟩ | ⟨_, rfl, -⟩ | ⟨rfl, -⟩ |
      ⟨rfl, -⟩ <;> cases hv
  · exact .inl hsame

/-! ### Instructions that complete -/

/-- What an operation that completes leaves, but for the reply. -/
theorem ok_of_completes {x : Op Result} {r : Result} (h : runOp x s = completes r t) :
    ∃ u, x s = .ok r u ∧ { t with reply := .done r } = { u with reply := .done r } := by
  unfold runOp completes at h
  cases hx : x s with
  | ok a u =>
    rw [hx] at h
    have hstate := Host.Outcome.next.inj h
    have hreply : Reply.done a = .done r := congrArg State.reply hstate
    cases hreply
    exact ⟨u, rfl, hstate.symm⟩
  | error e u =>
    rw [hx] at h
    cases e with
    | faulted => exact nomatch congrArg State.reply (Host.Outcome.next.inj h)
    | refused => exact nomatch congrArg State.reply (Host.Outcome.next.inj h)
    | outside _ => exact nomatch h

theorem Ends.bindingOf {x : Op Result} {r : Result} {p : Option BufRef → Prop}
    (hx : Ends (fun t => p (bindingOf v t)) x s) (h : runOp x s = completes r t) : p (bindingOf v t) := by
  obtain ⟨u, hu, htu⟩ := ok_of_completes h
  have hbind : Machine.bindingOf v t = Machine.bindingOf v u := by
    have := congrArg (Machine.bindingOf v) htu
    cases v <;> exact this
  rw [hbind]
  exact hx r u hu

theorem Ends.freed {x : Op Result} {r : Result} (hx : Ends (Freed v) x s)
    (h : runOp x s = completes r t) : Machine.bindingOf v t = none :=
  Ends.bindingOf (p := (· = none)) (fun a u hu => (hx a u hu).bindingOf) h

/-- A failed scan leaves the chunk reader unbound (R317, R422). -/
theorem seqScan_faulted {c : Nat} (h : exec (.seqScan c) s = .next t) (hr : t.reply = .faulted) :
    t.ckr.src = none := by
  change runOp (seqScanOp Config.codes (wholeBuf s.mem c)) s = .next t at h
  unfold runOp at h
  cases hx : seqScanOp Config.codes (wholeBuf s.mem c) s with
  | ok a u =>
    rw [hx] at h
    cases h
    cases hr
  | error e u =>
    rw [hx] at h
    cases e <;> cases h <;> exact (seqScan_error hx).bindingOf

/-- What a SEQ operation that completes leaves unbound: the units whose passes it ran (R422). -/
theorem seq_completes {r : Result} (h : exec i s = completes r t) :
    (∀ b slot w h p f x, i = .seqDecode b slot w h p f x → t.bpr.buf = none ∧ t.pxw.buf = none) ∧
    (∀ x slot w h p f b, i = .seqEncode x slot w h p f b → t.pxr.buf = none ∧ t.bpw.buf = none) ∧
    (∀ c w x, i = .seqAssemble c w x ∨ i = .seqDecodec c w x →
      t.bpr.buf = none ∧ t.pxw.buf = none ∧ t.ckr.src ≠ some (wholeBuf s.mem c)) ∧
    (∀ x slot o c, i = .seqEncodec x slot o c →
      t.pxr.buf = none ∧ t.bpw.buf = none ∧ t.ckw.dst = none) := by
  refine ⟨?_, ?_, ?_, ?_⟩
  · rintro b slot w h' p f x rfl
    exact ⟨(seqDecode_ends (lasting_freed _) fun _ => decodePass_ends_bpr _ _ _ _ _ _ _).freed h,
      (seqDecode_ends (lasting_freed _) fun _ => decodePass_ends_pxw _ _ _ _ _ _ _).freed h⟩
  · rintro x slot w h' p f b rfl
    exact ⟨(seqEncode_ends (lasting_freed _) fun _ _ => encodePass_ends_pxr _ _ _ _ _ _ _).freed h,
      (seqEncode_ends (lasting_freed _) fun _ _ => encodePass_ends_bpw _ _ _ _ _ _ _).freed h⟩
  · rintro c w x (rfl | rfl)
    · exact ⟨(seqAssemble_ends_bpr _ _ _ _).freed h, (seqAssemble_ends_pxw _ _ _ _).freed h,
        (seqAssemble_closes _ _ _ _).bindingOf (p := (· ≠ some (wholeBuf s.mem c))) h⟩
    · exact ⟨(seqDecodec_ends fun _ => seqAssemble_ends_bpr _ _ _ _).freed h,
        (seqDecodec_ends fun _ => seqAssemble_ends_pxw _ _ _ _).freed h,
        (seqDecodec_ends fun _ => seqAssemble_closes _ _ _ _).bindingOf
          (p := (· ≠ some (wholeBuf s.mem c))) h⟩
  · rintro x slot o c rfl
    exact ⟨(seqEncodec_ends_pass (lasting_freed _) fun _ _ => encodePass_ends_pxr _ _ _ _ _ _ _).freed h,
      (seqEncodec_ends_pass (lasting_freed _) fun _ _ => encodePass_ends_bpw _ _ _ _ _ _ _).freed h,
      (seqEncodec_ends_ckw _ _ _ _ _ _ _).freed h⟩

/-- A writing unit's INIT ends the binding of another writing unit to any of its bytes (R422). -/
theorem writerInit_ends {buf a : Nat} {r' : BufRef}
    (hi : (∃ g, u = .bpw ∧ i = .bpwInit buf g) ∨ (∃ slot, u = .pxw ∧ i = .pxwInit buf slot) ∨
      u = .ckw ∧ i = .ckwInit buf) (h : exec i s = completes .unit t)
    (hv : v ∈ [UnitId.bpw, .pxw, .ckw]) (hvu : v ≠ u) (hr : bindingOf v s = some r')
    (ha : inWindow r' buf a) (hlen : a < (bufAt s.mem buf).len) : bindingOf v t = none := by
  have hwhole := inWindow_wholeBuf hlen
  rcases hi with ⟨g, rfl, rfl⟩ | ⟨slot, rfl, rfl⟩ | ⟨rfl, rfl⟩
  · exact ((binds_bpwInit _ g).ends_claimed hv hvu hr hwhole ha).bindingOf (p := (· = none)) h
  · exact ((binds_pxwInit _ slot).ends_claimed hv hvu hr hwhole ha).bindingOf (p := (· = none)) h
  · exact (((binds_ckwInit _).map fun _ => Result.unit).ends_claimed hv hvu hr hwhole ha).bindingOf
      (p := (· = none)) h

end Sys2Proof.Machine

namespace Sys2Proof.Proofs

open Sys2Proof.Machine

/-- Settles O6: what every instruction does to the bindings is `exec_spared`, with `exec_makes` for the
ones that make one; the passes' ends and the claims are those of their operations. -/
theorem deadBindings : Obligations.DeadBindings := by
  refine ⟨fun i u s => exec_dead, fun s n hr hf hi hb => ⟨hamAdv_dead n hr hf hi hb,
    hamRead_dead hr hf hi hb⟩, fun i u s t h => ?_, fun i s t r => seq_completes,
    fun s t c => seqScan_faulted, fun i u v s t buf a r' => writerInit_ends, fun i v s t r a h hg hr ha =>
    exec_sameBytes h hg r hr a ha, fun i s t h => ⟨?_, ?_⟩⟩
  · rcases exec_bindingOf h u with hsame | hnone | ⟨buf, hnew, hm⟩
    · exact .inl hsame
    · exact .inr (.inl hnone)
    · exact .inr (.inr ⟨buf, hnew, makes_cases hm⟩)
  · exact (exec_decoder (v := .pbd) h rfl).imp Prod.mk.inj Prod.mk.inj
  · exact (exec_decoder (v := .vdd) h rfl).imp Prod.mk.inj Prod.mk.inj

end Sys2Proof.Proofs
end

section
/-! The encoding and the decoder as inverses of each other (R108 to R116, R120; O1 to O3). A command
byte is bit 7 and the seven bits below it, a pixel code its selector and its data, and a host operation
its code and its operands. -/

namespace Sys2Proof

/-! ### Command bytes: bit 7 and the bits below it (R108 to R114) -/

@[simp] theorem toNat_byteLow (n : BitVec 7) : (byteLow n).toNat = n.toNat := by
  have := n.isLt
  simp only [byteLow, BitVec.toNat_setWidth]
  omega

@[simp] theorem toNat_byteHigh (n : BitVec 7) : (byteHigh n).toNat = 128 + n.toNat := by
  have := n.isLt
  calc (byteHigh n).toNat
      = 128 ||| n.toNat % 256 := by simp [byteHigh]
    _ = 128 ||| n.toNat := by rw [Nat.mod_eq_of_lt (by omega)]
    _ = 128 + n.toNat := (Nat.two_pow_add_eq_or_of_lt (i := 7) n.isLt 1).symm

@[simp] theorem toNat_low7 (c : Byte) : (low7 c).toNat = c.toNat % 128 := by
  simp [low7]

@[simp] theorem msb_byteLow (n : BitVec 7) : (byteLow n).msb = false := by
  simp [BitVec.msb_eq_decide, n.isLt]

@[simp] theorem msb_byteHigh (n : BitVec 7) : (byteHigh n).msb = true := by
  simp [BitVec.msb_eq_decide]

@[simp] theorem low7_byteLow (n : BitVec 7) : low7 (byteLow n) = n :=
  BitVec.eq_of_toNat_eq (by simp [Nat.mod_eq_of_lt n.isLt])

@[simp] theorem low7_byteHigh (n : BitVec 7) : low7 (byteHigh n) = n :=
  BitVec.eq_of_toNat_eq (by simp [Nat.mod_eq_of_lt n.isLt])

theorem byteLow_low7 {c : Byte} (h : c.msb = false) : byteLow (low7 c) = c := by
  apply BitVec.eq_of_toNat_eq
  rw [toNat_byteLow, toNat_low7, Nat.mod_eq_of_lt (BitVec.toNat_lt_of_msb_false h)]

theorem byteHigh_low7 {c : Byte} (h : c.msb = true) : byteHigh (low7 c) = c := by
  have hge : 128 ≤ c.toNat := BitVec.le_toNat_of_msb_true h
  have hlt := c.isLt
  apply BitVec.eq_of_toNat_eq
  rw [toNat_byteHigh, toNat_low7]
  omega

/-! ### Packbits and strip commands -/

theorem decodePb_byteLow (n : BitVec 7) : decodePb (byteLow n) = .lit n := by
  simp [decodePb]

/-- Of the bytes with bit 7 set only 0x80 is no run (R109, R110). -/
theorem decodePb_byteHigh {n : BitVec 7} (h : n ≠ 0) : decodePb (byteHigh n) = .run n := by
  have hne : byteHigh n ≠ 0x80 := fun he => h (by rw [← low7_byteHigh n, he]; rfl)
  rw [decodePb, if_neg (by simp), if_neg hne, low7_byteHigh]

theorem decodeVd_byteHigh (n : BitVec 7) : decodeVd (byteHigh n) = .copy n := by
  have hne : byteHigh n ≠ 0 := fun he => by simpa [he] using msb_byteHigh n
  rw [decodeVd, if_neg hne, if_pos (msb_byteHigh n), low7_byteHigh]

/-- Of the bytes with bit 7 clear only 0x00 and 0x01 are no short run (R111, R113, R114). -/
theorem decodeVd_byteLow {n : BitVec 7} (h : 2 ≤ n.toNat) : decodeVd (byteLow n) = .run n := by
  have hne {k : Byte} (hk : k.toNat < 2) : byteLow n ≠ k := by
    rintro rfl
    rw [toNat_byteLow] at hk
    omega
  rw [decodeVd, if_neg (hne (by decide)), if_neg (by simp), if_neg (hne (by decide)), low7_byteLow]

theorem encode_instrOfPb (c : Byte) : encode (instrOfPb (decodePb c)) = .pb c := by
  unfold decodePb
  split_ifs with hlow hnop
  · exact congrArg Packet.pb (byteLow_low7 hlow)
  · exact congrArg Packet.pb hnop.symm
  · exact congrArg Packet.pb (byteHigh_low7 (by simpa using hlow))

theorem encode_instrOfVd (c : Byte) : encode (instrOfVd (decodeVd c)) = .vd c := by
  unfold decodeVd
  split_ifs with hcopyx hhigh hrunx
  · exact congrArg Packet.vd hcopyx.symm
  · exact congrArg Packet.vd (byteHigh_low7 hhigh)
  · exact congrArg Packet.vd hrunx.symm
  · exact congrArg Packet.vd (byteLow_low7 (by simpa using hhigh))

/-! ### Pixel codes: the selector above the data (R115, R116) -/

theorem pixelCodeOk_iff {p data : Nat} :
    pixelCodeOk p data = true ↔ 3 ≤ p ∧ p ≤ Config.planesMax ∧ data < 2 ^ (p - 2) := by
  simp [pixelCodeOk, and_assoc]

/-- The two selector bits stand above the `p - 2` data bits. -/
theorem two_pow_planes {p : Nat} (h : 3 ≤ p) : 2 ^ p = 4 * 2 ^ (p - 2) := by
  exact (pow_mul_pow_sub 2 (show 2 ≤ p by omega)).symm

theorem decodeHam_selector_data {p data : Nat} (sel : Nat) (h : data < 2 ^ (p - 2)) :
    decodeHam p (sel * 2 ^ (p - 2) + data) = (hamSelOf sel, data) := by
  rw [decodeHam, Nat.mul_add_mod', Nat.mod_eq_of_lt h, Nat.add_comm,
    Nat.add_mul_div_right _ _ (by positivity), Nat.div_eq_of_lt h, Nat.zero_add]

theorem decode_pixelCode {p data sel : Nat} (h : pixelCodeOk p data = true) (hsel : sel < 4) :
    decode (.ham p (sel * 2 ^ (p - 2) + data)) = .ok (instrOfHam p (hamSelOf sel) data) := by
  obtain ⟨h3, h8, hdata⟩ := pixelCodeOk_iff.mp h
  have hraw : sel * 2 ^ (p - 2) + data < 2 ^ p := calc
    sel * 2 ^ (p - 2) + data < (sel + 1) * 2 ^ (p - 2) := by rw [Nat.succ_mul]; omega
    _ ≤ 4 * 2 ^ (p - 2) := Nat.mul_le_mul_right _ hsel
    _ = 2 ^ p := (two_pow_planes h3).symm
  rw [decode, if_pos ⟨h3, h8, hraw⟩, decodeHam_selector_data sel hdata]

theorem encode_instrOfHam {sel : Nat} (h : sel < 4) (p data : Nat) :
    encode (instrOfHam p (hamSelOf sel) data) = .ham p (sel * 2 ^ (p - 2) + data) := by
  interval_cases sel <;> rfl

theorem encode_decodeHam {p raw : Nat} (h3 : 3 ≤ p) (hraw : raw < 2 ^ p) :
    encode (instrOfHam p (decodeHam p raw).1 (decodeHam p raw).2) = .ham p raw := by
  have hsel : raw / 2 ^ (p - 2) < 4 :=
    Nat.div_lt_of_lt_mul (by rwa [Nat.mul_comm, ← two_pow_planes h3])
  rw [decodeHam, encode_instrOfHam hsel, Nat.div_add_mod']

/-! ### Host operations (R120) -/

theorem eq_ofNat_of_toNat_eq {c : Byte} {k : Nat} (h : c.toNat = k) : c = BitVec.ofNat 8 k := by
  rw [← h, BitVec.ofNat_toNat, BitVec.setWidth_eq]

/-- A code is the byte of its row's number, and the operands are the ones the row reads. -/
theorem encode_of_decodeHop {code : Byte} {ops : List Operand} {i : Instr}
    (h : decodeHop code ops = .ok i) : encode i = .hop code ops := by
  unfold decodeHop at h
  split at h
  case h_60 => cases h
  all_goals
    rename_i hcode
    obtain rfl := eq_ofNat_of_toNat_eq hcode
    split at h <;> cases h
    rfl

/-! ### Both directions -/

theorem decode_encode (i : Instr) (h : WellFormed i = true) : decode (encode i) = .ok i := by
  cases i with
  | pbLit n => exact congrArg (Except.ok ∘ instrOfPb) (decodePb_byteLow n)
  | pbRun n => exact congrArg (Except.ok ∘ instrOfPb) (decodePb_byteHigh (of_decide_eq_true h))
  | vdCopy n => exact congrArg (Except.ok ∘ instrOfVd) (decodeVd_byteHigh n)
  | vdRun n => exact congrArg (Except.ok ∘ instrOfVd) (decodeVd_byteLow (of_decide_eq_true h))
  | hamBase p data => exact decode_pixelCode (sel := 0) h (by decide)
  | hamModb p data => exact decode_pixelCode (sel := 1) h (by decide)
  | hamModr p data => exact decode_pixelCode (sel := 2) h (by decide)
  | hamModg p data => exact decode_pixelCode (sel := 3) h (by decide)
  | _ => rfl

theorem encode_of_decode (pk : Packet) (i : Instr) (h : decode pk = .ok i) : encode i = pk := by
  cases pk with
  | hop code ops => exact encode_of_decodeHop h
  | pb c =>
    obtain rfl := Except.ok.inj h
    exact encode_instrOfPb c
  | vd c =>
    obtain rfl := Except.ok.inj h
    exact encode_instrOfVd c
  | ham p raw =>
    rw [decode] at h
    split at h
    · next hcode =>
      obtain ⟨h3, -, hraw⟩ := hcode
      obtain rfl := Except.ok.inj h
      exact encode_decodeHam h3 hraw
    · exact nomatch h

end Sys2Proof

namespace Sys2Proof.Proofs

/-- Settles O1: a host operation decodes by its row of R120, a stream command by bit 7 of its byte,
and a pixel code by its selector. -/
theorem decodeEncodeAgree : Obligations.DecodeEncodeAgree := decode_encode

/-- Settles O2: in each format the fields that the decoder reads make up the whole packet. -/
theorem encodeDecodeAgree : Obligations.EncodeDecodeAgree := encode_of_decode

/-- Settles O3: the decoder evaluates each packet to its instruction. -/
theorem decodeSamples : Obligations.DecodeSamples := by
  unfold Obligations.DecodeSamples
  decide

end Sys2Proof.Proofs
end

section
/-! How the checks of a unit's entry, of its slots and of their entries run (R140, R146, R147, R151, R386,
R388), and O17. The two checks of a slot that is read have one outcome, `slotFault`, which every unit that
reads a slot shares. -/

namespace Sys2Proof.Machine

variable {β : Type} {x : Op Result} {s : State} {u : UnitId} {c : FaultCode} {info slot : Nat}
  {f : Unit → Op β}

/-! ### The checks of an operation -/

theorem runOp_raises (h : x s = .error .faulted (withFault u (raisedReg c info) s)) :
    runOp x s = raises u c info s := runOp_faulted h

theorem enter_bind (h : ready u s) : (enter u >>= f) s = f () s := bind_ok (enter_ready h)

theorem raiseIf_bind_false {p : Prop} [Decidable p] (h : ¬ p) :
    (raiseIf p u c info >>= f) s = f () s := bind_ok (raiseIf_false h u c info s)

theorem raiseIf_bind_true {p : Prop} [Decidable p] (h : p) :
    (raiseIf p u c info >>= f) s = .error .faulted (withFault u (raisedReg c info) s) :=
  bind_error (raiseIf_true h u c info s)

theorem checkSlot_bind (h : slot < Config.npal) : (checkSlot u slot >>= f) s = f () s :=
  bind_ok (checkSlot_ok h s)

theorem checkSlot_bind_bad (h : Config.npal ≤ slot) :
    (checkSlot u slot >>= f) s = .error .faulted (withFault u (raisedReg .badSlot slot) s) :=
  bind_error (checkSlot_bad h s)

/-- After a clearing operation (R388) a fault is raised as if nothing had been cleared. -/
theorem clearFault_bind_raise
    (h : f () (clearedFault u s) =
      .error .faulted (withFault u (raisedReg c info) (clearedFault u s))) :
    (clearFault u >>= f) s = .error .faulted (withFault u (raisedReg c info) s) := by
  rw [bind_ok (clearFault_run u s), h, clearedFault, withFault_withFault]

/-! ### The checks of a slot that is read -/

/-- What the checks of R140 and R146 find wrong with a slot that is to be read. -/
def slotFault (s : State) (slot : Nat) : Option FaultCode :=
  if Config.npal ≤ slot then some .badSlot
  else if (slotAt s slot).made = false then some .notInit else none

theorem slotFault_badSlot (h : Config.npal ≤ slot) : slotFault s slot = some .badSlot := if_pos h

theorem slotFault_notInit (h : slot < Config.npal) (hm : (slotAt s slot).made = false) :
    slotFault s slot = some .notInit := by
  simp [slotFault, hm, h]

@[simp] theorem slotFault_clearedFault : slotFault (clearedFault u s) slot = slotFault s slot := by
  simp [slotFault, clearedFault]

/-- The first of the two checks that fails is raised. -/
theorem checkRead_bind_bad (h : slotFault s slot = some c) :
    (checkSlot u slot >>= fun _ => checkMade u slot >>= f) s =
      .error .faulted (withFault u (raisedReg c slot) s) := by
  unfold slotFault at h
  split_ifs at h with hs hm <;> cases h
  · exact checkSlot_bind_bad hs
  · exact (checkSlot_bind (by omega)).trans (bind_error (checkMade_bad hm))

theorem checkRead_bind (h : readableSlot s slot) :
    (checkSlot u slot >>= fun _ => checkMade u slot >>= f) s = f () s := by
  rw [checkSlot_bind h.1, bind_ok (checkMade_ok h.2)]

theorem view8_bad {g : Lut → Op β} (h : slotFault s slot = some c) :
    (view8 u slot >>= g) s = .error .faulted (withFault u (raisedReg c slot) s) :=
  bind_error (checkRead_bind_bad h)

/-! ### The search for an unset entry -/

variable {p : Slot}

theorem firstUnset_of_set : ∀ {n start : Nat}, (∀ i < n, (entryAt p (start + i)).set = true) →
    firstUnset p start n = none
  | 0, _, _ => rfl
  | n + 1, start, h => by
    have hrest := firstUnset_of_set (n := n) (start := start + 1) fun i hi => by
      rw [Nat.add_right_comm]
      exact h (i + 1) (by omega)
    have hfirst : (entryAt p start).set = true := h 0 (Nat.succ_pos n)
    simp [firstUnset, hfirst, hrest]

theorem firstUnset_of_least : ∀ {n start i : Nat}, i < n → (entryAt p (start + i)).set = false →
    (∀ j < i, (entryAt p (start + j)).set = true) → firstUnset p start n = some (start + i)
  | 0, _, _, hi, _, _ => absurd hi (Nat.not_lt_zero _)
  | n + 1, start, 0, _, hunset, _ => by
    unfold firstUnset
    exact if_pos hunset
  | n + 1, start, i + 1, hi, hunset, hset => by
    have hrest := firstUnset_of_least (n := n) (start := start + 1) (i := i) (by omega)
      (by rwa [Nat.add_right_comm]) fun j hj => by
        rw [Nat.add_right_comm]
        exact hset (j + 1) (by omega)
    have hfirst : (entryAt p start).set = true := hset 0 (Nat.succ_pos i)
    simp [firstUnset, hfirst, hrest, Nat.add_right_comm, Nat.add_assoc]

theorem raiseUnset_bind {n : Nat}
    (h : ∀ i < n, (entryAt p i).set = true) : (raiseUnset u p n >>= f) s = f () s := by
  unfold raiseUnset
  rw [firstUnset_of_set (by simpa using h)]
  rfl

/-- The least unset entry is raised. -/
theorem raiseUnset_bind_bad {n i : Nat} (hi : i < n)
    (hunset : (entryAt p i).set = false) (hset : ∀ j < i, (entryAt p j).set = true) :
    (raiseUnset u p n >>= f) s = .error .faulted (withFault u (raisedReg .unset i) s) := by
  unfold raiseUnset
  rw [firstUnset_of_least hi (by simpa using hunset) (by simpa using hset), Nat.zero_add]
  rfl

/-! ### The operations that take a slot -/

/-- A PAL operation reading a slot raises what is wrong with it in `PAL.FAULT` (R140). -/
theorem palRead_raises {sd idx nb : Nat} {r g b : U32} {a : Option U32} {alpha : Option Bool}
    {i : Instr} (hr : ready .pal s) (hsd : sd < Config.npal)
    (hi : i = .palGet slot idx ∨ i = .palSet slot idx r g b a ∨ i = .palToval slot alpha ∨
      i = .palPlanes slot ∨ i = .palResample sd slot nb ∨ i = .palEhb sd slot)
    (h : slotFault s slot = some c) : exec i s = raises .pal c slot s := by
  rcases hi with rfl | rfl | rfl | rfl | rfl | rfl
  · exact runOp_raises (bind_error ((enter_bind hr).trans (checkRead_bind_bad h)))
  · exact runOp_raises ((enter_bind hr).trans (checkRead_bind_bad h))
  · exact runOp_raises ((enter_bind hr).trans (checkRead_bind_bad h))
  · exact runOp_raises (bind_error ((enter_bind hr).trans (checkRead_bind_bad h)))
  · exact runOp_raises ((enter_bind hr).trans ((checkSlot_bind hsd).trans (checkRead_bind_bad h)))
  · exact runOp_raises ((enter_bind hr).trans ((checkSlot_bind hsd).trans (checkRead_bind_bad h)))

/-- A PAL operation filling a slot checks its number first (R140). -/
theorem palFill_badSlot {i : Instr} (hs : Config.npal ≤ slot)
    (hi : (∃ count bpc, i = .palCreate slot count bpc) ∨
      ready .pal s ∧ (i = .palMono slot ∨ (∃ vs bpc alpha, i = .palFromval slot vs bpc alpha) ∨
        (∃ buf, i = .palFrompix slot buf) ∨ (∃ ss bpc, i = .palResample slot ss bpc) ∨
        ∃ ss, i = .palEhb slot ss)) :
    exec i s = raises .pal .badSlot slot s := by
  rcases hi with ⟨_, _, rfl⟩ | ⟨hr, rfl | ⟨_, _, _, rfl⟩ | ⟨_, rfl⟩ | ⟨_, _, rfl⟩ | ⟨_, rfl⟩⟩
  · exact runOp_raises (clearFault_bind_raise (checkSlot_bind_bad hs))
  all_goals exact runOp_raises ((enter_bind hr).trans (checkSlot_bind_bad hs))

/-- A unit that takes the 8-bit view of a slot raises what is wrong with the slot in its own register
(R146). -/
theorem takeView_raises {buf p k : Nat} {i : Instr} (h3 : 3 ≤ p) (h8 : p ≤ Config.planesMax)
    (hk : k < Config.rastMax) (hc : k ≤ s.rpa.count)
    (hi : (u = .pxr ∧ i = .pxrInit buf slot) ∨ (u = .pxw ∧ i = .pxwInit buf slot) ∨
      (u = .pxr ∧ i = .pxrSetpal slot ∧ ready u s) ∨ (u = .pxw ∧ i = .pxwSetpal slot ∧ ready u s) ∨
      (u = .ham ∧ i = .hamSetpal slot ∧ ready u s) ∨ (u = .ham ∧ i = .hamInit p slot) ∨
      (u = .rpa ∧ i = .rpaLoad k slot ∧ ready u s))
    (h : slotFault s slot = some c) : exec i s = raises u c slot s := by
  have hclear (v : UnitId) : slotFault (clearedFault v s) slot = some c :=
    slotFault_clearedFault.trans h
  rcases hi with ⟨rfl, rfl⟩ | ⟨rfl, rfl⟩ | ⟨rfl, rfl, hr⟩ | ⟨rfl, rfl, hr⟩ | ⟨rfl, rfl, hr⟩ |
    ⟨rfl, rfl⟩ | ⟨rfl, rfl, hr⟩
  · exact runOp_raises (clearFault_bind_raise (view8_bad (hclear _)))
  · exact runOp_raises (clearFault_bind_raise (view8_bad (hclear _)))
  · exact runOp_raises ((enter_bind hr).trans (view8_bad h))
  · exact runOp_raises ((enter_bind hr).trans (view8_bad h))
  · exact runOp_raises ((enter_bind hr).trans (view8_bad h))
  · exact runOp_raises (clearFault_bind_raise
      ((raiseIf_bind_false (by omega)).trans (view8_bad (hclear _))))
  · exact runOp_raises ((enter_bind hr).trans
      ((raiseIf_bind_false (by omega)).trans (view8_bad h)))

end Sys2Proof.Machine

namespace Sys2Proof.Proofs

open Sys2Proof.Machine

/-- Settles O17: in every operation the slot is checked as `slotFault` says, after the unit's own entry
checks and before any change but the clearing of its fault. -/
theorem slotChecks : Obligations.SlotChecks := by
  refine ⟨?reads, fun s slot i hs hi => palFill_badSlot hs hi, ?views⟩
  case reads =>
    rintro s slot i hr ⟨idx, alpha, sd, nb, r, g, b, a, hsd, hi⟩
    exact ⟨fun hs => palRead_raises hr hsd hi (slotFault_badSlot hs),
      fun hs hm => palRead_raises hr hsd hi (slotFault_notInit hs hm)⟩
  case views =>
    intro s slot buf p k u i h3 h8 hk hc hi
    exact ⟨fun hs => takeView_raises h3 h8 hk hc hi (slotFault_badSlot hs),
      fun hs hm => takeView_raises h3 h8 hk hc hi (slotFault_notInit hs hm)⟩

end Sys2Proof.Proofs
end

section
/-! A slot made, an entry of it written and read, and the plane count of its palette (R141 to R143, R150,
R153; O14 to O16). -/

namespace Sys2Proof.Machine

variable {s : State} {slot : Nat} {p : Slot} {b : Nat}

@[simp] theorem slotAt_setSlot_self (slot : Nat) (p : Slot) (s : State) :
    slotAt (setSlot slot p s) slot = p := by simp [slotAt_setSlot]

theorem entryAt_setEntry (s : State) (slot i : Nat) (e : Entry) (slot' i' : Nat) :
    entryAt (slotAt (setEntry slot i e s) slot') i' =
      if slot' = slot ∧ i' = i then e else entryAt (slotAt s slot') i' := by
  by_cases h : slot' = slot
  · subst h
    simp [setEntry, entryAt, sget_sput]
  · simp [setEntry, slotAt_setSlot, h]

/-! ### Channels -/

theorem chanMax_le_byte (h : b ≤ Config.bpcMax) : chanMax b ≤ 255 :=
  Nat.sub_le_sub_right (Nat.pow_le_pow_right (by decide) h) 1

theorem toNat_ofNat_byte {n : Nat} (h : n ≤ 255) : (BitVec.ofNat 8 n).toNat = n := by
  rw [BitVec.toNat_ofNat, Nat.mod_eq_of_lt (by omega)]

theorem cast_chanMax (b : Nat) : (chanMax b : Int) = 2 ^ b - 1 := by
  rw [chanMax, Nat.cast_sub Nat.one_le_two_pow]
  push_cast
  rfl

theorem cast_clampChannel (m : Nat) (v : U32) : (clampChannel m v : Int) = max 0 (min v.toInt m) := by
  unfold clampChannel
  split_ifs <;> omega

/-- A clamped channel as it is stored (R142). -/
theorem toNat_clampedChannel (h : b ≤ Config.bpcMax) (v : U32) :
    ((BitVec.ofNat 8 (clampChannel (chanMax b) v)).toNat : Int) = max 0 (min v.toInt (2 ^ b - 1)) := by
  rw [toNat_ofNat_byte ((clampChannel_le _ v).trans (chanMax_le_byte h)), cast_clampChannel,
    cast_chanMax]

theorem toNat_fullChannel (h : b ≤ Config.bpcMax) : (BitVec.ofNat 8 (chanMax b)).toNat = chanMax b :=
  toNat_ofNat_byte (chanMax_le_byte h)

/-! ### PAL.CREATE and PAL.MONO -/

theorem palCreate_completes {count : Nat} {bpc : Option Nat} (hs : slot < Config.npal)
    (hc : count ≤ Config.palMax) (hb : legalBpc (bpcOr8 bpc)) :
    exec (.palCreate slot count bpc) s =
      completes .unit (setSlot slot ⟨true, count, bpcStored (bpcOr8 bpc), []⟩ (clearedFault .pal s)) := by
  refine runOp_ok ?_
  unfold palCreateOp
  rw [bind_ok (clearFault_run .pal s), checkSlot_bind hs, raiseIf_bind_false (by omega),
    raiseIf_bind_false (by unfold legalBpc at hb; omega)]
  rfl

theorem palCreate_badCount {count : Nat} {bpc : Option Nat} (hs : slot < Config.npal)
    (hc : Config.palMax < count) :
    exec (.palCreate slot count bpc) s = raises .pal .badCount count s :=
  runOp_raises (clearFault_bind_raise ((checkSlot_bind hs).trans (raiseIf_bind_true hc)))

theorem palCreate_badBpc {count : Nat} {bpc : Option Nat} (hs : slot < Config.npal)
    (hc : count ≤ Config.palMax) (hb : bpcOr8 bpc < Config.bpcMin ∨ Config.bpcMax < bpcOr8 bpc) :
    exec (.palCreate slot count bpc) s = raises .pal .badBpc (bpcOr8 bpc) s :=
  runOp_raises (clearFault_bind_raise ((checkSlot_bind hs).trans
    ((raiseIf_bind_false (by omega)).trans (raiseIf_bind_true hb))))

theorem palMono_completes (hr : ready .pal s) (hs : slot < Config.npal) :
    exec (.palMono slot) s = completes .unit (setSlot slot monoPalette s) := by
  refine runOp_ok ?_
  unfold palMonoOp
  rw [enter_bind hr, checkSlot_bind hs]
  rfl

/-! ### PAL.SET and PAL.GET -/

theorem palSet_completes {i : Nat} {r g b : U32} {a : Option U32} (hr : ready .pal s)
    (hs : readableSlot s slot) (hi : i < (slotAt s slot).count) :
    exec (.palSet slot i r g b a) s =
      completes .unit (setEntry slot i (clampedEntry (slotAt s slot).bpc r g b a) s) := by
  refine runOp_ok ?_
  unfold palSetOp
  rw [enter_bind hr, checkRead_bind hs, get_bind, raiseIf_bind_false (by omega)]
  rfl

theorem palSet_badIndex {i : Nat} {r g b : U32} {a : Option U32} (hr : ready .pal s)
    (hs : readableSlot s slot) (hi : (slotAt s slot).count ≤ i) :
    exec (.palSet slot i r g b a) s = raises .pal .progBadIndex i s := by
  refine runOp_raises ?_
  unfold palSetOp
  rw [enter_bind hr, checkRead_bind hs, get_bind, raiseIf_bind_true hi]

/-- What `PAL.GET` checks and reads of a made slot (R143). -/
theorem palGetOp_run {i : Nat} (hr : ready .pal s) (hs : readableSlot s slot) :
    palGetOp slot i s =
      (do
        raiseIf ((slotAt s slot).count ≤ i) .pal .rangeBadIndex i
        raiseIf ((entryAt (slotAt s slot) i).set = false) .pal .unset i
        pure (entryAt (slotAt s slot) i) : Op Entry) s := by
  unfold palGetOp
  rw [enter_bind hr, checkRead_bind hs, get_bind]

theorem palGet_badIndex {i : Nat} (hr : ready .pal s) (hs : readableSlot s slot)
    (hi : (slotAt s slot).count ≤ i) :
    exec (.palGet slot i) s = raises .pal .rangeBadIndex i s :=
  runOp_raises (bind_error ((palGetOp_run hr hs).trans (raiseIf_bind_true hi)))

theorem palGet_unset {i : Nat} (hr : ready .pal s) (hs : readableSlot s slot)
    (hi : i < (slotAt s slot).count) (he : (entryAt (slotAt s slot) i).set = false) :
    exec (.palGet slot i) s = raises .pal .unset i s :=
  runOp_raises (bind_error ((palGetOp_run hr hs).trans
    ((raiseIf_bind_false (by omega)).trans (raiseIf_bind_true he))))

theorem palGet_completes {i : Nat} (hr : ready .pal s) (hs : readableSlot s slot)
    (hi : i < (slotAt s slot).count) (he : (entryAt (slotAt s slot) i).set = true) :
    exec (.palGet slot i) s =
      completes (.colour (entryAt (slotAt s slot) i).r (entryAt (slotAt s slot) i).g
        (entryAt (slotAt s slot) i).b (entryAt (slotAt s slot) i).a) s :=
  runOp_ok (bind_ok ((palGetOp_run hr hs).trans
    ((raiseIf_bind_false (by omega)).trans (raiseIf_bind_false (by simp [he])))))

/-! ### PAL.PLANES -/

/-- The search finds the least power of two that reaches `count`, if its fuel does (R153). -/
theorem planesFrom_least {count : Nat} : ∀ {fuel p : Nat}, count ≤ 2 ^ (p + fuel) →
    p ≤ planesFrom count fuel p ∧ count ≤ 2 ^ planesFrom count fuel p ∧
      ∀ q, p ≤ q → count ≤ 2 ^ q → planesFrom count fuel p ≤ q
  | 0, _, h => ⟨le_rfl, h, fun _ hq _ => hq⟩
  | fuel + 1, p, h => by
    unfold planesFrom
    split_ifs with hp
    · exact ⟨le_rfl, hp, fun _ hq _ => hq⟩
    · obtain ⟨hle, hfit, hleast⟩ :=
        planesFrom_least (count := count) (fuel := fuel) (p := p + 1) (by rwa [Nat.add_right_comm])
      refine ⟨by omega, hfit, fun q hq hcount => hleast q (Nat.lt_of_le_of_ne hq ?_) hcount⟩
      rintro rfl
      exact hp hcount

theorem planesFor_least (count : Nat) :
    1 ≤ planesFor count ∧ count ≤ 2 ^ planesFor count ∧
      ∀ q, 1 ≤ q → count ≤ 2 ^ q → planesFor count ≤ q :=
  planesFrom_least <| calc
    count ≤ 2 ^ count := Nat.lt_two_pow_self.le
    _ ≤ 2 ^ (1 + count) := Nat.pow_le_pow_right (by decide) (Nat.le_add_left _ _)

theorem palPlanes_completes (hr : ready .pal s) (hs : readableSlot s slot) :
    exec (.palPlanes slot) s = completes (.nat (planesFor (slotAt s slot).count)) s :=
  runOp_ok (bind_ok ((enter_bind hr).trans (checkRead_bind hs)))

end Sys2Proof.Machine

namespace Sys2Proof.Proofs

open Sys2Proof.Machine

/-- Settles O14: the two operations fill the slot with the palettes of R141 and R150, whose stored depth
reads back. -/
theorem palCreateMono : Obligations.PalCreateMono := by
  refine ⟨fun s slot count bpc hs => ⟨palCreate_badCount hs, palCreate_badBpc hs, ?created⟩,
    fun s slot hr hs => ?mono⟩
  case created =>
    intro hc hlo hhi
    refine ⟨_, palCreate_completes hs hc ⟨hlo, hhi⟩, ?_⟩
    rw [slotAt_setSlot_self]
    exact ⟨rfl, rfl, rfl, Slot.bpc_stored _ hlo hhi rfl, fun _ => rfl⟩
  case mono =>
    refine ⟨_, palMono_completes hr hs, ?_⟩
    rw [slotAt_setSlot_self]
    exact ⟨rfl, rfl, rfl, rfl, rfl, rfl⟩

/-- Settles O15: the entry stored is the clamped one, and storing it is one write to a sparse map. -/
theorem palSet : Obligations.PalSet := by
  refine ⟨fun s slot i r g b a hr _ hs hm => ⟨palSet_badIndex hr ⟨hs, hm⟩, fun hi => ?_⟩,
    entryAt_setEntry⟩
  have hb := (slotAt s slot).bpc_legal.2
  refine ⟨_, palSet_completes hr ⟨hs, hm⟩ hi, rfl, toNat_clampedChannel hb r,
    toNat_clampedChannel hb g, toNat_clampedChannel hb b, ?given, ?omitted⟩
  case given =>
    rintro v rfl
    exact toNat_clampedChannel hb v
  case omitted =>
    rintro rfl
    exact (congrArg Nat.cast (toNat_fullChannel hb)).trans (cast_chanMax _)

/-- Settles O16: `PAL.GET`'s checks in their order, and the search of `PAL.PLANES`. -/
theorem palGetPlanes : Obligations.PalGetPlanes :=
  ⟨fun _ _ _ hr hs hm => ⟨palGet_badIndex hr ⟨hs, hm⟩, palGet_unset hr ⟨hs, hm⟩,
      palGet_completes hr ⟨hs, hm⟩⟩,
    fun s slot hr _ hs hm => ⟨planesFor (slotAt s slot).count, palPlanes_completes hr ⟨hs, hm⟩,
      planesFor_least _⟩⟩

end Sys2Proof.Proofs
end

section
/-! Palettes at another depth (R144 to R146, R151): what rescaling does to a channel, to an entry, to the
entries of `PAL.RESAMPLE`, of `PAL.EHB` and of a slot's 8-bit view, and how far a channel is from itself
after a round trip (O18, O22, O29). -/

namespace Sys2Proof.Machine

variable {s : State} {p : Slot} {e : Entry} {b ob nb b1 b2 v : Nat}

/-! ### Rescaled channels (R144) -/

theorem chanMax_pos (h : Config.bpcMin ≤ b) : 0 < chanMax b :=
  Nat.sub_pos_of_lt (Nat.one_lt_two_pow (Nat.one_le_iff_ne_zero.mp h))

theorem chanMax_odd (h : Config.bpcMin ≤ b) : chanMax b % 2 = 1 := by
  obtain ⟨k, rfl⟩ := Nat.exists_eq_add_of_le' (show 1 ≤ b from h)
  have : 2 ^ (k + 1) = 2 * 2 ^ k := Nat.pow_succ'
  have := Nat.two_pow_pos k
  unfold chanMax
  omega

theorem chanMax_mono (h : b1 ≤ b2) : chanMax b1 ≤ chanMax b2 :=
  Nat.sub_le_sub_right (Nat.pow_le_pow_right (by decide) h) 1

/-- A rescaled channel is the exact quotient rounded to the nearest: it lies strictly within a half of
it, since a `chanMax` is odd. -/
theorem rescale_nearest (h : Config.bpcMin ≤ ob) (nb v : Nat) :
    2 * (rescale v ob nb * chanMax ob) < 2 * (v * chanMax nb) + chanMax ob ∧
      2 * (v * chanMax nb) < 2 * (rescale v ob nb * chanMax ob) + chanMax ob := by
  have hpos := chanMax_pos h
  have hodd := chanMax_odd h
  have hdiv : (2 * v * chanMax nb + chanMax ob) / (2 * chanMax ob) = rescale v ob nb := rfl
  obtain ⟨hlo, hhi⟩ := (Nat.div_eq_iff (by omega)).mp hdiv
  rw [show rescale v ob nb * (2 * chanMax ob) = 2 * (rescale v ob nb * chanMax ob) by ring,
    show 2 * v * chanMax nb = 2 * (v * chanMax nb) by ring] at hlo hhi
  omega

/-- A round trip through the depth `b2` moves a channel by less than half a step of each depth. -/
theorem rescale_roundTrip (h1 : Config.bpcMin ≤ b1) (h2 : Config.bpcMin ≤ b2) (v : Nat) :
    2 * (rescale (rescale v b1 b2) b2 b1 * chanMax b2) + 2 ≤
        2 * (v * chanMax b2) + chanMax b1 + chanMax b2 ∧
      2 * (v * chanMax b2) + 2 ≤
        2 * (rescale (rescale v b1 b2) b2 b1 * chanMax b2) + chanMax b1 + chanMax b2 := by
  have hthere := rescale_nearest h1 b2 v
  have hback := rescale_nearest h2 b1 (rescale v b1 b2)
  omega

/-- Two channels less than a step apart are equal. -/
theorem eq_of_step_lt {x y n : Nat} (hxy : 2 * (x * n) < 2 * (y * n) + 2 * n)
    (hyx : 2 * (y * n) < 2 * (x * n) + 2 * n) : x = y := by
  have hx : x * n < (y + 1) * n := by rw [Nat.succ_mul]; omega
  have hy : y * n < (x + 1) * n := by rw [Nat.succ_mul]; omega
  have := Nat.lt_of_mul_lt_mul_right hx
  have := Nat.lt_of_mul_lt_mul_right hy
  omega

theorem rescale_roundTrip_exact (h1 : Config.bpcMin ≤ b1) (h : b1 ≤ b2) (v : Nat) :
    rescale (rescale v b1 b2) b2 b1 = v := by
  have htrip := rescale_roundTrip h1 (h1.trans h) v
  have hmono := chanMax_mono h
  exact eq_of_step_lt (n := chanMax b2) (by omega) (by omega)

/-- The two rounding errors of a round trip, strict as they are, come to no more whole channels than the
coarser depth's half step: the finite fact behind the bound of R144. -/
theorem roundTrip_steps (h2 : Config.bpcMin ≤ b2) (h : b2 < b1) (h8 : b1 ≤ Config.bpcMax) :
    (chanMax b1 + chanMax b2 - 2) / (2 * chanMax b2) ≤ chanMax b1 / (2 * chanMax b2) := by
  interval_cases b1 <;> interval_cases b2 <;> decide

/-- Two numbers are as close as their multiples show. -/
theorem le_add_div {x y n m : Nat} (hn : 0 < n) (h : 2 * (x * n) ≤ 2 * (y * n) + m) :
    x ≤ y + m / (2 * n) := by
  rw [← Nat.sub_le_iff_le_add', Nat.le_div_iff_mul_le (by omega), Nat.sub_mul]
  rw [show x * (2 * n) = 2 * (x * n) by ring, show y * (2 * n) = 2 * (y * n) by ring]
  omega

theorem rescale_roundTrip_near (h2 : Config.bpcMin ≤ b2) (h : b2 < b1) (h8 : b1 ≤ Config.bpcMax)
    (v : Nat) :
    rescale (rescale v b1 b2) b2 b1 ≤ v + chanMax b1 / (2 * chanMax b2) ∧
      v ≤ rescale (rescale v b1 b2) b2 b1 + chanMax b1 / (2 * chanMax b2) := by
  have hpos := chanMax_pos h2
  have hsteps := roundTrip_steps h2 h h8
  obtain ⟨hup, hdown⟩ := rescale_roundTrip (h2.trans h.le) h2 v
  have near {x y : Nat}
      (hxy : 2 * (x * chanMax b2) + 2 ≤ 2 * (y * chanMax b2) + chanMax b1 + chanMax b2) :
      x ≤ y + chanMax b1 / (2 * chanMax b2) :=
    (le_add_div (m := chanMax b1 + chanMax b2 - 2) hpos (by omega)).trans
      (Nat.add_le_add_left hsteps y)
  exact ⟨near hup, near hdown⟩

/-! ### Rescaled entries (R145) -/

theorem toNat_rescaleByte {v : Byte} (hob : Config.bpcMin ≤ ob) (hnb : nb ≤ Config.bpcMax)
    (hv : v.toNat ≤ chanMax ob) : (rescaleByte v ob nb).toNat = rescale v.toNat ob nb :=
  toNat_ofNat_byte ((rescale_le hob hv).trans (chanMax_le_byte hnb))

/-- All four channels of a set entry are rescaled. -/
theorem toNat_rescaleEntry (hob : Config.bpcMin ≤ ob) (hnb : nb ≤ Config.bpcMax) (h : entryOk ob e) :
    ∀ ch ∈ [Entry.r, Entry.g, Entry.b, Entry.a],
      (ch (rescaleEntry e ob nb)).toNat = rescale (ch e).toNat ob nb := by
  obtain ⟨hset, hr, hg, hb, ha⟩ := h
  simp [rescaleEntry, hset, toNat_rescaleByte hob hnb, hr, hg, hb, ha]

/-- A set entry of a legal slot is legal. -/
theorem slotOk.entryOk (h : slotOk p) {i : Nat} (hset : (entryAt p i).set = true) :
    entryOk p.bpc (entryAt p i) := by
  rcases entryAt_ok h i with hunset | hok
  · rw [hunset] at hset
    cases hset
  · exact hok

theorem slotOk.toNat_rescaleEntry (h : slotOk p) (hnb : nb ≤ Config.bpcMax) {i : Nat}
    (hset : (entryAt p i).set = true) : ∀ ch ∈ [Entry.r, Entry.g, Entry.b, Entry.a],
      (ch (rescaleEntry (entryAt p i) p.bpc nb)).toNat = rescale (ch (entryAt p i)).toNat p.bpc nb :=
  Machine.toNat_rescaleEntry p.bpc_legal.1 hnb (h.entryOk hset)

/-! ### PAL.RESAMPLE -/

theorem entryAt_resampled {i : Nat} (h : i < p.count) :
    entryAt (resampled p nb) i = rescaleEntry (entryAt p i) p.bpc nb :=
  (sget_stabulate _ _ _ _).trans (if_pos h)

theorem palResample_completes {sd ss : Nat} (hr : ready .pal s) (hsd : sd < Config.npal)
    (hs : readableSlot s ss) (hnb : legalBpc nb) :
    exec (.palResample sd ss nb) s = completes .unit (setSlot sd (resampled (slotAt s ss) nb) s) := by
  refine runOp_ok ?_
  unfold palResampleOp
  rw [enter_bind hr, checkSlot_bind hsd, checkRead_bind hs,
    raiseIf_bind_false (by unfold legalBpc at hnb; omega)]
  rfl

theorem palResample_badBpc {sd ss : Nat} (hr : ready .pal s) (hsd : sd < Config.npal)
    (hs : readableSlot s ss) (hnb : nb < Config.bpcMin ∨ Config.bpcMax < nb) :
    exec (.palResample sd ss nb) s = raises .pal .badBpc nb s :=
  runOp_raises ((enter_bind hr).trans ((checkSlot_bind hsd).trans
    ((checkRead_bind hs).trans (raiseIf_bind_true hnb))))

/-! ### PAL.EHB -/

theorem entryAt_ehb_full {i : Nat} (h : i < 32) :
    entryAt (ehbPalette p) i = rescaleEntry (entryAt p i) p.bpc 8 := by
  rw [entryAt, ehbPalette, sget_stabulate, if_pos (by omega), ehbEntry, if_pos h]

theorem entryAt_ehb_half {i : Nat} (h : i < 32) :
    entryAt (ehbPalette p) (i + 32) = halfBrite (rescaleEntry (entryAt p i) p.bpc 8) := by
  rw [entryAt, ehbPalette, sget_stabulate, if_pos (by omega), ehbEntry, if_neg (by omega),
    Nat.add_sub_cancel]

/-- What `PAL.EHB` still checks when its slots are found (R151). -/
theorem palEhbOp_run {sd ss : Nat} (hr : ready .pal s) (hsd : sd < Config.npal)
    (hs : readableSlot s ss) :
    palEhbOp sd ss s =
      (do
        raiseIf ((slotAt s ss).count < 32) .pal .rangeBadIndex (slotAt s ss).count
        raiseUnset .pal (slotAt s ss) 32
        modify (setSlot sd (ehbPalette (slotAt s ss)))
        pure .unit : Op Result) s := by
  unfold palEhbOp
  rw [enter_bind hr, checkSlot_bind hsd, checkRead_bind hs, get_bind]

theorem palEhb_completes {sd ss : Nat} (hr : ready .pal s) (hsd : sd < Config.npal)
    (hs : readableSlot s ss) (hset : setBelow (slotAt s ss) 32) :
    exec (.palEhb sd ss) s = completes .unit (setSlot sd (ehbPalette (slotAt s ss)) s) :=
  runOp_ok ((palEhbOp_run hr hsd hs).trans
    ((raiseIf_bind_false (Nat.not_lt.mpr hset.1)).trans (raiseUnset_bind hset.2)))

theorem palEhb_tooFew {sd ss : Nat} (hr : ready .pal s) (hsd : sd < Config.npal)
    (hs : readableSlot s ss) (h : (slotAt s ss).count < 32) :
    exec (.palEhb sd ss) s = raises .pal .rangeBadIndex (slotAt s ss).count s :=
  runOp_raises ((palEhbOp_run hr hsd hs).trans (raiseIf_bind_true h))

theorem palEhb_unset {sd ss i : Nat} (hr : ready .pal s) (hsd : sd < Config.npal)
    (hs : readableSlot s ss) (hc : 32 ≤ (slotAt s ss).count) (hi : i < 32)
    (hunset : (entryAt (slotAt s ss) i).set = false)
    (hset : ∀ j < i, (entryAt (slotAt s ss) j).set = true) :
    exec (.palEhb sd ss) s = raises .pal .unset i s :=
  runOp_raises ((palEhbOp_run hr hsd hs).trans
    ((raiseIf_bind_false (Nat.not_lt.mpr hc)).trans (raiseUnset_bind_bad hi hunset hset)))

/-! ### The 8-bit view -/

theorem toNat_append_bytes {m : Nat} (x : BitVec m) (y : Byte) :
    (x ++ y).toNat = x.toNat * 2 ^ 8 + y.toNat := by
  rw [BitVec.toNat_append, ← Nat.shiftLeft_add_eq_or_of_lt y.isLt, Nat.shiftLeft_eq]

theorem toNat_packPixel (r g b a : Byte) :
    (packPixel r g b a).toNat =
      r.toNat * 2 ^ 24 + g.toNat * 2 ^ 16 + b.toNat * 2 ^ 8 + a.toNat := by
  simp only [packPixel, toNat_append_bytes]
  ring

theorem lutAt_viewOf (p : Slot) (i : Nat) :
    lutAt (viewOf p) i = if i < p.count then viewElem p i else LutElem.unset :=
  sget_stabulate _ _ _ _

end Sys2Proof.Machine

namespace Sys2Proof.Proofs

open Sys2Proof.Machine

/-- Settles O18: each channel is rounded to the nearest of its new depth, so a round trip moves it by
less than half a step of each depth. -/
theorem palResample : Obligations.PalResample := by
  refine ⟨fun s sd ss nb hr hsd hss hm => palResample_badBpc hr hsd ⟨hss, hm⟩,
    fun s sd ss nb hr hp hsd hss hm hlo hhi => ?resampled, fun b1 b2 v h1 h8 h2 _ _ =>
      ⟨fun h => rescale_roundTrip_exact h1 h v, fun h => rescale_roundTrip_near h2 h h8 v⟩⟩
  case resampled =>
    have hok := hp.slotOk ⟨hss, hm⟩
    refine ⟨_, palResample_completes hr hsd ⟨hss, hm⟩ ⟨hlo, hhi⟩, ?_⟩
    rw [slotAt_setSlot_self]
    refine ⟨rfl, rfl, rfl, Slot.bpc_stored _ hlo hhi rfl, fun i hi => ?_⟩
    rw [entryAt_resampled hi]
    exact ⟨rescaleEntry_set _ _ _, hok.toNat_rescaleEntry hhi⟩

/-- Settles O22: the two halves of the palette are read off `ehbEntry`; the checks stand before it. -/
theorem palEhb : Obligations.PalEhb := by
  intro s sd ss hr hp hsd hss hm
  have hs : readableSlot s ss := ⟨hss, hm⟩
  refine ⟨palEhb_tooFew hr hsd hs, fun hc i => palEhb_unset hr hsd hs hc, fun hset => ?_⟩
  refine ⟨_, palEhb_completes hr hsd hs hset, ?_⟩
  rw [slotAt_setSlot_self]
  refine ⟨rfl, rfl, rfl, Slot.bpc_stored _ (b := 8) (by decide) (by decide) rfl, fun i hi => ?_⟩
  have hold := hset.2 i hi
  dsimp only
  rw [entryAt_ehb_full hi, entryAt_ehb_half hi]
  exact ⟨(rescaleEntry_set _ _ _).trans hold, rfl,
    (hp.slotOk hs).toNat_rescaleEntry (by decide) hold, BitVec.toNat_udiv, BitVec.toNat_udiv,
    BitVec.toNat_udiv, rfl⟩

/-- Settles O29: the view's elements are the packed rescaled entries, as many as the slot has. -/
theorem slotView : Obligations.SlotView := by
  intro p hp
  refine ⟨rfl, fun i hi => by rw [lutAt_viewOf, if_neg (by omega)]; rfl, fun i hi => ?_⟩
  rw [lutAt_viewOf, if_pos hi]
  refine ⟨rescaleEntry_set _ _ _, fun hset => ?_⟩
  have hchannel := hp.toNat_rescaleEntry (nb := 8) (by decide) hset
  rw [viewElem, toNat_packPixel, hchannel Entry.r (by simp), hchannel Entry.g (by simp),
    hchannel Entry.b (by simp), hchannel Entry.a (by simp)]

end Sys2Proof.Proofs
end

section
/-! Palettes as packed values (R147, R148): a value is its entry's channels as digits in base `2^bpc`, so
packing and unpacking are inverse to each other (O19, O20). -/

namespace Sys2Proof.Machine

variable {s : State} {slot : Nat} {p : Slot} {e : Entry} {bpc : Nat} {alpha : Bool}

/-! ### Channels as digits -/

theorem lt_of_le_chanMax {c : Byte} (h : c.toNat ≤ chanMax bpc) : c.toNat < 2 ^ bpc := by
  have := Nat.two_pow_pos bpc
  unfold chanMax at h
  omega

/-- A channel shifted to a place inside the value loses no bit. -/
theorem toNat_placed {c : Byte} {k : Nat} (hc : c.toNat < 2 ^ bpc) (hk : k + bpc ≤ 32) :
    (c.setWidth 32 <<< k).toNat = c.toNat <<< k := by
  have hlt : c.toNat <<< k < 2 ^ 32 := calc
    c.toNat <<< k = c.toNat * 2 ^ k := Nat.shiftLeft_eq _ _
    _ < 2 ^ bpc * 2 ^ k := Nat.mul_lt_mul_of_pos_right hc (Nat.two_pow_pos k)
    _ = 2 ^ (k + bpc) := by rw [← pow_add, Nat.add_comm]
    _ ≤ 2 ^ 32 := Nat.pow_le_pow_right (by decide) hk
  rw [BitVec.toNat_shiftLeft, BitVec.toNat_setWidth_of_le (by decide), Nat.mod_eq_of_lt hlt]

/-- The next digit below those of `x`, all of them `k` places up. -/
theorem shiftLeft_or_digit {x d k : Nat} (hd : d < 2 ^ bpc) :
    x <<< (k + bpc) ||| d <<< k = (x * 2 ^ bpc + d) <<< k := by
  rw [Nat.add_comm k, Nat.shiftLeft_add, ← Nat.shiftLeft_or_distrib,
    ← Nat.shiftLeft_add_eq_or_of_lt hd, Nat.shiftLeft_eq x]

/-- A packed value, read as digits in base `2^bpc` (R147). -/
theorem toNat_packEntry (hb : bpc ≤ Config.bpcMax) (h : entryOk bpc e) (alpha : Bool) :
    (packEntry bpc alpha e).toNat =
      if alpha then
        ((e.r.toNat * 2 ^ bpc + e.g.toNat) * 2 ^ bpc + e.b.toNat) * 2 ^ bpc + e.a.toNat
      else (e.r.toNat * 2 ^ bpc + e.g.toNat) * 2 ^ bpc + e.b.toNat := by
  obtain ⟨-, hr, hg, hbl, ha⟩ := h
  replace hg := lt_of_le_chanMax hg
  replace hbl := lt_of_le_chanMax hbl
  have h8 : bpc ≤ 8 := hb
  have low (c : Byte) : (c.setWidth 32).toNat = c.toNat := BitVec.toNat_setWidth_of_le (by decide)
  cases alpha with
  | true =>
    simp only [packEntry, if_true, BitVec.toNat_or, low,
      toNat_placed (lt_of_le_chanMax hr) (show 3 * bpc + bpc ≤ 32 by omega),
      toNat_placed hg (show 2 * bpc + bpc ≤ 32 by omega),
      toNat_placed hbl (show bpc + bpc ≤ 32 by omega)]
    rw [show 3 * bpc = 2 * bpc + bpc by ring, shiftLeft_or_digit hg, Nat.two_mul,
      shiftLeft_or_digit hbl, ← Nat.shiftLeft_add_eq_or_of_lt (lt_of_le_chanMax ha), Nat.shiftLeft_eq]
  | false =>
    simp only [packEntry, Bool.false_eq_true, if_false, BitVec.toNat_or,
      low,
      toNat_placed (lt_of_le_chanMax hr) (show 2 * bpc + bpc ≤ 32 by omega),
      toNat_placed hg (show bpc + bpc ≤ 32 by omega)]
    rw [Nat.two_mul, shiftLeft_or_digit hg, ← Nat.shiftLeft_add_eq_or_of_lt hbl, Nat.shiftLeft_eq]

/-- Three digits below `x` are read back by division. -/
theorem digits_below {x g b a : Nat} (hg : g < 2 ^ bpc) (hb : b < 2 ^ bpc) (ha : a < 2 ^ bpc) :
    (((x * 2 ^ bpc + g) * 2 ^ bpc + b) * 2 ^ bpc + a) / 2 ^ (3 * bpc) = x ∧
      (((x * 2 ^ bpc + g) * 2 ^ bpc + b) * 2 ^ bpc + a) / 2 ^ (2 * bpc) % 2 ^ bpc = g ∧
      (((x * 2 ^ bpc + g) * 2 ^ bpc + b) * 2 ^ bpc + a) / 2 ^ bpc % 2 ^ bpc = b ∧
      (((x * 2 ^ bpc + g) * 2 ^ bpc + b) * 2 ^ bpc + a) / 2 ^ 0 % 2 ^ bpc = a := by
  have drop {y d : Nat} (hd : d < 2 ^ bpc) : (y * 2 ^ bpc + d) / 2 ^ bpc = y := by
    rw [Nat.add_comm, Nat.add_mul_div_right _ _ (Nat.two_pow_pos bpc), Nat.div_eq_of_lt hd, Nat.zero_add]
  have last {y d : Nat} (hd : d < 2 ^ bpc) : (y * 2 ^ bpc + d) % 2 ^ bpc = d := by
    rw [Nat.mul_add_mod', Nat.mod_eq_of_lt hd]
  refine ⟨?_, ?_, ?_, ?_⟩
  · rw [show 3 * bpc = bpc + bpc + bpc by ring, pow_add, pow_add, ← Nat.div_div_eq_div_mul,
      ← Nat.div_div_eq_div_mul, drop ha, drop hb, drop hg]
  · rw [Nat.two_mul, pow_add, ← Nat.div_div_eq_div_mul, drop ha, drop hb, last hg]
  · rw [drop ha, last hb]
  · rw [pow_zero, Nat.div_one, last ha]

theorem toNat_channelOf (hb : bpc ≤ Config.bpcMax) (v : U32) (k : Nat) :
    (channelOf v k bpc).toNat = v.toNat / 2 ^ k % 2 ^ bpc := by
  have := Nat.mod_lt (v.toNat / 2 ^ k) (Nat.two_pow_pos bpc)
  have := chanMax_le_byte hb
  exact toNat_ofNat_byte (by unfold chanMax at this; omega)

/-- Unpacking restores a legal entry, whose alpha is full where the value carries none (R148). -/
theorem unpackEntry_packEntry (hb : bpc ≤ Config.bpcMax) (h : entryOk bpc e)
    (ha : alpha = false → e.a.toNat = chanMax bpc) :
    unpackEntry bpc alpha (packEntry bpc alpha e) = e := by
  have hval := toNat_packEntry hb h alpha
  have channel {c : Byte} {k : Nat}
      (hc : (packEntry bpc alpha e).toNat / 2 ^ k % 2 ^ bpc = c.toNat) :
      channelOf (packEntry bpc alpha e) k bpc = c :=
    BitVec.eq_of_toNat_eq ((toNat_channelOf hb _ k).trans hc)
  obtain ⟨hset, hr, hg, hbl, ha'⟩ := h
  replace hr := lt_of_le_chanMax hr
  replace hg := lt_of_le_chanMax hg
  replace hbl := lt_of_le_chanMax hbl
  cases alpha with
  | true =>
    obtain ⟨h3, h2, h1, h0⟩ := digits_below (x := e.r.toNat) hg hbl (lt_of_le_chanMax ha')
    rw [if_pos rfl] at hval
    rw [← hval] at h3 h2 h1 h0
    rw [unpackEntry, if_pos rfl, channel (by rw [h3, Nat.mod_eq_of_lt hr]), channel h2, channel h1,
      channel h0, ← hset]
  | false =>
    obtain ⟨-, h2, h1, h0⟩ := digits_below (x := 0) hr hg hbl
    rw [Nat.zero_mul, Nat.zero_add] at h2 h1 h0
    rw [if_neg Bool.false_ne_true] at hval
    rw [← hval] at h2 h1 h0
    have hfull : BitVec.ofNat 8 (chanMax bpc) = e.a :=
      BitVec.eq_of_toNat_eq ((toNat_fullChannel hb).trans (ha rfl).symm)
    rw [unpackEntry, if_neg Bool.false_ne_true, channel h2, channel h1, channel h0, hfull, ← hset]

/-! ### PAL.TOVAL -/

theorem palToval_completes {a : Option Bool} (hr : ready .pal s) (hs : readableSlot s slot)
    (hset : setBelow (slotAt s slot) (slotAt s slot).count) :
    exec (.palToval slot a) s = completes (.values (packedValues (slotAt s slot) (alphaOrTrue a))) s :=
  runOp_ok ((enter_bind hr).trans ((checkRead_bind hs).trans (raiseUnset_bind hset.2)))

theorem palToval_unset {a : Option Bool} {i : Nat} (hr : ready .pal s) (hs : readableSlot s slot)
    (hi : i < (slotAt s slot).count) (hunset : (entryAt (slotAt s slot) i).set = false)
    (hset : ∀ j < i, (entryAt (slotAt s slot) j).set = true) :
    exec (.palToval slot a) s = raises .pal .unset i s :=
  runOp_raises ((enter_bind hr).trans ((checkRead_bind hs).trans (raiseUnset_bind_bad hi hunset hset)))

@[simp] theorem packedValues_length (p : Slot) (alpha : Bool) :
    (packedValues p alpha).length = p.count := by simp [packedValues]

@[simp] theorem packedValues_getElem {i : Nat} (h : i < (packedValues p alpha).length) :
    (packedValues p alpha)[i] = packEntry p.bpc alpha (entryAt p i) := by simp [packedValues]

/-! ### PAL.FROMVAL -/

/-- What `PAL.FROMVAL` checks of its values and its depth (R148). -/
theorem palFromvalOp_run {vs : List U32} {b : Option Nat} {a : Option Bool} (hr : ready .pal s)
    (hs : slot < Config.npal) :
    palFromvalOp slot vs b a s =
      (do
        raiseIf (Config.palMax < vs.length) .pal .badCount vs.length
        raiseIf (bpcOr8 b < Config.bpcMin ∨ Config.bpcMax < bpcOr8 b) .pal .badBpc (bpcOr8 b)
        modify (setSlot slot (paletteOfValues vs (bpcOr8 b) (alphaOrTrue a)))
        pure .unit : Op Result) s := by
  unfold palFromvalOp
  rw [enter_bind hr, checkSlot_bind hs]

theorem palFromvalOp_ok {vs : List U32} {b : Option Nat} {a : Option Bool} (hr : ready .pal s)
    (hs : slot < Config.npal) (hv : vs.length ≤ Config.palMax) (hb : legalBpc (bpcOr8 b)) :
    palFromvalOp slot vs b a s =
      .ok .unit (setSlot slot (paletteOfValues vs (bpcOr8 b) (alphaOrTrue a)) s) :=
  (palFromvalOp_run hr hs).trans ((raiseIf_bind_false (Nat.not_lt.mpr hv)).trans
    (raiseIf_bind_false (by unfold legalBpc at hb; omega)))

theorem palFromval_badCount {vs : List U32} {b : Option Nat} {a : Option Bool} (hr : ready .pal s)
    (hs : slot < Config.npal) (hv : Config.palMax < vs.length) :
    exec (.palFromval slot vs b a) s = raises .pal .badCount vs.length s :=
  runOp_raises ((palFromvalOp_run hr hs).trans (raiseIf_bind_true hv))

theorem palFromval_badBpc {vs : List U32} {b : Option Nat} {a : Option Bool} (hr : ready .pal s)
    (hs : slot < Config.npal) (hv : vs.length ≤ Config.palMax)
    (hb : bpcOr8 b < Config.bpcMin ∨ Config.bpcMax < bpcOr8 b) :
    exec (.palFromval slot vs b a) s = raises .pal .badBpc (bpcOr8 b) s :=
  runOp_raises ((palFromvalOp_run hr hs).trans ((raiseIf_bind_false (Nat.not_lt.mpr hv)).trans
    (raiseIf_bind_true hb)))

theorem entryAt_paletteOfValues {vs : List U32} {i : Nat} (h : i < vs.length) :
    entryAt (paletteOfValues vs bpc alpha) i = unpackEntry bpc alpha vs[i] := by
  simp [entryAt, paletteOfValues, sget_sofFrom, h]

@[simp] theorem unpackEntry_set (bpc : Nat) (alpha : Bool) (v : U32) :
    (unpackEntry bpc alpha v).set = true := (unpackEntry_ok bpc alpha v).1

/-- The channels of an unpacked entry, as R148 writes them. -/
theorem toNat_unpackEntry (hb : bpc ≤ Config.bpcMax) (alpha : Bool) (v : U32) :
    let e := unpackEntry bpc alpha v
    let m := 2 ^ bpc
    if alpha then
      e.r.toNat = v.toNat / m ^ 3 % m ∧ e.g.toNat = v.toNat / m ^ 2 % m ∧
        e.b.toNat = v.toNat / m % m ∧ e.a.toNat = v.toNat % m
    else
      e.r.toNat = v.toNat / m ^ 2 % m ∧ e.g.toNat = v.toNat / m % m ∧
        e.b.toNat = v.toNat % m ∧ e.a.toNat = m - 1 := by
  have place (k : Nat) : (channelOf v (k * bpc) bpc).toNat = v.toNat / (2 ^ bpc) ^ k % 2 ^ bpc := by
    rw [toNat_channelOf hb, pow_mul']
  have first : (channelOf v bpc bpc).toNat = v.toNat / 2 ^ bpc % 2 ^ bpc := toNat_channelOf hb v bpc
  have last : (channelOf v 0 bpc).toNat = v.toNat % 2 ^ bpc := by
    rw [toNat_channelOf hb, pow_zero, Nat.div_one]
  cases alpha with
  | true => exact ⟨place 3, place 2, first, last⟩
  | false => exact ⟨place 2, first, last, toNat_fullChannel hb⟩

/-- A legal slot has no entry at or above its count. -/
theorem slotOk.entryAt_above (h : slotOk p) {i : Nat} (hi : p.count ≤ i) : entryAt p i = Entry.unset := by
  obtain ⟨-, -, -, -, -, hent⟩ := h
  by_contra hne
  exact absurd (hent _ (mem_of_sget_ne hne)).1 (Nat.not_lt.mpr hi)

/-- Legal slots that read alike are equal. -/
theorem slotOk.ext {q : Slot} (hp : slotOk p) (hq : slotOk q) (hc : p.count = q.count)
    (hb : p.bpcBits = q.bpcBits) (he : ∀ i < q.count, entryAt p i = entryAt q i) : p = q := by
  have hreads (i : Nat) : entryAt p i = entryAt q i := by
    by_cases hi : i < q.count
    · exact he i hi
    · rw [hp.entryAt_above (by omega), hq.entryAt_above (by omega)]
  obtain ⟨hpm, -, -, -, hpw, -⟩ := hp
  obtain ⟨hqm, -, -, -, hqw, -⟩ := hq
  cases p
  cases q
  congr
  · exact hpm.trans hqm.symm
  · exact sparse_ext hpw hqw hreads

/-- What `PAL.TOVAL` packed, `PAL.FROMVAL` restores (R148). -/
theorem paletteOfValues_packedValues (hp : slotOk p) (hset : setBelow p p.count)
    (ha : alpha = false → ∀ i < p.count, (entryAt p i).a.toNat = chanMax p.bpc) :
    paletteOfValues (packedValues p alpha) p.bpc alpha = p := by
  have hlen : (packedValues p alpha).length = p.count := packedValues_length p alpha
  refine slotOk.ext (slotOk_values (hlen.trans_le hp.2.1) p.bpc_legal alpha) hp hlen
    (bpcStored_bpc p) fun i hi => ?_
  rw [entryAt_paletteOfValues (hlen.symm ▸ hi), packedValues_getElem]
  exact unpackEntry_packEntry p.bpc_legal.2 (hp.entryOk (hset.2 i hi)) fun h => ha h i hi

end Sys2Proof.Machine

namespace Sys2Proof.Proofs

open Sys2Proof.Machine

/-- Settles O19: every value is its entry's channels as digits in base `2^bpc`. -/
theorem palToval : Obligations.PalToval := by
  intro s slot alpha hr hp hs hm
  refine ⟨fun hset => ?_, fun i => palToval_unset hr ⟨hs, hm⟩⟩
  refine ⟨_, palToval_completes hr ⟨hs, hm⟩ hset, packedValues_length _ _, fun i hi => ?_⟩
  have hi' : i < (slotAt s slot).count := packedValues_length _ _ ▸ hi
  rw [packedValues_getElem, toNat_packEntry (Slot.bpc_legal _).2
    ((hp.slotOk ⟨hs, hm⟩).entryOk (hset.2 i hi'))]
  unfold alphaOrTrue
  dsimp only
  split <;> ring

/-- Settles O20: the checks, the channels as digits of the values, and unpacking as the inverse of
packing. -/
theorem palFromval : Obligations.PalFromval := by
  refine ⟨fun s slot vs bpc alpha hr hs => ⟨palFromval_badCount hr hs, palFromval_badBpc hr hs⟩,
    fun s slot vs bpc alpha hr hs hv hlo hhi => ?filled,
    fun p alpha hp hset ha => paletteOfValues_packedValues hp hset ha⟩
  case filled =>
    refine ⟨_, runOp_ok (palFromvalOp_ok hr hs hv ⟨hlo, hhi⟩), ?_⟩
    rw [slotAt_setSlot_self]
    refine ⟨rfl, rfl, rfl, Slot.bpc_stored _ hlo hhi rfl, fun i hi => ?_⟩
    rw [entryAt_paletteOfValues hi]
    exact ⟨unpackEntry_set _ _ _, toNat_unpackEntry hhi _ _⟩

end Sys2Proof.Proofs
end

section
/-! The scan of `PAL.FROMPIX` (R149; O21): reading pixel after pixel it keeps the distinct ones in
first-seen order, up to the 257th. -/

namespace Sys2Proof.Machine

variable {s : State} {slot : Nat}

/-- Pixel `k` of a pixel buffer (R75, R149). -/
def pixelAt (m : Mem) (r : BufRef) (k : Nat) : U32 :=
  packPixel (refByte m r (4 * k)) (refByte m r (4 * k + 1)) (refByte m r (4 * k + 2))
    (refByte m r (4 * k + 3))

/-- Four bytes read big-endian are a pixel (R10, R75). -/
theorem ofNat_beRead_pixel (m : Mem) (r : BufRef) (k : Nat) :
    BitVec.ofNat 32 (beRead m r (4 * k) 4) = pixelAt m r k := by
  apply BitVec.eq_of_toNat_eq
  have hlt : beRead m r (4 * k) 4 < 2 ^ 32 := beRead_lt m r (4 * k) 4
  rw [BitVec.toNat_ofNat, Nat.mod_eq_of_lt hlt, pixelAt, toNat_packPixel]
  simp only [beRead, Nat.add_zero]
  ring

/-- The colours found, with one pixel more (R149). -/
def noteColour (found : List U32) (c : U32) : List U32 := if c ∈ found then found else found ++ [c]

theorem isPrefix_noteColour (found : List U32) (c : U32) : found <+: noteColour found c := by
  unfold noteColour
  split
  · exact ⟨[], List.append_nil _⟩
  · exact ⟨[c], rfl⟩

theorem isPrefix_foldl_noteColour : ∀ (pixels found : List U32), found <+: pixels.foldl noteColour found
  | [], found => ⟨[], List.append_nil found⟩
  | c :: pixels, found => (isPrefix_noteColour found c).trans (isPrefix_foldl_noteColour pixels _)

/-- Noting pixels one by one keeps the distinct ones in first-seen order. -/
theorem foldl_noteColour_eraseDups (seen pixels : List U32) :
    pixels.foldl noteColour seen.eraseDups = (seen ++ pixels).eraseDups := by
  induction pixels generalizing seen with
  | nil => simp
  | cons c pixels ih =>
    have hstep : noteColour seen.eraseDups c = (seen ++ [c]).eraseDups := by
      rw [List.eraseDups_append, noteColour]
      by_cases hc : c ∈ seen <;> simp [List.removeAll, hc, List.eraseDups_cons]
    rw [List.foldl_cons, hstep, ih, List.append_assoc, List.singleton_append]

/-- One round of the scan inside the buffer (R149). -/
theorem collectColours_succ {r : BufRef} {k : Nat} (hk : 4 * k + 4 ≤ r.len) (n : Nat)
    (found : List U32) :
    collectColours r k (n + 1) found s =
      if pixelAt s.mem r k ∉ found ∧ found.length = Config.palMax then
        .error .faulted (withFault .pal (raisedReg .palFull (pixelAt s.mem r k).toNat) s)
      else collectColours r (k + 1) n (noteColour found (pixelAt s.mem r k)) s := by
  rw [collectColours, bind_ok (memRead_ok hk s), ofNat_beRead_pixel]
  unfold noteColour
  by_cases hmem : pixelAt s.mem r k ∈ found
  · simp [hmem]
  · by_cases hfull : found.length = Config.palMax
    · rw [if_neg hmem, if_pos ⟨hmem, hfull⟩, raiseIf_bind_true hfull]
    · rw [if_neg hmem, if_neg (fun h => hfull h.2), if_neg hmem, raiseIf_bind_false hfull]

/-- The pixels of `n` rounds from number `k`. -/
def pixelsFrom (m : Mem) (r : BufRef) (k n : Nat) : List U32 := (List.range' k n).map (pixelAt m r)

theorem pixelsFrom_succ (m : Mem) (r : BufRef) (k n : Nat) :
    pixelsFrom m r k (n + 1) = pixelAt m r k :: pixelsFrom m r (k + 1) n := by
  simp [pixelsFrom, List.range'_succ]

/-- The scan completes while the colours found are at most `PAL_MAX` (R149). -/
theorem collectColours_ok {r : BufRef} : ∀ (n k : Nat) (found : List U32), 4 * (k + n) ≤ r.len →
    ((pixelsFrom s.mem r k n).foldl noteColour found).length ≤ Config.palMax →
    collectColours r k n found s = .ok ((pixelsFrom s.mem r k n).foldl noteColour found) s
  | 0, _, _, _, _ => rfl
  | n + 1, k, found, hk, hlen => by
    rw [pixelsFrom_succ, List.foldl_cons] at hlen ⊢
    have hnoted := (isPrefix_foldl_noteColour (pixelsFrom s.mem r (k + 1) n) _).length_le.trans hlen
    rw [collectColours_succ (by omega), if_neg, collectColours_ok n (k + 1) _ (by omega) hlen]
    rintro ⟨hnew, hfull⟩
    rw [noteColour, if_neg hnew, List.length_append, hfull, List.length_singleton] at hnoted
    omega

/-- It raises the colour number `PAL_MAX`, the first without a place (R149). -/
theorem collectColours_full {r : BufRef} {v : U32} : ∀ (n k : Nat) (found : List U32),
    4 * (k + n) ≤ r.len → found.length ≤ Config.palMax →
    ((pixelsFrom s.mem r k n).foldl noteColour found)[Config.palMax]? = some v →
    collectColours r k n found s = .error .faulted (withFault .pal (raisedReg .palFull v.toNat) s)
  | 0, _, _, _, hlen, hv => by
    rw [List.getElem?_eq_none (by exact hlen)] at hv
    cases hv
  | n + 1, k, found, hk, hlen, hv => by
    rw [pixelsFrom_succ, List.foldl_cons] at hv
    rw [collectColours_succ (by omega)]
    split_ifs with hfull
    · obtain ⟨hnew, hfull⟩ := hfull
      have hnext : (noteColour found (pixelAt s.mem r k))[Config.palMax]? = some (pixelAt s.mem r k) := by
        rw [noteColour, if_neg hnew, ← hfull, List.getElem?_concat_length]
      obtain ⟨hlt, hget⟩ := List.getElem?_eq_some_iff.mp hnext
      have hkept := (isPrefix_foldl_noteColour (pixelsFrom s.mem r (k + 1) n) _).getElem hlt
      obtain ⟨_, hv⟩ := List.getElem?_eq_some_iff.mp hv
      rw [← hv, ← hkept, hget]
    · refine collectColours_full n (k + 1) _ (by omega) ?_ hv
      unfold noteColour
      split_ifs with hmem
      · exact hlen
      · have hroom : found.length ≠ Config.palMax := fun h => hfull ⟨hmem, h⟩
        rw [List.length_append, List.length_singleton]
        omega

/-- The whole pixels of a buffer (R149). -/
def wholePixels (m : Mem) (r : BufRef) : List U32 := (List.range (r.len / 4)).map (pixelAt m r)

theorem foldl_wholePixels (m : Mem) (r : BufRef) :
    (pixelsFrom m r 0 (r.len / 4)).foldl noteColour [] = (wholePixels m r).eraseDups := by
  rw [pixelsFrom, ← List.range_eq_range']
  exact foldl_noteColour_eraseDups [] (wholePixels m r)

theorem palFrompix_completes {buf : Nat} (hr : ready .pal s) (hs : slot < Config.npal)
    (hlen : (wholePixels s.mem (wholeBuf s.mem buf)).eraseDups.length ≤ Config.palMax) :
    exec (.palFrompix slot buf) s =
      completes .unit
        (setSlot slot (paletteOfValues (wholePixels s.mem (wholeBuf s.mem buf)).eraseDups 8 true) s) := by
  rw [← foldl_wholePixels] at hlen ⊢
  refine runOp_ok ((enter_bind hr).trans ((checkSlot_bind hs).trans ((get_bind _ s).trans
    ((bind_ok (collectColours_ok _ 0 [] (by omega) hlen)).trans ?_))))
  exact palFromvalOp_ok hr hs hlen (show legalBpc 8 by unfold legalBpc; decide)

theorem palFrompix_full {buf : Nat} {v : U32} (hr : ready .pal s) (hs : slot < Config.npal)
    (hv : (wholePixels s.mem (wholeBuf s.mem buf)).eraseDups[Config.palMax]? = some v) :
    exec (.palFrompix slot buf) s = raises .pal .palFull v.toNat s := by
  rw [← foldl_wholePixels] at hv
  exact runOp_raises ((enter_bind hr).trans ((checkSlot_bind hs).trans ((get_bind _ s).trans
    (bind_error (collectColours_full _ 0 [] (by omega) (Nat.zero_le _) hv)))))

end Sys2Proof.Machine

namespace Sys2Proof.Proofs

open Sys2Proof.Machine

/-- Settles O21: the scan notes each pixel that is new, which is `eraseDups` of the buffer's pixels. -/
theorem palFrompix : Obligations.PalFrompix :=
  fun _ _ _ hr hs => ⟨palFrompix_completes hr hs, fun _ => palFrompix_full hr hs⟩

end Sys2Proof.Proofs
end

section
/-! What every operation of BPR and BPW rests on: the search for a plane whose byte lies past the end of
the buffer (R176, R180), the cursor step read as counting pixels (R175), and the binding of a geometry
and a buffer (R174, R182); O23 and O24. -/

namespace Sys2Proof.Machine

variable {s : State} {g : Geometry} {c : Cursor} {len : Nat}

/-! ### The search for a plane past the end -/

theorem firstPlanePastEnd_of_lt : ∀ {n start : Nat},
    (∀ i < n, planeOffset g c (start + i) < len) → firstPlanePastEnd g c len start n = none
  | 0, _, _ => rfl
  | n + 1, start, h => by
    have hfirst : planeOffset g c start < len := h 0 (Nat.succ_pos n)
    rw [firstPlanePastEnd, if_neg (Nat.not_le_of_lt hfirst)]
    refine firstPlanePastEnd_of_lt fun i hi => ?_
    rw [Nat.add_right_comm]
    exact h (i + 1) (Nat.succ_lt_succ hi)

theorem firstPlanePastEnd_of_least : ∀ {i n start : Nat}, i < n →
    len ≤ planeOffset g c (start + i) → (∀ j < i, planeOffset g c (start + j) < len) →
      firstPlanePastEnd g c len start n = some (start + i)
  | _, 0, _, hi, _, _ => absurd hi (Nat.not_lt_zero _)
  | 0, n + 1, start, _, hpast, _ => if_pos hpast
  | i + 1, n + 1, start, hi, hpast, hin => by
    have hfirst : planeOffset g c start < len := hin 0 (Nat.succ_pos i)
    rw [firstPlanePastEnd, if_neg (Nat.not_le_of_lt hfirst), Nat.add_comm i 1, ← Nat.add_assoc]
    refine firstPlanePastEnd_of_least (Nat.lt_of_succ_lt_succ hi) ?_ fun j hj => ?_
    · rwa [Nat.add_assoc, Nat.add_comm 1 i]
    · rw [Nat.add_right_comm]
      exact hin (j + 1) (Nat.succ_lt_succ hj)

theorem planeEof_eq_false_iff :
    planeEof g c len = false ↔ ∀ i < g.planeCount, planeOffset g c i < len := by
  rw [planeEof, Option.isSome_eq_false_iff, Option.isNone_iff_eq_none]
  constructor
  · intro h i hi
    simpa using lt_of_firstPlanePastEnd_none h i hi
  · intro h
    exact firstPlanePastEnd_of_lt (by simpa using h)

theorem planeEof_eq_true_iff :
    planeEof g c len = true ↔ ∃ i < g.planeCount, len ≤ planeOffset g c i := by
  rw [← Bool.not_eq_false, planeEof_eq_false_iff]
  push Not
  rfl

theorem firstPlanePastEnd_eq_none (h : planeEof g c len = false) :
    firstPlanePastEnd g c len 0 g.planeCount = none := by
  simpa [planeEof] using h

theorem firstPlanePastEnd_eq_some {i : Nat} (hi : i < g.planeCount) (hpast : len ≤ planeOffset g c i)
    (hin : ∀ j < i, planeOffset g c j < len) :
    firstPlanePastEnd g c len 0 g.planeCount = some i := by
  simpa using firstPlanePastEnd_of_least (start := 0) hi (by simpa using hpast) (by simpa using hin)

/-! ### The cursor -/

/-- The number of the pixel that a cursor stands for in its geometry, `bit` counting fastest. -/
def pixelNumber (g : Geometry) (c : Cursor) : Nat :=
  ((c.line * g.blocksPerLine + c.block) * g.bytesPerBlock + c.byte) * 8 + c.bit

theorem pixelNumber_stepCursor (g : Geometry) (c : Cursor) :
    pixelNumber g (stepCursor g c) = pixelNumber g c + 1 := by
  unfold stepCursor
  split_ifs with hbit hbyte hblock
  · simp only [pixelNumber, ← hblock, ← hbyte, ← hbit]
    ring
  · simp only [pixelNumber, ← hbyte, ← hbit]
    ring
  · simp only [pixelNumber, ← hbit]
    ring
  · rfl

theorem stepCursorN_eq_iterate (g : Geometry) (n : Nat) (c : Cursor) :
    stepCursorN g n c = (stepCursor g)^[n] c := by
  induction n generalizing c with
  | zero => rfl
  | succ n ih => exact ih (stepCursor g c)

theorem pixelNumber_stepCursorN (g : Geometry) (n : Nat) (c : Cursor) :
    pixelNumber g (stepCursorN g n c) = pixelNumber g c + n := by
  induction n generalizing c with
  | zero => rfl
  | succ n ih => rw [stepCursorN, ih, pixelNumber_stepCursor, Nat.add_assoc, Nat.add_comm 1 n]

theorem bpwAdv_completes (n : Nat) (hr : ready .bpw s) :
    exec (.bpwAdv n) s = completes .unit
      { s with bpw := { s.bpw with cur := (stepCursor s.bpw.geom)^[n] s.bpw.cur } } := by
  rw [← stepCursorN_eq_iterate]
  exact runOp_ok (enter_bind hr)

/-! ### INIT -/

theorem geometryOk_eq_false_iff : geometryOk g = false ↔ g.bytesPerBlock = 0 ∨ g.blocksPerLine = 0 ∨
    g.planeCount = 0 ∨ Config.planesMax < g.planeCount := by
  rw [← Bool.not_eq_true, geometryOk_iff]
  omega

theorem atWidth_of_lt {n : Nat} (h : n < Config.bufLimit) : atWidth n = n :=
  Nat.min_eq_left (Nat.le_sub_one_of_lt h)

/-- A geometry whose values fit is held as it is (R23). -/
theorem registerGeometry_of_fits (h : geometryFits g) : registerGeometry g = g := by
  obtain ⟨hbytes, hblockStep, hblocks, hlineStep, hplaneStep, hplanes⟩ := h
  rw [registerGeometry, atWidth_of_lt hbytes, atWidth_of_lt hblockStep, atWidth_of_lt hblocks,
    atWidth_of_lt hlineStep, atWidth_of_lt hplaneStep, atWidth_of_lt hplanes]

theorem bprInit_badGeometry (buf : Nat) (h : geometryOk g = false) :
    exec (.bprInit buf g) s = raises .bpr .badGeometry 0 s :=
  runOp_raises (clearFault_bind_raise (raiseIf_bind_true h))

theorem bpwInit_badGeometry (buf : Nat) (h : geometryOk g = false) :
    exec (.bpwInit buf g) s = raises .bpw .badGeometry 0 s :=
  runOp_raises (clearFault_bind_raise (raiseIf_bind_true h))

theorem bprInit_completes (buf : Nat) (h : ¬ geometryOk g = false) :
    exec (.bprInit buf g) s = completes .unit
      { s with bpr := { s.bpr with init := true, geom := registerGeometry g, cur := .zero,
                                   buf := some (wholeBuf s.mem buf),
                                   fault := { s.bpr.fault with valid := false } } } :=
  runOp_ok ((bind_ok (clearFault_run .bpr s)).trans (raiseIf_bind_false h))

theorem bpwInit_completes (buf : Nat) (h : ¬ geometryOk g = false) :
    exec (.bpwInit buf g) s = completes .unit (claim .bpw (wholeBuf s.mem buf)
      { s with bpw := { s.bpw with init := true, geom := registerGeometry g, cur := .zero,
                                   buf := some (wholeBuf s.mem buf),
                                   fault := { s.bpw.fault with valid := false } } }) :=
  runOp_ok ((bind_ok (clearFault_run .bpw s)).trans (raiseIf_bind_false h))

/-! ### EOF -/

theorem bprEof_completes (hr : ready .bpr s) : exec .bprEof s =
    completes (.flag (planeEof s.bpr.geom s.bpr.cur (refOf s.bpr.buf).len)) s :=
  runOp_ok (bind_ok (enter_bind hr))

theorem bpwEof_completes (hr : ready .bpw s) : exec .bpwEof s =
    completes (.flag (planeEof s.bpw.geom s.bpw.cur (refOf s.bpw.buf).len)) s :=
  runOp_ok (bind_ok (enter_bind hr))

end Sys2Proof.Machine

namespace Sys2Proof.Proofs

open Sys2Proof.Machine

/-- Settles O23: INIT turns on `geometryOk`, EOF on `planeEof`. -/
theorem planeUnitsInitEof : Obligations.PlaneUnitsInitEof := by
  refine ⟨fun s buf g => ⟨fun hbad => ?_, fun hgood => ?_⟩, fun _ => registerGeometry_of_fits,
    fun s => ⟨fun hr => ⟨_, bprEof_completes hr, planeEof_eq_true_iff⟩,
      fun hr => ⟨_, bpwEof_completes hr, planeEof_eq_true_iff⟩⟩⟩
  · have h := geometryOk_eq_false_iff.mpr hbad
    exact ⟨bprInit_badGeometry buf h, bpwInit_badGeometry buf h⟩
  · have h := mt geometryOk_eq_false_iff.mp hgood
    exact ⟨bprInit_completes buf h, bpwInit_completes buf h⟩

/-- Settles O24: in each of its four cases the step carries as the pixel number does. -/
theorem cursorStep : Obligations.CursorStep :=
  ⟨fun g c hc => ⟨pixelNumber_stepCursor g c, cursorOk_step rfl hc⟩, fun _ n => bpwAdv_completes n⟩

end Sys2Proof.Proofs
end

section
/-! The bit-plane reader: what one read does, where it fetches, where it uses the cache and where it
stops (R176, R177, R88), and `BPR.ADV` as reads one after the other (R178); O26 and O27. -/

namespace Sys2Proof.Machine

variable {s t : State} {g : Geometry} {c : Cursor} {m : Mem} {r : BufRef}

/-! ### The indices of a byte-column -/

theorem columnIndex_lt (m : Mem) (r : BufRef) (g : Geometry) (c : Cursor) (k n : Nat) :
    columnIndex m r g c k n < 2 ^ n := by
  induction n with
  | zero => exact Nat.one_pos
  | succ n ih =>
    rw [columnIndex, pow_succ]
    split <;> omega

/-- Plane `n` adds bit `n` to an index that the planes below it make. -/
theorem columnIndex_succ (m : Mem) (r : BufRef) (g : Geometry) (c : Cursor) (k n : Nat) :
    columnIndex m r g c k (n + 1) = columnIndex m r g c k n |||
      if (refByte m r (planeOffset g c n)).getLsbD (7 - k) then 2 ^ n else 0 := by
  rw [columnIndex]
  split
  · have h := Nat.two_pow_add_eq_or_of_lt (columnIndex_lt m r g c k n) 1
    rwa [Nat.mul_one, Nat.add_comm, Nat.or_comm] at h
  · simp

theorem testBit_columnIndex (m : Mem) (r : BufRef) (g : Geometry) (c : Cursor) (k n i : Nat) :
    (columnIndex m r g c k n).testBit i =
      (decide (i < n) && (refByte m r (planeOffset g c i)).getLsbD (7 - k)) := by
  induction n with
  | zero => simp [columnIndex]
  | succ n ih =>
    rw [columnIndex_succ, Nat.testBit_or, ih]
    rcases Nat.lt_trichotomy i n with hlt | rfl | hgt
    · split <;> simp [hlt, Nat.lt_succ_of_lt hlt, hlt.ne']
    · split <;> simp_all
    · split <;> simp [hgt.ne, show ¬ i < n by omega, show ¬ i < n + 1 by omega]

@[simp] theorem columnIndices_length (m : Mem) (r : BufRef) (g : Geometry) (c : Cursor) :
    (columnIndices m r g c).length = 8 := by simp [columnIndices]

/-- Up to eight planes make an index of a byte (R177). -/
theorem testBit_columnIndices (h : g.planeCount ≤ 8) {k : Nat}
    (hk : k < (columnIndices m r g c).length) (i : Nat) :
    ((columnIndices m r g c)[k]).toNat.testBit i =
      (decide (i < g.planeCount) && (refByte m r (planeOffset g c i)).getLsbD (7 - k)) := by
  have hfits : columnIndex m r g c k g.planeCount < 2 ^ 8 :=
    (columnIndex_lt m r g c k g.planeCount).trans_le (Nat.pow_le_pow_right Nat.two_pos h)
  simp only [columnIndices, List.getElem_map, List.getElem_range, BitVec.toNat_ofNat]
  rw [Nat.mod_eq_of_lt hfits, testBit_columnIndex]

/-- A column's indices do not depend on where in the column the cursor is. -/
theorem columnIndices_bit (m : Mem) (r : BufRef) (g : Geometry) (c : Cursor) (b : Nat) :
    columnIndices m r g { c with bit := b } = columnIndices m r g c := by
  have hcolumn (k n : Nat) : columnIndex m r g { c with bit := b } k n = columnIndex m r g c k n := by
    induction n with
    | zero => rfl
    | succ n ih => rw [columnIndex, columnIndex, ih]; rfl
  simp only [columnIndices, hcolumn]

/-- A step that does not end the column stays in it. -/
theorem stepCursor_of_bit_ne_zero (h : (stepCursor g c).bit ≠ 0) :
    stepCursor g c = { c with bit := c.bit + 1 } := by
  refine if_neg fun hcolumn => h ?_
  rw [stepCursor, if_pos hcolumn]
  split_ifs <;> rfl

/-! ### One read -/

/-- The indices of the column that the reader stands in. -/
def readerColumn (s : State) : List Byte :=
  columnIndices s.mem (refOf s.bpr.buf) s.bpr.geom s.bpr.cur

/-- No fetch is due at the cursor, or it stays inside the buffer (R176). -/
def fetchFits (s : State) (c : Cursor) : Prop :=
  c.bit = 0 → planeEof s.bpr.geom c (refOf s.bpr.buf).len = false

/-- The state after a read: the cursor has stepped, the cache holds the column that was read. -/
def readerStepped (s : State) : State :=
  { s with bpr := { s.bpr with cur := stepCursor s.bpr.geom s.bpr.cur, cache := readerColumn s } }

/-- A true cache holds what a fetch would, so inside a column a read does what it does at its start. -/
theorem bprReadCore_ok (hf : fetchFits s s.bpr.cur) (hc : cacheTrue s) :
    bprReadCore s = .ok ((readerColumn s).getD s.bpr.cur.bit 0) (readerStepped s) := by
  rcases bprReadCore_cases s with (⟨hb, i, hi, -⟩ | ⟨hb, -, h⟩) | ⟨hb, hc, h⟩ | ⟨hn, -⟩
  · rw [firstPlanePastEnd_eq_none (hf hb)] at hi
    cases hi
  · rw [h, hb]
    rfl
  · rw [h, bprCached, hc hb]
    rfl
  · exact absurd hc hn

theorem bprReadCore_pastEnd {i : Nat} (hb : s.bpr.cur.bit = 0) (hi : i < s.bpr.geom.planeCount)
    (hpast : (refOf s.bpr.buf).len ≤ planeOffset s.bpr.geom s.bpr.cur i)
    (hin : ∀ j < i, planeOffset s.bpr.geom s.bpr.cur j < (refOf s.bpr.buf).len) :
    bprReadCore s = .error .faulted
      (withFault .bpr (raisedReg .pastEnd (planeOffset s.bpr.geom s.bpr.cur i)) s) := by
  have hfirst := firstPlanePastEnd_eq_some hi hpast hin
  rcases bprReadCore_cases s with (⟨-, j, hj, h⟩ | ⟨-, hnone, -⟩) | ⟨hne, -⟩ | ⟨hn, -⟩
  · rw [hfirst] at hj
    cases hj
    exact h
  · rw [hfirst] at hnone
    cases hnone
  · exact absurd hb hne
  · exact absurd (fun hne => absurd hb hne) hn

theorem bprReadCore_stale (hn : ¬ cacheTrue s) : bprReadCore s = .error (.outside .staleCache) s := by
  rcases bprReadCore_cases s with (⟨hb, -⟩ | ⟨hb, -⟩) | ⟨-, hc, -⟩ | ⟨-, h⟩
  · exact absurd (fun hne => absurd hb hne) hn
  · exact absurd (fun hne => absurd hb hne) hn
  · exact absurd hc hn
  · exact h

/-- All that a read can do: it steps, faults on a plane past the end, or finds the cache stale. -/
theorem bprReadCore_outcome (s : State) :
    (fetchFits s s.bpr.cur ∧ cacheTrue s) ∨
    (s.bpr.cur.bit = 0 ∧ ∃ i < s.bpr.geom.planeCount,
      (refOf s.bpr.buf).len ≤ planeOffset s.bpr.geom s.bpr.cur i ∧
      ∀ j < i, planeOffset s.bpr.geom s.bpr.cur j < (refOf s.bpr.buf).len) ∨
    ¬ cacheTrue s := by
  by_cases hc : cacheTrue s
  · by_cases hf : fetchFits s s.bpr.cur
    · exact .inl ⟨hf, hc⟩
    · refine .inr (.inl ?_)
      simp only [fetchFits, Classical.not_imp, Bool.not_eq_false, planeEof_eq_true_iff] at hf
      obtain ⟨hb, hpast⟩ := hf
      classical
      refine ⟨hb, Nat.find hpast, (Nat.find_spec hpast).1, (Nat.find_spec hpast).2, fun j hj => ?_⟩
      have := Nat.find_min hpast hj
      have := (Nat.find_spec hpast).1
      omega
  · exact .inr (.inr hc)

/-- A read keeps the cache true (R26, R178). -/
theorem cacheTrue_readerStepped (s : State) : cacheTrue (readerStepped s) := by
  intro hb
  have hstep := stepCursor_of_bit_ne_zero hb
  show readerColumn s = columnIndices s.mem (refOf s.bpr.buf) s.bpr.geom
    (stepCursor s.bpr.geom s.bpr.cur)
  rw [hstep, columnIndices_bit]
  rfl

theorem exec_bprRead (hr : ready .bpr s) :
    exec .bprRead s = runOp (bprReadCore >>= fun v => pure (.u8 v)) s := by
  have henter : (bprReadOp >>= fun v => pure (.u8 v) : Op Result) s =
      (bprReadCore >>= fun v => pure (.u8 v)) s := by
    rw [bind_run, bprReadOp, enter_bind hr, ← bind_run]
  show runOp (bprReadOp >>= _) s = _
  simp only [runOp, henter]

theorem bprRead_completes (hr : ready .bpr s) (hf : fetchFits s s.bpr.cur) (hc : cacheTrue s) :
    exec .bprRead s =
      completes (.u8 ((readerColumn s).getD s.bpr.cur.bit 0)) (readerStepped s) := by
  rw [exec_bprRead hr]
  exact runOp_ok (bind_ok (bprReadCore_ok hf hc))

theorem bprRead_pastEnd {i : Nat} (hr : ready .bpr s) (hb : s.bpr.cur.bit = 0)
    (hi : i < s.bpr.geom.planeCount)
    (hpast : (refOf s.bpr.buf).len ≤ planeOffset s.bpr.geom s.bpr.cur i)
    (hin : ∀ j < i, planeOffset s.bpr.geom s.bpr.cur j < (refOf s.bpr.buf).len) :
    exec .bprRead s = raises .bpr .pastEnd (planeOffset s.bpr.geom s.bpr.cur i) s := by
  rw [exec_bprRead hr]
  exact runOp_raises (bind_error (bprReadCore_pastEnd hb hi hpast hin))

theorem bprRead_stale (hr : ready .bpr s) (hn : ¬ cacheTrue s) :
    exec .bprRead s = .refused .staleCache := by
  rw [exec_bprRead hr]
  exact runOp_outside (bind_error (bprReadCore_stale hn))

/-! ### Reads one after the other -/

theorem bprAdv_zero (hr : ready .bpr s) : exec (.bprAdv 0) s = completes .unit s :=
  runOp_ok (enter_bind hr)

theorem bprAdv_run (hr : ready .bpr s) (n : Nat) :
    exec (.bprAdv n) s = runOp (times bprSkipOne n >>= fun _ => pure .unit) s := by
  show runOp (bprAdvOp n) s = _
  simp only [runOp, bprAdvOp, enter_bind hr]

/-- The first of the reads completes: the rest are made where it leaves the reader. -/
theorem bprAdv_succ (hr : ready .bpr s) (hf : fetchFits s s.bpr.cur) (hc : cacheTrue s) (n : Nat) :
    exec (.bprAdv (n + 1)) s = exec (.bprAdv n) (readerStepped s) := by
  have hskip : bprSkipOne s = .ok () (readerStepped s) := bind_ok (bprReadCore_ok hf hc)
  have hrest : (times bprSkipOne (n + 1) >>= fun _ => pure .unit : Op Result) s =
      (times bprSkipOne n >>= fun _ => pure .unit) (readerStepped s) := by
    rw [bind_run, times_succ, bind_ok hskip, ← bind_run]
  rw [bprAdv_run hr, bprAdv_run (s := readerStepped s) hr]
  simp only [runOp, hrest]

theorem bprSkips_error {e : Stop} (h : bprReadCore s = .error e t) (n : Nat) :
    (times bprSkipOne (n + 1) >>= fun _ => pure .unit : Op Result) s = .error e t :=
  bind_error (bind_error (bind_error h))

theorem bprAdv_pastEnd {i : Nat} (hr : ready .bpr s) (hb : s.bpr.cur.bit = 0)
    (hi : i < s.bpr.geom.planeCount)
    (hpast : (refOf s.bpr.buf).len ≤ planeOffset s.bpr.geom s.bpr.cur i)
    (hin : ∀ j < i, planeOffset s.bpr.geom s.bpr.cur j < (refOf s.bpr.buf).len) (n : Nat) :
    exec (.bprAdv (n + 1)) s = raises .bpr .pastEnd (planeOffset s.bpr.geom s.bpr.cur i) s := by
  rw [bprAdv_run hr]
  exact runOp_raises (bprSkips_error (bprReadCore_pastEnd hb hi hpast hin) n)

theorem bprAdv_stale (hr : ready .bpr s) (hn : ¬ cacheTrue s) (n : Nat) :
    exec (.bprAdv (n + 1)) s = .refused .staleCache := by
  rw [bprAdv_run hr]
  exact runOp_outside (bprSkips_error (bprReadCore_stale hn) n)

/-- What the host received last plays no part in an advance. -/
theorem bprAdv_reply (n : Nat) (hr : ready .bpr s) (y : Reply) :
    exec (.bprAdv n) { s with reply := y } = exec (.bprAdv n) s := by
  induction n generalizing s with
  | zero => rw [bprAdv_zero hr, bprAdv_zero (s := { s with reply := y }) hr]; rfl
  | succ n ih =>
    rcases bprReadCore_outcome s with ⟨hf, hc⟩ | ⟨hb, i, hi, hpast, hin⟩ | hn
    · rw [bprAdv_succ hr hf hc, bprAdv_succ (s := { s with reply := y }) hr hf hc]
      exact ih (s := readerStepped s) hr
    · rw [bprAdv_pastEnd hr hb hi hpast hin,
        bprAdv_pastEnd (s := { s with reply := y }) hr hb hi hpast hin]
      rfl
    · rw [bprAdv_stale hr hn, bprAdv_stale (s := { s with reply := y }) hr hn]

/-- Whatever state a read completes in, the reads that follow go on from there. -/
theorem bprAdv_after_read {v : Byte} (hr : ready .bpr s) (h : exec .bprRead s = completes (.u8 v) t)
    (n : Nat) : exec (.bprAdv (n + 1)) s = exec (.bprAdv n) t := by
  rcases bprReadCore_outcome s with ⟨hf, hc⟩ | ⟨hb, i, hi, hpast, hin⟩ | hn
  · rw [bprRead_completes hr hf hc] at h
    have ht : t = { readerStepped s with reply := t.reply } := by
      have hnext := Host.Outcome.next.inj h
      exact congrArg (fun u : State => { u with reply := t.reply }) hnext.symm
    rw [bprAdv_succ hr hf hc, ht]
    exact (bprAdv_reply n (s := readerStepped s) hr t.reply).symm
  · rw [bprRead_pastEnd hr hb hi hpast hin] at h
    have hreply := congrArg State.reply (Host.Outcome.next.inj h)
    cases hreply
  · rw [bprRead_stale hr hn] at h
    cases h

theorem bprAdv_after_fault (hr : ready .bpr s) (h : exec .bprRead s = .next t)
    (ht : t.reply = .faulted) (n : Nat) : exec (.bprAdv (n + 1)) s = .next t := by
  rcases bprReadCore_outcome s with ⟨hf, hc⟩ | ⟨hb, i, hi, hpast, hin⟩ | hn
  · rw [bprRead_completes hr hf hc] at h
    rw [← Host.Outcome.next.inj h] at ht
    cases ht
  · rw [bprAdv_pastEnd hr hb hi hpast hin, ← bprRead_pastEnd hr hb hi hpast hin, h]
  · rw [bprRead_stale hr hn] at h
    cases h

/-- The reader `n` pixels on, with this cache. -/
def readerAt (s : State) (n : Nat) (cache : List Byte) : State :=
  { s with bpr := { s.bpr with cur := stepCursorN s.bpr.geom n s.bpr.cur, cache := cache } }

theorem bprAdv_completes (n : Nat) (hr : ready .bpr s) (hc : cacheTrue s)
    (hf : ∀ k < n, fetchFits s (stepCursorN s.bpr.geom k s.bpr.cur)) :
    ∃ cache, exec (.bprAdv n) s = completes .unit (readerAt s n cache) ∧
      cacheTrue (readerAt s n cache) := by
  induction n generalizing s with
  | zero => exact ⟨s.bpr.cache, bprAdv_zero hr, hc⟩
  | succ n ih =>
    rw [bprAdv_succ hr (hf 0 (Nat.succ_pos n)) hc]
    exact ih (s := readerStepped s) hr (cacheTrue_readerStepped s)
      fun k hk => hf (k + 1) (Nat.succ_lt_succ hk)

theorem bprAdv_faults {n k i : Nat} (hr : ready .bpr s) (hc : cacheTrue s) (hk : k < n)
    (hf : ∀ j < k, fetchFits s (stepCursorN s.bpr.geom j s.bpr.cur))
    (hb : (stepCursorN s.bpr.geom k s.bpr.cur).bit = 0) (hi : i < s.bpr.geom.planeCount)
    (hpast : (refOf s.bpr.buf).len ≤
      planeOffset s.bpr.geom (stepCursorN s.bpr.geom k s.bpr.cur) i)
    (hin : ∀ j < i, planeOffset s.bpr.geom (stepCursorN s.bpr.geom k s.bpr.cur) j <
      (refOf s.bpr.buf).len) :
    ∃ cache, exec (.bprAdv n) s = raises .bpr .pastEnd
      (planeOffset s.bpr.geom (stepCursorN s.bpr.geom k s.bpr.cur) i) (readerAt s k cache) := by
  induction k generalizing s n with
  | zero =>
    obtain ⟨n, rfl⟩ := Nat.exists_eq_succ_of_ne_zero hk.ne'
    exact ⟨s.bpr.cache, bprAdv_pastEnd hr hb hi hpast hin n⟩
  | succ k ih =>
    obtain ⟨n, rfl⟩ := Nat.exists_eq_succ_of_ne_zero (Nat.zero_lt_of_lt hk).ne'
    rw [bprAdv_succ hr (hf 0 (Nat.succ_pos k)) hc]
    exact ih (s := readerStepped s) hr (cacheTrue_readerStepped s) (Nat.lt_of_succ_lt_succ hk)
      (fun j hj => hf (j + 1) (Nat.succ_lt_succ hj)) hb hi hpast hin

end Sys2Proof.Machine

namespace Sys2Proof.Proofs

open Sys2Proof.Machine

/-- Settles O26: with a true cache the index read is that of the column's bytes, at each `bit`. -/
theorem bprRead : Obligations.BprRead := by
  intro s hr hs
  obtain ⟨⟨hbit, -, hinit⟩, -⟩ := hs
  obtain ⟨hgeom, -⟩ := hinit hr.2.1
  obtain ⟨-, -, -, hplanes⟩ := geometryOk_iff.mp hgeom
  refine ⟨fun hb i hi hpast hin => bprRead_pastEnd hr hb hi hpast hin, fun hin hc => ?_⟩
  have hf : fetchFits s s.bpr.cur := fun hb => planeEof_eq_false_iff.mpr (hin hb)
  refine ⟨_, readerColumn s, bprRead_completes hr hf hc, ?_, columnIndices_length _ _ _ _,
    fun hb => (hc hb).symm, fun _ k hk i => testBit_columnIndices hplanes hk i⟩
  have hlt : s.bpr.cur.bit < (readerColumn s).length := by simpa [readerColumn] using hbit
  simp [hlt]

/-- Settles O27: each clause goes from one read to the reads that follow it. -/
theorem bprAdv : Obligations.BprAdv :=
  fun _ hr => ⟨bprAdv_zero hr, fun n _ _ h => bprAdv_after_read hr h n,
    fun n _ h ht => bprAdv_after_fault hr h ht n,
    fun hn => ⟨bprRead_stale hr hn, bprAdv_stale hr hn⟩,
    fun hc n hf => bprAdv_completes n hr hc hf,
    fun hc _ _ _ hk hf hb hi hpast hin => bprAdv_faults hr hc hk hf hb hi hpast hin⟩

end Sys2Proof.Proofs
end

section
/-! Where the presets place a pixel (R171, R173). The cursor of a pixel is read off its number; in each of
the three presets the planes then lie in groups of `bytesPerBlock` bytes, one group of each plane after
the other, which gives the rule's offsets and the size that a pass needs (R187; O25). -/

namespace Sys2Proof.Machine

variable {s : State} {g : Geometry} {c : Cursor} {f : PlaneFormat} {w h p n i : Nat}

/-! ### The cursor of a pixel number -/

/-- `bit`, `byte` and `block` are below their ends (R24). -/
def cursorInside (g : Geometry) (c : Cursor) : Prop :=
  c.bit < 8 ∧ c.byte < g.bytesPerBlock ∧ c.block < g.blocksPerLine

theorem cursorInside_stepCursor (hc : cursorInside g c) : cursorInside g (stepCursor g c) := by
  obtain ⟨hbit, hbyte, hblock⟩ := hc
  have hbytes : 0 < g.bytesPerBlock := Nat.zero_lt_of_lt hbyte
  have hblocks : 0 < g.blocksPerLine := Nat.zero_lt_of_lt hblock
  unfold stepCursor
  split_ifs with hcolumn hbyteEnd hblockEnd
  · exact ⟨Nat.succ_pos 7, hbytes, hblocks⟩
  · exact ⟨Nat.succ_pos 7, hbytes, Nat.lt_of_le_of_ne hblock hblockEnd⟩
  · exact ⟨Nat.succ_pos 7, Nat.lt_of_le_of_ne hbyte hbyteEnd, hblock⟩
  · exact ⟨Nat.lt_of_le_of_ne hbit hcolumn, hbyte, hblock⟩

theorem cursorInside_stepCursorN (hc : cursorInside g c) : cursorInside g (stepCursorN g n c) := by
  induction n generalizing c with
  | zero => exact hc
  | succ n ih => exact ih (cursorInside_stepCursor hc)

/-- A cursor is determined by its pixel number. -/
theorem cursor_of_pixelNumber (hc : cursorInside g c) :
    c.bit = pixelNumber g c % 8 ∧ c.byte = pixelNumber g c / 8 % g.bytesPerBlock ∧
      c.block = pixelNumber g c / 8 / g.bytesPerBlock % g.blocksPerLine ∧
      c.line = pixelNumber g c / 8 / g.bytesPerBlock / g.blocksPerLine := by
  obtain ⟨hbit, hbyte, hblock⟩ := hc
  have hcolumn : pixelNumber g c / 8 =
      (c.line * g.blocksPerLine + c.block) * g.bytesPerBlock + c.byte := by
    unfold pixelNumber
    omega
  have hgroup : pixelNumber g c / 8 / g.bytesPerBlock = c.line * g.blocksPerLine + c.block := by
    rw [hcolumn, Nat.mul_comm, Nat.mul_add_div (Nat.zero_lt_of_lt hbyte), Nat.div_eq_of_lt hbyte,
      Nat.add_zero]
  refine ⟨by unfold pixelNumber; omega, ?_, ?_, ?_⟩
  · rw [hcolumn, Nat.mul_add_mod', Nat.mod_eq_of_lt hbyte]
  · rw [hgroup, Nat.mul_add_mod', Nat.mod_eq_of_lt hblock]
  · rw [hgroup, Nat.mul_comm, Nat.mul_add_div (Nat.zero_lt_of_lt hblock), Nat.div_eq_of_lt hblock,
      Nat.add_zero]

/-- The cursor after the first `n` pixels of a pass. -/
theorem stepCursorN_zero (hbytes : 0 < g.bytesPerBlock) (hblocks : 0 < g.blocksPerLine) (n : Nat) :
    stepCursorN g n Cursor.zero = ⟨n / 8 % g.bytesPerBlock, n / 8 / g.bytesPerBlock % g.blocksPerLine,
      n / 8 / g.bytesPerBlock / g.blocksPerLine, n % 8⟩ := by
  have hinside : cursorInside g (stepCursorN g n Cursor.zero) :=
    cursorInside_stepCursorN ⟨Nat.succ_pos 7, hbytes, hblocks⟩
  have hnumber : pixelNumber g (stepCursorN g n Cursor.zero) = n := by
    rw [pixelNumber_stepCursorN]
    simp [pixelNumber, Cursor.zero]
  obtain ⟨hbit, hbyte, hblock, hline⟩ := cursor_of_pixelNumber hinside
  rw [hnumber] at hbit hbyte hblock hline
  rw [← hbit, ← hbyte, ← hblock, ← hline]

/-! ### The presets' offsets -/

/-- How many groups of `bytesPerBlock` bytes a plane of a preset has: it is one group, or one for each
line, or one for each word. -/
def presetGroups (f : PlaneFormat) (w h : Nat) : Nat :=
  match f with
  | .contiguous => 1
  | .line => h
  | .word => ceilDiv w 16 * h

theorem ceilDiv_pos {a b : Nat} (ha : 0 < a) (hb : 0 < b) : 0 < ceilDiv a b :=
  Nat.div_pos (by omega) hb

theorem preset_bytesPerBlock_pos (hw : 0 < w) (hh : 0 < h) :
    0 < (presetGeometry f w h p).bytesPerBlock := by
  have hbytes : 0 < ceilDiv w 8 := ceilDiv_pos hw (Nat.succ_pos 7)
  cases f with
  | contiguous => exact Nat.mul_pos hbytes hh
  | line => exact hbytes
  | word => exact Nat.two_pos

theorem preset_blocksPerLine_pos (hw : 0 < w) : 0 < (presetGeometry f w h p).blocksPerLine := by
  cases f with
  | contiguous => exact Nat.one_pos
  | line => exact Nat.one_pos
  | word => exact ceilDiv_pos hw (Nat.succ_pos 15)

theorem presetLineBytes_mul (f : PlaneFormat) (w h p : Nat) :
    presetLineBytes f w * h = (presetGeometry f w h p).bytesPerBlock * presetGroups f w h := by
  cases f with
  | contiguous => exact (Nat.mul_one _).symm
  | line => rfl
  | word => exact Nat.mul_assoc 2 (ceilDiv w 16) h

/-- The planes' groups of `u` bytes lie one after the other: byte `b` of plane `i`. -/
def groupedOffset (u p b i : Nat) : Nat := b % u + u * (b / u * p + i)

/-- A preset's planes are grouped, as far as the image goes: below it a contiguous plane, whose lines all
have offset 0, would start over. -/
theorem planeOffset_preset (hw : 0 < w) (hh : 0 < h) (hn : n / 8 < presetLineBytes f w * h) (p i : Nat) :
    planeOffset (presetGeometry f w h p) (stepCursorN (presetGeometry f w h p) n Cursor.zero) i =
      groupedOffset (presetGeometry f w h p).bytesPerBlock p (n / 8) i := by
  rw [stepCursorN_zero (preset_bytesPerBlock_pos hw hh) (preset_blocksPerLine_pos hw)]
  cases f with
  | contiguous =>
    have hzero : n / 8 / (ceilDiv w 8 * h) = 0 := Nat.div_eq_of_lt hn
    simp only [planeOffset, presetGeometry, groupedOffset, hzero]
    ring
  | line =>
    simp only [planeOffset, presetGeometry, groupedOffset, Nat.div_one]
    ring
  | word =>
    have hword := Nat.mod_add_div (n / 8 / 2) (ceilDiv w 16)
    simp only [planeOffset, presetGeometry, groupedOffset]
    linear_combination 2 * p * hword

theorem le_presetLineBytes (f : PlaneFormat) (w : Nat) : w ≤ 8 * presetLineBytes f w := by
  cases f <;> simp only [presetLineBytes, ceilDiv] <;> omega

variable {x y : Nat}

theorem presetColumn_lt_line (f : PlaneFormat) (hx : x < w) : x / 8 < presetLineBytes f w :=
  Nat.div_lt_of_lt_mul (hx.trans_le (le_presetLineBytes f w))

theorem presetColumn_lt (f : PlaneFormat) (hx : x < w) (hy : y < h) :
    y * presetLineBytes f w + x / 8 < presetLineBytes f w * h := by
  have hline := presetColumn_lt_line f hx
  calc y * presetLineBytes f w + x / 8
      < (y + 1) * presetLineBytes f w := by rw [Nat.succ_mul]; omega
    _ ≤ h * presetLineBytes f w := Nat.mul_le_mul_right _ hy
    _ = presetLineBytes f w * h := Nat.mul_comm _ _

/-- Pixel `(x, y)` lies in byte-column `x / 8` of line `y`, each line being `L` columns long. -/
theorem planeOffset_presetPixel (f : PlaneFormat) (hx : x < w) (hy : y < h) (p i : Nat) :
    planeOffset (presetGeometry f w h p)
        (stepCursorN (presetGeometry f w h p) (y * (8 * presetLineBytes f w) + x) Cursor.zero) i =
      groupedOffset (presetGeometry f w h p).bytesPerBlock p (y * presetLineBytes f w + x / 8) i := by
  have hcolumn : (y * (8 * presetLineBytes f w) + x) / 8 = y * presetLineBytes f w + x / 8 := by
    rw [Nat.mul_left_comm, Nat.mul_add_div (Nat.succ_pos 7)]
  have hbelow := presetColumn_lt f hx hy
  rw [planeOffset_preset (Nat.zero_lt_of_lt hx) (Nat.zero_lt_of_lt hy) (by rwa [hcolumn]), hcolumn]

theorem planeOffset_contiguousPixel (hx : x < w) (hy : y < h) (p i : Nat) :
    planeOffset (presetGeometry .contiguous w h p)
        (stepCursorN (presetGeometry .contiguous w h p) (y * (8 * ceilDiv w 8) + x) Cursor.zero) i =
      y * ceilDiv w 8 + x / 8 + i * (ceilDiv w 8 * h) := by
  have hbelow : y * ceilDiv w 8 + x / 8 < ceilDiv w 8 * h := presetColumn_lt .contiguous hx hy
  refine (planeOffset_presetPixel .contiguous hx hy p i).trans ?_
  simp only [groupedOffset, presetGeometry, presetLineBytes, Nat.mod_eq_of_lt hbelow,
    Nat.div_eq_of_lt hbelow]
  ring

theorem planeOffset_linePixel (hx : x < w) (hy : y < h) (p i : Nat) :
    planeOffset (presetGeometry .line w h p)
        (stepCursorN (presetGeometry .line w h p) (y * (8 * ceilDiv w 8) + x) Cursor.zero) i =
      x / 8 + y * (ceilDiv w 8 * p) + i * ceilDiv w 8 := by
  have hline : x / 8 < ceilDiv w 8 := presetColumn_lt_line .line hx
  refine (planeOffset_presetPixel .line hx hy p i).trans ?_
  simp only [groupedOffset, presetGeometry, presetLineBytes]
  rw [Nat.mul_add_mod', Nat.mod_eq_of_lt hline, Nat.mul_comm y, Nat.mul_add_div (by omega),
    Nat.div_eq_of_lt hline]
  ring

theorem planeOffset_wordPixel (hx : x < w) (hy : y < h) (p i : Nat) :
    planeOffset (presetGeometry .word w h p)
        (stepCursorN (presetGeometry .word w h p) (y * (16 * ceilDiv w 16) + x) Cursor.zero) i =
      x / 8 % 2 + x / 16 * (2 * p) + y * (ceilDiv w 16 * 2 * p) + 2 * i := by
  have hpixel := planeOffset_presetPixel .word hx hy p i
  rw [show 8 * presetLineBytes .word w = 16 * ceilDiv w 16 by simp only [presetLineBytes]; omega,
    show y * presetLineBytes .word w = 2 * (y * ceilDiv w 16) from Nat.mul_left_comm _ _ _] at hpixel
  rw [hpixel]
  simp only [groupedOffset, presetGeometry]
  rw [Nat.mul_add_mod, Nat.mul_add_div Nat.two_pos, Nat.div_div_eq_div_mul]
  ring

/-! ### The size of a pass -/

variable {u b k : Nat}

/-- The groups of `p` planes, `k` of each, fill `u * (k * p)` bytes. -/
theorem groupedOffset_lt (hu : 0 < u) (hb : b < u * k) (hi : i < p) :
    groupedOffset u p b i < u * (k * p) := by
  have hrow : (b / u + 1) * p ≤ k * p := Nat.mul_le_mul_right p (Nat.div_lt_of_lt_mul hb)
  calc groupedOffset u p b i
      < u + u * (b / u * p + i) := Nat.add_lt_add_right (Nat.mod_lt b hu) _
    _ = u * (b / u * p + i + 1) := by ring
    _ ≤ u * (k * p) := Nat.mul_le_mul_left u (by rw [Nat.succ_mul] at hrow; omega)

/-- Every byte of every plane but the last byte of the last plane lies before the last of those bytes. -/
theorem groupedOffset_succ_lt (hu : 0 < u) (hb : b < u * k) (hi : i < p)
    (h : b + 1 < u * k ∨ i + 1 < p) : groupedOffset u p b i + 1 < u * (k * p) := by
  have hmod : b % u < u := Nat.mod_lt b hu
  have hrow : (b / u + 1) * p ≤ k * p := Nat.mul_le_mul_right p (Nat.div_lt_of_lt_mul hb)
  rw [Nat.succ_mul] at hrow
  by_cases hlast : b / u * p + i + 1 < k * p
  · calc groupedOffset u p b i + 1
        ≤ u * (b / u * p + i + 1) := by unfold groupedOffset; rw [Nat.mul_succ]; omega
      _ < u * (k * p) := Nat.mul_lt_mul_of_pos_left hlast hu
  · have hplane : i + 1 = p := by omega
    have hgroup : (b / u + 1) * p = k * p := by rw [Nat.succ_mul]; omega
    have hblock : b / u + 1 = k := Nat.eq_of_mul_eq_mul_right (by omega) hgroup
    have hsplit := Nat.div_add_mod b u
    have hbyte : b % u + 1 < u := by
      rw [← hblock, Nat.mul_succ] at h
      omega
    calc groupedOffset u p b i + 1
        < u * (b / u * p + i + 1) := by unfold groupedOffset; rw [Nat.mul_succ]; omega
      _ ≤ u * (k * p) := Nat.mul_le_mul_left u (by omega)

/-- The last byte of the last plane is the last byte. -/
theorem groupedOffset_last (hu : 0 < u) (hb : b + 1 = u * k) (hi : i + 1 = p) :
    groupedOffset u p b i + 1 = u * (k * p) := by
  obtain ⟨v, rfl⟩ : ∃ v, u = v + 1 := Nat.exists_eq_succ_of_ne_zero hu.ne'
  obtain ⟨k, rfl⟩ : ∃ j, k = j + 1 := Nat.exists_eq_succ_of_ne_zero (by rintro rfl; omega)
  obtain rfl : b = (v + 1) * k + v := by rw [Nat.mul_succ] at hb; omega
  subst hi
  rw [groupedOffset, Nat.mul_add_mod, Nat.mod_eq_of_lt (Nat.lt_succ_self v),
    Nat.mul_add_div (Nat.succ_pos v), Nat.div_eq_of_lt (Nat.lt_succ_self v)]
  ring

theorem presetSize_eq_groups (f : PlaneFormat) (w h p : Nat) : presetLineBytes f w * h * p =
    (presetGeometry f w h p).bytesPerBlock * (presetGroups f w h * p) := by
  rw [presetLineBytes_mul f w h p, Nat.mul_assoc]

@[simp] theorem preset_planeCount (f : PlaneFormat) (w h p : Nat) :
    (presetGeometry f w h p).planeCount = p := by cases f <;> rfl

theorem passFits_preset (f : PlaneFormat) (hw : 0 < w) (hh : 0 < h) (p : Nat) :
    passFits (presetGeometry f w h p) (presetLineBytes f w * h * p)
      (8 * presetLineBytes f w * h) := by
  intro n hn
  have hcolumn : n / 8 < presetLineBytes f w * h := Nat.div_lt_of_lt_mul (by rwa [← Nat.mul_assoc])
  refine planeEof_eq_false_iff.mpr fun i hi => ?_
  rw [planeOffset_preset hw hh hcolumn, presetSize_eq_groups]
  rw [presetLineBytes_mul f w h p] at hcolumn
  exact groupedOffset_lt (preset_bytesPerBlock_pos hw hh) hcolumn (by simpa using hi)

/-- One byte less leaves only the last byte-column's fetch outside the buffer (R187). -/
theorem passFits_preset_short (f : PlaneFormat) (hw : 0 < w) (hh : 0 < h) (p : Nat) :
    passFits (presetGeometry f w h p) (presetLineBytes f w * h * p - 1)
      (8 * presetLineBytes f w * h - 8) := by
  intro n hn
  rw [Nat.mul_assoc] at hn
  have hcolumn : n / 8 + 1 < presetLineBytes f w * h := by omega
  refine planeEof_eq_false_iff.mpr fun i hi => ?_
  rw [planeOffset_preset hw hh (by omega), presetSize_eq_groups]
  rw [presetLineBytes_mul f w h p] at hcolumn
  exact Nat.lt_sub_of_add_lt <| groupedOffset_succ_lt (preset_bytesPerBlock_pos hw hh)
    (by omega) (by simpa using hi) (.inl hcolumn)

/-- In a buffer one byte short the last plane's byte of the last column is the first past the end. -/
theorem bprRead_preset_short (f : PlaneFormat) (hw : 0 < w) (hh : 0 < h) (hp : 0 < p)
    (hr : ready .bpr s) (hg : s.bpr.geom = presetGeometry f w h p)
    (hlen : (refOf s.bpr.buf).len + 1 = presetLineBytes f w * h * p)
    (hc : s.bpr.cur =
      stepCursorN (presetGeometry f w h p) (8 * presetLineBytes f w * h - 8) Cursor.zero) :
    exec .bprRead s = raises .bpr .pastEnd (refOf s.bpr.buf).len s := by
  obtain ⟨q, rfl⟩ : ∃ q, p = q + 1 := Nat.exists_eq_succ_of_ne_zero hp.ne'
  have hu := preset_bytesPerBlock_pos (f := f) (p := q + 1) hw hh
  have hbytes : 0 < presetLineBytes f w * h := by
    refine Nat.pos_of_ne_zero fun hzero => ?_
    rw [hzero] at hlen
    omega
  have hcolumn : (8 * presetLineBytes f w * h - 8) / 8 + 1 = presetLineBytes f w * h := by
    rw [Nat.mul_assoc]
    omega
  have hoffset (i : Nat) : planeOffset s.bpr.geom s.bpr.cur i =
      groupedOffset (presetGeometry f w h (q + 1)).bytesPerBlock (q + 1)
        ((8 * presetLineBytes f w * h - 8) / 8) i := by
    rw [hg, hc]
    exact planeOffset_preset hw hh (by omega) (q + 1) i
  rw [presetLineBytes_mul f w h (q + 1)] at hcolumn
  have hlast := groupedOffset_last (i := q) hu hcolumn rfl
  rw [presetSize_eq_groups] at hlen
  have hend : planeOffset s.bpr.geom s.bpr.cur q = (refOf s.bpr.buf).len := by
    rw [hoffset]
    omega
  rw [← hend]
  refine bprRead_pastEnd hr ?_ (by simp [hg]) hend.ge fun j hj => ?_
  · rw [hc, stepCursorN_zero hu (preset_blocksPerLine_pos hw), Nat.mul_assoc]
    show _ % 8 = 0
    omega
  · have hlt := groupedOffset_succ_lt (p := q + 1) hu (Nat.lt_of_succ_le hcolumn.le)
      (Nat.lt_succ_of_lt hj) (.inr (Nat.succ_lt_succ hj))
    rw [hoffset]
    omega

end Sys2Proof.Machine

namespace Sys2Proof.Proofs

open Sys2Proof.Machine

/-- Settles O25: pixel `(x, y)` is number `y * 8 * L + x` of the pass, whose byte-column `y * L + x / 8`
the presets place by groups. -/
theorem presetPlacement : Obligations.PresetPlacement := by
  refine ⟨fun w h p x y i _ _ hx hy => ⟨planeOffset_contiguousPixel hx hy p i,
    planeOffset_linePixel hx hy p i, planeOffset_wordPixel hx hy p i⟩, fun f w h p hw hh hp => ?_⟩
  exact ⟨passFits_preset f hw hh p, passFits_preset_short f hw hh p,
    fun s hr hg hlen hc => bprRead_preset_short f hw hh hp hr hg hlen hc⟩

end Sys2Proof.Proofs
end

section
/-! The bit-plane writer: the checks before any write, and the bytes a write leaves (R183); O28. -/

namespace Sys2Proof.Machine

variable {s : State} {m : Mem} {r : BufRef} {g : Geometry} {c : Cursor} {index : Nat}

theorem bpwWrite_indexWide (hr : ready .bpw s) (h : 2 ^ s.bpw.geom.planeCount ≤ index) :
    exec (.bpwWrite index) s = raises .bpw .indexWide index s :=
  runOp_raises ((enter_bind hr).trans (raiseIf_bind_true h))

theorem bpwWrite_pastEnd {i : Nat} (hr : ready .bpw s) (h : index < 2 ^ s.bpw.geom.planeCount)
    (hi : i < s.bpw.geom.planeCount)
    (hpast : (refOf s.bpw.buf).len ≤ planeOffset s.bpw.geom s.bpw.cur i)
    (hin : ∀ j < i, planeOffset s.bpw.geom s.bpw.cur j < (refOf s.bpw.buf).len) :
    exec (.bpwWrite index) s =
      raises .bpw .pastEnd (planeOffset s.bpw.geom s.bpw.cur i) s := by
  have hfirst := firstPlanePastEnd_eq_some hi hpast hin
  refine runOp_raises ((enter_bind hr).trans ((raiseIf_bind_false (Nat.not_le_of_lt h)).trans ?_))
  rw [hfirst]
  rfl

/-- The writes of R183 as the statement lists them: one byte of each plane whose bit is set. -/
theorem planesWritten_eq (hin : ∀ i < g.planeCount, planeOffset g c i < r.len) :
    planesWritten r g c index = ((List.range g.planeCount).filter fun i => index.testBit i).map
      fun i => ⟨r.id, r.base + planeOffset g c i, 1⟩ := by
  refine List.map_congr_left fun i hi => ?_
  have hlt := hin i (List.mem_range.mp (List.mem_filter.mp hi).1)
  rw [windowOf, Nat.min_eq_left (by omega)]

/-- A write keeps its own unit's binding and changes its cursor only. -/
theorem bpwWrite_completes (hr : ready .bpw s) (h : index < 2 ^ s.bpw.geom.planeCount)
    (hin : ∀ i < s.bpw.geom.planeCount,
      planeOffset s.bpw.geom s.bpw.cur i < (refOf s.bpw.buf).len) :
    exec (.bpwWrite index) s = completes .unit
      { overwrite .bpw (planesWritten (refOf s.bpw.buf) s.bpw.geom s.bpw.cur index) s with
        mem := orPlanes s.mem (refOf s.bpw.buf) s.bpw.geom s.bpw.cur index s.bpw.geom.planeCount
        bpw := { s.bpw with cur := stepCursor s.bpw.geom s.bpw.cur } } := by
  have hnone := firstPlanePastEnd_eq_none (planeEof_eq_false_iff.mpr hin)
  refine runOp_ok ((enter_bind hr).trans ((raiseIf_bind_false (Nat.not_le_of_lt h)).trans ?_))
  rw [hnone]
  rfl

/-- A mask set under either of two conditions. -/
theorem or_mask_or_mask (v mask : Byte) (P Q : Prop) [Decidable P] [Decidable Q] [Decidable (P ∨ Q)] :
    (v ||| if P then mask else 0) ||| (if Q then mask else 0) = v ||| if P ∨ Q then mask else 0 := by
  rw [BitVec.or_assoc]
  by_cases hP : P <;> by_cases hQ : Q <;> simp [hP, hQ]

theorem byteAt_orPlaneBit {off : Nat} (h : r.base + off < (bufAt m r.id).len) (bit id a : Nat) :
    byteAt (orPlaneBit m r off bit) id a = byteAt m id a |||
      (if id = r.id ∧ a = r.base + off then (0x80 : Byte) >>> bit else 0) := by
  rw [orPlaneBit, byteAt_setByte]
  by_cases hplace : id = r.id ∧ a = r.base + off
  · obtain ⟨rfl, rfl⟩ := hplace
    rw [if_pos ⟨rfl, rfl, h⟩, if_pos ⟨rfl, rfl⟩, refByte]
  · rw [if_neg fun hp => hplace ⟨hp.1, hp.2.1⟩, if_neg hplace]
    exact BitVec.or_zero.symm

/-- Planes may share a byte: the same bit is set in it again. -/
theorem byteAt_orPlanes {n : Nat} (hn : ∀ i < n, r.base + planeOffset g c i < (bufAt m r.id).len)
    (id a : Nat) : byteAt (orPlanes m r g c index n) id a = byteAt m id a |||
      (if id = r.id ∧ ∃ i < n, index.testBit i = true ∧ a = r.base + planeOffset g c i then
        (0x80 : Byte) >>> c.bit else 0) := by
  induction n with
  | zero => simp [orPlanes]
  | succ n ih =>
    have hbelow := ih fun i hi => hn i (Nat.lt_succ_of_lt hi)
    simp only [Nat.exists_lt_succ_right, and_or_left]
    by_cases hbit : index.testBit n = true
    · have hlen : r.base + planeOffset g c n < (bufAt (orPlanes m r g c index n) r.id).len := by
        rw [(writes_orPlanes m r g c index n).len_eq]
        exact hn n (Nat.lt_succ_self n)
      rw [orPlanes, if_pos hbit, byteAt_orPlaneBit hlen, hbelow, or_mask_or_mask]
      simp only [hbit, true_and]
    · rw [orPlanes, if_neg hbit, hbelow]
      simp only [hbit, Bool.false_eq_true, false_and, and_false, or_false]

end Sys2Proof.Machine

namespace Sys2Proof.Proofs

open Sys2Proof.Machine

/-- Settles O28: the binding lies inside its buffer, so every byte of a set plane is written. -/
theorem bpwWrite : Obligations.BpwWrite := by
  intro s index hr hs
  obtain ⟨-, hbound, -⟩ := hs
  refine ⟨bpwWrite_indexWide hr, fun h i hi hpast hin => bpwWrite_pastEnd hr h hi hpast hin,
    fun h hin => ?_⟩
  rw [bpwWrite_completes hr h hin, planesWritten_eq hin]
  refine ⟨_, rfl, byteAt_orPlanes fun i hi => ?_⟩
  have hlt := hin i hi
  rcases hbound with hempty | hinside <;> omega

end Sys2Proof.Proofs
end

section
/-! The pixel-buffer bridge (R200 to R206): what INIT, SETPAL and ADV leave in PXR and PXW (O30), the
colour search behind `PXR.READ` (O31), and the one pixel that `PXW.WRITE` and `PXW.WRITEC` store (O32). -/

namespace Sys2Proof.Machine

variable {s : State} {slot index k : Nat} {u : UnitId} {m : Mem} {r : BufRef} {l : Lut} {v : U32}

/-! ### INIT, SETPAL and ADV -/

theorem pxrInit_completes (buf : Nat) (hs : readableSlot s slot) :
    exec (.pxrInit buf slot) s = completes .unit
      { s with pxr := ⟨true, some (wholeBuf s.mem buf), 0, viewOf (slotAt s slot),
                       { s.pxr.fault with valid := false }⟩ } :=
  runOp_ok ((bind_ok (clearFault_run .pxr s)).trans
    (bind_ok (view8_ok (s := clearedFault .pxr s) hs.1 hs.2)))

theorem pxwInit_completes (buf : Nat) (hs : readableSlot s slot) :
    exec (.pxwInit buf slot) s = completes .unit (claim .pxw (wholeBuf s.mem buf)
      { s with pxw := ⟨true, some (wholeBuf s.mem buf), 0, viewOf (slotAt s slot),
                       { s.pxw.fault with valid := false }⟩ }) :=
  runOp_ok ((bind_ok (clearFault_run .pxw s)).trans
    (bind_ok (view8_ok (s := clearedFault .pxw s) hs.1 hs.2)))

theorem pxrSetpal_completes (hr : ready .pxr s) (hs : readableSlot s slot) :
    exec (.pxrSetpal slot) s = completes .unit
      { s with pxr := { s.pxr with lut := viewOf (slotAt s slot) } } :=
  runOp_ok ((enter_bind hr).trans (bind_ok (view8_ok hs.1 hs.2)))

theorem pxwSetpal_completes (hr : ready .pxw s) (hs : readableSlot s slot) :
    exec (.pxwSetpal slot) s = completes .unit
      { s with pxw := { s.pxw with lut := viewOf (slotAt s slot) } } :=
  runOp_ok ((enter_bind hr).trans (bind_ok (view8_ok hs.1 hs.2)))

theorem pxrAdv_completes (hr : ready .pxr s) (n : Nat) : exec (.pxrAdv n) s =
    completes .unit { s with pxr := { s.pxr with pos := s.pxr.pos + n } } :=
  runOp_ok (enter_bind hr)

theorem pxwAdv_completes (hr : ready .pxw s) (n : Nat) : exec (.pxwAdv n) s =
    completes .unit { s with pxw := { s.pxw with pos := s.pxw.pos + n } } :=
  runOp_ok (enter_bind hr)

/-! ### A pixel of a bound buffer -/

theorem beRead_pixel (m : Mem) (r : BufRef) (k : Nat) :
    beRead m r (4 * k) 4 = (pixelAt m r k).toNat := by
  have hlt : beRead m r (4 * k) 4 < 2 ^ 32 := beRead_lt m r (4 * k) 4
  rw [← ofNat_beRead_pixel, BitVec.toNat_ofNat, Nat.mod_eq_of_lt hlt]

theorem memRead_pixel (hk : 4 * k + 4 ≤ r.len) :
    memRead u r (4 * k) 4 s = .ok (pixelAt s.mem r k).toNat s := by
  rw [memRead_ok hk, beRead_pixel]

theorem pixelAt_beWrite (hr : refOk m r) (hk : 4 * k + 4 ≤ r.len) (v : U32) :
    pixelAt (beWrite m r (4 * k) 4 v.toNat) r k = v := by
  apply BitVec.eq_of_toNat_eq
  rw [← beRead_pixel, beRead_beWrite m r (4 * k) hr 4 v.toNat hk v.isLt]

theorem byteAt_beWrite_outside {off n id a : Nat} (x : Nat)
    (h : id ≠ r.id ∨ a < r.base + off ∨ r.base + off + n ≤ a) :
    byteAt (beWrite m r off n x) id a = byteAt m id a := by
  refine (writes_beWrite m r off n x).byteAt_eq ?_
  rintro ⟨hid, hlo, hhi⟩
  omega

/-! ### PXR.READ -/

/-- Element `i` of a table is set and holds this colour (R203). -/
abbrev holdsColour (l : Lut) (v : U32) (i : Nat) : Prop :=
  (lutAt l i).set = true ∧ (lutAt l i).val = v

/-- The search goes through the indices in rising order. -/
theorem findColour_eq_find? (l : Lut) (v : U32) (start n : Nat) :
    findColour l v start n = (List.range' start n).find? fun i => holdsColour l v i := by
  induction n generalizing start with
  | zero => rfl
  | succ n ih =>
    rw [findColour, List.range'_succ, List.find?_cons, ih]
    by_cases h : holdsColour l v start <;> simp [h]

theorem findColour_eq_none (h : ∀ i < l.count, ¬ holdsColour l v i) :
    findColour l v 0 l.count = none := by
  rw [findColour_eq_find?, List.find?_eq_none]
  intro i hi
  obtain ⟨-, hlt⟩ := List.mem_range'_1.mp hi
  simpa using h i (by omega)

theorem findColour_eq_some {j : Nat} (hj : j < l.count) (hold : holdsColour l v j)
    (hleast : ∀ i < j, ¬ holdsColour l v i) : findColour l v 0 l.count = some j := by
  rw [findColour_eq_find?, List.find?_range'_eq_some]
  refine ⟨by simpa using hold, List.mem_range'_1.mpr ⟨Nat.zero_le j, by omega⟩, fun i _ hi => ?_⟩
  rw [decide_eq_false (hleast i hi), Bool.not_false]

/-- The pixel that PXR stands at. -/
def readerPixel (s : State) : U32 := pixelAt s.mem (refOf s.pxr.buf) s.pxr.pos

theorem pxrRead_pastEnd (hr : ready .pxr s) (h : (refOf s.pxr.buf).len < 4 * s.pxr.pos + 4) :
    exec .pxrRead s = raises .pxr .pastEnd (4 * s.pxr.pos) s :=
  runOp_raises (bind_error ((enter_bind hr).trans ((get_bind _ s).trans
    (bind_error (memRead_past h s)))))

theorem pxrRead_colour (hr : ready .pxr s) (h : 4 * s.pxr.pos + 4 ≤ (refOf s.pxr.buf).len)
    (hnone : findColour s.pxr.lut (readerPixel s) 0 s.pxr.lut.count = none) :
    exec .pxrRead s = raises .pxr .colour (readerPixel s).toNat s := by
  refine runOp_raises (bind_error ?_)
  rw [pxrReadOp, enter_bind hr, get_bind, bind_ok (memRead_pixel h), BitVec.ofNat_toNat,
    BitVec.setWidth_eq, ← readerPixel, hnone]
  rfl

theorem pxrRead_completes {j : Nat} (hr : ready .pxr s)
    (h : 4 * s.pxr.pos + 4 ≤ (refOf s.pxr.buf).len)
    (hsome : findColour s.pxr.lut (readerPixel s) 0 s.pxr.lut.count = some j) :
    exec .pxrRead s =
      completes (.nat j) { s with pxr := { s.pxr with pos := s.pxr.pos + 1 } } := by
  have hread : pxrReadOp s = .ok j { s with pxr := { s.pxr with pos := s.pxr.pos + 1 } } := by
    rw [pxrReadOp, enter_bind hr, get_bind, bind_ok (memRead_pixel h), BitVec.ofNat_toNat,
      BitVec.setWidth_eq, ← readerPixel, hsome]
    rfl
  exact runOp_ok (bind_ok hread)

/-! ### PXW.WRITE and PXW.WRITEC -/

/-- The state after PXW has stored a pixel: other units' bindings to its four bytes have ended
(R204, R422). -/
def pixelStored (v : U32) (s : State) : State :=
  { overwrite .pxw [⟨(refOf s.pxw.buf).id, (refOf s.pxw.buf).base + 4 * s.pxw.pos, 4⟩] s with
    mem := beWrite s.mem (refOf s.pxw.buf) (4 * s.pxw.pos) 4 v.toNat
    pxw := { s.pxw with pos := s.pxw.pos + 1 } }

theorem pxwStore_ok (h : 4 * s.pxw.pos + 4 ≤ (refOf s.pxw.buf).len) (v : U32) :
    pxwStore v s = .ok .unit (pixelStored v s) := by
  have hwindow : windowOf (refOf s.pxw.buf) (4 * s.pxw.pos) 4 =
      ⟨(refOf s.pxw.buf).id, (refOf s.pxw.buf).base + 4 * s.pxw.pos, 4⟩ := by
    rw [windowOf, Nat.min_eq_left (by omega)]
  rw [pxwStore, get_bind, bind_ok (memWrite_ok h v.toNat s), hwindow]
  rfl

theorem pxwStore_pastEnd (h : (refOf s.pxw.buf).len < 4 * s.pxw.pos + 4) (v : U32) :
    pxwStore v s =
      .error .faulted (withFault .pxw (raisedReg .pastEnd (4 * s.pxw.pos)) s) :=
  (get_bind _ s).trans (bind_error (memWrite_past h v.toNat s))

theorem exec_pxwWritec (hr : ready .pxw s) (v : U32) :
    exec (.pxwWritec v) s = runOp (pxwStore v) s := by
  have henter : pxwWritecOp v s = pxwStore v s := enter_bind hr
  show runOp (pxwWritecOp v) s = _
  rw [runOp, henter, runOp]

theorem pxwWrite_badIndex (hr : ready .pxw s) (h : s.pxw.lut.count ≤ index) :
    exec (.pxwWrite index) s = raises .pxw .rangeBadIndex index s :=
  runOp_raises ((enter_bind hr).trans (raiseIf_bind_true h))

theorem pxwWrite_unset (hr : ready .pxw s) (hi : index < s.pxw.lut.count)
    (h : (lutAt s.pxw.lut index).set = false) :
    exec (.pxwWrite index) s = raises .pxw .unset index s :=
  runOp_raises ((enter_bind hr).trans ((raiseIf_bind_false (Nat.not_le_of_lt hi)).trans
    (raiseIf_bind_true h)))

/-- With a set element `PXW.WRITE` does what `PXW.WRITEC` does with its colour (R204, R205). -/
theorem pxwWrite_eq_writec (hr : ready .pxw s) (h : lutHas s.pxw.lut index) :
    exec (.pxwWrite index) s = exec (.pxwWritec (lutAt s.pxw.lut index).val) s := by
  obtain ⟨hi, hset⟩ := h
  have hchecks : pxwWriteOp index s = pxwStore (lutAt s.pxw.lut index).val s := by
    rw [pxwWriteOp, enter_bind hr, get_bind, raiseIf_bind_false (Nat.not_le_of_lt hi),
      raiseIf_bind_false (by simp [hset])]
  rw [exec_pxwWritec hr]
  show runOp (pxwWriteOp index) s = _
  rw [runOp, hchecks, runOp]

theorem pxwWritec_completes (hr : ready .pxw s) (h : 4 * s.pxw.pos + 4 ≤ (refOf s.pxw.buf).len)
    (v : U32) : exec (.pxwWritec v) s = completes .unit (pixelStored v s) :=
  (exec_pxwWritec hr v).trans (runOp_ok (pxwStore_ok h v))

theorem pxwWritec_pastEnd (hr : ready .pxw s) (h : (refOf s.pxw.buf).len < 4 * s.pxw.pos + 4)
    (v : U32) : exec (.pxwWritec v) s = raises .pxw .pastEnd (4 * s.pxw.pos) s :=
  (exec_pxwWritec hr v).trans (runOp_raises (pxwStore_pastEnd h v))

end Sys2Proof.Machine

namespace Sys2Proof.Proofs

open Sys2Proof.Machine

/-- Settles O30: each of the four takes the view that `view8` gives of the slot. -/
theorem pixelUnitsInitAdv : Obligations.PixelUnitsInitAdv := by
  refine ⟨fun s buf slot hslot hmade => ?_,
    fun s n => ⟨fun hr => pxrAdv_completes hr n, fun hr => pxwAdv_completes hr n⟩⟩
  have hs : readableSlot s slot := ⟨hslot, hmade⟩
  exact ⟨pxrInit_completes buf hs, pxwInit_completes buf hs, fun hr => pxrSetpal_completes hr hs,
    fun hr => pxwSetpal_completes hr hs⟩

/-- Settles O31: the search answers the least index that holds the pixel. -/
theorem pxrRead : Obligations.PxrRead :=
  fun _ hr => ⟨pxrRead_pastEnd hr,
    fun hin habsent => pxrRead_colour hr hin (findColour_eq_none habsent),
    fun hin _ hj hold hleast => pxrRead_completes hr hin (findColour_eq_some hj hold hleast)⟩

/-- Settles O32: the binding lies inside its buffer, so the four bytes stored are read back as the
colour; `PXW.WRITE` past its two checks is `PXW.WRITEC`. -/
theorem pxwWrites : Obligations.PxwWrites := by
  intro s index colour hr hs
  obtain ⟨-, -, -, hbound, -⟩ := hs
  refine ⟨fun hpast => pxwWritec_pastEnd hr hpast colour, fun hin => ?_, pxwWrite_badIndex hr,
    pxwWrite_unset hr, fun hi hset hpast => ?_, fun hi hset hin => ?_⟩
  · exact ⟨_, pxwWritec_completes hr hin _, pixelAt_beWrite hbound hin _,
      fun _ _ => byteAt_beWrite_outside _⟩
  · rw [pxwWrite_eq_writec hr ⟨hi, hset⟩]
    exact pxwWritec_pastEnd hr hpast _
  · refine ⟨_, ?_, pixelAt_beWrite hbound hin _, fun _ _ => byteAt_beWrite_outside _⟩
    rw [pxwWrite_eq_writec hr ⟨hi, hset⟩]
    exact pxwWritec_completes hr hin _

end Sys2Proof.Proofs
end

section
/-! Lists of bytes in a bound buffer: what is read back of a list written, what lies outside it, and
the bytes from a later offset on. -/

namespace Sys2Proof.Machine

variable {m m' : Mem} {r : BufRef} {off n k : Nat} {v : Byte} {vs ws : List Byte}

theorem writeBytes_append :
    writeBytes m r off (vs ++ ws) = writeBytes (writeBytes m r off vs) r (off + vs.length) ws := by
  induction vs generalizing m off with
  | nil => rfl
  | cons v vs ih =>
    rw [List.cons_append, writeBytes, ih, writeBytes, List.length_cons, Nat.add_assoc,
      Nat.add_comm 1]

theorem byteAt_writeBytes_outside {id a : Nat}
    (h : id ≠ r.id ∨ a < r.base + off ∨ r.base + off + vs.length ≤ a) :
    byteAt (writeBytes m r off vs) id a = byteAt m id a := by
  refine (writes_writeBytes r vs m off).byteAt_eq ?_
  rintro ⟨hid, hlo, hhi⟩
  omega

theorem refByte_writeBytes (hr : refOk m r) (h : off + vs.length ≤ r.len) (hk : k < vs.length) :
    refByte (writeBytes m r off vs) r (off + k) = vs[k] := by
  induction vs generalizing m off k with
  | nil => exact absurd hk (Nat.not_lt_zero k)
  | cons v vs ih =>
    rw [List.length_cons] at h hk
    cases k with
    | zero =>
      have hlen : r.base + off < (bufAt m r.id).len := by
        rcases hr with hempty | hinside <;> omega
      rw [writeBytes, refByte, byteAt_writeBytes_outside (.inr (.inl (by omega))), byteAt_setByte,
        if_pos ⟨rfl, rfl, hlen⟩, List.getElem_cons_zero]
    | succ k =>
      have hr' : refOk (setByte m r.id (r.base + off) v) r := (refOk_of_len (by simp)).mpr hr
      have hread := ih hr' (off := off + 1) (k := k) (by omega) (by omega)
      rw [writeBytes, List.getElem_cons_succ, ← hread, Nat.add_right_comm, Nat.add_assoc off k 1]

theorem bytesOf_congr (h : ∀ i < n, refByte m r (off + i) = refByte m' r (off + i)) :
    bytesOf m r off n = bytesOf m' r off n :=
  List.map_congr_left fun i hi => h i (List.mem_range.mp hi)

theorem bytesOf_getElem {i : Nat} (h : i < (bytesOf m r off n).length) :
    (bytesOf m r off n)[i] = refByte m r (off + i) := by simp [bytesOf]

theorem bytesOf_writeBytes (hr : refOk m r) (h : off + vs.length ≤ r.len) :
    bytesOf (writeBytes m r off vs) r off vs.length = vs := by
  refine List.ext_getElem (bytesOf_length _ _ _ _) fun i _ hi => ?_
  rw [bytesOf_getElem, refByte_writeBytes hr h hi]

theorem drop_bytesOf : (bytesOf m r off n).drop k = bytesOf m r (off + k) (n - k) := by
  refine List.ext_getElem (by simp) fun i _ _ => ?_
  rw [List.getElem_drop, bytesOf_getElem, bytesOf_getElem, Nat.add_assoc]

end Sys2Proof.Machine
end

section
/-! When two byte ranges meet (R87), and the operand checks of both decoders (R226, R243; O36). -/

namespace Sys2Proof.Machine

variable {m : Mem} {src dst lo1 hi1 lo2 hi2 : Nat}

/-- Ranges of one buffer meet (R87). -/
theorem rangesMeet_wholeBuf_self (h : src = dst) (hmeet : max lo1 lo2 < min hi1 hi2) :
    rangesMeet (wholeBuf m src) lo1 hi1 (wholeBuf m dst) lo2 hi2 = true := by
  subst h
  simpa [rangesMeet, wholeBuf] using hmeet

theorem rangesMeet_eq_false_iff {r r' : BufRef} {lo hi lo' hi' : Nat} :
    rangesMeet r lo hi r' lo' hi' = false ↔
      (r.id = r'.id → min (r.base + hi) (r'.base + hi') ≤ max (r.base + lo) (r'.base + lo')) := by
  simp only [rangesMeet, Bool.and_eq_false_imp, decide_eq_true_eq, decide_eq_false_iff_not,
    Nat.not_lt]

end Sys2Proof.Machine

namespace Sys2Proof.Proofs

open Sys2Proof.Machine

/-- Settles O36: each check raises where those before it pass. -/
theorem decoderChecks : Obligations.DecoderChecks := by
  refine ⟨fun s src sp0 dst dbase outSize => ⟨fun hsmall => ?_, fun hroom hsame hmeet => ?_⟩,
    fun s src base len dst dbase bpl h => ⟨fun hbad => ?_, fun hgood hpast => ?_,
      fun hgood hin hsmall => ?_, fun hgood hin hroom hsame hmeet => ?_⟩⟩
  · exact runOp_raises (clearFault_bind_raise (raiseIf_bind_true hsmall))
  · exact runOp_raises (clearFault_bind_raise ((raiseIf_bind_false (Nat.not_lt_of_le hroom)).trans
      (raiseIf_bind_true (rangesMeet_wholeBuf_self hsame hmeet))))
  · exact runOp_raises (clearFault_bind_raise (raiseIf_bind_true hbad))
  · exact runOp_raises (clearFault_bind_raise ((raiseIf_bind_false hgood).trans
      (raiseIf_bind_true hpast)))
  · exact runOp_raises (clearFault_bind_raise ((raiseIf_bind_false hgood).trans
      ((raiseIf_bind_false (Nat.not_lt_of_le hin)).trans (raiseIf_bind_true hsmall))))
  · exact runOp_raises (clearFault_bind_raise ((raiseIf_bind_false hgood).trans
      ((raiseIf_bind_false (Nat.not_lt_of_le hin)).trans
        ((raiseIf_bind_false (Nat.not_lt_of_le hroom)).trans
          (raiseIf_bind_true (rangesMeet_wholeBuf_self hsame hmeet))))))

end Sys2Proof.Proofs
end

section
/-! The Packbits commands (R221 to R223, R226, R227), and each handed alone (O33, O34). Whatever a pass
of the decoder does leaves it as `pbdAfter` says: at some source offset, some bytes emitted. What a
command does is told from the source bytes still to come (`pbdPending`) and the room left
(`pbdRoom`). -/

namespace Sys2Proof.Machine

variable {s : State} {sp sp' k : Nat} {v : Byte} {out out' tail : List Byte} {x : Op Unit}
  {n : BitVec 7}

/-! ### The decoder inside a pass -/

/-- The destination offset of the next byte emitted (R226). -/
def pbdOut (s : State) : Nat := s.pbd.dbase + s.pbd.produced

/-- The state with PBD at `sp`, after it has emitted the bytes `out` (R226); other units' bindings
to those bytes have ended (R422). -/
def pbdAfter (sp : Nat) (out : List Byte) (s : State) : State :=
  overwrite .pbd [⟨(refOf s.pbd.dst).id, (refOf s.pbd.dst).base + pbdOut s, out.length⟩] { s with
    mem := writeBytes s.mem (refOf s.pbd.dst) (pbdOut s) out
    pbd := { s.pbd with sp := sp, produced := s.pbd.produced + out.length } }

/-- How many bytes are still wanted. -/
def pbdRoom (s : State) : Nat := s.pbd.outSize - s.pbd.produced

/-- The bytes of the source from `PBD.sp` on. -/
def pbdPending (s : State) : List Byte :=
  bytesOf s.mem (refOf s.pbd.src) s.pbd.sp ((refOf s.pbd.src).len - s.pbd.sp)

/-- `E_RANGE(SRC_END, sp)` raised (R226, R227). -/
def srcEnded (s : State) : State := withFault .pbd (raisedReg .srcEnd s.pbd.sp) s

@[simp] theorem pbdAfter_mem :
    (pbdAfter sp out s).mem = writeBytes s.mem (refOf s.pbd.dst) (pbdOut s) out := rfl

@[simp] theorem pbdAfter_pbd : (pbdAfter sp out s).pbd =
    { s.pbd with sp := sp, produced := s.pbd.produced + out.length } := rfl

@[simp] theorem pbdOut_after : pbdOut (pbdAfter sp out s) = pbdOut s + out.length :=
  (Nat.add_assoc _ _ _).symm

@[simp] theorem pbdRoom_after : pbdRoom (pbdAfter sp out s) = pbdRoom s - out.length :=
  Nat.sub_add_eq _ _ _

/-- An empty window holds no byte. -/
theorem overwrite_empty {u : UnitId} {id base : Nat} : overwrite u [⟨id, base, 0⟩] s = s := by
  have hnone : overwrite u [⟨id, base, 0⟩] s = overwrite u [] s :=
    overwrite_congr fun id' a => by simp [inWindow]
  rw [hnone, overwrite_nil]

theorem windowOf_of_le {r : BufRef} {base len : Nat} (h : base + len ≤ r.len) :
    windowOf r base len = ⟨r.id, r.base + base, len⟩ := by
  rw [windowOf, Nat.min_eq_left (Nat.le_sub_of_add_le' h)]

/-- Two windows next to each other hold the bytes of the window they make up. -/
theorem overwrite_adjacent {u : UnitId} {id base len len' : Nat} :
    overwrite u [⟨id, base + len, len'⟩] (overwrite u [⟨id, base, len⟩] s) =
      overwrite u [⟨id, base, len + len'⟩] s := by
  rw [overwrite_overwrite]
  refine overwrite_congr fun id' a => ?_
  simp only [covered_append, covered_cons, covered_nil, inWindow, or_false]
  omega

theorem pbdAfter_nil : pbdAfter sp [] s = { s with pbd := { s.pbd with sp := sp } } :=
  overwrite_empty

theorem pbdAfter_self : pbdAfter s.pbd.sp [] s = s := pbdAfter_nil

theorem pbdAfter_after : pbdAfter sp' out' (pbdAfter sp out s) = pbdAfter sp' (out ++ out') s := by
  have hboth : pbdAfter sp' out' (pbdAfter sp out s) =
      overwrite .pbd
        [⟨(refOf s.pbd.dst).id, (refOf s.pbd.dst).base + pbdOut s + out.length, out'.length⟩]
        (overwrite .pbd
          [⟨(refOf s.pbd.dst).id, (refOf s.pbd.dst).base + pbdOut s, out.length⟩] { s with
            mem := writeBytes s.mem (refOf s.pbd.dst) (pbdOut s) (out ++ out')
            pbd := { s.pbd with
              sp := sp', produced := s.pbd.produced + (out ++ out').length } }) := by
    rw [pbdAfter, pbdOut_after, ← Nat.add_assoc, pbdAfter_mem, pbdAfter_pbd, ← writeBytes_append,
      Nat.add_assoc s.pbd.produced, ← List.length_append]
    rfl
  rw [hboth, overwrite_adjacent, ← List.length_append, pbdAfter]

/-! ### The source bytes to come -/

theorem pbdPending_eq_nil_iff : pbdPending s = [] ↔ (refOf s.pbd.src).len ≤ s.pbd.sp := by
  rw [← List.length_eq_zero_iff, pbdPending, bytesOf_length, Nat.sub_eq_zero_iff_le]

theorem length_pbdPending : (pbdPending s).length = (refOf s.pbd.src).len - s.pbd.sp :=
  bytesOf_length _ _ _ _

theorem pbdPending_getElem {i : Nat} (h : i < (pbdPending s).length) :
    (pbdPending s)[i] = refByte s.mem (refOf s.pbd.src) (s.pbd.sp + i) := bytesOf_getElem h

/-- The first byte to come is the one at `PBD.sp`. -/
theorem pbdPending_head (h : pbdPending s = v :: tail) :
    ¬ (refOf s.pbd.src).len ≤ s.pbd.sp ∧ refByte s.mem (refOf s.pbd.src) s.pbd.sp = v := by
  refine ⟨fun hend => ?_, ?_⟩
  · rw [pbdPending_eq_nil_iff.mpr hend] at h
    exact nomatch h
  · have hfirst := pbdPending_getElem (s := s) (i := 0) (by simp [h])
    simpa [h] using hfirst.symm

theorem pbdPending_skip : pbdPending (pbdAfter (s.pbd.sp + k) [] s) = (pbdPending s).drop k := by
  rw [pbdPending, pbdPending, drop_bytesOf, Nat.sub_sub]
  rfl

theorem pbdPending_drop (h : s.pbd.sp + k < (refOf s.pbd.src).len) : (pbdPending s).drop k =
    refByte s.mem (refOf s.pbd.src) (s.pbd.sp + k) :: (pbdPending s).drop (k + 1) := by
  have hk : k < (pbdPending s).length := by
    rw [length_pbdPending]
    omega
  rw [List.drop_eq_getElem_cons hk, pbdPending_getElem]

/-- The decoder's operands as `PBD.DEPACK` demands them (R226): the destination range lies inside
its buffer and holds no byte of the source still to come. -/
structure DepackFits (s : State) : Prop where
  room : s.pbd.dbase + s.pbd.outSize ≤ (refOf s.pbd.dst).len
  apart : rangesMeet (refOf s.pbd.src) s.pbd.sp (refOf s.pbd.src).len (refOf s.pbd.dst) s.pbd.dbase
    (s.pbd.dbase + s.pbd.outSize) = false

theorem produced_lt_of_room (h : 0 < pbdRoom s) : s.pbd.produced < s.pbd.outSize :=
  Nat.lt_of_sub_pos h

/-- What is emitted changes no byte of the source still to come. -/
theorem pbdPending_after (hs : DepackFits s) (hout : out.length ≤ pbdRoom s) :
    pbdPending (pbdAfter (s.pbd.sp + k) out s) = (pbdPending s).drop k := by
  rw [← pbdPending_skip]
  refine bytesOf_congr fun i hi => byteAt_writeBytes_outside ?_
  have hapart := rangesMeet_eq_false_iff.mp hs.apart
  by_cases hid : (refOf s.pbd.src).id = (refOf s.pbd.dst).id
  · have hmin := hapart hid
    simp only [pbdRoom, pbdAfter_pbd, pbdOut] at *
    omega
  · exact .inl hid

theorem DepackFits.after (hs : DepackFits s) : DepackFits (pbdAfter (s.pbd.sp + k) out s) where
  room := hs.room
  apart := by
    have hapart := rangesMeet_eq_false_iff.mp hs.apart
    refine rangesMeet_eq_false_iff.mpr fun hid => ?_
    have hmin := hapart hid
    simp only [pbdAfter_pbd]
    omega

/-! ### One byte read, one byte emitted -/

theorem pbdSkip_run (n : Nat) : pbdSkip n s = .ok () (pbdAfter (s.pbd.sp + n) [] s) := by
  rw [pbdAfter_nil]
  rfl

theorem pbdNext_short (h : pbdPending s = []) : pbdNext s = .error .faulted (srcEnded s) :=
  raiseIf_bind_true (pbdPending_eq_nil_iff.mp h)

theorem pbdNext_ok (h : pbdPending s = v :: tail) :
    pbdNext s = .ok v (pbdAfter (s.pbd.sp + 1) [] s) := by
  obtain ⟨hin, hv⟩ := pbdPending_head h
  rw [pbdNext, get_bind, raiseIf_bind_false hin, bind_ok (pbdSkip_run 1), hv]
  rfl

theorem pbdEmit_ok (hroom : 0 < pbdRoom s)
    (hfit : s.pbd.dbase + s.pbd.outSize ≤ (refOf s.pbd.dst).len) (v : Byte) :
    pbdEmit v s = .ok () (pbdAfter s.pbd.sp [v] s) := by
  have hin : pbdOut s + 1 ≤ (refOf s.pbd.dst).len := by
    have hlt := produced_lt_of_room hroom
    rw [pbdOut]
    omega
  have hbyte : beWrite s.mem (refOf s.pbd.dst) (pbdOut s) 1 v.toNat =
      writeBytes s.mem (refOf s.pbd.dst) (pbdOut s) [v] := by
    simp [beWrite, writeBytes]
  rw [pbdEmit, get_bind, ← pbdOut, bind_ok (memWrite_ok hin v.toNat s), hbyte,
    windowOf_of_le hin]
  rfl

theorem pbdCopyOne_short (h : pbdPending s = []) : pbdCopyOne s = .error .faulted (srcEnded s) :=
  bind_error (pbdNext_short h)

theorem pbdCopyOne_ok (hroom : 0 < pbdRoom s)
    (hfit : s.pbd.dbase + s.pbd.outSize ≤ (refOf s.pbd.dst).len) (h : pbdPending s = v :: tail) :
    pbdCopyOne s = .ok () (pbdAfter (s.pbd.sp + 1) [v] s) := by
  have hemit := pbdEmit_ok (s := pbdAfter (s.pbd.sp + 1) [] s) (by simpa using hroom) hfit v
  rw [pbdCopyOne, bind_ok (pbdNext_ok h), hemit, pbdAfter_after]
  rfl

/-! ### Repetitions while there is room (R227) -/

theorem whileRoom_of_room (h : 0 < pbdRoom s) : whileRoom x s = x s := by
  rw [whileRoom, get_bind, if_pos (produced_lt_of_room h)]

theorem times_whileRoom_full (h : pbdRoom s = 0) (m : Nat) :
    times (whileRoom x) m s = .ok () s := by
  induction m with
  | zero => rfl
  | succ m ih =>
    have hstop : whileRoom x s = .ok () s := by
      rw [whileRoom, get_bind, if_neg (Nat.not_lt_of_le (Nat.le_of_sub_eq_zero h))]
      rfl
    rw [times_succ, bind_ok hstop, ih]

theorem times_emit (hfit : s.pbd.dbase + s.pbd.outSize ≤ (refOf s.pbd.dst).len) (v : Byte)
    (m : Nat) :
    times (whileRoom (pbdEmit v)) m s =
      .ok () (pbdAfter s.pbd.sp (List.replicate (min m (pbdRoom s)) v) s) := by
  induction m generalizing s with
  | zero => rw [Nat.zero_min, List.replicate_zero, pbdAfter_self, times_zero]
  | succ m ih =>
    rcases Nat.eq_zero_or_pos (pbdRoom s) with hfull | hroom
    · rw [times_whileRoom_full hfull, hfull, Nat.min_zero, List.replicate_zero, pbdAfter_self]
    · have hcount : min (m + 1) (pbdRoom s) = min m (pbdRoom s - 1) + 1 := by omega
      rw [times_succ, bind_ok ((whileRoom_of_room hroom).trans (pbdEmit_ok hroom hfit v)),
        ih (by exact hfit), pbdAfter_after, hcount, pbdRoom_after]
      rfl

/-- One byte copied and the rest of the copies. -/
theorem times_copy_succ (hs : DepackFits s) (hroom : 0 < pbdRoom s) (h : pbdPending s = v :: tail)
    (m : Nat) : pbdPending (pbdAfter (s.pbd.sp + 1) [v] s) = tail ∧
      times (whileRoom pbdCopyOne) (m + 1) s =
        times (whileRoom pbdCopyOne) m (pbdAfter (s.pbd.sp + 1) [v] s) := by
  constructor
  · rw [pbdPending_after hs (by exact hroom), h, List.drop_one, List.tail_cons]
  · rw [times_succ, bind_ok ((whileRoom_of_room hroom).trans (pbdCopyOne_ok hroom hs.room h))]

theorem times_copy (hs : DepackFits s) {m : Nat} (h : min m (pbdRoom s) ≤ (pbdPending s).length) :
    times (whileRoom pbdCopyOne) m s = .ok () (pbdAfter (s.pbd.sp + min m (pbdRoom s))
      ((pbdPending s).take (min m (pbdRoom s))) s) := by
  induction m generalizing s with
  | zero => rw [Nat.zero_min, List.take_zero, Nat.add_zero, pbdAfter_self, times_zero]
  | succ m ih =>
    rcases Nat.eq_zero_or_pos (pbdRoom s) with hfull | hroom
    · rw [times_whileRoom_full hfull, hfull, Nat.min_zero, List.take_zero, Nat.add_zero,
        pbdAfter_self]
    · have hcount : min (m + 1) (pbdRoom s) = min m (pbdRoom s - 1) + 1 := by omega
      rw [hcount] at h ⊢
      cases hp : pbdPending s with
      | nil => simp [hp] at h
      | cons v tail =>
        obtain ⟨htail, hcopied⟩ := times_copy_succ hs hroom hp m
        have hrest := ih (s := pbdAfter (s.pbd.sp + 1) [v] s) hs.after
          (by simpa [htail, hp] using h)
        rw [hcopied, hrest, htail, pbdAfter_after]
        simp [Nat.add_assoc, Nat.add_comm 1]

theorem times_copy_short (hs : DepackFits s) {m : Nat}
    (h : (pbdPending s).length < min m (pbdRoom s)) :
    times (whileRoom pbdCopyOne) m s = .error .faulted
      (srcEnded (pbdAfter (s.pbd.sp + (pbdPending s).length) (pbdPending s) s)) := by
  induction m generalizing s with
  | zero => simp at h
  | succ m ih =>
    have hroom : 0 < pbdRoom s := by omega
    cases hp : pbdPending s with
    | nil =>
      rw [times_succ, bind_error ((whileRoom_of_room hroom).trans (pbdCopyOne_short hp)),
        List.length_nil, Nat.add_zero, pbdAfter_self]
    | cons v tail =>
      obtain ⟨htail, hcopied⟩ := times_copy_succ hs hroom hp m
      have hrest := ih (s := pbdAfter (s.pbd.sp + 1) [v] s) hs.after (by
        rw [htail, pbdRoom_after]
        simp [hp] at h ⊢
        omega)
      rw [hcopied, hrest, htail, pbdAfter_after]
      simp [Nat.add_assoc, Nat.add_comm 1]

/-! ### The commands -/

theorem pbRunOp_short (h : (pbdPending s).drop 1 = []) :
    pbRunOp n s = .error .faulted (srcEnded (pbdAfter (s.pbd.sp + 1) [] s)) := by
  rw [pbRunOp, bind_ok (pbdSkip_run 1), bind_error (pbdNext_short (pbdPending_skip.trans h))]

theorem pbRunOp_ok (hfit : s.pbd.dbase + s.pbd.outSize ≤ (refOf s.pbd.dst).len)
    (h : (pbdPending s).drop 1 = v :: tail) :
    pbRunOp n s = .ok () (pbdAfter (s.pbd.sp + 2)
      (List.replicate (min (129 - n.toNat) (pbdRoom s)) v) s) := by
  rw [pbRunOp, bind_ok (pbdSkip_run 1), bind_ok (pbdNext_ok (pbdPending_skip.trans h)),
    times_emit (by exact hfit), pbdAfter_after, pbdAfter_after, pbdRoom_after, pbdRoom_after]
  rfl

theorem pbLitOp_ok (hs : DepackFits s)
    (h : min (1 + n.toNat) (pbdRoom s) ≤ ((pbdPending s).drop 1).length) :
    pbLitOp n s = .ok () (pbdAfter (s.pbd.sp + 1 + min (1 + n.toNat) (pbdRoom s))
      (((pbdPending s).drop 1).take (min (1 + n.toNat) (pbdRoom s))) s) := by
  rw [pbLitOp, bind_ok (pbdSkip_run 1), times_copy hs.after (by rwa [pbdPending_skip]),
    pbdPending_skip, pbdAfter_after, pbdRoom_after]
  rfl

theorem pbLitOp_short (hs : DepackFits s)
    (h : ((pbdPending s).drop 1).length < min (1 + n.toNat) (pbdRoom s)) :
    pbLitOp n s = .error .faulted (srcEnded
      (pbdAfter (s.pbd.sp + 1 + ((pbdPending s).drop 1).length) ((pbdPending s).drop 1) s)) := by
  rw [pbLitOp, bind_ok (pbdSkip_run 1), times_copy_short hs.after (by rwa [pbdPending_skip]),
    pbdPending_skip, pbdAfter_after]
  rfl

/-! ### A command handed alone (log 3) -/

theorem pbAlone_completes {t : State} (hr : ready .pbd s) (h : x s = .ok () t) :
    runOp (pbAlone x) s = completes .unit t :=
  runOp_ok ((enter_bind hr).trans (bind_ok (onStop_ok h)))

theorem pbAlone_faults {t : State} (hr : ready .pbd s) (h : x s = .error .faulted t) :
    runOp (pbAlone x) s = .next { pbdSpoil t with reply := .faulted } :=
  runOp_faulted ((enter_bind hr).trans (bind_error (onStop_error h)))

/-- What a completed command leaves (R226): its bytes in the destination, read back, and every other
byte of memory as before. -/
theorem pbAlone_emits (hr : ready .pbd s) (hbound : refOk s.mem (refOf s.pbd.dst))
    (hdepack : depackOk s.pbd) (hdst : s.pbd.dst.isSome = true) (hout : out.length ≤ pbdRoom s)
    (h : x s = .ok () (pbdAfter sp out s)) :
    let d := refOf s.pbd.dst
    let start := s.pbd.dbase + s.pbd.produced
    ∃ mem, runOp (pbAlone x) s = completes .unit
        { overwrite .pbd [⟨d.id, d.base + start, out.length⟩] s with
          mem := mem, pbd := { s.pbd with sp := sp, produced := s.pbd.produced + out.length } } ∧
      (∀ k (hk : k < out.length), refByte mem d (start + k) = out[k]) ∧
      ∀ id a, (id ≠ d.id ∨ a < d.base + start ∨ d.base + start + out.length ≤ a) →
        byteAt mem id a = byteAt s.mem id a := by
  obtain ⟨hproduced, hfits⟩ := hdepack
  have hfit := hfits hdst
  refine ⟨_, pbAlone_completes hr h, fun k hk => refByte_writeBytes hbound ?_ hk,
    fun id a => byteAt_writeBytes_outside⟩
  rw [pbdRoom] at hout
  rw [pbdOut]
  omega

/-- An unbound decoder has no destination range to leave unspecified. -/
theorem pbdSpoil_unbound (h : s.pbd.dst = none) : pbdSpoil s = s := by
  have hlen : min s.pbd.outSize ((refOf none).len - s.pbd.dbase) = 0 := by simp [refOf]
  rw [pbdSpoil, h, spoil, hlen, windowOf, hlen]
  exact overwrite_empty

end Sys2Proof.Machine

namespace Sys2Proof.Proofs

open Sys2Proof.Machine

/-- Settles O33: a run emits its value byte as often as there is room for; without a source the
value byte is past the end. -/
theorem pbNopRun : Obligations.PbNopRun := by
  refine ⟨fun s hr => ⟨pbAlone_completes hr rfl, fun hsrc hdst n => ?unbound⟩,
    fun s n hn hr hs hdepack hdst hin => ?bound⟩
  case unbound =>
    have hend : (pbdPending s).drop 1 = [] := by
      rw [pbdPending_eq_nil_iff.mpr (by simp [hsrc, refOf]), List.drop_nil]
    refine (pbAlone_faults hr (pbRunOp_short hend)).trans ?_
    rw [pbdSpoil_unbound (s := srcEnded (pbdAfter (s.pbd.sp + 1) [] s)) hdst, pbdAfter_nil]
    rfl
  case bound =>
    obtain ⟨-, -, -, -, -, hbound, -⟩ := hs
    have hvalue := pbdPending_drop hin
    have hcount : 257 - (128 + n.toNat) = 129 - n.toNat := by omega
    have hemits := pbAlone_emits hr hbound hdepack hdst (by simp)
      (pbRunOp_ok (n := n) (hdepack.2 hdst) hvalue)
    simp only [List.length_replicate, List.getElem_replicate, ← hcount] at hemits
    exact hemits

/-- Settles O34: a literal copies the bytes after its control byte as far as there is room. -/
theorem pbLit : Obligations.PbLit := by
  intro s n hr hs hdepack hdst
  dsimp only
  intro hin hapart
  rw [← pbdRoom] at hin ⊢
  obtain ⟨-, -, -, -, -, hbound, -⟩ := hs
  have hlen : min (1 + n.toNat) (pbdRoom s) ≤ ((pbdPending s).drop 1).length := by
    rw [List.length_drop, length_pbdPending]
    omega
  have htake := List.length_take_of_le hlen
  obtain ⟨mem, hrun, hread, houtside⟩ := pbAlone_emits hr hbound hdepack hdst
    (htake.trans_le (Nat.min_le_right _ _)) (pbLitOp_ok ⟨hdepack.2 hdst, hapart⟩ hlen)
  rw [htake] at hrun houtside
  refine ⟨mem, hrun, fun k hk => (hread k (hk.trans_eq htake.symm)).trans ?_, houtside⟩
  rw [List.getElem_take, List.getElem_drop, pbdPending_getElem, Nat.add_assoc]

end Sys2Proof.Proofs
end

section
/-! `PBD.DEPACK` (R226, R229; O35): round by round its loop does what `unpackList` reads off the
source bytes to come, until the output is complete or the source ends. -/

namespace Sys2Proof.Machine

variable {s : State} {sp k : Nat} {c v : Byte} {fuel room : Nat} {src out : List Byte}
  {n : BitVec 7}

/-! ### The commands of a stream, on lists (R220 to R223) -/

theorem unpackList_full (fuel : Nat) (src : List Byte) :
    unpackList fuel src 0 = some ([], src) := by
  cases fuel <;> rfl

theorem unpackList_ended (h : 0 < room) : unpackList fuel [] room = none := by
  obtain ⟨room, rfl⟩ := Nat.exists_eq_add_one.mpr h
  cases fuel <;> rfl

/-- Bytes in front of an expansion. -/
def prepend (out : List Byte) (q : List Byte × List Byte) : List Byte × List Byte :=
  (out ++ q.1, q.2)

@[simp] theorem prepend_nil : prepend [] = id := rfl

theorem asI8_of_lit (h : decodePb c = .lit n) : c ≠ 0x80 ∧ asI8 c = n.toNat := by
  unfold decodePb at h
  split_ifs at h with hlow hnop
  obtain rfl : low7 c = n := PbCmd.lit.inj h
  have hlt := BitVec.toNat_lt_of_msb_false hlow
  refine ⟨fun hc => absurd hlow (by rw [hc]; decide), ?_⟩
  rw [asI8, BitVec.toInt_eq_toNat_of_msb hlow, toNat_low7, Nat.mod_eq_of_lt (by simpa using hlt)]

theorem asI8_of_run (h : decodePb c = .run n) : c ≠ 0x80 ∧ asI8 c = (n.toNat : Int) - 128 := by
  unfold decodePb at h
  split_ifs at h with hlow hnop
  obtain rfl : low7 c = n := PbCmd.run.inj h
  have hmsb : c.msb = true := by simpa using hlow
  have hge := BitVec.le_toNat_of_msb_true hmsb
  have hlt := c.isLt
  refine ⟨hnop, ?_⟩
  rw [asI8, BitVec.toInt_eq_msb_cond, if_pos hmsb, toNat_low7]
  omega

theorem eq_of_nop (h : decodePb c = .nop) : c = 0x80 := by
  unfold decodePb at h
  split_ifs at h with hlow hnop
  exact hnop

theorem unpackList_nop (h : decodePb c = .nop) (hroom : 0 < room) :
    unpackList (fuel + 1) (c :: src) room = unpackList fuel src room := by
  obtain ⟨room, rfl⟩ := Nat.exists_eq_add_one.mpr hroom
  rw [unpackList.eq_def]
  exact if_pos (eq_of_nop h)

theorem unpackList_lit (h : decodePb c = .lit n) (hroom : 0 < room) :
    unpackList (fuel + 1) (c :: src) room =
      if src.length < min (1 + n.toNat) room then none
      else (unpackList fuel (src.drop (min (1 + n.toNat) room))
        (room - min (1 + n.toNat) room)).map (prepend (src.take (min (1 + n.toNat) room))) := by
  obtain ⟨room, rfl⟩ := Nat.exists_eq_add_one.mpr hroom
  obtain ⟨hne, hval⟩ := asI8_of_lit h
  have hcount : (1 + asI8 c).toNat = 1 + n.toNat := by omega
  rw [← hcount, unpackList.eq_def]
  exact (if_neg hne).trans (if_pos (by omega))

theorem unpackList_run_ended (h : decodePb c = .run n) (hroom : 0 < room) :
    unpackList (fuel + 1) [c] room = none := by
  obtain ⟨room, rfl⟩ := Nat.exists_eq_add_one.mpr hroom
  obtain ⟨hne, hval⟩ := asI8_of_run h
  have hlt := n.isLt
  rw [unpackList, if_neg hne, if_neg (by omega)]

theorem unpackList_run (h : decodePb c = .run n) (hroom : 0 < room) :
    unpackList (fuel + 1) (c :: v :: src) room =
      (unpackList fuel src (room - min (129 - n.toNat) room)).map
        (prepend (List.replicate (min (129 - n.toNat) room) v)) := by
  obtain ⟨room, rfl⟩ := Nat.exists_eq_add_one.mpr hroom
  obtain ⟨hne, hval⟩ := asI8_of_run h
  have hlt := n.isLt
  have hcount : (1 - asI8 c).toNat = 129 - n.toNat := by omega
  rw [unpackList, if_neg hne, if_neg (by omega), hcount]
  rfl

/-- An expansion has the size wanted. -/
theorem length_of_unpackList {q : List Byte × List Byte}
    (h : unpackList fuel src room = some q) : q.1.length = room := by
  fun_induction unpackList fuel src room generalizing q with
  | case1 => simp [← Option.some.inj h]
  | case2 | case3 | case5 | case7 => exact nomatch h
  | case4 _ _ _ ih => exact ih h
  | case6 fuel c src room hne hlit m hin =>
    rename_i ih
    obtain ⟨q', hq', rfl⟩ := Option.map_eq_some_iff.mp h
    rw [List.length_append, ih hq', List.length_take]
    omega
  | case8 fuel c room hne hrun v vs m =>
    rename_i ih
    obtain ⟨q', hq', rfl⟩ := Option.map_eq_some_iff.mp h
    rw [List.length_append, ih hq', List.length_replicate]
    omega

/-! ### The loop -/

/-- Where the source ends for a decoder that wants more bytes (R226, R227). -/
def pbdEnd (s : State) : Nat := max s.pbd.sp (refOf s.pbd.src).len

/-- What an expansion of the source bytes to come, or its failure, is as the outcome `r` of a
pass. -/
def Unpacks (s : State) (expansion : Option (List Byte × List Byte))
    (r : EStateM.Result Stop State Unit) : Prop :=
  match expansion with
  | some (out, rest) => r = .ok () (pbdAfter (pbdEnd s - rest.length) out s)
  | none => ∃ out, out.length < pbdRoom s ∧
      r = .error .faulted (srcEnded (pbdAfter (pbdEnd s) out s))

theorem sp_add_length_pbdPending : s.pbd.sp + (pbdPending s).length = pbdEnd s := by
  rw [length_pbdPending, pbdEnd]
  omega

/-- A command before the rest of the pass. -/
theorem Unpacks.after {q : Option (List Byte × List Byte)} {r : EStateM.Result Stop State Unit}
    (h : Unpacks (pbdAfter (s.pbd.sp + k) out s) q r) (hk : k ≤ (pbdPending s).length)
    (hout : out.length ≤ pbdRoom s) : Unpacks s (q.map (prepend out)) r := by
  have hend : pbdEnd (pbdAfter (s.pbd.sp + k) out s) = pbdEnd s := by
    rw [length_pbdPending] at hk
    simp only [pbdEnd, pbdAfter_pbd]
    omega
  cases q with
  | some q =>
    refine h.trans ?_
    rw [hend, pbdAfter_after]
  | none =>
    obtain ⟨out', hlen, hr⟩ := h
    rw [pbdRoom_after] at hlen
    refine ⟨out ++ out', by rw [List.length_append]; omega, ?_⟩
    rw [hr, hend, pbdAfter_after]

theorem depackLoop_full (h : pbdRoom s = 0) (fuel : Nat) : depackLoop (fuel + 1) s = .ok () s := by
  rw [depackLoop, get_bind, if_neg (Nat.not_lt_of_le (Nat.le_of_sub_eq_zero h))]
  rfl

theorem pbdControl_ok (h : pbdPending s = c :: src) : pbdControl s = .ok c s := by
  obtain ⟨hin, hc⟩ := pbdPending_head h
  rw [pbdControl, get_bind, raiseIf_bind_false hin, hc]
  rfl

theorem depackLoop_ended (hroom : 0 < pbdRoom s) (h : pbdPending s = []) (fuel : Nat) :
    depackLoop (fuel + 1) s = .error .faulted (srcEnded s) := by
  have hcontrol : pbdControl s = .error .faulted (srcEnded s) :=
    raiseIf_bind_true (pbdPending_eq_nil_iff.mp h)
  rw [depackLoop, get_bind, if_pos (produced_lt_of_room hroom), bind_error hcontrol]

theorem depackLoop_command (hroom : 0 < pbdRoom s) (h : pbdPending s = c :: src) (fuel : Nat) :
    depackLoop (fuel + 1) s = (pbCommand (decodePb c) >>= fun _ => depackLoop fuel) s := by
  rw [depackLoop, get_bind, if_pos (produced_lt_of_room hroom), bind_ok (pbdControl_ok h)]

/-- One round of the loop (R220): the command at `PBD.sp` is the stream's first, where `f` is the
rest of the pass. -/
theorem command_unpacks {f : Unit → Op Unit} (hs : DepackFits s) (hroom : 0 < pbdRoom s)
    (h : pbdPending s = c :: src)
    (hrest : ∀ k out, 0 < k → k ≤ (pbdPending s).length → out.length ≤ pbdRoom s →
      Unpacks s
        ((unpackList fuel ((pbdPending s).drop k) (pbdRoom s - out.length)).map (prepend out))
        (f () (pbdAfter (s.pbd.sp + k) out s))) :
    Unpacks s (unpackList (fuel + 1) (c :: src) (pbdRoom s))
      ((pbCommand (decodePb c) >>= f) s) := by
  have hend := sp_add_length_pbdPending (s := s)
  have hdrop : (pbdPending s).drop 1 = src := by rw [h, List.drop_one, List.tail_cons]
  rw [h, List.length_cons] at hend hrest
  cases hc : decodePb c with
  | nop =>
    rw [unpackList_nop hc hroom, pbCommand, bind_ok (x := pbNopOp) (pbdSkip_run 1)]
    simpa using hrest 1 [] Nat.one_pos (by omega) (Nat.zero_le _)
  | run n =>
    cases hsrc : src with
    | nil =>
      rw [hsrc] at hdrop
      rw [hsrc, List.length_nil, Nat.zero_add] at hend
      rw [unpackList_run_ended hc hroom, pbCommand, bind_error (pbRunOp_short hdrop), hend]
      exact ⟨[], hroom, rfl⟩
    | cons v tail =>
      rw [hsrc] at hdrop hrest
      rw [unpackList_run hc hroom, pbCommand, bind_ok (pbRunOp_ok hs.room hdrop)]
      simpa using hrest 2 (List.replicate (min (129 - n.toNat) (pbdRoom s)) v) Nat.two_pos
        (by simp) (by simp)
  | lit n =>
    rw [unpackList_lit hc hroom, pbCommand]
    split_ifs with hshort
    · rw [← hdrop] at hshort
      rw [bind_error (pbLitOp_short hs hshort), hdrop, Nat.add_assoc, Nat.add_comm 1, hend]
      exact ⟨src, by rw [hdrop] at hshort; omega, rfl⟩
    · have hlen : min (1 + n.toNat) (pbdRoom s) ≤ src.length := Nat.le_of_not_lt hshort
      have htake := List.length_take_of_le hlen
      have hafter := hrest (min (1 + n.toNat) (pbdRoom s) + 1)
        (src.take (min (1 + n.toNat) (pbdRoom s))) (Nat.succ_pos _) (by omega) (by omega)
      rw [htake, List.drop_succ_cons] at hafter
      rw [bind_ok (pbLitOp_ok hs (hdrop ▸ hlen)), hdrop, Nat.add_assoc, Nat.add_comm 1 (min _ _)]
      exact hafter

theorem unpacks_full (h : pbdRoom s = 0) :
    Unpacks s (unpackList fuel (pbdPending s) (pbdRoom s)) (depackLoop (fuel + 1) s) := by
  rw [h, unpackList_full, depackLoop_full h]
  show _ = EStateM.Result.ok () (pbdAfter (pbdEnd s - (pbdPending s).length) [] s)
  rw [← sp_add_length_pbdPending, Nat.add_sub_cancel, pbdAfter_self]

theorem unpacks_ended (hroom : 0 < pbdRoom s) (h : pbdPending s = []) :
    Unpacks s (unpackList fuel (pbdPending s) (pbdRoom s)) (depackLoop (fuel + 1) s) := by
  have hend := sp_add_length_pbdPending (s := s)
  rw [h, List.length_nil, Nat.add_zero] at hend
  rw [h, unpackList_ended hroom, depackLoop_ended hroom h]
  refine ⟨[], hroom, ?_⟩
  rw [← hend, pbdAfter_self]

/-- The loop is the expansion of the source bytes to come, with a round of fuel for each. -/
theorem depackLoop_unpacks (hs : DepackFits s) (hfuel : (pbdPending s).length ≤ fuel) :
    Unpacks s (unpackList fuel (pbdPending s) (pbdRoom s)) (depackLoop (fuel + 1) s) := by
  induction fuel generalizing s with
  | zero =>
    rcases Nat.eq_zero_or_pos (pbdRoom s) with hfull | hroom
    · exact unpacks_full hfull
    · exact unpacks_ended hroom (List.length_eq_zero_iff.mp (Nat.le_zero.mp hfuel))
  | succ fuel ih =>
    rcases Nat.eq_zero_or_pos (pbdRoom s) with hfull | hroom
    · exact unpacks_full hfull
    cases hp : pbdPending s with
    | nil => exact hp ▸ unpacks_ended hroom hp
    | cons c src =>
      rw [depackLoop_command hroom hp]
      refine command_unpacks hs hroom hp fun k out hk hin hout => Unpacks.after ?_ hin hout
      have hpending := pbdPending_after (k := k) hs hout
      rw [← hpending, ← pbdRoom_after]
      refine ih hs.after ?_
      rw [hpending, List.length_drop]
      omega

/-! ### The whole operation -/

section
variable {dst : BufRef} {sp0 dbase outSize : Nat} {source : BufRef}

/-- The state in which the loop of `PBD.DEPACK` starts (R226). -/
def depackStart (s : State) (source : BufRef) (sp0 : Nat) (dst : BufRef) (dbase outSize : Nat) :
    State :=
  claim .pbd (windowOf dst dbase outSize) { s with
    pbd := ⟨some source, some dst, sp0, dbase, outSize, 0, { s.pbd.fault with valid := false }⟩ }

theorem pbdDepackOp_run (hroom : dbase + outSize ≤ dst.len)
    (hapart : rangesMeet source sp0 source.len dst dbase (dbase + outSize) = false) :
    pbdDepackOp source sp0 dst dbase outSize s =
      (endPass .pbd (onStop pbdSpoil (depackLoop (source.len - sp0 + 1))) >>= fun _ => do
        let t ← get
        pure (.depacked t.pbd.sp t.pbd.produced)) (depackStart s source sp0 dst dbase outSize) := by
  rw [pbdDepackOp, bind_ok (clearFault_run .pbd s), raiseIf_bind_false (Nat.not_lt_of_le hroom),
    raiseIf_bind_false (by simp [hapart])]
  rfl

theorem depackStart_unpacks (hroom : dbase + outSize ≤ dst.len)
    (hapart : rangesMeet source sp0 source.len dst dbase (dbase + outSize) = false) :
    Unpacks (depackStart s source sp0 dst dbase outSize)
      (unpackList (source.len - sp0) (bytesOf s.mem source sp0 (source.len - sp0)) outSize)
      (depackLoop (source.len - sp0 + 1) (depackStart s source sp0 dst dbase outSize)) :=
  depackLoop_unpacks (s := depackStart s source sp0 dst dbase outSize) ⟨hroom, hapart⟩
    length_pbdPending.le

/-- The writes of a pass that make up the range it claimed end what the range ends (R422). -/
theorem overwrite_claimed {u : UnitId} {r : BufRef} {rs : List BufRef}
    (h : ∀ id a, covered rs id a ↔ inWindow r id a) :
    overwrite u rs (claim u r s) = overwrite u [r] s :=
  (overwrite_claim fun id a => (h id a).mpr).trans (overwrite_congr fun id a => by simp [h])

/-- After a whole pass, which has emitted every byte wanted. -/
theorem unbind_after_depackStart (hroom : dbase + outSize ≤ dst.len) (hlen : out.length = outSize) :
    unbind .pbd (pbdAfter sp out (depackStart s source sp0 dst dbase outSize)) =
      { overwrite .pbd [⟨dst.id, dst.base + dbase, outSize⟩] s with
        mem := writeBytes s.mem dst dbase out
        pbd := ⟨none, none, sp, dbase, outSize, outSize, { s.pbd.fault with valid := false }⟩ } := by
  have hpass : unbind .pbd (pbdAfter sp out (depackStart s source sp0 dst dbase outSize)) =
      overwrite .pbd [⟨dst.id, dst.base + dbase, out.length⟩]
        (claim .pbd (windowOf dst dbase outSize) { s with
          mem := writeBytes s.mem dst dbase out
          pbd := ⟨none, none, sp, dbase, outSize, 0 + out.length,
                  { s.pbd.fault with valid := false }⟩ }) := rfl
  rw [hpass, windowOf_of_le hroom, hlen, overwrite_claimed fun id a => by simp, Nat.zero_add]
  rfl

/-- After a pass whose source has ended: the range is left unspecified (log 13). -/
theorem unbind_spoiled_depackStart (hroom : dbase + outSize ≤ dst.len)
    (hlen : out.length ≤ outSize) :
    unbind .pbd
        (pbdSpoil (srcEnded (pbdAfter sp out (depackStart s source sp0 dst dbase outSize)))) =
      { overwrite .pbd [⟨dst.id, dst.base + dbase, outSize⟩] s with
        mem := freeRange (writeBytes s.mem dst dbase out) dst dbase s.draws outSize
        draws := s.draws + outSize
        pbd := ⟨none, none, sp, dbase, outSize, out.length, raisedReg .srcEnd sp⟩ } := by
  have hpass : unbind .pbd
      (pbdSpoil (srcEnded (pbdAfter sp out (depackStart s source sp0 dst dbase outSize)))) =
      overwrite .pbd [windowOf dst dbase outSize]
        (overwrite .pbd [⟨dst.id, dst.base + dbase, out.length⟩]
          (claim .pbd (windowOf dst dbase outSize) { s with
            mem := freeRange (writeBytes s.mem dst dbase out) dst dbase s.draws
              (min outSize (dst.len - dbase))
            draws := s.draws + min outSize (dst.len - dbase)
            pbd := ⟨none, none, sp, dbase, outSize, 0 + out.length, raisedReg .srcEnd sp⟩ })) := rfl
  have hrange (id a : Nat) : covered
      ([⟨dst.id, dst.base + dbase, out.length⟩] ++ [⟨dst.id, dst.base + dbase, outSize⟩]) id a ↔
        inWindow ⟨dst.id, dst.base + dbase, outSize⟩ id a := by
    simp only [covered_append, covered_cons, covered_nil, inWindow, or_false]
    omega
  rw [hpass, windowOf_of_le hroom, overwrite_overwrite, overwrite_claimed hrange,
    Nat.min_eq_left (Nat.le_sub_of_add_le' hroom), Nat.zero_add]
  rfl

theorem byteAt_spoiled_outside {id a d : Nat} (hlen : out.length ≤ outSize)
    (h : id ≠ dst.id ∨ a < dst.base + dbase ∨ dst.base + dbase + outSize ≤ a) :
    byteAt (freeRange (writeBytes s.mem dst dbase out) dst dbase d outSize) id a =
      byteAt s.mem id a := by
  have hspoil := writes_freeRange (writeBytes s.mem dst dbase out) dst dbase d outSize
  rw [hspoil.byteAt_eq, byteAt_writeBytes_outside (by omega)]
  rintro ⟨hid, hlo, hhi⟩
  omega

end

end Sys2Proof.Machine

namespace Sys2Proof.Proofs

open Sys2Proof.Machine

/-- Settles O35: the loop is the expansion of the source from `sp0` on; what it emits it writes,
what it leaves unspecified lies in the destination range. -/
theorem pbdDepackExpands : Obligations.PbdDepackExpands := by
  intro s src sp0 dst dbase outSize
  dsimp only
  intro hroom hapart
  have hrun := pbdDepackOp_run (s := s) hroom hapart
  have hloop := depackStart_unpacks (s := s) hroom hapart
  have hbase (n : Nat) : (wholeBuf s.mem dst).base + n = n := Nat.zero_add n
  refine ⟨fun out rest hsome => ?completes, fun hnone => ?faults⟩
  case completes =>
    have hlen : out.length = outSize := length_of_unpackList hsome
    rw [hsome] at hloop
    have hout := runOp_ok (hrun.trans (bind_ok (endPass_ok (onStop_ok hloop))))
    rw [unbind_after_depackStart hroom hlen, hbase] at hout
    subst hlen
    refine ⟨_, hout, bytesOf_writeBytes (refOk_wholeBuf s.mem dst) hroom, fun id a h =>
      byteAt_writeBytes_outside ?_⟩
    rwa [hbase]
  case faults =>
    rw [hnone] at hloop
    obtain ⟨out, hlen, hstop⟩ := hloop
    have hout := runOp_faulted (hrun.trans (bind_error (endPass_error (onStop_error hstop))))
    rw [unbind_spoiled_depackStart hroom hlen.le, hbase] at hout
    refine ⟨_, _, out.length, hout, hlen, fun id a h => byteAt_spoiled_outside hlen.le ?_⟩
    rwa [hbase]

end Sys2Proof.Proofs
end

section
/-! Strip streams on lists (R235 to R242): the 16-bit values of a byte list, what one command reads
and emits, and the list reading `stripList` told command by command. -/

namespace Sys2Proof.Machine

variable {lay : Config.VdatLayout} {c : Byte} {cmd : VdCmd} {d cmds data : List Byte}
  {ws : List (Byte × Byte)} {w : Byte × Byte} {fuel room n : Nat} {m : Mem} {r : BufRef}
  {off len : Nat} {k : BitVec 7}

/-! ### 16-bit values (R236) -/

theorem wordsOf_drop (k : Nat) : wordsOf (d.drop (2 * k)) = (wordsOf d).drop k := by
  induction k generalizing d with
  | zero => rfl
  | succ k ih =>
    match d with
    | [] => simp [wordsOf]
    | [_] => simp [Nat.mul_succ, wordsOf]
    | a :: b :: d => exact ih

theorem wordsOf_drop_two : wordsOf (d.drop 2) = (wordsOf d).tail :=
  (wordsOf_drop 1).trans List.drop_one

theorem length_wordsOf : ∀ d : List Byte, (wordsOf d).length = d.length / 2
  | [] => rfl
  | [_] => by simp [wordsOf]
  | a :: b :: d => by
    rw [wordsOf, List.length_cons, length_wordsOf d, List.length_cons, List.length_cons]
    omega

theorem wordsOf_bytesOf_short (h : len < 2) : wordsOf (bytesOf m r off len) = [] := by
  rw [← List.length_eq_zero_iff, length_wordsOf, bytesOf_length]
  omega

theorem bytesOf_cons :
    bytesOf m r off (len + 1) = refByte m r off :: bytesOf m r (off + 1) len := by
  refine List.ext_getElem (by simp) fun i hi _ => ?_
  rw [bytesOf_getElem hi]
  cases i with
  | zero => rfl
  | succ i => rw [List.getElem_cons_succ, bytesOf_getElem, Nat.add_assoc, Nat.add_comm 1]

theorem take_bytesOf {k : Nat} (hk : k ≤ len) :
    (bytesOf m r off len).take k = bytesOf m r off k := by
  refine List.ext_getElem (by simpa using hk) fun i _ _ => ?_
  rw [List.getElem_take, bytesOf_getElem, bytesOf_getElem]

theorem wordsOf_bytesOf_cons : wordsOf (bytesOf m r off (len + 2)) =
    (refByte m r off, refByte m r (off + 1)) :: wordsOf (bytesOf m r (off + 2) len) := by
  rw [bytesOf_cons, bytesOf_cons, wordsOf]

theorem wordsOf_bytesOf_getElem {i : Nat} (h : i < (wordsOf (bytesOf m r off len)).length) :
    (wordsOf (bytesOf m r off len))[i] =
      (refByte m r (off + 2 * i), refByte m r (off + 2 * i + 1)) := by
  have hin : 2 * i + 2 ≤ len := by
    rw [length_wordsOf, bytesOf_length] at h
    omega
  obtain ⟨len', hlen⟩ : ∃ len', len - 2 * i = len' + 2 := ⟨len - 2 * i - 2, by omega⟩
  have hdrop := wordsOf_drop (d := bytesOf m r off len) i
  rw [drop_bytesOf, hlen, wordsOf_bytesOf_cons, List.drop_eq_getElem_cons h] at hdrop
  exact (List.cons.inj hdrop).1.symm

/-! ### One command (R239 to R242) -/

/-- What a command does once its command byte is fetched: the values it emits, the status it stops
the decoding with if it does, and how many values it fetches. -/
structure VdReading where
  values : List (Byte × Byte)
  stop : Option VddStatus
  fetched : Nat

/-- A copy of `n` of the values `ws` (R239, R240): it fetches a value before it looks for room, and
where none is left to fetch the status is FULL if the plane is complete already (R244 c, g;
log 32). -/
def readCopy (n : Nat) (ws : List (Byte × Byte)) (room : Nat) : VdReading where
  values := ws.take (min n room)
  stop :=
    if n ≤ min ws.length room then none
    else if ws.length < room then some .srcEnd else some .full
  fetched := min (min n (room + 1)) ws.length

/-- A run of `n` times `w` (R241, R242). -/
def readRun (n : Nat) (w : Byte × Byte) (room : Nat) : VdReading where
  values := List.replicate (min n room) w
  stop := if n ≤ room then none else some .full
  fetched := 0

theorem readCopy_whole (hsource : n ≤ ws.length) (hroom : n ≤ room) :
    readCopy n ws room = ⟨ws.take n, none, n⟩ := by
  rw [readCopy, if_pos (Nat.le_min.mpr ⟨hsource, hroom⟩), Nat.min_eq_left hroom,
    Nat.min_eq_left (Nat.le_succ_of_le hroom), Nat.min_eq_left hsource]

theorem readCopy_short (hsource : ws.length < n) (hroom : ws.length < room) :
    readCopy n ws room = ⟨ws, some .srcEnd, ws.length⟩ := by
  rw [readCopy, if_neg (by omega), if_pos hroom, List.take_of_length_le (by omega),
    Nat.min_eq_right (b := ws.length) (by omega)]

theorem readCopy_full (hroom : room < n) (hsource : room ≤ ws.length) :
    readCopy n ws room = ⟨ws.take room, some .full, min (room + 1) ws.length⟩ := by
  rw [readCopy, if_neg (by omega), if_neg (Nat.not_lt_of_le hsource), Nat.min_eq_right hroom.le,
    Nat.min_eq_right (Nat.succ_le_of_lt hroom)]

theorem readRun_whole (hroom : n ≤ room) : readRun n w room = ⟨List.replicate n w, none, 0⟩ := by
  rw [readRun, if_pos hroom, Nat.min_eq_left hroom]

theorem readRun_full (hroom : room < n) :
    readRun n w room = ⟨List.replicate room w, some .full, 0⟩ := by
  rw [readRun, if_neg (Nat.not_le_of_lt hroom), Nat.min_eq_right hroom.le]

/-- A command whose count or value is missing emits nothing (R243, R244 d, e). -/
def readNothing (fetched : Nat) : VdReading := ⟨[], some .srcEnd, fetched⟩

/-- The reading after `k` values fetched before it. -/
def VdReading.past (k : Nat) (q : VdReading) : VdReading := { q with fetched := k + q.fetched }

theorem VdReading.past_zero {q : VdReading} : q.past 0 = q := by
  rw [VdReading.past, Nat.zero_add]

/-- A command over the values to come, with room for `room` of them. -/
def readCommand (cmd : VdCmd) (ws : List (Byte × Byte)) (room : Nat) : VdReading :=
  match cmd, ws with
  | .copyx, [] => readNothing 0
  | .copyx, n :: ws => (readCopy (be16 n) ws room).past 1
  | .copy n, ws => readCopy (128 - n.toNat) ws room
  | .runx, [] => readNothing 0
  | .runx, [_] => readNothing 1
  | .runx, n :: w :: _ => (readRun (be16 n) w room).past 2
  | .run _, [] => readNothing 0
  | .run n, w :: _ => (readRun n.toNat w room).past 1

theorem readCommand_runx_short (h : ∀ n w tail, ws ≠ n :: w :: tail) :
    readCommand .runx ws room = readNothing ws.length := by
  match ws with
  | [] | [_] => rfl
  | n :: w :: tail => exact absurd rfl (h n w tail)

/-- What holds of every command: it emits no more than there is room for and fetches no more than
there is, and its status says whether the plane is complete (R244 g). -/
structure VdReading.Sound (q : VdReading) (available room : Nat) : Prop where
  fetched_le : q.fetched ≤ available
  values_le : q.values.length ≤ room
  status : ∀ st, q.stop = some st → (st = .full ∨ st = .srcEnd) ∧
    (st = .full ↔ q.values.length = room)

theorem VdReading.Sound.past {q : VdReading} {available k : Nat} (h : q.Sound available room) :
    (q.past k).Sound (available + k) room :=
  ⟨(Nat.add_comm _ _).trans_le (Nat.add_le_add_right h.fetched_le k), h.values_le, h.status⟩

theorem readNothing_sound (hroom : 0 < room) : (readNothing n).Sound n room :=
  ⟨le_rfl, Nat.zero_le _, fun st h => by
    obtain rfl := Option.some.inj h
    simpa [readNothing] using hroom.ne⟩

theorem length_readCopy_values : (readCopy n ws room).values.length = min (min n room) ws.length :=
  List.length_take

theorem readCopy_sound : (readCopy n ws room).Sound ws.length room where
  fetched_le := Nat.min_le_right _ _
  values_le := by
    rw [length_readCopy_values]
    omega
  status st h := by
    rw [length_readCopy_values]
    simp only [readCopy] at h
    split_ifs at h with hwhole hshort <;> obtain rfl := Option.some.inj h <;> simp <;> omega

theorem readRun_sound : (readRun n w room).Sound 0 room where
  fetched_le := le_rfl
  values_le := by simp [readRun]
  status st h := by
    simp only [readRun] at h
    split_ifs at h with hwhole
    obtain rfl := Option.some.inj h
    simp [readRun, Nat.le_of_not_le hwhole]

theorem VdReading.Sound.mono {q : VdReading} {k k' : Nat} (h : q.Sound k room) (hk : k ≤ k') :
    q.Sound k' room := ⟨h.fetched_le.trans hk, h.values_le, h.status⟩

theorem readCommand_sound (hroom : 0 < room) : (readCommand cmd ws room).Sound ws.length room := by
  match cmd, ws with
  | .copyx, [] => exact readNothing_sound hroom
  | .copyx, n :: ws => exact readCopy_sound.past
  | .copy n, ws => exact readCopy_sound
  | .runx, [] => exact readNothing_sound hroom
  | .runx, [_] => exact readNothing_sound hroom
  | .runx, n :: w :: ws => exact readRun_sound.past.mono (by simp)
  | .run _, [] => exact readNothing_sound hroom
  | .run n, w :: ws => exact readRun_sound.past.mono (by simp)

/-! ### The reading of a stream, command by command -/

/-- The one of two that belongs to the layout. -/
def byLayout {α : Type} (lay : Config.VdatLayout) (interleaved split : α) : α :=
  match lay with
  | .interleaved => interleaved
  | .split => split

/-- What a stream emits, the status it ends with, and what is left of the command bytes and of the
data. -/
abbrev StripReading : Type := List (Byte × Byte) × VddStatus × List Byte × List Byte

/-- A command's reading before that of the rest of the stream: `cmds` are the command bytes after it
in the split layout, `d` the bytes its values stand in. -/
def VdReading.andThen (q : VdReading) (lay : Config.VdatLayout) (cmds d : List Byte) (room : Nat)
    (rest : List Byte → List Byte → Nat → StripReading) : StripReading :=
  let d' := d.drop (2 * q.fetched)
  match q.stop with
  | some st => (q.values, st, byLayout lay d' cmds, d')
  | none =>
    let p := rest (byLayout lay d' cmds) d' (room - q.values.length)
    (q.values ++ p.1, p.2)

theorem stripList_full : stripList lay fuel cmds data 0 = ([], .full, cmds, data) := by
  cases fuel <;> rfl

theorem stripList_ended (hroom : 0 < room) :
    stripList lay fuel [] data room = ([], .srcEnd, [], data) := by
  obtain ⟨room, rfl⟩ := Nat.exists_eq_add_one.mpr hroom
  cases fuel <;> rfl

theorem eq_of_copyx (h : decodeVd c = .copyx) : c = 0 := by
  unfold decodeVd at h
  split_ifs at h with hzero
  exact hzero

theorem eq_of_runx (h : decodeVd c = .runx) : c = 1 := by
  unfold decodeVd at h
  split_ifs at h with hzero hmsb hone
  exact hone

theorem asI8_of_copy (h : decodeVd c = .copy k) :
    c ≠ 0 ∧ c ≠ 1 ∧ asI8 c = (k.toNat : Int) - 128 := by
  unfold decodeVd at h
  split_ifs at h with hzero hmsb hone
  obtain rfl : low7 c = k := VdCmd.copy.inj h
  have hge := BitVec.le_toNat_of_msb_true hmsb
  have hlt := c.isLt
  refine ⟨hzero, fun hone => absurd hmsb (by rw [hone]; decide), ?_⟩
  rw [asI8, BitVec.toInt_eq_msb_cond, if_pos hmsb, toNat_low7]
  omega

theorem asI8_of_vdRun (h : decodeVd c = .run k) : c ≠ 0 ∧ c ≠ 1 ∧ asI8 c = k.toNat := by
  unfold decodeVd at h
  split_ifs at h with hzero hmsb hone
  obtain rfl : low7 c = k := VdCmd.run.inj h
  exact ⟨hzero, hone, (asI8_of_lit (if_pos (by simpa using hmsb))).2⟩

theorem VdReading.past_andThen {q : VdReading} {k : Nat}
    {rest : List Byte → List Byte → Nat → StripReading} :
    (q.past k).andThen lay cmds d room rest = q.andThen lay cmds (d.drop (2 * k)) room rest := by
  rw [VdReading.andThen, VdReading.andThen, List.drop_drop, ← Nat.mul_add]
  rfl

/-- A copy before the rest of the stream, by what ends it. -/
theorem readCopy_andThen
    {rest : List Byte → List Byte → Nat → StripReading} :
    (readCopy n (wordsOf d) (room + 1)).andThen lay cmds d (room + 1) rest =
      if n ≤ (wordsOf d).length ∧ n ≤ room + 1 then
        let d' := d.drop (2 * n)
        let p := rest (byLayout lay d' cmds) d' (room + 1 - ((wordsOf d).take n).length)
        ((wordsOf d).take n ++ p.1, p.2)
      else if (wordsOf d).length ≤ room then
        let d' := d.drop (2 * (wordsOf d).length)
        (wordsOf d, .srcEnd, byLayout lay d' cmds, d')
      else
        let d' := d.drop (2 * min (room + 2) (wordsOf d).length)
        ((wordsOf d).take (room + 1), .full, byLayout lay d' cmds, d') := by
  split_ifs with hwhole hshort
  · rw [readCopy_whole hwhole.1 hwhole.2]
    rfl
  · rw [readCopy_short (by omega) (by omega)]
    rfl
  · rw [readCopy_full (by omega) (by omega)]
    rfl

/-- A run before the rest of the stream. -/
theorem readRun_andThen
    {rest : List Byte → List Byte → Nat → StripReading} :
    (readRun n w room).andThen lay cmds d room rest =
      if n ≤ room then
        let p := rest (byLayout lay d cmds) d (room - (List.replicate n w).length)
        (List.replicate n w ++ p.1, p.2)
      else (List.replicate room w, .full, byLayout lay d cmds, d) := by
  split_ifs with hwhole
  · rw [readRun_whole hwhole]
    rfl
  · rw [readRun_full (Nat.lt_of_not_le hwhole)]
    rfl

theorem stripList_copyx (h : decodeVd c = .copyx) :
    stripList lay (fuel + 1) (c :: cmds) data (room + 1) =
      (readCommand .copyx (wordsOf (byLayout lay cmds data)) (room + 1)).andThen lay cmds
        (byLayout lay cmds data) (room + 1) (stripList lay fuel) := by
  rw [stripList.eq_def]
  refine (if_pos (eq_of_copyx h)).trans ?_
  split
  · next hwords =>
    rw [show wordsOf (byLayout lay cmds data) = [] from hwords]
    rfl
  · next count tail hwords =>
    have htail := wordsOf_drop_two (d := byLayout lay cmds data)
    rw [show wordsOf (byLayout lay cmds data) = count :: tail from hwords, List.tail_cons] at *
    rw [readCommand, VdReading.past_andThen, ← htail, readCopy_andThen]
    rfl

theorem stripList_copy (h : decodeVd c = .copy k) :
    stripList lay (fuel + 1) (c :: cmds) data (room + 1) =
      (readCommand (.copy k) (wordsOf (byLayout lay cmds data)) (room + 1)).andThen lay cmds
        (byLayout lay cmds data) (room + 1) (stripList lay fuel) := by
  obtain ⟨hzero, hone, hval⟩ := asI8_of_copy h
  have hlt := k.isLt
  have hcount : (-asI8 c).toNat = 128 - k.toNat := by omega
  rw [stripList.eq_def, readCommand, readCopy_andThen, ← hcount]
  exact (if_neg hzero).trans ((if_neg hone).trans (if_pos (by omega)))

theorem stripList_runx (h : decodeVd c = .runx) :
    stripList lay (fuel + 1) (c :: cmds) data (room + 1) =
      (readCommand .runx (wordsOf (byLayout lay cmds data)) (room + 1)).andThen lay cmds
        (byLayout lay cmds data) (room + 1) (stripList lay fuel) := by
  obtain rfl := eq_of_runx h
  rw [stripList.eq_def]
  refine ((if_neg (by decide)).trans (if_pos rfl)).trans ?_
  split
  · next count w tail hwords =>
    rw [show wordsOf (byLayout lay cmds data) = count :: w :: tail from hwords, readCommand,
      VdReading.past_andThen, readRun_andThen]
    rfl
  · next hshort =>
    rw [readCommand_runx_short (ws := wordsOf (byLayout lay cmds data)) hshort]
    rfl

theorem stripList_run (h : decodeVd c = .run k) :
    stripList lay (fuel + 1) (c :: cmds) data (room + 1) =
      (readCommand (.run k) (wordsOf (byLayout lay cmds data)) (room + 1)).andThen lay cmds
        (byLayout lay cmds data) (room + 1) (stripList lay fuel) := by
  obtain ⟨hzero, hone, hval⟩ := asI8_of_vdRun h
  have hcount : (asI8 c).toNat = k.toNat := by omega
  rw [stripList.eq_def]
  refine (if_neg hzero).trans ((if_neg hone).trans ((if_neg (by omega)).trans ?_))
  split
  · next hwords =>
    rw [show wordsOf (byLayout lay cmds data) = [] from hwords]
    rfl
  · next w tail hwords =>
    rw [show wordsOf (byLayout lay cmds data) = w :: tail from hwords, readCommand,
      VdReading.past_andThen, readRun_andThen, ← hcount]
    rfl

/-- One round of the reading (R235): the command that the byte selects, then the rest. -/
theorem stripList_cons (hroom : 0 < room) : stripList lay (fuel + 1) (c :: cmds) data room =
    (readCommand (decodeVd c) (wordsOf (byLayout lay cmds data)) room).andThen lay cmds
      (byLayout lay cmds data) room (stripList lay fuel) := by
  obtain ⟨room, rfl⟩ := Nat.exists_eq_add_one.mpr hroom
  cases h : decodeVd c with
  | copyx => exact stripList_copyx h
  | copy k => exact stripList_copy h
  | runx => exact stripList_runx h
  | run k => exact stripList_run h

/-- How a reading ends (R244 g): the plane is complete exactly where the status is FULL. -/
theorem stripList_outcome :
    let q := stripList lay fuel cmds data room
    q.1.length ≤ room ∧ (q.2.1 = .full ∨ q.2.1 = .srcEnd) ∧
      (q.2.1 = .full ↔ q.1.length = room) := by
  dsimp only
  induction fuel generalizing cmds data room with
  | zero =>
    cases room with
    | zero => simp [stripList]
    | succ room => simp [stripList]
  | succ fuel ih =>
    rcases Nat.eq_zero_or_pos room with rfl | hroom
    · simp [stripList_full]
    cases cmds with
    | nil => simp [stripList_ended hroom, hroom.ne]
    | cons c cmds =>
      rw [stripList_cons hroom]
      have hsound := readCommand_sound (cmd := decodeVd c)
        (ws := wordsOf (byLayout lay cmds data)) hroom
      rw [VdReading.andThen]
      split
      · next st hstop => exact ⟨hsound.values_le, hsound.status st hstop⟩
      · next hstop =>
        have hle := hsound.values_le
        refine ⟨?_, ih.2.1, ih.2.2.trans ?_⟩
        · rw [List.length_append]
          exact (Nat.add_le_add_left ih.1 _).trans (by omega)
        · rw [List.length_append]
          omega

theorem stripEmits_outcome {region : List Byte} :
    let q := stripEmits lay region room
    q.1.length ≤ room ∧ (q.2.1 = .full ∨ q.2.1 = .srcEnd) ∧
      (q.2.1 = .full ↔ q.1.length = room) := by
  cases lay <;> exact stripList_outcome

end Sys2Proof.Machine
end

section
/-! Where the strip decoder's values stand in the plane (R238), and what memory holds once they are
written. -/

namespace Sys2Proof.Machine

variable {m : Mem} {r : BufRef} {place : Nat → Nat} {v : Vdd} {q q' room id a : Nat}
  {w : Byte × Byte} {ws ws' : List (Byte × Byte)}

/-! ### The cursor of a value (R238) -/

/-- The emit after `x`, `y`: down the column, then across. -/
theorem stripIndex_next (hy : v.y < v.h) (hx : v.x % 2 = 0) :
    2 * ((stripIndex v + 1) / v.h) = (if v.y + 1 = v.h then v.x + 2 else v.x) ∧
      (stripIndex v + 1) % v.h = if v.y + 1 = v.h then 0 else v.y + 1 := by
  have hh : 0 < v.h := Nat.zero_lt_of_lt hy
  have hnext : stripIndex v + 1 = v.h * (v.x / 2) + (v.y + 1) := by
    rw [stripIndex, Nat.mul_comm, Nat.add_assoc]
  rw [hnext, Nat.mul_add_div hh, Nat.mul_add_mod]
  split_ifs with hend
  · rw [hend, Nat.div_self hh, Nat.mod_self]
    omega
  · have hinside : v.y + 1 < v.h := by omega
    rw [Nat.div_eq_of_lt hinside, Nat.mod_eq_of_lt hinside]
    omega

theorem stripIndex_div (hy : v.y < v.h) : stripIndex v / v.h = v.x / 2 := by
  rw [stripIndex, Nat.mul_comm, Nat.mul_add_div (Nat.zero_lt_of_lt hy), Nat.div_eq_of_lt hy,
    Nat.add_zero]

theorem stripIndex_mod (hy : v.y < v.h) : stripIndex v % v.h = v.y := by
  rw [stripIndex, Nat.mul_comm, Nat.mul_add_mod, Nat.mod_eq_of_lt hy]

/-- There is room exactly while the column lies inside the line (R243). -/
theorem stripIndex_lt_room_iff (hy : v.y < v.h) (hx : v.x % 2 = 0)
    (hline : v.bytesPerLine % 2 = 0) :
    stripIndex v < stripRoom v ↔ v.x < v.bytesPerLine := by
  rw [stripRoom, ← Nat.div_lt_iff_lt_mul (Nat.zero_lt_of_lt hy), stripIndex_div hy]
  omega

theorem mod_lt_of_lt_stripRoom (h : q < stripRoom v) : q % v.h < v.h := by
  refine Nat.mod_lt _ (Nat.pos_of_ne_zero fun hzero => ?_)
  rw [stripRoom, hzero, Nat.mul_zero] at h
  exact absurd h (Nat.not_lt_zero q)

theorem div_lt_of_lt_stripRoom (h : q < stripRoom v) : q / v.h < v.bytesPerLine / 2 :=
  Nat.div_lt_of_lt_mul (by rwa [Nat.mul_comm, ← stripRoom])

/-- A value with room lies inside its line, and its line inside the plane. -/
theorem stripPlace_end (h : q < stripRoom v) :
    v.dbase ≤ stripPlace v q ∧
      stripPlace v q + 2 ≤ v.dbase + v.bytesPerLine * v.h := by
  have hcolumn := div_lt_of_lt_stripRoom h
  have hline := Nat.mul_le_mul_right v.bytesPerLine (mod_lt_of_lt_stripRoom h)
  rw [Nat.succ_mul] at hline
  rw [stripPlace, Nat.mul_comm v.bytesPerLine]
  omega

/-- No two values share a byte. -/
theorem stripPlace_apart (h : q < stripRoom v) (h' : q' < stripRoom v) (hne : q ≠ q') :
    stripPlace v q + 2 ≤ stripPlace v q' ∨ stripPlace v q' + 2 ≤ stripPlace v q := by
  have hcolumn := div_lt_of_lt_stripRoom h
  have hcolumn' := div_lt_of_lt_stripRoom h'
  rw [stripPlace, stripPlace]
  rcases Nat.lt_trichotomy (q % v.h) (q' % v.h) with hlt | heq | hlt
  · have hline := Nat.mul_le_mul_right v.bytesPerLine hlt
    rw [Nat.succ_mul] at hline
    omega
  · have hdiv : q / v.h ≠ q' / v.h := fun hdiv => hne <| by
      rw [← Nat.div_add_mod q v.h, ← Nat.div_add_mod q' v.h, hdiv, heq]
    rw [heq]
    omega
  · have hline := Nat.mul_le_mul_right v.bytesPerLine hlt
    rw [Nat.succ_mul] at hline
    omega

/-! ### Values written one after the other -/

/-- The values `ws` written at the places of the numbers from `q` on. -/
def writeWords (r : BufRef) (place : Nat → Nat) : Mem → Nat → List (Byte × Byte) → Mem
  | m, _, [] => m
  | m, q, w :: ws => writeWords r place (writeBytes m r (place q) [w.1, w.2]) (q + 1) ws

@[simp] theorem ofNat_be16_high : BitVec.ofNat 8 (be16 w / 256) = w.1 :=
  BitVec.eq_of_toNat_eq <| by
    have hhigh := w.1.isLt
    have hlow := w.2.isLt
    rw [be16, BitVec.toNat_ofNat]
    omega

@[simp] theorem ofNat_be16_low : BitVec.ofNat 8 (be16 w) = w.2 :=
  BitVec.eq_of_toNat_eq <| by
    have hlow := w.2.isLt
    rw [be16, BitVec.toNat_ofNat]
    omega

theorem beRead_two {off : Nat} :
    beRead m r off 2 = be16 (refByte m r off, refByte m r (off + 1)) := by
  simp [beRead, be16]

theorem beWrite_be16 {off : Nat} : beWrite m r off 2 (be16 w) = writeBytes m r off [w.1, w.2] := by
  simp [beWrite, writeBytes]

theorem writeWords_append : writeWords r place m q (ws ++ ws') =
    writeWords r place (writeWords r place m q ws) (q + ws.length) ws' := by
  induction ws generalizing m q with
  | nil => rfl
  | cons w ws ih =>
    rw [List.cons_append, writeWords, ih, writeWords, List.length_cons, Nat.add_assoc,
      Nat.add_comm 1]

theorem byteAt_writeWords_outside (h : id ≠ r.id ∨ ∀ k < ws.length,
      a ≠ r.base + place (q + k) ∧ a ≠ r.base + place (q + k) + 1) :
    byteAt (writeWords r place m q ws) id a = byteAt m id a := by
  induction ws generalizing m q with
  | nil => rfl
  | cons w ws ih =>
    rw [writeWords, ih, byteAt_writeBytes_outside]
    · refine h.imp_right fun h => ?_
      have hfirst := h 0 (Nat.succ_pos _)
      simp only [List.length_cons, List.length_nil, Nat.add_zero] at hfirst ⊢
      omega
    · refine h.imp_right fun h k hk => ?_
      rw [Nat.add_assoc, Nat.add_comm 1]
      exact h (k + 1) (Nat.succ_lt_succ hk)

/-- Read after write: where the places of the values lie inside the buffer and apart, each value
stands at its place. -/
theorem refByte_writeWords (hr : refOk m r)
    (hin : ∀ k < ws.length, place (q + k) + 2 ≤ r.len)
    (hapart : ∀ i < ws.length, ∀ j < ws.length, i ≠ j →
      place (q + i) + 2 ≤ place (q + j) ∨ place (q + j) + 2 ≤ place (q + i))
    {k : Nat} (hk : k < ws.length) :
    refByte (writeWords r place m q ws) r (place (q + k)) = ws[k].1 ∧
      refByte (writeWords r place m q ws) r (place (q + k) + 1) = ws[k].2 := by
  induction ws generalizing m q k with
  | nil => exact absurd hk (Nat.not_lt_zero k)
  | cons w ws ih =>
    have hshift (i : Nat) : q + 1 + i = q + (i + 1) := by omega
    cases k with
    | zero =>
      have hplace := hin 0 (Nat.succ_pos _)
      have hkept (b : Nat) (hb : b < 2) :
          refByte (writeWords r place m q (w :: ws)) r (place q + b) = [w.1, w.2][b] := by
        rw [← refByte_writeBytes (vs := [w.1, w.2]) hr hplace hb, writeWords]
        refine byteAt_writeWords_outside (.inr fun j hj => ?_)
        have hother := hapart 0 (Nat.succ_pos _) (j + 1) (Nat.succ_lt_succ hj)
          (Nat.succ_ne_zero j).symm
        rw [hshift]
        simp only [Nat.add_zero] at hother
        omega
      exact ⟨hkept 0 Nat.two_pos, hkept 1 Nat.one_lt_two⟩
    | succ k =>
      have hr' : refOk (writeBytes m r (place q) [w.1, w.2]) r :=
        (refOk_of_len (by rw [(writes_writeBytes _ _ _ _).len_eq])).mpr hr
      have hrest := ih (q := q + 1) hr'
        (fun i hi => by rw [hshift]; exact hin (i + 1) (Nat.succ_lt_succ hi))
        (fun i hi j hj hne => by
          rw [hshift, hshift]
          exact hapart (i + 1) (Nat.succ_lt_succ hi) (j + 1) (Nat.succ_lt_succ hj) (by omega))
        (k := k) (Nat.lt_of_succ_lt_succ hk)
      rwa [hshift] at hrest

end Sys2Proof.Machine
end

section
/-! The strip commands (R239 to R242) on the decoder's state. Whatever a pass of the decoder does
leaves it as `vddAt` says: at some pointers, some values emitted. What a command does is told from
the values still to come (`vddWords`) and the room left (`vddRoom`), by `readCommand`. -/

namespace Sys2Proof.Machine

variable {s : State} {lay : Config.VdatLayout} {cp dp cp' dp' k k' n lo off : Nat} {w : Byte × Byte}
  {ws ws' : List (Byte × Byte)} {cmd : VdCmd}

/-! ### The decoder inside a pass -/

/-- The bytes of the next `n` values emitted (R238). -/
def stripWindows (v : Vdd) (n : Nat) : List BufRef :=
  (List.range n).map fun k =>
    ⟨(refOf v.dst).id, (refOf v.dst).base + stripPlace v (stripIndex v + k), 2⟩

/-- The state with VDD at `cp` and `dp`, after it has emitted the values `ws` (R238); other units'
bindings to their bytes have ended (R422). -/
def vddAt (cp dp : Nat) (ws : List (Byte × Byte)) (s : State) : State :=
  overwrite .vdd (stripWindows s.vdd ws.length) { s with
    mem := writeWords (refOf s.vdd.dst) (stripPlace s.vdd) s.mem (stripIndex s.vdd) ws
    vdd := { s.vdd with
      cp := cp, dp := dp
      x := 2 * ((stripIndex s.vdd + ws.length) / s.vdd.h)
      y := (stripIndex s.vdd + ws.length) % s.vdd.h } }

/-- The same after `k` values fetched (R237). -/
def vddAfter (lay : Config.VdatLayout) (k : Nat) (ws : List (Byte × Byte)) (s : State) : State :=
  vddAt (byLayout lay (s.vdd.cp + 2 * k) s.vdd.cp) (s.vdd.dp + 2 * k) ws s

/-- The state past the command byte (R237). -/
def vddSkipped (lay : Config.VdatLayout) (s : State) : State :=
  { s with vdd := { s.vdd with cp := s.vdd.cp + 1, dp := byLayout lay (s.vdd.cp + 1) s.vdd.dp } }

/-- The state in which a decoding has stopped, if it has. -/
def vddStopped (stop : Option VddStatus) (s : State) : State :=
  { s with vdd := { s.vdd with status := stop.getD s.vdd.status } }

/-- How many values there is room for. -/
def vddRoom (s : State) : Nat := stripRoom s.vdd - stripIndex s.vdd

/-- The bytes of the source region from the data pointer on. -/
def vddData (s : State) : List Byte :=
  bytesOf s.mem (refOf s.vdd.src) s.vdd.dp (s.vdd.rend - s.vdd.dp)

/-- The values of the source region from the data pointer on (R236). -/
def vddWords (s : State) : List (Byte × Byte) := wordsOf (vddData s)

@[simp] theorem vddAt_mem : (vddAt cp dp ws s).mem =
    writeWords (refOf s.vdd.dst) (stripPlace s.vdd) s.mem (stripIndex s.vdd) ws := rfl

@[simp] theorem vddAt_vdd : (vddAt cp dp ws s).vdd =
    { s.vdd with
      cp := cp, dp := dp
      x := 2 * ((stripIndex s.vdd + ws.length) / s.vdd.h)
      y := (stripIndex s.vdd + ws.length) % s.vdd.h } := rfl

@[simp] theorem stripIndex_at :
    stripIndex (vddAt cp dp ws s).vdd = stripIndex s.vdd + ws.length := by
  rw [stripIndex, vddAt_vdd, Nat.mul_div_cancel_left _ Nat.two_pos, Nat.div_add_mod']

@[simp] theorem vddRoom_at : vddRoom (vddAt cp dp ws s) = vddRoom s - ws.length := by
  rw [vddRoom, stripIndex_at, Nat.sub_add_eq]
  rfl

theorem stripWindows_at (n : Nat) :
    stripWindows s.vdd ws.length ++ stripWindows (vddAt cp dp ws s).vdd n =
      stripWindows s.vdd (ws.length + n) := by
  rw [stripWindows, stripWindows, stripWindows, stripIndex_at, List.range_add, List.map_append,
    List.map_map]
  simp only [Nat.add_assoc]
  rfl

theorem vddAt_at : vddAt cp' dp' ws' (vddAt cp dp ws s) = vddAt cp' dp' (ws ++ ws') s := by
  have hboth : vddAt cp' dp' ws' (vddAt cp dp ws s) =
      overwrite .vdd (stripWindows (vddAt cp dp ws s).vdd ws'.length)
        (overwrite .vdd (stripWindows s.vdd ws.length) { s with
          mem := writeWords (refOf s.vdd.dst) (stripPlace s.vdd)
            (writeWords (refOf s.vdd.dst) (stripPlace s.vdd) s.mem (stripIndex s.vdd) ws)
            (stripIndex (vddAt cp dp ws s).vdd) ws'
          vdd := { s.vdd with
            cp := cp', dp := dp'
            x := 2 * ((stripIndex (vddAt cp dp ws s).vdd + ws'.length) / s.vdd.h)
            y := (stripIndex (vddAt cp dp ws s).vdd + ws'.length) % s.vdd.h } }) := rfl
  rw [hboth, overwrite_overwrite, stripWindows_at, stripIndex_at, ← writeWords_append,
    Nat.add_assoc, ← List.length_append, vddAt]

theorem vddAfter_after :
    vddAfter lay k' ws' (vddAfter lay k ws s) = vddAfter lay (k + k') (ws ++ ws') s := by
  rw [vddAfter, vddAfter, vddAt_at, vddAfter, Nat.mul_add, ← Nat.add_assoc, ← Nat.add_assoc]
  cases lay <;> rfl

@[simp] theorem vddRoom_after : vddRoom (vddAfter lay k ws s) = vddRoom s - ws.length :=
  vddRoom_at

/-- The decoder's registers inside a pass, past a command byte (R237, R238, R243): an even line, the
cursor inside it, the source region and the plane inside their buffers, and the data pointer where
the next value is fetched. -/
structure StripFits (lay : Config.VdatLayout) (s : State) : Prop where
  even : s.vdd.bytesPerLine % 2 = 0
  evenColumn : s.vdd.x % 2 = 0
  inColumn : s.vdd.y < s.vdd.h
  source : s.vdd.rend ≤ (refOf s.vdd.src).len
  plane : s.vdd.dbase + s.vdd.bytesPerLine * s.vdd.h ≤ (refOf s.vdd.dst).len
  wordPtr : vddWordPtr lay s.vdd = s.vdd.dp

theorem StripFits.after (hs : StripFits lay s) : StripFits lay (vddAfter lay k ws s) where
  even := hs.even
  evenColumn := Nat.mul_mod_right _ _
  inColumn := Nat.mod_lt _ (Nat.zero_lt_of_lt hs.inColumn)
  source := hs.source
  plane := hs.plane
  wordPtr := by
    have hptr := hs.wordPtr
    cases lay with
    | interleaved => exact congrArg (· + 2 * k) hptr
    | split => rfl

theorem vddAt_nil (hs : StripFits lay s) :
    vddAt cp dp [] s = { s with vdd := { s.vdd with cp := cp, dp := dp } } := by
  have hx : 2 * (s.vdd.x / 2) = s.vdd.x :=
    Nat.mul_div_cancel' (Nat.dvd_of_mod_eq_zero hs.evenColumn)
  rw [vddAt, List.length_nil, Nat.add_zero, stripIndex_div hs.inColumn,
    stripIndex_mod hs.inColumn, hx]
  exact overwrite_nil

theorem vddAfter_self (hs : StripFits lay s) : vddAfter lay 0 [] s = s := by
  rw [vddAfter, vddAt_nil hs]
  cases lay <;> rfl

theorem vddRoom_pos_iff (hs : StripFits lay s) : 0 < vddRoom s ↔ s.vdd.x < s.vdd.bytesPerLine := by
  rw [vddRoom, Nat.sub_pos_iff_lt, stripIndex_lt_room_iff hs.inColumn hs.evenColumn hs.even]

theorem index_add_lt_of_room (h : k < vddRoom s) : stripIndex s.vdd + k < stripRoom s.vdd :=
  Nat.add_lt_of_lt_sub' h

/-! ### The source and the plane apart -/

/-- No byte of the source region from `lo` on is a byte of the plane (R243). -/
def StripApart (lo : Nat) (s : State) : Prop :=
  rangesMeet (refOf s.vdd.src) lo s.vdd.rend (refOf s.vdd.dst) s.vdd.dbase
    (s.vdd.dbase + s.vdd.bytesPerLine * s.vdd.h) = false

theorem StripApart.mono {lo' : Nat} (h : StripApart lo s) (hlo : lo ≤ lo') : StripApart lo' s := by
  have hapart := rangesMeet_eq_false_iff.mp h
  refine rangesMeet_eq_false_iff.mpr fun hid => ?_
  have hmin := hapart hid
  omega

/-- What is emitted changes no byte of the source. -/
theorem refByte_at (ha : StripApart lo s) (hws : ws.length ≤ vddRoom s) (hlo : lo ≤ off)
    (hoff : off < s.vdd.rend) :
    refByte (vddAt cp dp ws s).mem (refOf s.vdd.src) off = refByte s.mem (refOf s.vdd.src) off := by
  refine byteAt_writeWords_outside ?_
  by_cases hid : (refOf s.vdd.src).id = (refOf s.vdd.dst).id
  · refine .inr fun i hi => ?_
    have hmin := rangesMeet_eq_false_iff.mp ha hid
    have hplace := stripPlace_end (index_add_lt_of_room (hi.trans_le hws))
    omega
  · exact .inl hid

theorem vddData_at (ha : StripApart dp s) (hws : ws.length ≤ vddRoom s) (hdp : dp = s.vdd.dp + k) :
    vddData (vddAt cp dp ws s) = (vddData s).drop k := by
  subst hdp
  rw [vddData, vddData, drop_bytesOf, Nat.sub_sub]
  refine bytesOf_congr fun i hi => refByte_at ha hws (Nat.le_add_right _ _) ?_
  change i < s.vdd.rend - (s.vdd.dp + k) at hi
  change s.vdd.dp + k + i < s.vdd.rend
  omega

theorem vddWords_after (ha : StripApart s.vdd.dp s) (hws : ws.length ≤ vddRoom s) :
    vddWords (vddAfter lay k ws s) = (vddWords s).drop k := by
  rw [vddWords, vddAfter, vddData_at (ha.mono (Nat.le_add_right _ _)) hws rfl, wordsOf_drop,
    vddWords]

theorem vddWords_fetched : vddWords (vddAfter lay k [] s) = (vddWords s).drop k := by
  rw [vddWords, vddWords, ← wordsOf_drop, vddData, vddData, drop_bytesOf, Nat.sub_sub]
  rfl

theorem vddWords_next (h : vddWords s = w :: ws) : vddWords (vddAfter lay 1 [] s) = ws := by
  rw [vddWords_fetched, h, List.drop_one, List.tail_cons]

/-! ### One value fetched, one value emitted (R237, R238) -/

theorem length_vddWords : (vddWords s).length = (s.vdd.rend - s.vdd.dp) / 2 := by
  rw [vddWords, length_wordsOf, vddData, bytesOf_length]

theorem vddWords_eq_nil_iff : vddWords s = [] ↔ s.vdd.rend < s.vdd.dp + 2 := by
  rw [← List.length_eq_zero_iff, length_vddWords]
  omega

theorem vddWords_getElem {i : Nat} (h : i < (vddWords s).length) : (vddWords s)[i] =
    (refByte s.mem (refOf s.vdd.src) (s.vdd.dp + 2 * i),
      refByte s.mem (refOf s.vdd.src) (s.vdd.dp + 2 * i + 1)) :=
  wordsOf_bytesOf_getElem h

/-- The first value to come is the one at the data pointer. -/
theorem vddWords_head (h : vddWords s = w :: ws) : s.vdd.dp + 2 ≤ s.vdd.rend ∧
    (refByte s.mem (refOf s.vdd.src) s.vdd.dp,
      refByte s.mem (refOf s.vdd.src) (s.vdd.dp + 1)) = w := by
  refine ⟨Nat.le_of_not_lt fun hend => ?_, ?_⟩
  · rw [vddWords_eq_nil_iff.mpr hend] at h
    exact nomatch h
  · have hfirst := vddWords_getElem (s := s) (i := 0) (by simp [h])
    simpa [h] using hfirst.symm

theorem vddNextWord_none (hs : StripFits lay s) (h : vddWords s = []) :
    vddNextWord lay s = .ok none s := by
  have hend := vddWords_eq_nil_iff.mp h
  rw [vddNextWord, get_bind, hs.wordPtr]
  exact congrFun (if_pos hend) s

theorem vddNextWord_some (hs : StripFits lay s) (h : vddWords s = w :: ws) :
    vddNextWord lay s = .ok (some w) (vddAfter lay 1 [] s) := by
  obtain ⟨hin, hw⟩ := vddWords_head h
  have hptr := hs.wordPtr
  rw [vddNextWord, get_bind, hptr]
  refine (congrFun (if_neg (Nat.not_lt_of_le hin)) s).trans ?_
  rw [bind_ok (memRead_ok (hin.trans hs.source) s), beRead_two, hw, ofNat_be16_high, ofNat_be16_low,
    vddAfter, vddAt_nil hs]
  cases lay with
  | interleaved =>
    rw [← hptr]
    rfl
  | split => rfl

theorem vddEmit_full (hs : StripFits lay s) (h : vddRoom s = 0) (w : Byte × Byte) :
    vddEmit w s = .ok true (vddStopped (some .full) s) := by
  have hfull : s.vdd.bytesPerLine ≤ s.vdd.x := by
    have hiff := vddRoom_pos_iff hs
    omega
  rw [vddEmit, get_bind, if_pos hfull]
  rfl

theorem vddEmit_ok (hs : StripFits lay s) (hroom : 0 < vddRoom s) (w : Byte × Byte) :
    vddEmit w s = .ok false (vddAfter lay 0 [w] s) := by
  have hx := (vddRoom_pos_iff hs).mp hroom
  have hplace : s.vdd.dbase + s.vdd.y * s.vdd.bytesPerLine + s.vdd.x =
      stripPlace s.vdd (stripIndex s.vdd) := by
    rw [stripPlace, stripIndex_div hs.inColumn, stripIndex_mod hs.inColumn,
      Nat.mul_div_cancel' (Nat.dvd_of_mod_eq_zero hs.evenColumn)]
  have hin : stripPlace s.vdd (stripIndex s.vdd) + 2 ≤ (refOf s.vdd.dst).len :=
    (stripPlace_end (index_add_lt_of_room hroom)).2.trans hs.plane
  obtain ⟨hnextx, hnexty⟩ := stripIndex_next hs.inColumn hs.evenColumn
  rw [vddEmit, get_bind, if_neg (Nat.not_le_of_lt hx), hplace, bind_ok (memWrite_ok hin _ s),
    beWrite_be16, windowOf_of_le hin, vddAfter, vddAt, List.length_singleton, hnextx, hnexty]
  cases lay <;> rfl

/-- What a command's reading leaves, and whether the decoding has stopped. -/
def vddResult (lay : Config.VdatLayout) (q : VdReading) (s : State) :
    EStateM.Result Stop State Bool :=
  .ok q.stop.isSome (vddStopped q.stop (vddAfter lay q.fetched q.values s))

theorem vddResult_fetched {q : VdReading} :
    vddResult lay q (vddAfter lay k [] s) = vddResult lay (q.past k) s := by
  rw [vddResult, vddAfter_after]
  rfl

theorem vddResult_done (hs : StripFits lay s) : vddResult lay ⟨[], none, 0⟩ s = .ok false s := by
  rw [vddResult, vddAfter_self hs]
  rfl

theorem vddResult_stop (hs : StripFits lay s) (st : VddStatus) :
    vddResult lay ⟨[], some st, 0⟩ s = .ok true (vddStopped (some st) s) := by
  rw [vddResult, vddAfter_self hs]
  rfl

/-! ### Repetitions -/

theorem vddRepeat_stop {x : Op Bool} {t : State} (h : x s = .ok true t) :
    vddRepeat x (n + 1) s = .ok true t := by
  rw [vddRepeat, bind_ok h]
  rfl

theorem vddRepeat_next {x : Op Bool} {t : State} (h : x s = .ok false t) :
    vddRepeat x (n + 1) s = vddRepeat x n t := by
  rw [vddRepeat, bind_ok h]
  rfl

theorem readRun_succ {room : Nat} (hroom : 0 < room) : readRun (n + 1) w room =
    ⟨w :: (readRun n w (room - 1)).values, (readRun n w (room - 1)).stop, 0⟩ := by
  have hmin : min (n + 1) room = min n (room - 1) + 1 := by omega
  simp only [readRun, hmin, List.replicate_succ]
  congr 2
  exact propext (by omega)

theorem vddRepeat_emit (hs : StripFits lay s) (n : Nat) :
    vddRepeat (vddEmit w) n s = vddResult lay (readRun n w (vddRoom s)) s := by
  induction n generalizing s with
  | zero => rw [readRun_whole (Nat.zero_le _), List.replicate_zero, vddResult_done hs]; rfl
  | succ n ih =>
    rcases Nat.eq_zero_or_pos (vddRoom s) with hfull | hroom
    · rw [vddRepeat_stop (vddEmit_full hs hfull w), hfull, readRun_full n.succ_pos,
        List.replicate_zero, vddResult_stop hs]
    · rw [vddRepeat_next (vddEmit_ok hs hroom w), ih hs.after, readRun_succ hroom, vddResult,
        vddAfter_after, vddRoom_after]
      rfl

theorem readCopy_succ {room : Nat} (hroom : 0 < room) : readCopy (n + 1) (w :: ws) room =
    ⟨w :: (readCopy n ws (room - 1)).values, (readCopy n ws (room - 1)).stop,
      1 + (readCopy n ws (room - 1)).fetched⟩ := by
  obtain ⟨room, rfl⟩ := Nat.exists_eq_add_one.mpr hroom
  simp only [readCopy, Nat.add_sub_cancel, List.length_cons, Nat.add_min_add_right,
    List.take_succ_cons, Nat.add_le_add_iff_right, Nat.add_lt_add_iff_right, Nat.add_comm 1]

theorem readCopy_ended {room : Nat} : readCopy (n + 1) [] room =
    ⟨[], some (if 0 < room then .srcEnd else .full), 0⟩ := by
  simp [readCopy, apply_ite some]

theorem readCopy_no_room : readCopy (n + 1) (w :: ws) 0 = ⟨[], some .full, 1⟩ := by
  simp [readCopy]

theorem vddCopyOne_none (hs : StripFits lay s) (h : vddWords s = []) : vddCopyOne lay s =
    .ok true (vddStopped (some (if 0 < vddRoom s then .srcEnd else .full)) s) := by
  have hstatus : vddExhausted s.vdd = if 0 < vddRoom s then .srcEnd else .full := by
    rw [vddExhausted, if_congr (Iff.trans Nat.not_lt.symm (vddRoom_pos_iff hs).not.symm) rfl rfl,
      ite_not]
  rw [vddCopyOne, bind_ok (vddNextWord_none hs h), ← hstatus]
  rfl

theorem vddCopyOne_full (hs : StripFits lay s) (h : vddWords s = w :: ws) (hfull : vddRoom s = 0) :
    vddCopyOne lay s = .ok true (vddStopped (some .full) (vddAfter lay 1 [] s)) := by
  rw [vddCopyOne, bind_ok (vddNextWord_some hs h)]
  exact vddEmit_full hs.after (by simp [hfull]) w

theorem vddCopyOne_ok (hs : StripFits lay s) (h : vddWords s = w :: ws) (hroom : 0 < vddRoom s) :
    vddCopyOne lay s = .ok false (vddAfter lay 1 [w] s) := by
  rw [vddCopyOne, bind_ok (vddNextWord_some hs h)]
  refine (vddEmit_ok hs.after (by simpa using hroom) w).trans ?_
  rw [vddAfter_after]
  rfl

theorem vddRepeat_copy (hs : StripFits lay s) (ha : StripApart s.vdd.dp s) (n : Nat) :
    vddRepeat (vddCopyOne lay) n s =
      vddResult lay (readCopy n (vddWords s) (vddRoom s)) s := by
  induction n generalizing s with
  | zero =>
    rw [readCopy_whole (Nat.zero_le _) (Nat.zero_le _), List.take_zero, vddResult_done hs]
    rfl
  | succ n ih =>
    cases hwords : vddWords s with
    | nil => rw [vddRepeat_stop (vddCopyOne_none hs hwords), readCopy_ended, vddResult_stop hs]
    | cons w ws =>
      rcases Nat.eq_zero_or_pos (vddRoom s) with hfull | hroom
      · rw [vddRepeat_stop (vddCopyOne_full hs hwords hfull), hfull, readCopy_no_room]
        rfl
      · have hrest : vddWords (vddAfter lay 1 [w] s) = ws := by
          rw [vddWords_after ha (by exact hroom), hwords, List.drop_one, List.tail_cons]
        rw [vddRepeat_next (vddCopyOne_ok hs hwords hroom),
          ih hs.after (ha.mono (Nat.le_add_right _ _)), hrest, vddRoom_after,
          readCopy_succ hroom, vddResult, vddAfter_after]
        rfl

/-! ### The commands (R239 to R242) -/

theorem vddSkipCmd_run (lay : Config.VdatLayout) (s : State) :
    vddSkipCmd lay s = .ok () (vddSkipped lay s) := by
  cases lay <;> rfl

theorem vddStop_nothing (hs : StripFits lay s) :
    vddStop .srcEnd s = vddResult lay (readNothing 0) s :=
  (vddResult_stop hs .srcEnd).symm

theorem vdRunOp_run {n : BitVec 7} (hs : StripFits lay (vddSkipped lay s)) :
    vdRunOp lay n s = vddResult lay
      (readCommand (.run n) (vddWords (vddSkipped lay s)) (vddRoom (vddSkipped lay s)))
      (vddSkipped lay s) := by
  rw [vdRunOp, bind_ok (vddSkipCmd_run lay s)]
  cases hwords : vddWords (vddSkipped lay s) with
  | nil =>
    rw [bind_ok (vddNextWord_none hs hwords)]
    exact vddStop_nothing hs
  | cons w ws =>
    rw [bind_ok (vddNextWord_some hs hwords), readCommand, ← vddResult_fetched]
    refine (vddRepeat_emit hs.after _).trans ?_
    rw [vddRoom_after]
    rfl

theorem vdRunxOp_run (hs : StripFits lay (vddSkipped lay s)) :
    vdRunxOp lay s = vddResult lay
      (readCommand .runx (vddWords (vddSkipped lay s)) (vddRoom (vddSkipped lay s)))
      (vddSkipped lay s) := by
  rw [vdRunxOp, bind_ok (vddSkipCmd_run lay s)]
  cases hwords : vddWords (vddSkipped lay s) with
  | nil =>
    rw [bind_ok (vddNextWord_none hs hwords)]
    exact vddStop_nothing hs
  | cons count ws =>
    have hrest := vddWords_next (lay := lay) hwords
    rw [bind_ok (vddNextWord_some hs hwords)]
    cases ws with
    | nil =>
      refine (bind_ok (vddNextWord_none hs.after hrest)).trans ?_
      exact (vddStop_nothing hs.after).trans vddResult_fetched
    | cons w ws =>
      refine (bind_ok (vddNextWord_some hs.after hrest)).trans ?_
      rw [readCommand, ← vddResult_fetched, vddAfter_after]
      refine (vddRepeat_emit hs.after _).trans ?_
      rw [vddRoom_after]
      rfl

theorem vdCopyOp_run {n : BitVec 7} (hs : StripFits lay (vddSkipped lay s))
    (ha : StripApart (vddSkipped lay s).vdd.dp s) :
    vdCopyOp lay n s = vddResult lay
      (readCommand (.copy n) (vddWords (vddSkipped lay s)) (vddRoom (vddSkipped lay s)))
      (vddSkipped lay s) := by
  rw [vdCopyOp, bind_ok (vddSkipCmd_run lay s), vddRepeat_copy hs ha, readCommand]

theorem vdCopyxOp_run (hs : StripFits lay (vddSkipped lay s))
    (ha : StripApart (vddSkipped lay s).vdd.dp s) :
    vdCopyxOp lay s = vddResult lay
      (readCommand .copyx (vddWords (vddSkipped lay s)) (vddRoom (vddSkipped lay s)))
      (vddSkipped lay s) := by
  rw [vdCopyxOp, bind_ok (vddSkipCmd_run lay s)]
  cases hwords : vddWords (vddSkipped lay s) with
  | nil =>
    rw [bind_ok (vddNextWord_none hs hwords)]
    exact vddStop_nothing hs
  | cons count ws =>
    have hrest := vddWords_next (lay := lay) hwords
    rw [bind_ok (vddNextWord_some hs hwords), readCommand, ← vddResult_fetched]
    refine (vddRepeat_copy hs.after (ha.mono (Nat.le_add_right _ _)) _).trans ?_
    rw [hrest, vddRoom_after]
    rfl

/-- A command on the decoder's state is its reading of the values to come. -/
theorem vdCommand_run (hs : StripFits lay (vddSkipped lay s))
    (ha : StripApart (vddSkipped lay s).vdd.dp s) (cmd : VdCmd) :
    vdCommand lay cmd s = vddResult lay
      (readCommand cmd (vddWords (vddSkipped lay s)) (vddRoom (vddSkipped lay s)))
      (vddSkipped lay s) := by
  cases cmd with
  | copyx => exact vdCopyxOp_run hs ha
  | copy n => exact vdCopyOp_run hs ha
  | runx => exact vdRunxOp_run hs
  | run n => exact vdRunOp_run hs

end Sys2Proof.Machine
end

section
/-! A strip command handed alone to the decoder (log 3): O37 and O38. -/

namespace Sys2Proof.Machine

variable {s : State} {lay : Config.VdatLayout} {k count : Nat} {w : Byte × Byte} {x : Op Bool}

/-! ### The registers of a lone command -/

/-- The registers of a bound decoder whose cursor has not left the plane, past the command byte. -/
theorem stripFits_skipped (hstrip : stripOk s.vdd) (hsrc : s.vdd.src.isSome = true)
    (hdst : s.vdd.dst.isSome = true) (hindex : stripIndex s.vdd ≤ stripRoom s.vdd)
    (hh : 0 < s.vdd.h) : StripFits lay (vddSkipped lay s) := by
  obtain ⟨heven, hevenColumn, hline, hsource, hplane⟩ := hstrip
  refine ⟨heven, hevenColumn, ?_, hsource hsrc, hplane hdst, by cases lay <;> rfl⟩
  show s.vdd.y < s.vdd.h
  by_cases hx : s.vdd.x < s.vdd.bytesPerLine
  · exact hline hx
  · have hlines : s.vdd.bytesPerLine / 2 * s.vdd.h ≤ s.vdd.x / 2 * s.vdd.h :=
      Nat.mul_le_mul_right _ (Nat.div_le_div_right (Nat.le_of_not_lt hx))
    rw [stripIndex, stripRoom] at hindex
    omega

/-- The value at the data pointer, the next one and so on. -/
theorem vddWords_drop (h : s.vdd.dp + 2 * k + 2 ≤ s.vdd.rend) : (vddWords s).drop k =
    (refByte s.mem (refOf s.vdd.src) (s.vdd.dp + 2 * k),
      refByte s.mem (refOf s.vdd.src) (s.vdd.dp + 2 * k + 1)) :: (vddWords s).drop (k + 1) := by
  have hk : k < (vddWords s).length := by
    rw [length_vddWords]
    omega
  rw [List.drop_eq_getElem_cons hk, vddWords_getElem]

/-! ### Its outcome -/

theorem vdAlone_completes {b : Bool} {t : State} (hr : ready .vdd s) (h : x s = .ok b t) :
    runOp (vdAlone x) s = completes .unit t :=
  runOp_ok ((enter_bind hr).trans (bind_ok (onStop_ok h)))

theorem vdAlone_faults {t : State} (hr : ready .vdd s) (h : x s = .error .faulted t) :
    runOp (vdAlone x) s = .next { vddSpoil t with reply := .faulted } :=
  runOp_faulted ((enter_bind hr).trans (bind_error (onStop_error h)))

/-- Values emitted with room for them stand at their places, every other byte as before (R238). -/
theorem vddAt_emits {ws : List (Byte × Byte)} {cp dp : Nat} (hs : StripFits lay s)
    (hbound : refOk s.mem (refOf s.vdd.dst)) (hroom : ws.length ≤ vddRoom s) :
    (∀ k (hk : k < ws.length),
      refByte (vddAt cp dp ws s).mem (refOf s.vdd.dst)
          (stripPlace s.vdd (stripIndex s.vdd + k)) = ws[k].1 ∧
        refByte (vddAt cp dp ws s).mem (refOf s.vdd.dst)
          (stripPlace s.vdd (stripIndex s.vdd + k) + 1) = ws[k].2) ∧
      ∀ id a, (id ≠ (refOf s.vdd.dst).id ∨ ∀ k < ws.length,
          a ≠ (refOf s.vdd.dst).base + stripPlace s.vdd (stripIndex s.vdd + k) ∧
          a ≠ (refOf s.vdd.dst).base + stripPlace s.vdd (stripIndex s.vdd + k) + 1) →
        byteAt (vddAt cp dp ws s).mem id a = byteAt s.mem id a := by
  have hinside (k : Nat) (hk : k < ws.length) := index_add_lt_of_room (hk.trans_le hroom)
  refine ⟨fun k hk => refByte_writeWords hbound
      (fun i hi => (stripPlace_end (hinside i hi)).2.trans hs.plane)
      (fun i hi j hj hne => stripPlace_apart (hinside i hi) (hinside j hj) ?_) hk,
    fun id a => byteAt_writeWords_outside⟩
  omega

/-- What a completed command leaves. -/
theorem vdAlone_emits {q : VdReading} (hr : ready .vdd s) (hbound : refOk s.mem (refOf s.vdd.dst))
    (hs : StripFits lay (vddSkipped lay s)) (hroom : q.values.length ≤ vddRoom s)
    (h : x s = vddResult lay q (vddSkipped lay s)) :
    let dst := refOf s.vdd.dst
    let q0 := stripIndex s.vdd
    ∃ mem, runOp (vdAlone x) s = completes .unit
        { overwrite .vdd (stripWindows s.vdd q.values.length) s with
          mem := mem
          vdd := { s.vdd with
            cp := byLayout lay (s.vdd.cp + 1 + 2 * q.fetched) (s.vdd.cp + 1)
            dp := byLayout lay (s.vdd.cp + 1) s.vdd.dp + 2 * q.fetched
            x := 2 * ((q0 + q.values.length) / s.vdd.h), y := (q0 + q.values.length) % s.vdd.h
            status := q.stop.getD s.vdd.status } } ∧
      (∀ k (hk : k < q.values.length),
        refByte mem dst (stripPlace s.vdd (q0 + k)) = q.values[k].1 ∧
        refByte mem dst (stripPlace s.vdd (q0 + k) + 1) = q.values[k].2) ∧
      ∀ id a, (id ≠ dst.id ∨ ∀ k < q.values.length,
          a ≠ dst.base + stripPlace s.vdd (q0 + k) ∧
          a ≠ dst.base + stripPlace s.vdd (q0 + k) + 1) →
        byteAt mem id a = byteAt s.mem id a :=
  ⟨_, vdAlone_completes hr h, vddAt_emits hs hbound hroom⟩

/-- A run after `words` values fetched, its count among them. -/
theorem vdAlone_run {words : Nat} (hr : ready .vdd s) (hbound : refOk s.mem (refOf s.vdd.dst))
    (hs : StripFits lay (vddSkipped lay s))
    (h : x s = vddResult lay ((readRun count w (vddRoom s)).past words) (vddSkipped lay s)) :
    let dst := refOf s.vdd.dst
    let q0 := stripIndex s.vdd
    let m := min count (stripRoom s.vdd - q0)
    ∃ mem, runOp (vdAlone x) s = completes .unit
        { overwrite .vdd (stripWindows s.vdd m) s with
          mem := mem
          vdd := { s.vdd with
            cp := byLayout lay (s.vdd.cp + 1 + 2 * words) (s.vdd.cp + 1)
            dp := byLayout lay (s.vdd.cp + 1) s.vdd.dp + 2 * words
            x := 2 * ((q0 + m) / s.vdd.h), y := (q0 + m) % s.vdd.h
            status := if m < count then .full else s.vdd.status } } ∧
      (∀ k < m, refByte mem dst (stripPlace s.vdd (q0 + k)) = w.1 ∧
        refByte mem dst (stripPlace s.vdd (q0 + k) + 1) = w.2) ∧
      ∀ id a, (id ≠ dst.id ∨ ∀ k < m, a ≠ dst.base + stripPlace s.vdd (q0 + k) ∧
          a ≠ dst.base + stripPlace s.vdd (q0 + k) + 1) →
        byteAt mem id a = byteAt s.mem id a := by
  have hstatus : (if count ≤ vddRoom s then none else some VddStatus.full).getD s.vdd.status =
      if min count (vddRoom s) < count then .full else s.vdd.status := by
    rw [apply_ite (Option.getD · s.vdd.status), ← ite_not]
    exact if_congr (by omega) rfl rfl
  have hemits := vdAlone_emits hr hbound hs (readRun_sound.past (k := words)).values_le h
  simp only [VdReading.past, readRun, List.length_replicate, List.getElem_replicate, hstatus]
    at hemits
  exact hemits

/-- A copy after `j` values fetched, its count among them, of values that are in the source and have
room. -/
theorem vdAlone_copy {j : Nat} (hr : ready .vdd s) (hbound : refOk s.mem (refOf s.vdd.dst))
    (hs : StripFits lay (vddSkipped lay s))
    (hsource : (vddSkipped lay s).vdd.dp + 2 * j + 2 * count ≤ s.vdd.rend)
    (hroom : count ≤ vddRoom s)
    (h : x s = vddResult lay
      ((readCopy count ((vddWords (vddSkipped lay s)).drop j) (vddRoom s)).past j)
      (vddSkipped lay s)) :
    let dst := refOf s.vdd.dst
    let src := refOf s.vdd.src
    let p := byLayout lay (s.vdd.cp + 1) s.vdd.dp
    let q0 := stripIndex s.vdd
    ∃ mem, runOp (vdAlone x) s = completes .unit
        { overwrite .vdd (stripWindows s.vdd count) s with
          mem := mem
          vdd := { s.vdd with
            cp := byLayout lay (s.vdd.cp + 1 + 2 * j + 2 * count) (s.vdd.cp + 1)
            dp := p + 2 * j + 2 * count
            x := 2 * ((q0 + count) / s.vdd.h), y := (q0 + count) % s.vdd.h } } ∧
      (∀ k < count,
        refByte mem dst (stripPlace s.vdd (q0 + k)) = refByte s.mem src (p + 2 * j + 2 * k) ∧
        refByte mem dst (stripPlace s.vdd (q0 + k) + 1) =
          refByte s.mem src (p + 2 * j + 2 * k + 1)) ∧
      ∀ id a, (id ≠ dst.id ∨ ∀ k < count, a ≠ dst.base + stripPlace s.vdd (q0 + k) ∧
          a ≠ dst.base + stripPlace s.vdd (q0 + k) + 1) →
        byteAt mem id a = byteAt s.mem id a := by
  have hlen : count ≤ ((vddWords (vddSkipped lay s)).drop j).length := by
    rw [List.length_drop, length_vddWords]
    change count ≤ (s.vdd.rend - (vddSkipped lay s).vdd.dp) / 2 - j
    omega
  rw [readCopy_whole hlen hroom] at h
  have htake := List.length_take_of_le hlen
  obtain ⟨mem, hrun, hvalues, houtside⟩ :=
    vdAlone_emits hr hbound hs (htake.trans_le hroom) h
  simp only [VdReading.past, htake, Nat.mul_add, ← Nat.add_assoc] at hrun hvalues houtside
  refine ⟨mem, hrun, fun k hk => ?_, houtside⟩
  obtain ⟨hhigh, hlow⟩ := hvalues k hk
  rw [List.getElem_take, List.getElem_drop, vddWords_getElem, Nat.mul_add, ← Nat.add_assoc]
    at hhigh hlow
  exact ⟨hhigh, hlow⟩

/-- An unbound decoder has no plane to leave unspecified. -/
theorem vddSpoil_unbound (h : s.vdd.dst = none) : vddSpoil s = s := by
  have hlen : min (s.vdd.bytesPerLine * s.vdd.h) ((refOf none).len - s.vdd.dbase) = 0 := by
    simp [refOf]
  rw [vddSpoil, h, spoil, hlen, windowOf, hlen]
  exact overwrite_empty

/-- A run without a source: its value is past the end (R10). -/
theorem vdRunOp_unbound {n : BitVec 7} (hsrc : s.vdd.src = none)
    (hin : (vddSkipped lay s).vdd.dp + 2 ≤ s.vdd.rend) :
    vdRunOp lay n s = .error .faulted
      (withFault .vdd (raisedReg .pastEnd (vddSkipped lay s).vdd.dp) (vddSkipped lay s)) := by
  have hptr : vddWordPtr lay (vddSkipped lay s).vdd = (vddSkipped lay s).vdd.dp := by
    cases lay <;> rfl
  have hpast : (refOf (vddSkipped lay s).vdd.src).len < (vddSkipped lay s).vdd.dp + 2 := by
    simp [vddSkipped, hsrc, refOf]
  rw [vdRunOp, bind_ok (vddSkipCmd_run lay s), bind_error]
  rw [vddNextWord, get_bind, hptr]
  refine (congrFun (if_neg (Nat.not_lt_of_le hin)) _).trans ?_
  exact bind_error (memRead_past hpast _)

end Sys2Proof.Machine

namespace Sys2Proof.Proofs

open Sys2Proof.Machine

/-- Settles O37: a run emits its value as often as there is room for, whatever the layout; without a
source its value is past the end. -/
theorem vdRuns : Obligations.VdRuns := by
  refine ⟨fun s n hr hsrc hdst hin => ?unbound,
    fun s n i words count hr hb hstrip hsrc hdst => ?bound⟩
  case unbound =>
    refine (vdAlone_faults hr (vdRunOp_unbound hsrc hin)).trans ?_
    rw [vddSpoil_unbound (by exact hdst)]
    rfl
  case bound =>
    dsimp only
    intro hi hend hindex hh
    obtain ⟨-, -, -, -, -, -, -, hbound, -⟩ := hb
    have hs := stripFits_skipped (lay := Config.vdatLayout) hstrip hsrc hdst hindex hh
    rcases hi with ⟨rfl, -, rfl, rfl⟩ | ⟨rfl, rfl, rfl⟩
    · have hwords := vddWords_drop (s := vddSkipped Config.vdatLayout s) (k := 0) hend
      have hrun := vdRunOp_run (n := n) hs
      rw [List.drop_zero] at hwords
      rw [hwords, readCommand] at hrun
      exact vdAlone_run hr hbound hs hrun
    · have hwords := vddWords_drop (s := vddSkipped Config.vdatLayout s) (k := 0) (by
        exact (Nat.le_add_right _ 2).trans hend)
      have hvalue := vddWords_drop (s := vddSkipped Config.vdatLayout s) (k := 1) hend
      have hrun := vdRunxOp_run hs
      rw [List.drop_zero, hvalue] at hwords
      rw [hwords, readCommand] at hrun
      exact vdAlone_run hr hbound hs hrun


/-- Settles O38: a copy writes the values that follow it, whatever the layout. -/
theorem vdCopies : Obligations.VdCopies := by
  intro s n i head count hr hb hstrip hsrc hdst
  dsimp only
  intro hi hend hroom hh hapart
  obtain ⟨-, -, -, -, -, -, -, hbound, -⟩ := hb
  have hs := stripFits_skipped (lay := Config.vdatLayout) hstrip hsrc hdst
    ((Nat.le_add_right _ _).trans hroom) hh
  rcases hi with ⟨rfl, rfl, rfl⟩ | ⟨rfl, rfl, rfl⟩
  · have hrun := vdCopyOp_run (n := n) hs hapart
    have hcount : 128 - n.toNat = 256 - (128 + n.toNat) := by omega
    rw [readCommand, hcount] at hrun
    exact vdAlone_copy (j := 0) hr hbound hs hend (Nat.le_sub_of_add_le' hroom)
      (hrun.trans (by rw [VdReading.past_zero, List.drop_zero]; rfl))
  · have hwords := vddWords_drop (s := vddSkipped Config.vdatLayout s) (k := 0) (by
      exact (Nat.le_add_right _ _).trans hend)
    have hrun := vdCopyxOp_run hs hapart
    rw [List.drop_zero] at hwords
    rw [hwords, readCommand] at hrun
    exact vdAlone_copy (j := 1) hr hbound hs hend (Nat.le_sub_of_add_le' hroom) hrun

end Sys2Proof.Proofs
end

section
/-! `VDD.DECODE` (R243; O39): round by round its loop does what `stripList` reads off the command
bytes and the data to come, in either layout. -/

namespace Sys2Proof.Machine

variable {s : State} {lay : Config.VdatLayout} {lo k fuel cp dp : Nat} {c : Byte} {cmds : List Byte}
  {ws : List (Byte × Byte)}

/-! ### The loop -/

/-- The command bytes from the command pointer on. -/
def vddCmds (s : State) : List Byte :=
  bytesOf s.mem (refOf s.vdd.src) s.vdd.cp (s.vdd.cend - s.vdd.cp)

/-- The decoder between two commands (R237, R243): both pointers inside the source region from `lo`
on, which the plane does not meet; in the interleaved layout they are one. -/
structure StripPass (lay : Config.VdatLayout) (lo : Nat) (s : State) : Prop
    extends StripFits lay s where
  apart : StripApart lo s
  lo_le_cp : lo ≤ s.vdd.cp
  lo_le_dp : lo ≤ s.vdd.dp
  cp_le : s.vdd.cp ≤ s.vdd.cend
  dp_le : s.vdd.dp ≤ s.vdd.rend
  cend_le : s.vdd.cend ≤ s.vdd.rend
  oneStream : lay = .interleaved → s.vdd.cend = s.vdd.rend

theorem length_vddCmds : (vddCmds s).length = s.vdd.cend - s.vdd.cp := bytesOf_length _ _ _ _

theorem length_vddData : (vddData s).length = s.vdd.rend - s.vdd.dp := bytesOf_length _ _ _ _

theorem vddCmds_skipped (h : vddCmds s = c :: cmds) : vddCmds (vddSkipped lay s) = cmds := by
  have hdrop := drop_bytesOf (m := s.mem) (r := refOf s.vdd.src) (off := s.vdd.cp)
    (n := s.vdd.cend - s.vdd.cp) (k := 1)
  rw [← vddCmds, h, List.drop_one, List.tail_cons, Nat.sub_sub] at hdrop
  exact hdrop.symm

/-- The bytes a command's values stand in, once its command byte is fetched. -/
theorem vddData_skipped (hp : StripPass lay lo s) (h : vddCmds s = c :: cmds) :
    vddData (vddSkipped lay s) = byLayout lay cmds (vddData s) := by
  cases lay with
  | interleaved =>
    have hcmds := vddCmds_skipped (lay := .interleaved) h
    have hend : (vddSkipped .interleaved s).vdd.cend = s.vdd.rend := hp.oneStream rfl
    rw [vddCmds, hend] at hcmds
    exact hcmds
  | split => rfl

theorem stripPass_skipped (hp : StripPass lay lo s) (h : vddCmds s = c :: cmds) :
    StripPass lay lo (vddSkipped lay s) := by
  have hlen := length_vddCmds (s := s)
  have hcp := hp.lo_le_cp
  have hdp := hp.lo_le_dp
  have hend := hp.cend_le
  rw [h, List.length_cons] at hlen
  refine ⟨⟨hp.even, hp.evenColumn, hp.inColumn, hp.source, hp.plane, ?_⟩, hp.apart, ?_, ?_, ?_, ?_,
    hp.cend_le, hp.oneStream⟩
  · cases lay <;> rfl
  · exact Nat.le_succ_of_le hcp
  · cases lay with
    | interleaved => exact Nat.le_succ_of_le hcp
    | split => exact hdp
  · show s.vdd.cp + 1 ≤ s.vdd.cend
    omega
  · cases lay with
    | interleaved =>
      show s.vdd.cp + 1 ≤ s.vdd.rend
      omega
    | split => exact hp.dp_le

theorem stripPass_after (hp : StripPass lay lo s) (hk : k ≤ (vddWords s).length) :
    StripPass lay lo (vddAfter lay k ws s) := by
  have hdp : s.vdd.dp + 2 * k ≤ s.vdd.rend := by
    have hle := hp.dp_le
    rw [length_vddWords] at hk
    omega
  refine ⟨hp.toStripFits.after, hp.apart, ?_, Nat.le_add_right_of_le hp.lo_le_dp, ?_, hdp,
    hp.cend_le, hp.oneStream⟩
  · cases lay with
    | interleaved => exact Nat.le_add_right_of_le hp.lo_le_cp
    | split => exact hp.lo_le_cp
  · cases lay with
    | interleaved =>
      have hptr : s.vdd.cp = s.vdd.dp := hp.wordPtr
      have hend := hp.oneStream rfl
      show s.vdd.cp + 2 * k ≤ s.vdd.cend
      omega
    | split => exact hp.cp_le

theorem length_vddCmds_after : (vddCmds (vddAfter lay k ws s)).length ≤ (vddCmds s).length := by
  rw [length_vddCmds, length_vddCmds]
  refine Nat.sub_le_sub_left ?_ _
  cases lay with
  | interleaved => exact Nat.le_add_right _ _
  | split => exact le_rfl

theorem vddData_after (hp : StripPass lay lo s) (hws : ws.length ≤ vddRoom s) :
    vddData (vddAfter lay k ws s) = (vddData s).drop (2 * k) :=
  vddData_at (hp.apart.mono (Nat.le_add_right_of_le hp.lo_le_dp)) hws rfl

theorem vddCmds_after (hp : StripPass lay lo s) (hws : ws.length ≤ vddRoom s) :
    vddCmds (vddAfter lay k ws s) = byLayout lay ((vddData s).drop (2 * k)) (vddCmds s) := by
  cases lay with
  | interleaved =>
    have hptr : s.vdd.cp = s.vdd.dp := hp.wordPtr
    have hsame :
        vddCmds (vddAfter .interleaved k ws s) = vddData (vddAfter .interleaved k ws s) := by
      show bytesOf _ _ (s.vdd.cp + 2 * k) (s.vdd.cend - (s.vdd.cp + 2 * k)) = _
      rw [hptr, hp.oneStream rfl]
      rfl
    rw [hsame, vddData_after hp hws]
    rfl
  | split =>
    refine bytesOf_congr fun i hi =>
      refByte_at hp.apart hws (Nat.le_add_right_of_le hp.lo_le_cp) ?_
    have hend := hp.cend_le
    change i < s.vdd.cend - s.vdd.cp at hi
    change s.vdd.cp + i < s.vdd.rend
    omega

/-- What a reading of the stream to come is as the outcome `r` of a pass. -/
def StripReads (s : State) (q : StripReading)
    (r : EStateM.Result Stop State Unit) : Prop :=
  r = .ok () (vddStopped (some q.2.1)
    (vddAt (s.vdd.cend - q.2.2.1.length) (s.vdd.rend - q.2.2.2.length) q.1 s))

/-- A command before the rest of the pass. -/
theorem StripReads.after {q : StripReading}
    {r : EStateM.Result Stop State Unit} (h : StripReads (vddAt cp dp ws s) q r) :
    StripReads s (ws ++ q.1, q.2) r := by
  rw [StripReads, vddAt_at] at h
  exact h

/-- A pass that stops where it stands. -/
theorem stripReads_here (hp : StripPass lay lo s) (st : VddStatus) :
    StripReads s ([], st, vddCmds s, vddData s) (.ok () (vddStopped (some st) s)) := by
  have hcp := hp.cp_le
  have hdp := hp.dp_le
  rw [StripReads, vddAt_nil hp.toStripFits, length_vddCmds, length_vddData, Nat.sub_sub_self hcp,
    Nat.sub_sub_self hdp]

theorem vddLoop_full (hp : StripPass lay lo s) (h : vddRoom s = 0) (fuel : Nat) :
    vddLoop lay (fuel + 1) s = .ok () (vddStopped (some .full) s) := by
  have hfull : s.vdd.bytesPerLine ≤ s.vdd.x :=
    Nat.le_of_not_lt fun hx => (h ▸ (vddRoom_pos_iff hp.toStripFits).mpr hx).false
  rw [vddLoop, get_bind, if_pos hfull]
  rfl

theorem vddLoop_ended (hp : StripPass lay lo s) (hroom : 0 < vddRoom s) (h : vddCmds s = [])
    (fuel : Nat) : vddLoop lay (fuel + 1) s = .ok () (vddStopped (some .srcEnd) s) := by
  have hx := (vddRoom_pos_iff hp.toStripFits).mp hroom
  have hend : s.vdd.cend ≤ s.vdd.cp := by
    rwa [← List.length_eq_zero_iff, length_vddCmds, Nat.sub_eq_zero_iff_le] at h
  rw [vddLoop, get_bind, if_neg (Nat.not_le_of_lt hx), if_pos hend]
  rfl

theorem vddLoop_command (hp : StripPass lay lo s) (hroom : 0 < vddRoom s)
    (h : vddCmds s = c :: cmds) (fuel : Nat) :
    vddLoop lay (fuel + 1) s = (vdCommand lay (decodeVd c) >>= fun stopped =>
      if stopped then pure () else vddLoop lay fuel) s := by
  have hx := (vddRoom_pos_iff hp.toStripFits).mp hroom
  have hlen := length_vddCmds (s := s)
  have hend := hp.cend_le
  have hsource := hp.source
  rw [h, List.length_cons] at hlen
  have hc : BitVec.ofNat 8 (beRead s.mem (refOf s.vdd.src) s.vdd.cp 1) = c := by
    have hfirst : refByte s.mem (refOf s.vdd.src) s.vdd.cp = c := by
      obtain ⟨len, hrest⟩ : ∃ len, s.vdd.cend - s.vdd.cp = len + 1 := ⟨_, hlen.symm⟩
      rw [vddCmds, hrest, bytesOf_cons] at h
      exact (List.cons.inj h).1
    simp [beRead, hfirst]
  rw [vddLoop, get_bind, if_neg (Nat.not_le_of_lt hx), if_neg (by omega),
    bind_ok (memRead_ok (by omega) s), hc]

theorem StripReads.skipped {q : StripReading}
    {r : EStateM.Result Stop State Unit} (hs : StripFits lay s)
    (h : StripReads (vddSkipped lay s) q r) : StripReads s q r := by
  have hskip : vddSkipped lay s =
      vddAt (s.vdd.cp + 1) (byLayout lay (s.vdd.cp + 1) s.vdd.dp) [] s := (vddAt_nil hs).symm
  rw [hskip] at h
  exact h.after

/-- A command's reading, and the rest of the pass if it has not stopped. -/
theorem stripReads_andThen {q : VdReading} {t : State} {x : Op Bool} {f : Bool → Op Unit}
    {rest : List Byte → List Byte → Nat → StripReading}
    (hp : StripPass lay lo t) (hq : q.Sound (vddWords t).length (vddRoom t))
    (hx : x s = vddResult lay q t) (hstop : f true = pure ())
    (hrest : ∀ u, StripPass lay lo u → (vddCmds u).length ≤ (vddCmds t).length →
      StripReads u (rest (vddCmds u) (vddData u) (vddRoom u)) (f false u)) :
    StripReads t (q.andThen lay (vddCmds t) (vddData t) (vddRoom t) rest) ((x >>= f) s) := by
  have hpu := stripPass_after (ws := q.values) hp hq.fetched_le
  have hcmds := vddCmds_after (k := q.fetched) hp hq.values_le
  have hdata := vddData_after (k := q.fetched) hp hq.values_le
  rw [bind_ok hx, VdReading.andThen, ← hdata, ← vddRoom_after (lay := lay) (k := q.fetched)]
  rw [← hdata] at hcmds
  rw [← hcmds]
  cases q.stop with
  | some st =>
    have hhere := (stripReads_here hpu st).after
    rw [List.append_nil] at hhere
    rw [Option.isSome_some, hstop]
    exact hhere
  | none => exact (hrest _ hpu length_vddCmds_after).after

/-- One round of the loop (R243): the command at the command pointer is the stream's first. -/
theorem vddLoop_command_reads (hp : StripPass lay lo s) (hroom : 0 < vddRoom s)
    (h : vddCmds s = c :: cmds)
    (hrest : ∀ u, StripPass lay lo u → (vddCmds u).length ≤ cmds.length →
      StripReads u (stripList lay fuel (vddCmds u) (vddData u) (vddRoom u))
        (vddLoop lay fuel u)) :
    StripReads s (stripList lay (fuel + 1) (vddCmds s) (vddData s) (vddRoom s))
      (vddLoop lay (fuel + 1) s) := by
  have hpt := stripPass_skipped hp h
  have hcmds := vddCmds_skipped (lay := lay) h
  have hrun := vdCommand_run hpt.toStripFits (hpt.apart.mono hpt.lo_le_dp) (decodeVd c)
  rw [vddLoop_command hp hroom h, h, stripList_cons hroom, ← vddData_skipped hp h]
  rw [← hcmds] at hrest ⊢
  exact .skipped hp.toStripFits
    (stripReads_andThen hpt (readCommand_sound hroom) hrun rfl hrest)

theorem vddLoop_stops (hp : StripPass lay lo s) (h : vddRoom s = 0 ∨ vddCmds s = []) :
    StripReads s (stripList lay (fuel + 1) (vddCmds s) (vddData s) (vddRoom s))
      (vddLoop lay (fuel + 1) s) := by
  rcases Nat.eq_zero_or_pos (vddRoom s) with hfull | hroom
  · rw [hfull, stripList_full, vddLoop_full hp hfull]
    exact stripReads_here hp .full
  · have hcmds := h.resolve_left hroom.ne'
    rw [hcmds, stripList_ended hroom, vddLoop_ended hp hroom hcmds, ← hcmds]
    exact stripReads_here hp .srcEnd

/-- The loop is the reading of the stream to come, with a round of fuel for each command byte and
one to stop in. -/
theorem vddLoop_reads (hp : StripPass lay lo s) (hfuel : (vddCmds s).length ≤ fuel) :
    StripReads s (stripList lay (fuel + 1) (vddCmds s) (vddData s) (vddRoom s))
      (vddLoop lay (fuel + 1) s) := by
  induction fuel generalizing s with
  | zero => exact vddLoop_stops hp (.inr (List.length_eq_zero_iff.mp (Nat.le_zero.mp hfuel)))
  | succ fuel ih =>
    cases hcmds : vddCmds s with
    | nil => exact hcmds ▸ vddLoop_stops hp (.inr hcmds)
    | cons c cmds =>
      rcases Nat.eq_zero_or_pos (vddRoom s) with hfull | hroom
      · exact hcmds ▸ vddLoop_stops hp (.inl hfull)
      · rw [hcmds] at hfuel
        exact hcmds ▸ vddLoop_command_reads hp hroom hcmds fun u hpu hle =>
          ih hpu (hle.trans (Nat.le_of_succ_le_succ hfuel))

/-! ### The whole operation -/

section
variable {m : Mem} {source dst : BufRef} {base len dbase bpl h : Nat}

theorem stripCommandsEnd_le {region : List Byte} :
    stripCommandsEnd lay region ≤ region.length := by
  cases lay with
  | interleaved => exact le_rfl
  | split =>
    rw [stripCommandsEnd.eq_def]
    dsimp only
    split
    · exact le_rfl
    · exact Nat.min_le_right _ _

/-- The initial pointers, by where the command bytes end (R237). -/
theorem vddPointers_eq : vddPointers lay m source base len =
    let cend := stripCommandsEnd lay (bytesOf m source base len)
    (base + byLayout lay 0 (min 2 cend), base + cend, base + byLayout lay 0 cend) := by
  cases lay with
  | interleaved =>
    rw [stripCommandsEnd.eq_def, bytesOf_length]
    rfl
  | split =>
    rw [stripCommandsEnd.eq_def, bytesOf_length, vddPointers.eq_def]
    dsimp only [byLayout]
    by_cases hlen : len < 2
    · rw [if_pos hlen, wordsOf_bytesOf_short hlen]
      dsimp only
      rw [Nat.min_eq_right (Nat.le_of_lt hlen)]
    · obtain ⟨rest, rfl⟩ := Nat.exists_eq_add_of_le' (Nat.le_of_not_lt hlen)
      have hhead (n : Nat) : 2 ≤ min (max n 2) (rest + 2) := by omega
      rw [if_neg hlen, wordsOf_bytesOf_cons, beRead_two, Nat.add_min_add_left]
      dsimp only
      rw [Nat.min_eq_left (hhead _)]

/-- The state in which the loop of `VDD.DECODE` starts (R243). -/
def stripStart (lay : Config.VdatLayout) (s : State) (source : BufRef) (base len : Nat)
    (dst : BufRef) (dbase bpl h : Nat) : State :=
  let p := vddPointers lay s.mem source base len
  claim .vdd (windowOf dst dbase (bpl * h)) { s with
    vdd := { src := some source, dst := some dst, cp := p.1, cend := p.2.1, dp := p.2.2
             rend := base + len, dbase := dbase, bytesPerLine := bpl, h := h, x := 0, y := 0
             status := s.vdd.status, fault := { s.vdd.fault with valid := false } } }

theorem stripPass_start (hh : h ≠ 0) (heven : bpl % 2 = 0) (hin : base + len ≤ source.len)
    (hplane : dbase + bpl * h ≤ dst.len)
    (hapart : rangesMeet source base (base + len) dst dbase (dbase + bpl * h) = false) :
    StripPass lay base (stripStart lay s source base len dst dbase bpl h) := by
  have hle : stripCommandsEnd lay (bytesOf s.mem source base len) ≤ len :=
    stripCommandsEnd_le.trans_eq (bytesOf_length _ _ _ _)
  rw [stripStart, vddPointers_eq]
  refine ⟨⟨heven, rfl, Nat.pos_of_ne_zero hh, hin, hplane, ?_⟩, hapart, Nat.le_add_right _ _,
    Nat.le_add_right _ _, Nat.add_le_add_left ?_ _, Nat.add_le_add_left ?_ _,
    Nat.add_le_add_left hle _, ?_⟩
  · cases lay <;> rfl
  · cases lay with
    | interleaved => exact Nat.zero_le _
    | split => exact Nat.min_le_right _ _
  · cases lay with
    | interleaved => exact Nat.zero_le _
    | split => exact hle
  · rintro rfl
    exact congrArg (base + ·) (bytesOf_length _ _ _ _)

theorem vddCmds_start : vddCmds (stripStart lay s source base len dst dbase bpl h) =
    ((bytesOf s.mem source base len).take
      (stripCommandsEnd lay (bytesOf s.mem source base len))).drop
        (byLayout lay 0 (min 2 (stripCommandsEnd lay (bytesOf s.mem source base len)))) := by
  have hle := stripCommandsEnd_le (lay := lay) (region := bytesOf s.mem source base len)
  rw [bytesOf_length] at hle
  rw [take_bytesOf hle, drop_bytesOf, ← Nat.add_sub_add_left base, vddCmds, stripStart,
    vddPointers_eq]
  rfl

theorem vddData_start : vddData (stripStart lay s source base len dst dbase bpl h) =
    (bytesOf s.mem source base len).drop
      (byLayout lay 0 (stripCommandsEnd lay (bytesOf s.mem source base len))) := by
  rw [drop_bytesOf, ← Nat.add_sub_add_left base, vddData, stripStart, vddPointers_eq]
  rfl

theorem stripIndex_start :
    stripIndex (stripStart lay s source base len dst dbase bpl h).vdd = 0 := by
  show 0 / 2 * h + 0 = 0
  simp

theorem vddRoom_start :
    vddRoom (stripStart lay s source base len dst dbase bpl h) = bpl / 2 * h := by
  rw [vddRoom, stripIndex_start]
  rfl

/-- The reading of the source region is the reading from the initial pointers on. -/
theorem stripEmits_start :
    stripEmits lay (bytesOf s.mem source base len) (bpl / 2 * h) =
      stripList lay (len + 1) (vddCmds (stripStart lay s source base len dst dbase bpl h))
        (vddData (stripStart lay s source base len dst dbase bpl h))
        (vddRoom (stripStart lay s source base len dst dbase bpl h)) := by
  rw [vddCmds_start, vddData_start, vddRoom_start, stripEmits.eq_def, bytesOf_length]
  generalize bytesOf s.mem source base len = region
  cases lay with
  | interleaved =>
    have hall : region.take (stripCommandsEnd .interleaved region) = region := List.take_length
    rw [hall]
    rfl
  | split =>
    have hhead (n : Nat) : (region.take n).drop (min 2 n) = (region.take n).drop 2 := by
      rcases Nat.le_total 2 n with hle | hle
      · rw [Nat.min_eq_left hle]
      · rw [Nat.min_eq_right hle, List.drop_eq_nil_of_le (List.length_take_le _ _),
          List.drop_eq_nil_of_le ((List.length_take_le _ _).trans hle)]
    dsimp only [byLayout]
    rw [hhead]

theorem vddDecodeOp_run (hh : h ≠ 0) (heven : bpl % 2 = 0) (hin : base + len ≤ source.len)
    (hplane : dbase + bpl * h ≤ dst.len)
    (hapart : rangesMeet source base (base + len) dst dbase (dbase + bpl * h) = false) :
    vddDecodeOp lay source base len dst dbase bpl h s =
      (endPass .vdd (vddLoop lay (len + 1)) >>= fun _ => do
        let t ← get
        pure (.status t.vdd.status)) (stripStart lay s source base len dst dbase bpl h) := by
  rw [vddDecodeOp, bind_ok (clearFault_run .vdd s), raiseIf_bind_false (by omega),
    raiseIf_bind_false (Nat.not_lt_of_le hin), raiseIf_bind_false (Nat.not_lt_of_le hplane),
    raiseIf_bind_false (by simp [hapart])]
  rfl

/-- After a whole pass, which has emitted `ws` and stopped with `st`. -/
theorem unbind_stripStart {st : VddStatus} (hplane : dbase + bpl * h ≤ dst.len) :
    unbind .vdd (vddStopped (some st)
        (vddAt cp dp ws (stripStart lay s source base len dst dbase bpl h))) =
      { overwrite .vdd ((List.range ws.length).map fun q =>
            ⟨dst.id, dst.base + (dbase + q % h * bpl + 2 * (q / h)), 2⟩)
          (claim .vdd ⟨dst.id, dst.base + dbase, bpl * h⟩ s) with
        mem := writeWords dst (fun q => dbase + q % h * bpl + 2 * (q / h)) s.mem 0 ws
        vdd := { src := none, dst := none, cp := cp
                 cend := base + stripCommandsEnd lay (bytesOf s.mem source base len), dp := dp
                 rend := base + len, dbase := dbase, bytesPerLine := bpl, h := h
                 x := 2 * (ws.length / h), y := ws.length % h, status := st
                 fault := { s.vdd.fault with valid := false } } } := by
  rw [vddAt, stripWindows, stripIndex_start]
  simp only [Nat.zero_add]
  rw [stripStart, vddPointers_eq, windowOf_of_le hplane]
  rfl

/-- What a whole pass writes: the values it emits, down the columns and then across (R238). -/
theorem stripStart_emits (hp : StripPass lay lo (stripStart lay s source base len dst dbase bpl h))
    (hdst : refOk s.mem dst) (hroom : ws.length ≤ bpl / 2 * h) :
    let place := fun q => dbase + q % h * bpl + 2 * (q / h)
    let mem := writeWords dst place s.mem 0 ws
    (∀ k (hk : k < ws.length),
      refByte mem dst (place k) = ws[k].1 ∧ refByte mem dst (place k + 1) = ws[k].2) ∧
      ∀ id a, (id ≠ dst.id ∨ ∀ k < ws.length,
          a ≠ dst.base + place k ∧ a ≠ dst.base + place k + 1) →
        byteAt mem id a = byteAt s.mem id a := by
  have hemits := vddAt_emits (cp := 0) (dp := 0) hp.toStripFits hdst
    (hroom.trans_eq vddRoom_start.symm)
  simp only [vddAt_mem, stripIndex_start, Nat.zero_add] at hemits
  exact hemits

/-- The operation completes with the reading of the source region. -/
theorem vddDecodeOp_completes (hh : h ≠ 0) (heven : bpl % 2 = 0) (hin : base + len ≤ source.len)
    (hplane : dbase + bpl * h ≤ dst.len)
    (hapart : rangesMeet source base (base + len) dst dbase (dbase + bpl * h) = false) :
    let q := stripEmits lay (bytesOf s.mem source base len) (bpl / 2 * h)
    let start := stripStart lay s source base len dst dbase bpl h
    let cend := base + stripCommandsEnd lay (bytesOf s.mem source base len)
    runOp (vddDecodeOp lay source base len dst dbase bpl h) s = completes (.status q.2.1)
      (unbind .vdd (vddStopped (some q.2.1)
        (vddAt (cend - q.2.2.1.length) (base + len - q.2.2.2.length) q.1 start))) := by
  have hp := stripPass_start (lay := lay) (s := s) hh heven hin hplane hapart
  have hreads := vddLoop_reads hp (fuel := len) (by simp [vddCmds_start])
  have hcend : (stripStart lay s source base len dst dbase bpl h).vdd.cend =
      base + stripCommandsEnd lay (bytesOf s.mem source base len) := by
    rw [stripStart, vddPointers_eq]
    rfl
  rw [← stripEmits_start, StripReads, hcend] at hreads
  exact runOp_ok ((vddDecodeOp_run hh heven hin hplane hapart).trans (bind_ok (endPass_ok hreads)))

end

end Sys2Proof.Machine

namespace Sys2Proof.Proofs

open Sys2Proof.Machine

/-- Settles O39: the loop is the reading of the source region; what it emits it writes. -/
theorem vddDecodeExpands : Obligations.VddDecodeExpands := by
  intro s src base len dst dbase bpl h hh heven hin hplane hdisjoint
  dsimp only
  have hapart : rangesMeet (wholeBuf s.mem src) base (base + len) (wholeBuf s.mem dst) dbase
      (dbase + bpl * h) = false :=
    rangesMeet_eq_false_iff.mpr fun hid => by simpa [wholeBuf] using hdisjoint.resolve_left (· hid)
  have hp := stripPass_start (lay := Config.vdatLayout) (s := s) hh heven hin hplane hapart
  have hrun := vddDecodeOp_completes (lay := Config.vdatLayout) (s := s) hh heven hin hplane hapart
  have hbase (n : Nat) : (wholeBuf s.mem dst).base + n = n := Nat.zero_add n
  dsimp only at hrun
  rw [unbind_stripStart hplane] at hrun
  simp only [hbase] at hrun
  obtain ⟨hroom, hstatus, hfull⟩ := stripEmits_outcome (lay := Config.vdatLayout)
    (region := bytesOf s.mem (wholeBuf s.mem src) base len) (room := bpl / 2 * h)
  obtain ⟨hvalues, houtside⟩ := stripStart_emits hp (refOk_wholeBuf s.mem dst) hroom
  simp only [refByte, hbase] at hvalues houtside
  refine ⟨hroom, hstatus, hfull, _, hrun, fun q hq => ?_, fun id a hother => houtside id a ?_⟩
  · rw [List.getD_eq_getElem _ _ hq]
    exact hvalues q hq
  · by_cases hid : id = dst
    · exact .inr fun k hk => not_or.mp fun hplace => hother ⟨hid, k, hk, hplace⟩
    · exact .inl hid

end Sys2Proof.Proofs
end

section
/-! Lists of bytes as they stand in a bound buffer, and the big-endian numbers in them (R10, R72). -/

namespace Sys2Proof.Machine

variable {m : Mem} {r : BufRef} {off n : Nat} {bs cs : List Byte}

/-! ### A list of bytes at an offset -/

/-- The bytes `bs` stand in `r` from `off` on. -/
def bytesAt (m : Mem) (r : BufRef) (off : Nat) (bs : List Byte) : Prop :=
  bytesOf m r off bs.length = bs

theorem bytesAt_of_eq (h : bytesOf m r off n = bs) : bytesAt m r off bs := by
  rw [bytesAt, ← h, bytesOf_length]

theorem bytesAt_append :
    bytesAt m r off (bs ++ cs) ↔ bytesAt m r off bs ∧ bytesAt m r (off + bs.length) cs := by
  have hsplit : bytesOf m r off (bs ++ cs).length =
      bytesOf m r off bs.length ++ bytesOf m r (off + bs.length) cs.length := by
    rw [← List.take_append_drop bs.length (bytesOf m r off _), take_bytesOf (by simp), drop_bytesOf]
    simp
  rw [bytesAt, hsplit]
  exact ⟨fun h => List.append_inj h (bytesOf_length ..), fun ⟨hb, hc⟩ => congrArg₂ (· ++ ·) hb hc⟩

theorem refByte_of_bytesAt (h : bytesAt m r off bs) (hn : n < bs.length) :
    refByte m r (off + n) = bs.getD n 0 := by
  rw [← bytesOf_getElem (n := bs.length) (by simpa using hn), List.getD_eq_getElem _ _ hn]
  exact List.getElem_of_eq h _

/-! ### Big-endian numbers -/

theorem beRead_of_bytesAt : ∀ {n v : Nat}, bytesAt m r off (beBytes n v) → v < 256 ^ n →
    beRead m r off n = v
  | 0, v, _, hv => by simpa [beRead, eq_comm] using hv
  | n + 1, v, h, hv => by
    obtain ⟨hhigh, hlow⟩ := bytesAt_append.mp h
    have hbyte := refByte_of_bytesAt (n := 0) hlow (Nat.one_pos)
    rw [beBytes_length, Nat.add_zero] at hbyte
    have hread := beRead_of_bytesAt hhigh (Nat.div_lt_of_lt_mul (by rwa [← pow_succ']))
    rw [beRead, hread, hbyte, List.getD_cons_zero, BitVec.toNat_ofNat]
    omega

theorem ofNat_beRead_one : BitVec.ofNat 8 (beRead m r off 1) = refByte m r off := by
  simp [beRead]

theorem ofNat_beRead_two :
    BitVec.ofNat 16 (beRead m r off 2) = refByte m r off ++ refByte m r (off + 1) := by
  apply BitVec.eq_of_toNat_eq
  have hlt : beRead m r off 2 < 2 ^ 16 := beRead_lt m r off 2
  rw [BitVec.toNat_ofNat, Nat.mod_eq_of_lt hlt, toNat_append_bytes]
  simp [beRead]

theorem beRead_four : beRead m r off 4 =
    (refByte m r off ++ refByte m r (off + 1) ++ refByte m r (off + 2) ++ refByte m r (off + 3) :
      U32).toNat := by
  simp only [toNat_append_bytes]
  simp [beRead]

theorem ofNat_beRead_four : BitVec.ofNat 32 (beRead m r off 4) =
    refByte m r off ++ refByte m r (off + 1) ++ refByte m r (off + 2) ++ refByte m r (off + 3) := by
  rw [beRead_four]
  exact BitVec.ofNat_toNat .. |>.trans (BitVec.setWidth_eq _)

end Sys2Proof.Machine
end

section
/-! The chunk reader (R261 to R269): what each operation does to a ready reader; O40 and O41. -/

namespace Sys2Proof.Machine

variable {s : State} {n : Nat}

/-! ### Views (R267, R268) -/

/-- A view pushed over `[base, base + length)` of the source (R267). -/
def pushView (base length : Nat) (s : State) : State :=
  { s with ckr := { s.ckr with
      depth := s.ckr.depth + 1
      views := sput View.zero s.ckr.views s.ckr.depth ⟨base, length, 0⟩ } }

/-- The current view discarded (R268). -/
def popView (s : State) : State := { s with ckr := { s.ckr with depth := s.ckr.depth - 1 } }

theorem ckrEnterOp_full {base length : Nat} (hr : ready .ckr s) (hd : s.ckr.depth = Config.ckDepth) :
    ckrEnterOp base length s =
      .error .faulted (withFault .ckr (raisedReg .stack s.ckr.depth) s) :=
  (enter_bind hr).trans (raiseIf_bind_true hd)

theorem ckrEnterOp_past {base length : Nat} (hr : ready .ckr s) (hd : s.ckr.depth ≠ Config.ckDepth)
    (hlen : (refOf s.ckr.src).len < base + length) : ckrEnterOp base length s =
      .error .faulted (withFault .ckr (raisedReg .pastEnd (base + length)) s) :=
  (enter_bind hr).trans ((raiseIf_bind_false hd).trans (raiseIf_bind_true hlen))

theorem ckrEnterOp_ok {base length : Nat} (hr : ready .ckr s) (hd : s.ckr.depth ≠ Config.ckDepth)
    (hlen : base + length ≤ (refOf s.ckr.src).len) :
    ckrEnterOp base length s = .ok () (pushView base length s) :=
  (enter_bind hr).trans ((raiseIf_bind_false hd).trans (raiseIf_bind_false (Nat.not_lt.mpr hlen)))

theorem ckrLeaveOp_last (hr : ready .ckr s) (hd : s.ckr.depth ≤ 1) : ckrLeaveOp s =
    .error .faulted (withFault .ckr (raisedReg .stack s.ckr.depth) s) :=
  (enter_bind hr).trans (raiseIf_bind_true hd)

theorem ckrLeaveOp_ok (hr : ready .ckr s) (hd : 1 < s.ckr.depth) :
    ckrLeaveOp s = .ok () (popView s) :=
  (enter_bind hr).trans (raiseIf_bind_false (Nat.not_le.mpr hd))

/-! ### Looking ahead (R265, R266) -/

theorem ckrEofOp_ok (hr : ready .ckr s) : ckrEofOp s = .ok (viewEof (curView s)) s := enter_bind hr

theorem ckrPeekOp_none (hr : ready .ckr s) (h : (curView s).len < (curView s).pos + 8) :
    ckrPeekOp s = .ok none s := by
  refine (enter_bind hr).trans ?_
  rw [get_bind]
  simp only [h, if_true]
  rfl

theorem ckrPeekOp_some (hr : ready .ckr s) (h : (curView s).pos + 8 ≤ (curView s).len) :
    ckrPeekOp s = .ok (some (BitVec.ofNat 32 (viewRead s (curView s).pos 4),
      viewRead s ((curView s).pos + 4) 4)) s := by
  refine (enter_bind hr).trans ?_
  rw [get_bind]
  simp only [Nat.not_lt.mpr h, if_false]
  rfl

/-! ### Reading on (R262, R263, R269) -/

theorem ckrReadOp_past (hr : ready .ckr s) (h : (curView s).len < (curView s).pos + n) :
    ckrReadOp n s = .error .faulted
      (withFault .ckr (raisedReg .pastEnd ((curView s).base + (curView s).pos)) s) :=
  (enter_bind hr).trans (raiseIf_bind_true h)

theorem ckrReadOp_ok (hr : ready .ckr s) (h : (curView s).pos + n ≤ (curView s).len) :
    ckrReadOp n s = .ok (viewRead s (curView s).pos n) (setViewPos ((curView s).pos + n) s) :=
  (enter_bind hr).trans (raiseIf_bind_false (Nat.not_lt.mpr h))

/-- The length of the chunk whose header stands at the position (R262). -/
def chunkLength (s : State) : Nat := viewRead s ((curView s).pos + 4) 4

theorem ckrReadchunkOp_trunc (hr : ready .ckr s) (h : (curView s).len < (curView s).pos + 8) :
    ckrReadchunkOp s = .error .faulted
      (withFault .ckr (raisedReg .chunkHdrTrunc ((curView s).base + (curView s).pos)) s) :=
  (enter_bind hr).trans (raiseIf_bind_true h)

theorem ckrReadchunkOp_overrun (hr : ready .ckr s) (hhdr : (curView s).pos + 8 ≤ (curView s).len)
    (h : (curView s).len < (curView s).pos + 8 + chunkLength s) :
    ckrReadchunkOp s =
      .error .faulted (withFault .ckr (raisedReg .chunkOverrun (chunkLength s)) s) :=
  (enter_bind hr).trans
    ((raiseIf_bind_false (Nat.not_lt.mpr hhdr)).trans (raiseIf_bind_true h))

theorem ckrReadchunkOp_ok (hr : ready .ckr s)
    (h : (curView s).pos + 8 + chunkLength s ≤ (curView s).len) :
    ckrReadchunkOp s =
      .ok (BitVec.ofNat 32 (viewRead s (curView s).pos 4), chunkLength s,
          (curView s).base + (curView s).pos + 8)
        (setViewPos (padProbe s ((curView s).pos + 8 + chunkLength s)) s) :=
  (enter_bind hr).trans ((raiseIf_bind_false (by omega)).trans
    (raiseIf_bind_false (Nat.not_lt.mpr h)))

/-- The pad probe looks at one byte (R263). -/
theorem padProbe_eq (s : State) (np : Nat) : padProbe s np =
    if np % 2 = 1 ∧ np < (curView s).len ∧
      refByte s.mem (refOf s.ckr.src) ((curView s).base + np) = 0 then np + 1 else np := by
  simp [padProbe, viewRead, beRead, ← BitVec.toNat_inj]

/-! ### Instructions that read (R269) -/

/-- An instruction that reads `n` bytes and answers `g` of their number. -/
theorem runOp_ckrRead {g : Nat → Result} (hr : ready .ckr s) :
    let v := curView s
    let x : Op Result := do let w ← ckrReadOp n; pure (g w)
    (v.len < v.pos + n → runOp x s = raises .ckr .pastEnd (v.base + v.pos) s) ∧
    (¬ v.len < v.pos + n →
      runOp x s = completes (g (viewRead s v.pos n)) (setViewPos (v.pos + n) s)) :=
  ⟨fun h => runOp_raises (bind_error (ckrReadOp_past hr h)),
    fun h => runOp_ok (bind_ok (ckrReadOp_ok hr (Nat.not_lt.mp h)))⟩

end Sys2Proof.Machine

namespace Sys2Proof.Proofs

open Sys2Proof.Machine

/-- Settles O41: the model's big-endian numbers are the header's bytes put together. -/
theorem ckrReadchunk : Obligations.CkrReadchunk := by
  intro s hr v b tag len np
  have hlen : len = chunkLength s := (beRead_four (off := v.base + (v.pos + 4))).symm
  have htag : tag = BitVec.ofNat 32 (viewRead s v.pos 4) := ofNat_beRead_four.symm
  refine ⟨fun h => ?_, fun hhdr h => ?_, fun h => ?_⟩
  · exact runOp_raises (bind_error (ckrReadchunkOp_trunc hr h))
  · rw [hlen]
    exact runOp_raises (bind_error (ckrReadchunkOp_overrun hr hhdr (hlen ▸ h)))
  · rw [htag, hlen, ← padProbe_eq]
    simp only [np, hlen] at h ⊢
    exact runOp_ok (bind_ok (ckrReadchunkOp_ok hr h))

/-- Settles O40: one case for each outcome of each operation. -/
theorem ckrViewsReads : Obligations.CkrViewsReads := by
  refine ⟨fun s buf base length => ⟨rfl, fun hr => ?views⟩, fun s hr => ?looks, fun s hr => ?reads⟩
  case views =>
    refine ⟨fun hd => ?_, fun hd h => ?_, fun hd h => ?_, fun hd => ?_, fun hd => ?_⟩
    · exact runOp_raises (bind_error (ckrEnterOp_full hr hd))
    · exact runOp_raises (bind_error (ckrEnterOp_past hr hd h))
    · exact runOp_ok (bind_ok (ckrEnterOp_ok hr hd h))
    · exact runOp_raises (bind_error (ckrLeaveOp_last hr hd))
    · exact runOp_ok (bind_ok (ckrLeaveOp_ok hr hd))
  case looks =>
    refine ⟨runOp_ok (bind_ok (ckrEofOp_ok hr)), fun h => runOp_ok (bind_ok (ckrPeekOp_none hr h)),
      fun h => ?_⟩
    have hrun : exec .ckrPeek s = completes (.peek _) s := runOp_ok (bind_ok (ckrPeekOp_some hr h))
    rw [viewRead, viewRead, ofNat_beRead_four, beRead_four] at hrun
    exact hrun
  case reads =>
    dsimp only
    refine ⟨(runOp_ckrRead hr).1, fun h => ((runOp_ckrRead hr).2 h).trans ?_,
      (runOp_ckrRead hr).1, fun h => ((runOp_ckrRead hr).2 h).trans ?_,
      (runOp_ckrRead hr).1, fun h => ((runOp_ckrRead hr).2 h).trans ?_⟩
    · rw [viewRead, ofNat_beRead_one]
      rfl
    · rw [viewRead, ofNat_beRead_two]
      rfl
    · rw [viewRead, ofNat_beRead_four]
      rfl

end Sys2Proof.Proofs
end

section
/-! The scan's use of the chunk reader (R314, R317): the views in which SEQ reads, what each of its calls
reads there, and how an operation of SEQ fails. -/

namespace Sys2Proof.Machine

variable {α β : Type} {x : Op α} {f : α → Op β} {a : α} {s t : State} {c : BufRef} {v w : View}
  {vs ws : List View} {base len pos n : Nat} {e : FaultCode × Nat}

/-! ### A failing operation of SEQ (R314, R383) -/

/-- The operation stops with SEQ left FAULTED with the fault `e`, and changes no memory. -/
def Fails (e : FaultCode × Nat) (x : Op α) (s : State) : Prop :=
  ∃ t, x s = .error .faulted t ∧ t.mem = s.mem ∧ t.seq.state = .faulted ∧
    t.seq.fault = raisedReg e.1 e.2

theorem Fails.bind (h : Fails e x s) : Fails e (x >>= f) s :=
  let ⟨t, hx, hleft⟩ := h
  ⟨t, bind_error hx, hleft⟩

theorem Fails.after (hx : x s = .ok a t) (hmem : t.mem = s.mem) (h : Fails e (f a) t) :
    Fails e (x >>= f) s := by
  obtain ⟨u, hf, hm, hleft⟩ := h
  exact ⟨u, (bind_ok hx).trans hf, hm.trans hmem, hleft⟩

/-- An operation that runs as another does fails as the other does. -/
theorem Fails.of_run {y : Op α} (hrun : x s = y t) (hmem : t.mem = s.mem) (h : Fails e y t) :
    Fails e x s := by
  obtain ⟨u, hy, hm, hleft⟩ := h
  exact ⟨u, hrun.trans hy, hm.trans hmem, hleft⟩

theorem fails_seqRaiseIf {p : Prop} [Decidable p] (h : p) : Fails e (seqRaiseIf p e.1 e.2) s :=
  ⟨_, seqRaiseIf_true h _ _ _, by simp, rfl, faultOf_withFault .seq _ s⟩

theorem seqRaiseIf_bind {p : Prop} [Decidable p] {g : Unit → Op β} {code : FaultCode} {info : Nat}
    (h : ¬ p) : (seqRaiseIf p code info >>= g) s = g () s := bind_ok (seqRaiseIf_false h _ _ _)

theorem fails_seqCall {u : UnitId}
    (h : x s = .error .faulted (withFault u (raisedReg e.1 e.2) s)) : Fails e (seqCall u x) s := by
  refine ⟨_, seqCall_faulted h, by simp, rfl, ?_⟩
  rw [faultOf_withFault, seqFaulted_seq_fault]
  exact faultOf_withFault .seq _ _

/-! ### The stack of views (R260, R267, R268) -/

/-- The views `vs`, innermost first, stand at the bottom of a table of views. -/
def stacked : List View → List (Nat × View) → Prop
  | [], _ => True
  | v :: vs, m => sget View.zero m vs.length = v ∧ stacked vs m

theorem stacked_sput {m : List (Nat × View)} : ∀ {vs : List View}, vs.length ≤ n → stacked vs m →
    stacked vs (sput View.zero m n v)
  | [], _, _ => trivial
  | _ :: _, hn, ⟨hv, hvs⟩ =>
    ⟨(sget_sput_ne _ _ _ _ (Nat.ne_of_lt hn)).trans hv, stacked_sput (Nat.le_of_succ_le hn) hvs⟩

/-- A ready chunk reader over `c` in which exactly the views `vs` are open, innermost first. -/
structure Reading (c : BufRef) (vs : List View) (s : State) : Prop where
  ready : ready .ckr s
  src : s.ckr.src = some c
  depth : s.ckr.depth = vs.length
  stack : stacked vs s.ckr.views

/-- The state of a scan that has reached the views `m`, the palette unit `p` and the registers `q`. -/
def scanned (m : List (Nat × View)) (p : Pal) (q : Seq) (s : State) : State :=
  { s with ckr := { s.ckr with views := m }, pal := p, seq := q }

namespace Reading

theorem source (h : Reading c vs s) : refOf s.ckr.src = c := by rw [h.src]; rfl

theorem curView (h : Reading c (v :: vs) s) : curView s = v := by
  rw [Machine.curView, h.depth]
  exact h.stack.1

theorem scanned {m : List (Nat × View)} {p : Pal} {q : Seq} (h : Reading c vs s) (hm : stacked ws m)
    (hlen : ws.length = vs.length) : Reading c ws (scanned m p q s) :=
  ⟨h.ready, h.src, h.depth.trans hlen.symm, hm⟩

theorem pushView (h : Reading c vs s) : Reading c (⟨base, len, 0⟩ :: vs) (pushView base len s) where
  ready := h.ready
  src := h.src
  depth := congrArg (· + 1) h.depth
  stack := ⟨by rw [← h.depth]; exact sget_sput_self _ _ _ _, stacked_sput h.depth.ge h.stack⟩

theorem popView (h : Reading c (v :: vs) s) : Reading c vs (popView s) where
  ready := h.ready
  src := h.src
  depth := congrArg (· - 1) h.depth
  stack := h.stack.2

/-- Moving the position keeps the views further out. -/
theorem stacked_setViewPos (h : Reading c (⟨base, len, pos⟩ :: vs) s) :
    stacked (⟨base, len, n⟩ :: vs) (setViewPos n s).ckr.views := by
  have hd : s.ckr.depth - 1 = vs.length := congrArg (· - 1) h.depth
  simp only [setViewPos, h.curView, hd]
  exact ⟨sget_sput_self _ _ _ _, stacked_sput le_rfl h.stack.2⟩

/-! ### The calls of the chunk reader -/

theorem enter (h : Reading c vs s) (hdeep : vs.length ≠ Config.ckDepth) (hlen : base + len ≤ c.len) :
    seqCall .ckr (ckrEnterOp base len) s = .ok () (Machine.pushView base len s) :=
  seqCall_ok (ckrEnterOp_ok h.ready (h.depth ▸ hdeep) (h.source.symm ▸ hlen))

theorem leave (h : Reading c (v :: w :: vs) s) :
    seqCall .ckr ckrLeaveOp s = .ok () (Machine.popView s) :=
  seqCall_ok (ckrLeaveOp_ok h.ready (h.depth ▸ Nat.one_lt_succ_succ _))

theorem eof (h : Reading c (v :: vs) s) : seqCall .ckr ckrEofOp s = .ok (viewEof v) s :=
  h.curView ▸ seqCall_ok (ckrEofOp_ok h.ready)

theorem peek (h : Reading c vs s) : ∃ pk, seqCall .ckr ckrPeekOp s = .ok pk s := by
  by_cases hlen : (Machine.curView s).len < (Machine.curView s).pos + 8
  · exact ⟨_, seqCall_ok (ckrPeekOp_none h.ready hlen)⟩
  · exact ⟨_, seqCall_ok (ckrPeekOp_some h.ready (Nat.not_lt.mp hlen))⟩

/-- `n` bytes read inside the current view (R269). -/
theorem read (h : Reading c (⟨base, len, pos⟩ :: vs) s) (hn : pos + n ≤ len) :
    ∃ m, stacked (⟨base, len, pos + n⟩ :: vs) m ∧
      seqRd n s = .ok (beRead s.mem c (base + pos) n) (Machine.scanned m s.pal s.seq s) := by
  refine ⟨_, h.stacked_setViewPos, ?_⟩
  have hrun := ckrReadOp_ok (n := n) h.ready (h.curView.symm ▸ hn)
  rw [viewRead, h.source, h.curView] at hrun
  exact seqCall_ok hrun

/-! ### A chunk header in the current view (R262) -/

theorem readchunk_trunc (h : Reading c (⟨base, len, pos⟩ :: vs) s) (hlen : len < pos + 8) :
    Fails (.chunkHdrTrunc, base + pos) (seqCall .ckr ckrReadchunkOp) s := by
  have hrun := ckrReadchunkOp_trunc h.ready (h.curView.symm ▸ hlen)
  rw [h.curView] at hrun
  exact fails_seqCall hrun

variable {tag : U32}

/-- The length a header's bytes give. -/
theorem chunkLength_eq (h : Reading c (⟨base, len, pos⟩ :: vs) s)
    (hb : bytesAt s.mem c (base + pos) (beBytes 4 tag.toNat ++ beBytes 4 n)) (hn : n < 2 ^ 32) :
    chunkLength s = n := by
  have hlength := (bytesAt_append.mp hb).2
  rw [beBytes_length, Nat.add_assoc] at hlength
  rw [chunkLength, viewRead, h.source, h.curView]
  exact beRead_of_bytesAt hlength hn

theorem readchunk_overrun (h : Reading c (⟨base, len, pos⟩ :: vs) s)
    (hb : bytesAt s.mem c (base + pos) (beBytes 4 tag.toNat ++ beBytes 4 n)) (hn : n < 2 ^ 32)
    (hhdr : pos + 8 ≤ len) (hlen : len < pos + 8 + n) :
    Fails (.chunkOverrun, n) (seqCall .ckr ckrReadchunkOp) s := by
  have hrun := ckrReadchunkOp_overrun h.ready (h.curView.symm ▸ hhdr)
    (by rw [h.chunkLength_eq hb hn, h.curView]; exact hlen)
  rw [h.chunkLength_eq hb hn] at hrun
  exact fails_seqCall hrun

/-- A whole chunk: its tag, length and payload's offset, the position past it and its pad byte. -/
theorem readchunk (h : Reading c (⟨base, len, pos⟩ :: vs) s)
    (hb : bytesAt s.mem c (base + pos) (beBytes 4 tag.toNat ++ beBytes 4 n)) (hn : n < 2 ^ 32)
    (hlen : pos + 8 + n ≤ len) :
    ∃ m, stacked (⟨base, len, padProbe s (pos + 8 + n)⟩ :: vs) m ∧
      seqCall .ckr ckrReadchunkOp s =
        .ok (tag, n, base + pos + 8) (Machine.scanned m s.pal s.seq s) := by
  refine ⟨_, h.stacked_setViewPos, ?_⟩
  have hrun := ckrReadchunkOp_ok h.ready
    (by rw [h.chunkLength_eq hb hn, h.curView]; exact hlen)
  have htag : beRead s.mem c (base + pos) 4 = tag.toNat :=
    beRead_of_bytesAt (bytesAt_append.mp hb).1 tag.isLt
  rw [h.chunkLength_eq hb hn, viewRead, h.source, h.curView, htag, BitVec.ofNat_toNat,
    BitVec.setWidth_eq] at hrun
  exact seqCall_ok hrun

/-- The pad byte of a padded chunk is skipped, at a position of the payload's own parity (R263). -/
theorem padProbe_padded {payload : List Byte} (h : Reading c (⟨base, len, pos⟩ :: vs) s)
    (heven : pos % 2 = 0) (hb : bytesAt s.mem c (base + pos) (paddedChunk (tag, payload)))
    (hlen : pos + (paddedChunk (tag, payload)).length ≤ len) :
    padProbe s (pos + 8 + payload.length) = pos + (paddedChunk (tag, payload)).length := by
  have hpad := (bytesAt_append.mp hb).2
  rw [chunkBytes_length] at hpad
  simp only [paddedChunk_length] at hlen hpad ⊢
  rw [padProbe_eq, h.source, h.curView]
  dsimp only
  rcases Nat.mod_two_eq_zero_or_one payload.length with hp | hp
  · rw [if_neg (by omega), hp]
    omega
  · have hzero := refByte_of_bytesAt (n := 0) hpad (by simp [hp])
    rw [hp, List.replicate_one, List.getD_cons_zero] at hzero
    rw [if_pos ⟨by omega, by omega, by simpa only [Nat.add_assoc, Nat.add_zero] using hzero⟩, hp]
    omega

end Reading

end Sys2Proof.Machine
end

section
/-! The chunks a scan reads (R318, R322, R323, R327): the header's registers, the mode, the palette, and
what each chunk leaves or the fault it stops with. -/

namespace Sys2Proof.Machine

variable {s t u : State} {c : BufRef} {v : View} {vs : List View} {base len pos n : Nat}
  {e : FaultCode × Nat} {payload : List Byte} {tag : U32}

/-! ### Header registers (R318) -/

/-- Fields read one after the other into the header: each its width in bytes and its register. -/
def readFields : List (Nat × (Nat → Hdr → Hdr)) → Op Unit
  | [] => pure ()
  | d :: ds => do
    let x ← seqRd d.1
    modHdr (d.2 x)
    readFields ds

/-- The fields of a header payload, in the order of R318. -/
def headerFields : List (Nat × (Nat → Hdr → Hdr)) :=
  [(2, fun x h => { h with width := BitVec.ofNat 16 x }),
    (2, fun x h => { h with height := BitVec.ofNat 16 x }),
    (2, fun x h => { h with xOrigin := BitVec.ofNat 16 x }),
    (2, fun x h => { h with yOrigin := BitVec.ofNat 16 x }),
    (1, fun x h => { h with planes := BitVec.ofNat 8 x }),
    (1, fun x h => { h with mask := BitVec.ofNat 8 x }),
    (1, fun x h => { h with compression := BitVec.ofNat 8 x }),
    (1, fun x h => { h with pad := BitVec.ofNat 8 x }),
    (2, fun x h => { h with transparentColor := BitVec.ofNat 16 x }),
    (1, fun x h => { h with xAspect := BitVec.ofNat 8 x }),
    (1, fun x h => { h with yAspect := BitVec.ofNat 8 x }),
    (2, fun x h => { h with pageWidth := BitVec.ofNat 16 x }),
    (2, fun x h => { h with pageHeight := BitVec.ofNat 16 x })]

theorem readHeader_eq : readHeader = readFields headerFields := rfl

/-- The header after the fields have been read from offset `off` on. -/
def fieldsRead (m : Mem) (r : BufRef) : Nat → List (Nat × (Nat → Hdr → Hdr)) → Hdr → Hdr
  | _, [], h => h
  | off, d :: ds, h => fieldsRead m r (off + d.1) ds (d.2 (beRead m r off d.1) h)

theorem readFields_run : ∀ {ds : List (Nat × (Nat → Hdr → Hdr))} {pos : Nat} {s : State},
    Reading c (⟨base, len, pos⟩ :: vs) s → pos + (ds.map Prod.fst).sum ≤ len →
      ∃ m v, stacked (v :: vs) m ∧ readFields ds s = .ok () (scanned m s.pal
        { s.seq with hdr := fieldsRead s.mem c (base + pos) ds s.seq.hdr } s)
  | [], _, _, h, _ => ⟨_, _, h.stack, rfl⟩
  | d :: ds, pos, s, h, hlen => by
    rw [List.map_cons, List.sum_cons, ← Nat.add_assoc] at hlen
    obtain ⟨m, hm, hread⟩ := h.read (n := d.1) (by omega)
    have hnext := h.scanned (p := s.pal)
      (q := { s.seq with hdr := d.2 (beRead s.mem c (base + pos) d.1) s.seq.hdr }) hm rfl
    obtain ⟨m', v, hm', hrest⟩ := readFields_run hnext hlen
    rw [← Nat.add_assoc] at hrest
    exact ⟨m', v, hm', (bind_ok hread).trans hrest⟩

/-- The registers of R318 are those `hdrOf` reads off the payload. -/
theorem fieldsRead_header {m : Mem} {h : Hdr} (hb : bytesAt m c base payload)
    (hlen : 20 ≤ payload.length) :
    let h' := fieldsRead m c base headerFields h
    { h' with bytesPerLine := lineBytesOf h'.width.toNat, valid := true } = hdrOf payload := by
  have byte {i : Nat} (hi : i < 20) : refByte m c (base + i) = payload.getD i 0 :=
    refByte_of_bytesAt hb (hi.trans_le hlen)
  have first : refByte m c base = payload.getD 0 0 := byte (i := 0) (by decide)
  simp (disch := decide) only [fieldsRead, headerFields, ofNat_beRead_one, ofNat_beRead_two,
    Nat.add_assoc, Nat.reduceAdd, first, byte]
  rfl

/-! ### Palette entries (R322, R107) -/

/-- From `s` to `t` slot 0 has been made for a palette chunk's payload and its first `n` entries have been
stored; nothing else of the palette unit has changed but its fault, cleared. -/
structure LoadsPalette (payload : List Byte) (n : Nat) (s t : State) : Prop where
  fault : t.pal.fault = { s.pal.fault with valid := false }
  others : ∀ slot ≠ 0, slotAt t slot = slotAt s slot
  made : (slotAt t 0).made = true
  count : (slotAt t 0).count = payload.length / 3
  bpc : (slotAt t 0).bpc = 8
  entries : ∀ i < n, entryAt (slotAt t 0) i = ⟨true, payload.getD (3 * i) 0,
    payload.getD (3 * i + 1) 0, payload.getD (3 * i + 2) 0, 255⟩

namespace LoadsPalette

theorem ready (h : LoadsPalette payload n s t) : ready .pal t :=
  ⟨congrArg FaultReg.valid h.fault, rfl, rfl⟩

/-- Only the palette unit matters. -/
theorem congr (h : LoadsPalette payload n s t) (hu : u.pal = t.pal) : LoadsPalette payload n s u := by
  have hslot (slot : Nat) : slotAt u slot = slotAt t slot := by rw [slotAt, hu, slotAt]
  exact ⟨hu ▸ h.fault, fun slot hs => (hslot slot).trans (h.others slot hs), hslot 0 ▸ h.made,
    hslot 0 ▸ h.count, hslot 0 ▸ h.bpc, hslot 0 ▸ h.entries⟩

theorem holdsPalette (h : LoadsPalette payload (payload.length / 3) s t) :
    holdsPalette (slotAt t 0) payload := ⟨h.made, h.count, h.bpc, h.entries⟩

end LoadsPalette

/-- The slot is made, empty (R141). -/
theorem seqCreate_run (hcount : payload.length / 3 ≤ Config.palMax) : ∃ t,
    seqCall .pal (palCreateOp 0 (payload.length / 3) (some 8)) s = .ok .unit t ∧
      t = scanned s.ckr.views t.pal s.seq s ∧ LoadsPalette payload 0 s t := by
  refine ⟨setSlot 0 ⟨true, payload.length / 3, bpcStored 8, []⟩ (clearedFault .pal s), seqCall_ok ?_,
    rfl, ?_⟩
  · unfold palCreateOp
    rw [bind_ok (clearFault_run .pal s), checkSlot_bind (by decide), raiseIf_bind_false (by omega),
      raiseIf_bind_false (by decide)]
    rfl
  · refine ⟨rfl, fun slot hs => ?_, ?_, ?_, ?_, fun i hi => absurd hi (Nat.not_lt_zero i)⟩
    · rw [slotAt_setSlot, if_neg hs]
      rfl
    all_goals rw [slotAt_setSlot_self]
    exact Slot.bpc_stored _ (by decide) (by decide) rfl

/-- Three bytes at 8 bits per channel are stored as they are, with alpha 255 (R142). -/
theorem clampedEntry_bytes (r g b : Byte) : clampedEntry 8 (BitVec.ofNat 32 r.toNat)
    (BitVec.ofNat 32 g.toNat) (BitVec.ofNat 32 b.toNat) none = ⟨true, r, g, b, 255⟩ := by
  have channel (x : Byte) :
      BitVec.ofNat 8 (clampChannel (chanMax 8) (BitVec.ofNat 32 x.toNat)) = x := by
    have hx := x.isLt
    have hword : (BitVec.ofNat 32 x.toNat).toNat = x.toNat := Nat.mod_eq_of_lt (by omega)
    have hvalue : (BitVec.ofNat 32 x.toNat).toInt = x.toNat := by
      rw [BitVec.toInt_eq_toNat_of_lt (by omega), hword]
    have hclamp := toNat_clampedChannel (b := 8) le_rfl (BitVec.ofNat 32 x.toNat)
    rw [hvalue] at hclamp
    exact BitVec.eq_of_toNat_eq (by omega)
  simp only [clampedEntry, channel]
  rfl

/-- One entry more is stored. -/
theorem LoadsPalette.setEntry (h : LoadsPalette payload n s t) :
    LoadsPalette payload (n + 1) s (setEntry 0 n ⟨true, payload.getD (3 * n) 0,
      payload.getD (3 * n + 1) 0, payload.getD (3 * n + 2) 0, 255⟩ t) := by
  refine ⟨h.fault, fun slot hs => ?_, ?_, ?_, ?_, fun i hi => ?_⟩
  · rw [Machine.setEntry, slotAt_setSlot, if_neg hs, h.others slot hs]
  · rw [Machine.setEntry, slotAt_setSlot_self]
    exact h.made
  · rw [Machine.setEntry, slotAt_setSlot_self]
    exact h.count
  · rw [Machine.setEntry, slotAt_setSlot_self]
    exact h.bpc
  · rw [entryAt_setEntry]
    split
    case isTrue heq => rw [heq.2]
    case isFalse hne => exact h.entries i (by omega)

theorem seqSet_run (h : LoadsPalette payload n s t) (hn : n < payload.length / 3) (r g b : U32) :
    seqCall .pal (palSetOp 0 n r g b none) t =
      .ok .unit (setEntry 0 n (clampedEntry 8 r g b none) t) := by
  refine seqCall_ok ?_
  unfold palSetOp
  rw [enter_bind h.ready, checkRead_bind ⟨by decide, h.made⟩, get_bind,
    raiseIf_bind_false (by rw [h.count]; omega), h.bpc]
  rfl

/-- The first `n` entries of the palette chunk at `base`, whose payload SEQ has entered in `t`, have been
read and stored. -/
structure EntriesRead (base : Nat) (payload : List Byte) (vs : List View) (s t : State) (n : Nat)
    (u : State) : Prop where
  frame : u = scanned u.ckr.views u.pal t.seq t
  stack : stacked (⟨base, payload.length, 3 * n⟩ :: vs) u.ckr.views
  loads : LoadsPalette payload n s u

theorem EntriesRead.reading (hr : Reading c (⟨base, payload.length, pos⟩ :: vs) t)
    (h : EntriesRead base payload vs s t n u) :
    Reading c (⟨base, payload.length, 3 * n⟩ :: vs) u := by
  rw [h.frame]
  exact hr.scanned h.stack rfl

theorem scanPaletteEntry_run (hr : Reading c (⟨base, payload.length, pos⟩ :: vs) t)
    (hb : bytesAt t.mem c base payload) (hn : n < payload.length / 3)
    (h : EntriesRead base payload vs s t n u) :
    ∃ w, scanPaletteEntry n u = .ok () w ∧ EntriesRead base payload vs s t (n + 1) w := by
  have hmem : u.mem = t.mem := by rw [h.frame]; rfl
  have byte {i : Nat} (hi : i < payload.length) :
      beRead u.mem c (base + i) 1 = (payload.getD i 0).toNat := by
    rw [← refByte_of_bytesAt hb hi, hmem]
    simp [beRead]
  have hr0 := h.reading hr
  obtain ⟨m1, hm1, hread1⟩ := hr0.read (n := 1) (by omega)
  have hr1 := hr0.scanned (p := u.pal) (q := u.seq) hm1 rfl
  obtain ⟨m2, hm2, hread2⟩ := hr1.read (n := 1) (by omega)
  have hr2 := hr1.scanned (p := u.pal) (q := u.seq) hm2 rfl
  obtain ⟨m3, hm3, hread3⟩ := hr2.read (n := 1) (by omega)
  have hp3 : LoadsPalette payload n s (scanned m3 u.pal u.seq u) := h.loads.congr rfl
  have hset := hp3.setEntry
  rw [← clampedEntry_bytes, ← byte (by omega), ← byte (by omega), ← byte (by omega)] at hset
  refine ⟨_, (bind_ok hread1).trans ((bind_ok hread2).trans ((bind_ok hread3).trans
    (bind_ok (seqSet_run hp3 hn _ _ _)))), ?_, hm3, hset⟩
  rw [h.frame]
  rfl

/-! ### A payload entered, read and left -/

/-- The header chunk's last checks (R318). -/
def checkHeader (h : Hdr) : Op Unit := do
  seqRaiseIf (h.planes = 0 ∨ Config.planesMax < h.planes.toNat) .badPlanes h.planes.toNat
  seqRaiseIf (h.width = 0 ∨ h.height = 0) .badHeader 0

variable (hr : Reading c (v :: vs) s) (hdeep : vs.length + 1 < Config.ckDepth)
  (hb : bytesAt s.mem c base payload) (hfit : base + payload.length ≤ c.len)

include hr hdeep hb hfit

/-- A header of 20 bytes is recorded, and then checked. -/
theorem scanHeader_run (hlen : 20 ≤ payload.length) : ∃ m, stacked (v :: vs) m ∧
    scanHeader base payload.length s =
      checkHeader (hdrOf payload) (scanned m s.pal { s.seq with hdr := hdrOf payload } s) := by
  have hin : Reading c (⟨base, payload.length, 0⟩ :: v :: vs) _ := hr.pushView
  obtain ⟨m, w, hm, hread⟩ := readFields_run (ds := headerFields) hin (by simpa [headerFields])
  rw [← readHeader_eq] at hread
  refine ⟨m, hm.2, ?_⟩
  unfold scanHeader
  rw [seqRaiseIf_bind (by omega), bind_ok (hr.enter (Nat.ne_of_lt hdeep) hfit), bind_ok hread,
    bind_ok (hin.scanned hm rfl).leave, ← fieldsRead_header (h := s.seq.hdr) hb hlen]
  rfl

theorem scanMode_run (hlen : 4 ≤ payload.length) : ∃ m, stacked (v :: vs) m ∧
    scanMode base payload.length s = .ok () (scanned m s.pal { s.seq with
      mode := payload.getD 0 0 ++ payload.getD 1 0 ++ payload.getD 2 0 ++ payload.getD 3 0 } s) := by
  have hin : Reading c (⟨base, payload.length, 0⟩ :: v :: vs) _ := hr.pushView
  obtain ⟨m, hm, hread⟩ := hin.read (n := 4) (by omega)
  have byte {i : Nat} (hi : i < 4) : refByte s.mem c (base + i) = payload.getD i 0 :=
    refByte_of_bytesAt hb (hi.trans_le hlen)
  refine ⟨m, hm.2, ?_⟩
  unfold scanMode
  rw [seqRaiseIf_bind (by omega), bind_ok (hr.enter (Nat.ne_of_lt hdeep) hfit), bind_ok hread,
    modify_bind, ← byte (by decide : 0 < 4), ← byte (by decide : 1 < 4), ← byte (by decide : 2 < 4),
    ← byte (by decide : 3 < 4)]
  simp only [Nat.add_zero]
  rw [← ofNat_beRead_four]
  exact ((hin.scanned hm rfl).scanned (p := s.pal) (q := { s.seq with
    mode := BitVec.ofNat 32 (beRead s.mem c base 4) }) hm rfl).leave

/-- The palette chunk fills slot 0. -/
theorem scanPalette_run (hcount : payload.length / 3 ≤ Config.palMax) : ∃ m p,
    stacked (v :: vs) m ∧ scanPalette base payload.length s =
      .ok () (scanned m p { s.seq with palPresent := true } s) ∧
      LoadsPalette payload (payload.length / 3) s
        (scanned m p { s.seq with palPresent := true } s) := by
  obtain ⟨t, hcreate, ht, hp⟩ := seqCreate_run (s := s) hcount
  have hrt : Reading c (v :: vs) t := ht ▸ hr.scanned hr.stack rfl
  have hin : Reading c (⟨base, payload.length, 0⟩ :: v :: vs) (pushView base payload.length t) :=
    hrt.pushView
  obtain ⟨u, hloop, hu⟩ := forFrom_ok
    (EntriesRead base payload (v :: vs) s (pushView base payload.length t)) 0 (payload.length / 3)
    (fun k hk u hu => by
      rw [Nat.zero_add]
      exact scanPaletteEntry_run hin (ht ▸ hb) hk hu)
    (pushView base payload.length t) ⟨rfl, hin.stack, hp.congr rfl⟩
  refine ⟨u.ckr.views, u.pal, hu.stack.2, ?_, hu.loads.congr rfl⟩
  unfold scanPalette
  rw [seqRaiseIf_bind (by omega), bind_ok hcreate, bind_ok (hrt.enter (Nat.ne_of_lt hdeep) hfit),
    bind_ok hloop, bind_ok (hu.reading hin).leave, modify_run, hu.frame, ht]
  rfl

end Sys2Proof.Machine
end

section
/-! One chunk of a scan, and the chunks of a container one after the other (R317, R318, R322, R323, R327):
where `noteChunks` finds them good, SEQ's registers and slot 0 are as the chunks say; where it finds a
bad one, the scan stops with its fault. -/

namespace Sys2Proof.Machine

variable {k : Config.Codes} {s t u : State} {c : BufRef} {v : View} {vs : List View}
  {base len pos fuel : Nat} {e : FaultCode × Nat} {tag : U32} {payload : List Byte} {q q' : Seq}
  {chunk : U32 × List Byte} {chunks : List (U32 × List Byte)}

/-! ### The palettes of chunks (R322) -/

/-- The last palette chunk of `chunks` fills slot 0, and without one the palette unit is as before. -/
structure PalettesNoted (k : Config.Codes) (chunks : List (U32 × List Byte)) (s t : State) : Prop where
  loads : (∃ c ∈ chunks, c.1 = k.pal) →
    LoadsPalette (lastPalette k chunks) ((lastPalette k chunks).length / 3) s t
  keeps : (∀ c ∈ chunks, c.1 ≠ k.pal) → t.pal = s.pal

theorem palettesNoted_keep (h : ∀ c ∈ chunks, c.1 ≠ k.pal) (hp : t.pal = s.pal) :
    PalettesNoted k chunks s t where
  loads := fun ⟨c, hc, hpal⟩ => absurd hpal (h c hc)
  keeps := fun _ => hp

theorem palettesNoted_load (h : LoadsPalette payload (payload.length / 3) s t) :
    PalettesNoted k [(k.pal, payload)] s t where
  loads := fun _ => by simpa [lastPalette] using h
  keeps := fun hne => absurd rfl (hne _ (List.mem_singleton_self _))

theorem LoadsPalette.trans {first second : List Byte} {i j : Nat} (h : LoadsPalette first i s t)
    (h' : LoadsPalette second j t u) : LoadsPalette second j s u where
  fault := by rw [h'.fault, h.fault]
  others := fun slot hs => (h'.others slot hs).trans (h.others slot hs)
  made := h'.made
  count := h'.count
  bpc := h'.bpc
  entries := h'.entries

theorem LoadsPalette.of_pal {i : Nat} (h : LoadsPalette payload i t u) (hp : t.pal = s.pal) :
    LoadsPalette payload i s u :=
  ⟨hp ▸ h.fault, fun slot hs => (h.others slot hs).trans (by rw [slotAt, hp, slotAt]), h.made,
    h.count, h.bpc, h.entries⟩

/-- An earlier chunk does not matter to the last palette, if there is a later palette. -/
theorem lastPalette_cons (h : ∃ c ∈ chunks, c.1 = k.pal) :
    lastPalette k (chunk :: chunks) = lastPalette k chunks := by
  obtain ⟨c, hc, hpal⟩ := h
  have hmem : c ∈ chunks.filter fun c => c.1 == k.pal := List.mem_filter.mpr ⟨hc, by simpa using hpal⟩
  unfold lastPalette
  rw [List.filter_cons]
  split
  · rw [List.getLastD_cons, List.getLastD_eq_getLast?, List.getLastD_eq_getLast?,
      List.getLast?_eq_some_getLast (List.ne_nil_of_mem hmem)]
    rfl
  · rfl

theorem lastPalette_cons_last (h : chunk.1 = k.pal) (hrest : ∀ c ∈ chunks, c.1 ≠ k.pal) :
    lastPalette k (chunk :: chunks) = chunk.2 := by
  have hnone : (chunks.filter fun c => c.1 == k.pal) = [] :=
    List.filter_eq_nil_iff.mpr fun c hc => by simpa using hrest c hc
  simp [lastPalette, h, hnone]

theorem PalettesNoted.cons (h : PalettesNoted k [chunk] s t) (h' : PalettesNoted k chunks t u) :
    PalettesNoted k (chunk :: chunks) s u := by
  have hhead : chunk.1 = k.pal → LoadsPalette chunk.2 (chunk.2.length / 3) s t := fun hpal => by
    have hload := h.loads ⟨chunk, List.mem_singleton_self _, hpal⟩
    rwa [lastPalette_cons_last hpal (fun _ hc => absurd hc List.not_mem_nil)] at hload
  have hother : chunk.1 ≠ k.pal → t.pal = s.pal := fun hne => h.keeps fun c hc => by
    rwa [List.mem_singleton.mp hc]
  constructor
  · intro hsome
    by_cases hrest : ∃ c ∈ chunks, c.1 = k.pal
    · rw [lastPalette_cons hrest]
      by_cases hpal : chunk.1 = k.pal
      · exact (hhead hpal).trans (h'.loads hrest)
      · exact (h'.loads hrest).of_pal (hother hpal)
    · have hnone : ∀ c ∈ chunks, c.1 ≠ k.pal := fun c hc hpal => hrest ⟨c, hc, hpal⟩
      obtain ⟨c, hc, hpal⟩ := hsome
      obtain rfl := (List.mem_cons.mp hc).resolve_right fun hc' => hnone c hc' hpal
      rw [lastPalette_cons_last hpal hnone]
      exact (hhead hpal).congr (h'.keeps hnone)
  · intro hne
    rw [h'.keeps fun c hc => hne c (List.mem_cons_of_mem _ hc), hother (hne _ List.mem_cons_self)]

/-! ### One chunk -/

theorem palTag_ne : Config.codes.pal ≠ Config.codes.hdr ∧ Config.codes.pal ≠ Config.codes.mode :=
  ⟨Config.tagWord.injective.ne (by decide), Config.tagWord.injective.ne (by decide)⟩

theorem checkHeader_ok {h : Hdr} (hp : ¬ (h.planes = 0 ∨ Config.planesMax < h.planes.toNat))
    (hs : ¬ (h.width = 0 ∨ h.height = 0)) : checkHeader h s = .ok () s :=
  (seqRaiseIf_bind hp).trans (seqRaiseIf_false hs _ _ _)

/-- A chunk that is neither a header nor the mode nor a palette is recorded or skipped. -/
theorem scanChunk_recorded (hhdr : tag ≠ k.hdr) (hmode : tag ≠ k.mode) (hpal : tag ≠ k.pal) :
    scanChunk k tag payload.length base s =
      .ok () (scanned s.ckr.views s.pal (noteChunk k base (tag, payload) s.seq) s) := by
  unfold scanChunk noteChunk
  simp only [hhdr, hmode, hpal, if_false]
  split_ifs <;> rfl

section
variable (hr : Reading c (v :: vs) s) (hdeep : vs.length + 1 < Config.ckDepth)
  (hb : bytesAt s.mem c base payload) (hfit : base + payload.length ≤ c.len)

include hr hdeep hb hfit

/-- A bad chunk stops the scan with its fault. -/
theorem scanChunk_fails (hbad : chunkFault k (tag, payload) = some e) :
    Fails e (scanChunk k tag payload.length base) s := by
  unfold chunkFault at hbad
  unfold scanChunk
  split_ifs at hbad ⊢ with hhdr hlen hplanes hsize hmode hlen hpal hcount <;>
    obtain rfl := Option.some.inj hbad
  · exact (fails_seqRaiseIf hlen).bind
  · obtain ⟨m, -, hrun⟩ := scanHeader_run hr hdeep hb hfit (Nat.not_lt.mp hlen)
    exact .of_run hrun rfl (fails_seqRaiseIf hplanes).bind
  · obtain ⟨m, -, hrun⟩ := scanHeader_run hr hdeep hb hfit (Nat.not_lt.mp hlen)
    exact .of_run hrun rfl (.after (seqRaiseIf_false hplanes _ _ _) rfl (fails_seqRaiseIf hsize))
  · exact (fails_seqRaiseIf hlen).bind
  · exact (fails_seqRaiseIf hcount).bind

/-- A good chunk leaves what it says. -/
theorem scanChunk_ok (hgood : chunkFault Config.codes (tag, payload) = none) : ∃ m p,
    stacked (v :: vs) m ∧ scanChunk Config.codes tag payload.length base s =
      .ok () (scanned m p (noteChunk Config.codes base (tag, payload) s.seq) s) ∧
      PalettesNoted Config.codes [(tag, payload)] s
        (scanned m p (noteChunk Config.codes base (tag, payload) s.seq) s) := by
  obtain ⟨hneHdr, hneMode⟩ := palTag_ne
  have keep {t : State} (h : tag ≠ Config.codes.pal) (hp : t.pal = s.pal) :
      PalettesNoted Config.codes [(tag, payload)] s t :=
    palettesNoted_keep (fun c hc => by rwa [List.mem_singleton.mp hc]) hp
  unfold chunkFault at hgood
  by_cases hhdr : tag = Config.codes.hdr
  · subst hhdr
    rw [if_pos rfl] at hgood
    split_ifs at hgood with hlen hplanes hsize
    obtain ⟨m, hm, hrun⟩ := scanHeader_run hr hdeep hb hfit (Nat.not_lt.mp hlen)
    rw [noteChunk_hdr]
    refine ⟨m, s.pal, hm, ?_, keep hneHdr.symm rfl⟩
    unfold scanChunk
    rw [if_pos rfl]
    exact hrun.trans (checkHeader_ok hplanes hsize)
  by_cases hmode : tag = Config.codes.mode
  · subst hmode
    rw [if_neg hhdr, if_pos rfl] at hgood
    split_ifs at hgood with hlen
    obtain ⟨m, hm, hrun⟩ := scanMode_run hr hdeep hb hfit (Nat.not_lt.mp hlen)
    rw [noteChunk_mode]
    refine ⟨m, s.pal, hm, ?_, keep hneMode.symm rfl⟩
    unfold scanChunk
    rw [if_neg hhdr, if_pos rfl]
    exact hrun
  by_cases hpal : tag = Config.codes.pal
  · subst hpal
    rw [if_neg hhdr, if_neg hmode, if_pos rfl] at hgood
    split_ifs at hgood with hcount
    obtain ⟨m, p, hm, hrun, hload⟩ := scanPalette_run hr hdeep hb hfit (Nat.not_lt.mp hcount)
    rw [noteChunk_pal]
    refine ⟨m, p, hm, ?_, palettesNoted_load hload⟩
    unfold scanChunk
    rw [if_neg hhdr, if_neg hmode, if_pos rfl]
    exact hrun
  · exact ⟨_, _, hr.stack, scanChunk_recorded hhdr hmode hpal, keep hpal rfl⟩

end

/-! ### The loop (R317) -/

/-- The registers of a bad or good list of chunks do not depend on SEQ's fault. -/
theorem noteChunks_fault (f : FaultReg) : ∀ (pos : Nat) (chunks : List (U32 × List Byte)) (q : Seq),
    noteChunks k pos chunks { q with fault := f } =
      (noteChunks k pos chunks q).map fun q => { q with fault := f }
  | _, [], _ => rfl
  | pos, chunk :: chunks, q => by
    have hnote : noteChunk k (pos + 8) chunk { q with fault := f } =
        { noteChunk k (pos + 8) chunk q with fault := f } := by
      unfold noteChunk
      split_ifs <;> rfl
    unfold noteChunks
    cases chunkFault k chunk with
    | some e => rfl
    | none =>
      dsimp only
      rw [hnote, noteChunks_fault f]

/-- The payload of a padded chunk. -/
theorem bytesAt_payload {m : Mem} (hb : bytesAt m c pos (paddedChunk chunk)) :
    bytesAt m c (pos + 8) chunk.2 := by
  have hpayload := (bytesAt_append.mp (bytesAt_append.mp hb).1).2
  rwa [List.length_append, beBytes_length, beBytes_length] at hpayload

/-- The padded `chunks` stand from position `pos` on in the view `[base, base + len)` of `c`. -/
structure ChunksAt (m : Mem) (c : BufRef) (base len pos : Nat) (chunks : List (U32 × List Byte)) :
    Prop where
  inside : base + len ≤ c.len
  short : len < 2 ^ 32
  even : pos % 2 = 0
  bytes : bytesAt m c (base + pos) (chunks.flatMap paddedChunk)
  fits : pos + (chunks.flatMap paddedChunk).length ≤ len

namespace ChunksAt

variable {m : Mem}

theorem head (h : ChunksAt m c base len pos (chunk :: chunks)) :
    bytesAt m c (base + pos) (paddedChunk chunk) ∧ pos + (paddedChunk chunk).length ≤ len := by
  have hb := h.bytes
  have hfits := h.fits
  rw [List.flatMap_cons] at hb hfits
  rw [List.length_append] at hfits
  exact ⟨(bytesAt_append.mp hb).1, by omega⟩

theorem tail (h : ChunksAt m c base len pos (chunk :: chunks)) :
    ChunksAt m c base len (pos + (paddedChunk chunk).length) chunks := by
  have hb := h.bytes
  have hfits := h.fits
  have heven := h.even
  rw [List.flatMap_cons] at hb hfits
  rw [List.length_append] at hfits
  refine ⟨h.inside, h.short, ?_, ?_, by omega⟩
  · rw [paddedChunk_length]
    omega
  · rw [← Nat.add_assoc]
    exact (bytesAt_append.mp hb).2

end ChunksAt

/-- The chunk at the position is read whole: its round of the loop goes on with its handling. -/
theorem scanLoop_chunk (hr : Reading c (⟨base, len, pos⟩ :: vs) s)
    (h : ChunksAt s.mem c base len pos (chunk :: chunks)) :
    ∃ m, stacked (⟨base, len, pos + (paddedChunk chunk).length⟩ :: vs) m ∧
      scanLoop k (fuel + 1) s =
        (scanChunk k chunk.1 chunk.2.length (base + pos + 8) >>= fun _ => scanLoop k fuel)
          (scanned m s.pal s.seq s) := by
  obtain ⟨hb, hlen⟩ := h.head
  have hsize := paddedChunk_length chunk
  have hshort := h.short
  have hheader := (bytesAt_append.mp (bytesAt_append.mp hb).1).1
  obtain ⟨m, hm, hread⟩ := hr.readchunk hheader (by omega) (by omega)
  rw [hr.padProbe_padded h.even hb hlen] at hm
  refine ⟨m, hm, ?_⟩
  have hmore : viewEof ⟨base, len, pos⟩ = false := decide_eq_false (by dsimp only; omega)
  have heof := hr.eof
  rw [hmore] at heof
  exact (bind_ok heof).trans (bind_ok hread)

section
variable (hr : Reading c (⟨base, len, pos⟩ :: vs) s) (hdeep : vs.length + 1 < Config.ckDepth)

include hr hdeep

/-- The loop's round over a good chunk. -/
theorem scanLoop_good_chunk (h : ChunksAt s.mem c base len pos (chunk :: chunks))
    (hgood : chunkFault Config.codes chunk = none) : ∃ m p,
    stacked (⟨base, len, pos + (paddedChunk chunk).length⟩ :: vs) m ∧
      scanLoop Config.codes (fuel + 1) s = scanLoop Config.codes fuel
        (scanned m p (noteChunk Config.codes (base + pos + 8) chunk s.seq) s) ∧
      PalettesNoted Config.codes [chunk] s
        (scanned m p (noteChunk Config.codes (base + pos + 8) chunk s.seq) s) := by
  obtain ⟨m, hm, hrun⟩ := scanLoop_chunk (k := Config.codes) (fuel := fuel) hr h
  obtain ⟨hb, hlen⟩ := h.head
  have hsize := paddedChunk_length chunk
  have hin := h.inside
  obtain ⟨m', p, hm', hscan, hpal⟩ := scanChunk_ok (hr.scanned (p := s.pal) (q := s.seq) hm rfl) hdeep
    (bytesAt_payload hb) (by omega) hgood
  exact ⟨m', p, hm', hrun.trans (bind_ok hscan), ⟨fun hsome => (hpal.loads hsome).of_pal rfl,
    hpal.keeps⟩⟩

/-- The loop's round over a bad chunk. -/
theorem scanLoop_bad_chunk (h : ChunksAt s.mem c base len pos (chunk :: chunks))
    (hbad : chunkFault Config.codes chunk = some e) : Fails e (scanLoop Config.codes (fuel + 1)) s := by
  obtain ⟨m, hm, hrun⟩ := scanLoop_chunk (k := Config.codes) (fuel := fuel) hr h
  obtain ⟨hb, hlen⟩ := h.head
  have hsize := paddedChunk_length chunk
  have hin := h.inside
  exact .of_run hrun rfl (scanChunk_fails (hr.scanned (p := s.pal) (q := s.seq) hm rfl) hdeep
    (bytesAt_payload hb) (by omega) hbad).bind

end

/-- The offset of the next chunk, as `noteChunks` counts it. -/
theorem nextChunk_eq : base + (pos + (paddedChunk chunk).length) =
    base + pos + 8 + chunk.2.length + chunk.2.length % 2 := by
  rw [paddedChunk_length]
  omega

/-- Good chunks: the loop goes on behind them, with what they say. -/
theorem scanLoop_good (hdeep : vs.length + 1 < Config.ckDepth) :
    ∀ {chunks : List (U32 × List Byte)} {pos : Nat} {s : State},
      Reading c (⟨base, len, pos⟩ :: vs) s → ChunksAt s.mem c base len pos chunks →
      noteChunks Config.codes (base + pos) chunks s.seq = .ok q → ∃ m p,
        stacked (⟨base, len, pos + (chunks.flatMap paddedChunk).length⟩ :: vs) m ∧
        scanLoop Config.codes (chunks.length + fuel) s =
          scanLoop Config.codes fuel (scanned m p q s) ∧
        PalettesNoted Config.codes chunks s (scanned m p q s)
  | [], pos, s, hr, _, hq => by
    obtain rfl := Except.ok.inj hq
    exact ⟨s.ckr.views, s.pal, hr.stack, by rw [List.length_nil, Nat.zero_add]; rfl,
      palettesNoted_keep (by simp) rfl⟩
  | chunk :: chunks, pos, s, hr, h, hq => by
    rw [noteChunks] at hq
    cases hfault : chunkFault Config.codes chunk with
    | some e => rw [hfault] at hq; cases hq
    | none =>
      rw [hfault] at hq
      obtain ⟨m, p, hm, hrun, hpal⟩ :=
        scanLoop_good_chunk (fuel := chunks.length + fuel) hr hdeep h hfault
      have hr1 := hr.scanned (p := p)
        (q := noteChunk Config.codes (base + pos + 8) chunk s.seq) hm rfl
      obtain ⟨m', p', hm', hrun', hpal'⟩ := scanLoop_good hdeep hr1 h.tail (nextChunk_eq ▸ hq)
      rw [List.flatMap_cons, List.length_append, List.length_cons, ← Nat.add_assoc,
        Nat.add_right_comm chunks.length]
      exact ⟨m', p', hm', hrun.trans hrun', hpal.cons hpal'⟩

/-- A bad chunk behind good ones stops the loop. -/
theorem scanLoop_bad (hdeep : vs.length + 1 < Config.ckDepth) :
    ∀ {chunks : List (U32 × List Byte)} {pos : Nat} {s : State},
      Reading c (⟨base, len, pos⟩ :: vs) s → ChunksAt s.mem c base len pos chunks →
      noteChunks Config.codes (base + pos) chunks s.seq = .error e →
        Fails e (scanLoop Config.codes (chunks.length + fuel)) s
  | [], _, _, _, _, he => nomatch he
  | chunk :: chunks, pos, s, hr, h, he => by
    rw [noteChunks] at he
    rw [List.length_cons, Nat.add_right_comm]
    cases hfault : chunkFault Config.codes chunk with
    | some e' =>
      rw [hfault] at he
      obtain rfl := Except.error.inj he
      exact scanLoop_bad_chunk hr hdeep h hfault
    | none =>
      rw [hfault] at he
      obtain ⟨m, p, hm, hrun, -⟩ :=
        scanLoop_good_chunk (fuel := chunks.length + fuel) hr hdeep h hfault
      have hr1 := hr.scanned (p := p)
        (q := noteChunk Config.codes (base + pos + 8) chunk s.seq) hm rfl
      exact .of_run hrun rfl (scanLoop_bad hdeep hr1 h.tail (nextChunk_eq ▸ he))

end Sys2Proof.Machine
end

section
/-! `SEQ.SCAN` from the opened container on (R317, R324, R330): the outer frame, the sub-type, the bytes
behind the chunks, the completeness checks; O51. -/

namespace Sys2Proof.Machine

variable {k : Config.Codes} {s t : State} {c : BufRef} {vs : List View} {base len pos n fuel : Nat}
  {e : FaultCode × Nat} {tag type : U32} {q : Seq} {chunks : List (U32 × List Byte)}

/-! ### The end of the loop (R262, R266) -/

section
variable (hr : Reading c (⟨base, len, pos⟩ :: vs) s)

include hr

theorem scanLoop_end (h : len ≤ pos) : scanLoop k (fuel + 1) s = .ok () s := by
  have heof := hr.eof
  rw [show viewEof ⟨base, len, pos⟩ = true from decide_eq_true h] at heof
  exact bind_ok heof

/-- Inside the view a round begins with a chunk header. -/
theorem scanLoop_fails_header (h : pos < len) (hread : Fails e (seqCall .ckr ckrReadchunkOp) s) :
    Fails e (scanLoop k (fuel + 1)) s := by
  have heof := hr.eof
  rw [show viewEof ⟨base, len, pos⟩ = false from decide_eq_false (Nat.not_le.mpr h)] at heof
  exact .after heof rfl hread.bind

theorem scanLoop_trunc (h : pos < len) (hlen : len < pos + 8) :
    Fails (.chunkHdrTrunc, base + pos) (scanLoop k (fuel + 1)) s :=
  scanLoop_fails_header hr h (hr.readchunk_trunc hlen)

theorem scanLoop_overrun (hb : bytesAt s.mem c (base + pos) (beBytes 4 tag.toNat ++ beBytes 4 n))
    (hn : n < 2 ^ 32) (hhdr : pos + 8 ≤ len) (hlen : len < pos + 8 + n) :
    Fails (.chunkOverrun, n) (scanLoop k (fuel + 1)) s :=
  scanLoop_fails_header hr (by omega) (hr.readchunk_overrun hb hn hhdr hlen)

end

/-! ### Behind the loop (R324, R330) -/

/-- The side channel's probe records what it finds and never faults. -/
theorem scanSide_run (hr : Reading c vs s) : ∃ side, scanSide k s =
    .ok () (scanned s.ckr.views s.pal { s.seq with side := side } s) := by
  obtain ⟨pk, hpeek⟩ := hr.peek
  unfold scanSide
  rw [bind_ok hpeek, modify_run]
  dsimp only
  split
  · exact ⟨_, rfl⟩
  · exact ⟨_, rfl⟩

theorem scanComplete_fails (h : incomplete s.seq = some e) : Fails e scanComplete s := by
  unfold incomplete at h
  unfold scanComplete
  refine .after (get_run s) rfl ?_
  split_ifs at h with hbody hpal hhdr <;> obtain rfl := Option.some.inj h
  · exact (fails_seqRaiseIf hbody).bind
  · exact .after (seqRaiseIf_false hbody _ _ _) rfl (fails_seqRaiseIf hpal).bind
  · exact .after (seqRaiseIf_false hbody _ _ _) rfl
      (.after (seqRaiseIf_false hpal _ _ _) rfl (fails_seqRaiseIf hhdr).bind)

/-! ### The outer frame (R317) -/

/-- The scan from the first chunk inside the outer one on. -/
def scanInside (k : Config.Codes) (fuel : Nat) : Op Unit := do
  scanLoop k fuel
  seqCall .ckr ckrLeaveOp
  scanSide k
  scanComplete

theorem scanInside_incomplete {w : View} (hr : Reading c (⟨base, len, pos⟩ :: w :: vs) s)
    (hend : len ≤ pos) (h : incomplete s.seq = some e) : Fails e (scanInside k (fuel + 1)) s := by
  obtain ⟨side, hside⟩ := scanSide_run (k := k) hr.popView
  exact .after (scanLoop_end hr hend) rfl (.after hr.leave rfl (.after hside rfl
    (scanComplete_fails h)))

section
variable (hr : Reading c [⟨0, c.len, 0⟩] s)

include hr

theorem scanPass_trunc (h : c.len < 8) : Fails (.chunkHdrTrunc, 0) (scanPass k c) s :=
  (hr.readchunk_trunc (by omega)).bind

variable (hb : bytesAt s.mem c 0 (beBytes 4 tag.toNat ++ beBytes 4 n)) (hn : n < 2 ^ 32)

include hb hn

theorem scanPass_overrun (hhdr : 8 ≤ c.len) (h : c.len < 8 + n) :
    Fails (.chunkOverrun, n) (scanPass k c) s :=
  (hr.readchunk_overrun hb hn (by omega) (by omega)).bind

variable (hfit : 8 + n ≤ c.len)

include hfit

theorem scanPass_badTopTag (h : tag ≠ k.outer) : Fails (.badTopTag, tag.toNat) (scanPass k c) s := by
  obtain ⟨m, -, hread⟩ := hr.readchunk hb hn (by omega)
  exact .after hread rfl (fails_seqRaiseIf h).bind

/-- The outer chunk read and entered: its length is checked, then its sub-type. -/
theorem scanPass_outer (h : tag = k.outer) : ∃ m, stacked [⟨0, c.len, padProbe s (8 + n)⟩] m ∧
    scanPass k c s = (do
      seqRaiseIf (n < 4) .badSubtype 0
      let ty ← seqRd 4
      seqRaiseIf (ty ≠ k.typeLine.toNat ∧ ty ≠ k.typeContig.toNat) .badSubtype ty
      scanInside k (c.len + 1)) (pushView 8 n (scanned m s.pal s.seq s)) := by
  obtain ⟨m, hm, hread⟩ := hr.readchunk hb hn (by omega)
  rw [show 0 + 8 + n = 8 + n by omega] at hm
  have henter := (hr.scanned (p := s.pal) (q := s.seq) hm rfl).enter (base := 8) (len := n)
    (show 1 ≠ Config.ckDepth by decide) hfit
  exact ⟨m, hm, (bind_ok hread).trans ((seqRaiseIf_bind (not_not.mpr h)).trans (bind_ok henter))⟩

theorem scanPass_noSubtype (h : tag = k.outer) (hshort : n < 4) :
    Fails (.badSubtype, 0) (scanPass k c) s := by
  obtain ⟨m, -, hrun⟩ := scanPass_outer hr hb hn hfit h
  exact .of_run hrun rfl (fails_seqRaiseIf hshort).bind

variable (htype : bytesAt s.mem c 8 (beBytes 4 type.toNat)) (hlong : 4 ≤ n)

include htype hlong

/-- The sub-type read. -/
theorem scanPass_subtype (h : tag = k.outer) : ∃ m,
    stacked [⟨8, n, 4⟩, ⟨0, c.len, padProbe s (8 + n)⟩] m ∧ scanPass k c s = (do
      seqRaiseIf (type.toNat ≠ k.typeLine.toNat ∧ type.toNat ≠ k.typeContig.toNat) .badSubtype
        type.toNat
      scanInside k (c.len + 1)) (scanned m s.pal s.seq (pushView 8 n s)) := by
  obtain ⟨m, hm, hrun⟩ := scanPass_outer hr hb hn hfit h
  have hin := (hr.scanned (p := s.pal) (q := s.seq) hm rfl).pushView (base := 8) (len := n)
  obtain ⟨m', hm', hread⟩ := hin.read (n := 4) (by omega)
  have hvalue : beRead s.mem c 8 4 = type.toNat := beRead_of_bytesAt htype type.isLt
  refine ⟨m', hm', hrun.trans ((seqRaiseIf_bind (Nat.not_lt.mpr hlong)).trans ((bind_ok hread).trans ?_))⟩
  rw [show beRead (pushView 8 n (scanned m s.pal s.seq s)).mem c (8 + 0) 4 = type.toNat from hvalue]
  rfl

theorem scanPass_badSubtype (h : tag = k.outer) (hline : type ≠ k.typeLine)
    (hcontig : type ≠ k.typeContig) : Fails (.badSubtype, type.toNat) (scanPass k c) s := by
  obtain ⟨m, -, hrun⟩ := scanPass_subtype hr hb hn hfit htype hlong h
  exact .of_run hrun rfl
    (fails_seqRaiseIf ⟨BitVec.toNat_ne.mp hline, BitVec.toNat_ne.mp hcontig⟩).bind

/-- With a sub-type of R317 the scan goes on inside the outer chunk. -/
theorem scanPass_inside (h : tag = k.outer) (hgood : type = k.typeLine ∨ type = k.typeContig) :
    ∃ m, stacked [⟨8, n, 4⟩, ⟨0, c.len, padProbe s (8 + n)⟩] m ∧
      scanPass k c s = scanInside k (c.len + 1) (scanned m s.pal s.seq (pushView 8 n s)) := by
  obtain ⟨m, hm, hrun⟩ := scanPass_subtype hr hb hn hfit htype hlong h
  refine ⟨m, hm, hrun.trans (seqRaiseIf_bind ?_)⟩
  rintro ⟨hline, hcontig⟩
  rcases hgood with rfl | rfl
  · exact hline rfl
  · exact hcontig rfl

end

/-! ### A container as a list of chunks -/

/-- The length of the outer chunk's payload. -/
def outerLength (chunks : List (U32 × List Byte)) (rest : List Byte) : Nat :=
  4 + (chunks.flatMap paddedChunk).length + rest.length

/-- An outer chunk stands at the start of `c`: a sub-type, chunks, and then `rest`. -/
structure ContainerAt (m : Mem) (c : BufRef) (k : Config.Codes) (type : U32)
    (chunks : List (U32 × List Byte)) (rest : List Byte) : Prop where
  header : bytesAt m c 0 (beBytes 4 k.outer.toNat ++ beBytes 4 (outerLength chunks rest))
  subtype : bytesAt m c 8 (beBytes 4 type.toNat)
  chunksAt : bytesAt m c 12 (chunks.flatMap paddedChunk)
  restAt : bytesAt m c (12 + (chunks.flatMap paddedChunk).length) rest
  fits : 8 + outerLength chunks rest ≤ c.len
  short : 12 + (chunks.flatMap paddedChunk).length + rest.length < 2 ^ 32

theorem containerAt_of_bytes {m : Mem} {rest tail : List Byte}
    (hb : bytesOf m c 0 c.len = containerBytes k type chunks rest ++ tail)
    (hshort : 12 + (chunks.flatMap paddedChunk).length + rest.length < 2 ^ 32) :
    ContainerAt m c k type chunks rest := by
  have hlen := congrArg List.length hb
  have hsize : (beBytes 4 type.toNat ++ chunks.flatMap paddedChunk ++ rest).length =
      outerLength chunks rest := by
    rw [List.length_append, List.length_append, beBytes_length, outerLength]
  rw [bytesOf_length, List.length_append, containerBytes, chunkBytes_length, hsize] at hlen
  have hat := bytesAt_of_eq hb
  unfold containerBytes chunkBytes at hat
  rw [hsize] at hat
  obtain ⟨hheader, hpayload⟩ := bytesAt_append.mp (bytesAt_append.mp hat).1
  obtain ⟨hinner, hrest⟩ := bytesAt_append.mp hpayload
  obtain ⟨htype, hchunks⟩ := bytesAt_append.mp hinner
  simp only [List.length_append, beBytes_length, ← Nat.add_assoc, Nat.zero_add, Nat.reduceAdd]
    at htype hchunks hrest
  exact ⟨hheader, htype, hchunks, hrest, by omega, hshort⟩

/-- Each chunk takes at least a byte. -/
theorem length_le_paddedChunks : ∀ chunks : List (U32 × List Byte),
    chunks.length ≤ (chunks.flatMap paddedChunk).length
  | [] => le_rfl
  | chunk :: chunks => by
    have hrest := length_le_paddedChunks chunks
    rw [List.flatMap_cons, List.length_append, paddedChunk_length, List.length_cons]
    omega

/-- Operations that run alike run alike with the same continuation. -/
theorem bind_run_congr {α β : Type} {x y : Op α} {f : α → Op β} (h : x s = y t) :
    (x >>= f) s = (y >>= f) t := by rw [bind_run, bind_run, h]

section
variable {rest : List Byte} (hr : Reading c [⟨0, c.len, 0⟩] s)
  (hc : ContainerAt s.mem c Config.codes type chunks rest)
  (hgood : type = Config.codes.typeLine ∨ type = Config.codes.typeContig)

include hr hc hgood

/-- The scan reaches the chunks, with more rounds to go than there are chunks. -/
theorem scanPass_reaches : ∃ t fuel pos,
    Reading c [⟨8, outerLength chunks rest, 4⟩, ⟨0, c.len, pos⟩] t ∧
    ChunksAt t.mem c 8 (outerLength chunks rest) 4 chunks ∧
    scanPass Config.codes c s = scanInside Config.codes (chunks.length + (fuel + 1)) t ∧
    ∃ m, t = scanned m s.pal s.seq (pushView 8 (outerLength chunks rest) s) := by
  have hfits := hc.fits
  have hshort := hc.short
  have hcount := length_le_paddedChunks chunks
  unfold outerLength at hfits
  obtain ⟨m, hm, hrun⟩ := scanPass_inside hr hc.header (by unfold outerLength; omega) hc.fits hc.subtype
    (by unfold outerLength; omega) rfl hgood
  refine ⟨_, c.len - chunks.length, _, hr.pushView.scanned hm rfl,
    ⟨hc.fits, ?_, rfl, hc.chunksAt, ?_⟩, ?_, m, rfl⟩
  · unfold outerLength
    omega
  · unfold outerLength
    omega
  · rw [hrun, show chunks.length + (c.len - chunks.length + 1) = c.len + 1 by omega]

/-- A bad chunk behind good ones. -/
theorem scanPass_badChunk (h : noteChunks Config.codes 12 chunks s.seq = .error e) :
    Fails e (scanPass Config.codes c) s := by
  obtain ⟨t, fuel, pos, hin, hat, hrun, m, rfl⟩ := scanPass_reaches hr hc hgood
  exact .of_run hrun rfl
    (scanLoop_bad (vs := [⟨0, c.len, pos⟩]) (show 2 < Config.ckDepth by decide) hin hat h).bind

/-- Behind good chunks the scan stands before the rest, with the registers and the palette they give,
whether the container turns out bad (R262, R330) or is scanned to its end. -/
theorem scanPass_goodChunks (h : noteChunks Config.codes 12 chunks s.seq = .ok q) :
    ∃ t fuel pos, Reading c [⟨8, outerLength chunks rest,
        4 + (chunks.flatMap paddedChunk).length⟩, ⟨0, c.len, pos⟩] t ∧
      scanPass Config.codes c s = scanInside Config.codes (fuel + 1) t ∧
      PalettesNoted Config.codes chunks s t ∧
      ∃ m p, t = scanned m p q (pushView 8 (outerLength chunks rest) s) := by
  obtain ⟨t, fuel, pos, hin, hat, hrun, m, rfl⟩ := scanPass_reaches hr hc hgood
  obtain ⟨m', p, hm', hloop, hpal⟩ := scanLoop_good (fuel := fuel + 1)
    (vs := [⟨0, c.len, pos⟩]) (show 2 < Config.ckDepth by decide) hin hat h
  exact ⟨_, fuel, pos, hin.scanned hm' rfl, hrun.trans (bind_run_congr hloop),
    ⟨fun hsome => (hpal.loads hsome).of_pal rfl, hpal.keeps⟩, m', p, rfl⟩

variable (h : noteChunks Config.codes 12 chunks s.seq = .ok q)

include h

theorem scanPass_restTrunc (hpos : 0 < rest.length) (hlen : rest.length < 8) :
    Fails (.chunkHdrTrunc, 12 + (chunks.flatMap paddedChunk).length) (scanPass Config.codes c) s := by
  obtain ⟨t, fuel, pos, hin, hrun, -, m, p, rfl⟩ := scanPass_goodChunks hr hc hgood h
  have hfails := scanLoop_trunc (k := Config.codes) (fuel := fuel) hin
    (by unfold outerLength; omega) (by unfold outerLength; omega)
  rw [← Nat.add_assoc] at hfails
  exact .of_run hrun rfl hfails.bind

theorem scanPass_restOverrun {part : List Byte} (hn : n < 2 ^ 32) (hpart : part.length < n)
    (hrest : rest = beBytes 4 tag.toNat ++ beBytes 4 n ++ part) :
    Fails (.chunkOverrun, n) (scanPass Config.codes c) s := by
  obtain ⟨t, fuel, pos, hin, hrun, -, m, p, rfl⟩ := scanPass_goodChunks hr hc hgood h
  have hlen : rest.length = 8 + part.length := by
    rw [hrest, List.length_append, List.length_append, beBytes_length, beBytes_length]
  have hb := hc.restAt
  rw [hrest] at hb
  have hheader := (bytesAt_append.mp hb).1
  rw [show 12 = 8 + 4 from rfl, Nat.add_assoc] at hheader
  exact .of_run hrun rfl (scanLoop_overrun hin hheader hn (by unfold outerLength; omega)
    (by unfold outerLength; omega)).bind

theorem scanPass_incomplete (hrest : rest = []) (hmissing : incomplete q = some e) :
    Fails e (scanPass Config.codes c) s := by
  obtain ⟨t, fuel, pos, hin, hrun, -, m, p, rfl⟩ := scanPass_goodChunks hr hc hgood h
  exact .of_run hrun rfl (scanInside_incomplete hin (by simp [outerLength, hrest]) hmissing)

end

/-! ### The whole operation -/

/-- What a scan starts from: the registers cleared, the chunk reader open on the container. -/
def scanOpened (c : BufRef) (s : State) : State :=
  { s with
    seq := { scanStart s.seq with fault := { s.seq.fault with valid := false } }
    ckr := ⟨true, some c, 1, sput View.zero s.ckr.views 0 ⟨0, c.len, 0⟩,
      { s.ckr.fault with valid := false }⟩ }

theorem scanOpened_reading (c : BufRef) (s : State) : Reading c [⟨0, c.len, 0⟩] (scanOpened c s) where
  ready := ⟨rfl, rfl, rfl⟩
  src := rfl
  depth := rfl
  stack := ⟨sget_sput_self _ _ _ _, trivial⟩

theorem seqScanOp_run (k : Config.Codes) (c : BufRef) (s : State) : seqScanOp k c s =
    (do onStop (unbind .ckr) (scanPass k c); pure .unit : Op Result) (scanOpened c s) := rfl

/-- A scan that fails inside the container: the fault is SEQ's, the chunk reader is unbound (R317, R422). -/
theorem seqScan_fails {b : Nat}
    (h : Fails e (scanPass Config.codes (wholeBuf s.mem b)) (scanOpened (wholeBuf s.mem b) s)) :
    ∃ t, exec (.seqScan b) s = .next t ∧ t.reply = .faulted ∧ t.mem = s.mem ∧
      t.seq.state = .faulted ∧ t.seq.fault = raisedReg e.1 e.2 ∧ t.ckr.src = none := by
  obtain ⟨u, hpass, hmem, hstate, hfault⟩ := h
  have hrun : exec (.seqScan b) s = .next { unbind .ckr u with reply := .faulted } :=
    runOp_faulted ((seqScanOp_run ..).trans (bind_error (onStop_error hpass)))
  exact ⟨_, hrun, rfl, hmem, hstate, hfault, seqScan_faulted hrun rfl⟩

end Sys2Proof.Machine

namespace Sys2Proof.Proofs

open Sys2Proof.Machine

/-- Settles O51: each fault is the first check that the bytes fail, in the order in which the scan reads
them; the chunks are an induction over their list. -/
theorem seqBadContainers : Obligations.SeqBadContainers := by
  intro s b k whole stops
  have hr := scanOpened_reading (wholeBuf s.mem b) s
  have hlen : whole.length = (wholeBuf s.mem b).len := bytesOf_length ..
  refine ⟨fun h => ?truncated, fun tag n part hn hpart hw => ?overrun,
    fun tag payload tail hn hw => ?outer, fun type chunks rest tail hgood hw => ?inside⟩
  case truncated => exact seqScan_fails (scanPass_trunc hr (hlen ▸ h))
  case overrun =>
    have hb := (bytesAt_append.mp (bytesAt_of_eq hw)).1
    have hsize := hlen.symm.trans (congrArg List.length hw)
    simp only [List.length_append, beBytes_length] at hsize
    exact seqScan_fails (scanPass_overrun hr hb hn (by omega) (by omega))
  case outer =>
    have hb := (bytesAt_append.mp (bytesAt_append.mp (bytesAt_of_eq hw)).1)
    have hsize := hlen.symm.trans (congrArg List.length hw)
    rw [List.length_append, chunkBytes_length] at hsize
    refine ⟨fun htag => ?_, fun htag hshort => ?_, fun type more htag hp hline hcontig => ?_⟩
    · exact seqScan_fails (scanPass_badTopTag hr hb.1 hn (by omega) htag)
    · exact seqScan_fails (scanPass_noSubtype hr hb.1 hn (by omega) htag hshort)
    · have htype := hb.2
      rw [hp, List.length_append, beBytes_length, beBytes_length] at htype
      have hlong : 4 ≤ payload.length := by simp [hp]
      exact seqScan_fails (scanPass_badSubtype hr hb.1 hn (by omega) (bytesAt_append.mp htype).1 hlong
        htag hline hcontig)
  case inside =>
    intro at0 hshort
    have hc : ContainerAt s.mem (wholeBuf s.mem b) k type chunks rest := containerAt_of_bytes hw hshort
    have hnotes := noteChunks_fault (k := k) { s.seq.fault with valid := false } 12 chunks
      (scanStart s.seq)
    refine ⟨fun e he => ?_, fun q hq => ⟨fun hpos hrest => ?_, fun tag n part hn hpart hrest => ?_,
      fun e hrest hmissing => ?_⟩⟩
    · rw [he] at hnotes
      exact seqScan_fails (scanPass_badChunk hr hc hgood hnotes)
    all_goals rw [hq] at hnotes
    · exact seqScan_fails (scanPass_restTrunc hr hc hgood hnotes hpos hrest)
    · exact seqScan_fails (scanPass_restOverrun hr hc hgood hnotes hn hpart hrest)
    · exact seqScan_fails (scanPass_incomplete hr hc hgood hnotes hrest hmissing)

end Sys2Proof.Proofs
end

section
/-! Hold-and-Modify: what INIT and SETPAL leave in the unit (R286, R287; O42), what a pixel code does to
its current colour (R289), and the three readings of the scaling (R292); O43. -/

namespace Sys2Proof.Machine

variable {s : State} {slot p data : Nat} {sel : HamSel}

/-! ### INIT and SETPAL -/

theorem hamInit_badPlanes (slot : Nat) (h : p < 3 ∨ Config.planesMax < p) :
    exec (.hamInit p slot) s = raises .ham .badGeometry p s :=
  runOp_raises (clearFault_bind_raise (raiseIf_bind_true h))

theorem hamInit_completes (hs : readableSlot s slot) (h3 : 3 ≤ p) (h8 : p ≤ Config.planesMax) :
    exec (.hamInit p slot) s = completes .unit
      { s with ham := ⟨true, p, Config.hamInit, false, viewOf (slotAt s slot),
                       { s.ham.fault with valid := false }⟩ } :=
  runOp_ok ((bind_ok (clearFault_run .ham s)).trans ((raiseIf_bind_false (by omega)).trans
    (bind_ok (view8_ok (s := clearedFault .ham s) hs.1 hs.2))))

theorem hamSetpal_completes (hr : ready .ham s) (hs : readableSlot s slot) :
    exec (.hamSetpal slot) s = completes .unit
      { s with ham := { s.ham with lut := viewOf (slotAt s slot) } } :=
  runOp_ok ((enter_bind hr).trans (bind_ok (view8_ok hs.1 hs.2)))

/-! ### The four pixel codes (R289) -/

/-- A pixel code with its answer, the colour that is current after it. `HAM.READ` ends so, and so does a
code handed alone to the unit. -/
def hamAnswer (sel : HamSel) (p data : Nat) : Op Result := do
  hamPixel sel p data
  let t ← get
  pure (.u32 t.ham.cur)

theorem hamAnswer_badIndex (h : s.ham.lut.count ≤ data) :
    runOp (hamAnswer .base p data) s = raises .ham .rangeBadIndex data s :=
  runOp_raises (bind_error ((get_bind _ s).trans (raiseIf_bind_true h)))

theorem hamAnswer_unset (hi : data < s.ham.lut.count) (hu : (lutAt s.ham.lut data).set = false) :
    runOp (hamAnswer .base p data) s = raises .ham .unset data s :=
  runOp_raises (bind_error ((get_bind _ s).trans
    ((raiseIf_bind_false (Nat.not_le_of_lt hi)).trans (raiseIf_bind_true hu))))

theorem hamBaseOp_ok (h : lutHas s.ham.lut data) : hamBaseOp data s = .ok ()
    { s with ham := { s.ham with cur := (lutAt s.ham.lut data).val, curSet := true } } := by
  obtain ⟨hi, hset⟩ := h
  rw [hamBaseOp, get_bind, raiseIf_bind_false (Nat.not_le_of_lt hi),
    raiseIf_bind_false (by simp [hset])]
  rfl

theorem hamAnswer_base (h : lutHas s.ham.lut data) :
    runOp (hamAnswer .base p data) s = completes (.u32 (lutAt s.ham.lut data).val)
      { s with ham := { s.ham with cur := (lutAt s.ham.lut data).val, curSet := true } } :=
  runOp_ok (bind_ok (hamBaseOp_ok h))

/-- The channel that a modify code patches (`HAM_SEL`; log 12). -/
def channelOfSel (sel : HamSel) : Option Config.Channel :=
  match sel with
  | .base => none
  | .modb => some Config.hamSel1
  | .modr => some Config.hamSel2
  | .modg => some Config.hamSel3

/-- The state with another current colour, as a modify code leaves it. -/
def withColour (c : U32) (s : State) : State := { s with ham := { s.ham with cur := c } }

theorem hamAnswer_modify {ch : Config.Channel} (h : channelOfSel sel = some ch) (p data : Nat)
    (s : State) :
    let c := modifiedColour Config.hamScale ch p data s.ham.cur
    runOp (hamAnswer sel p data) s = completes (.u32 c) (withColour c s) := by
  cases sel <;> cases h <;> rfl

theorem runOp_congr {x y : Op Result} {t : State} (h : x s = y t) : runOp x s = runOp y t := by
  rw [runOp, h, runOp]

theorem hamAlone_run (hr : ready .ham s) (sel : HamSel) (data : Nat) :
    hamAlone sel s.ham.planes data s = hamAnswer sel s.ham.planes data s := by
  rw [hamAlone, enter_bind hr, get_bind, raiseIf_bind_false (fun h => h rfl)]
  rfl

theorem exec_instrOfHam (hr : ready .ham s) (sel : HamSel) (data : Nat) :
    exec (instrOfHam s.ham.planes sel data) s = runOp (hamAnswer sel s.ham.planes data) s := by
  have halone : exec (instrOfHam s.ham.planes sel data) s =
      runOp (hamAlone sel s.ham.planes data) s := by cases sel <;> rfl
  exact halone.trans (runOp_congr (hamAlone_run hr sel data))

theorem exec_modify {ch : Config.Channel} (hr : ready .ham s) (h : channelOfSel sel = some ch)
    (data : Nat) :
    let c := modifiedColour Config.hamScale ch s.ham.planes data s.ham.cur
    exec (instrOfHam s.ham.planes sel data) s = completes (.u32 c) (withColour c s) :=
  (exec_instrOfHam hr sel data).trans (hamAnswer_modify h _ data s)

/-! ### A patched channel, byte by byte -/

/-- A colour, its bytes from the top, with one of its channels replaced; alpha is the lowest byte. -/
def replaceChannel (ch : Config.Channel) (v : Byte) (c : U32) : U32 :=
  let byte := fun k : Nat => c.extractLsb' (8 * k) 8
  match ch with
  | .red => v ++ byte 2 ++ byte 1 ++ byte 0
  | .green => byte 3 ++ v ++ byte 1 ++ byte 0
  | .blue => byte 3 ++ byte 2 ++ v ++ byte 0

theorem getLsbD_byteMask (i : Nat) : (0xFF : U32).getLsbD i = decide (i < 8) := by
  have h : (0xFF : U32) = (BitVec.allOnes 8).setWidth 32 := rfl
  rw [h, BitVec.getLsbD_setWidth, BitVec.getLsbD_allOnes]
  by_cases hi : i < 8 <;> simp [hi]
  omega

/-- Below and above the channel's byte the colour's own bits stand (R289). -/
theorem getLsbD_patchChannel (ch : Config.Channel) (v : Byte) (c : U32) {i : Nat} (hi : i < 32) :
    (patchChannel ch v c).getLsbD i =
      if channelShift ch ≤ i ∧ i < channelShift ch + 8 then v.getLsbD (i - channelShift ch)
      else c.getLsbD i := by
  simp only [patchChannel, BitVec.getLsbD_or, BitVec.getLsbD_and, BitVec.getLsbD_not,
    BitVec.getLsbD_shiftLeft, BitVec.getLsbD_setWidth, getLsbD_byteMask]
  split_ifs with h
  · simp [hi, show ¬ i < channelShift ch by omega, show i - channelShift ch < 8 by omega,
      show i - channelShift ch < 32 by omega]
  · by_cases hlow : i < channelShift ch
    · simp [hi, hlow]
    · have hhigh : 8 ≤ i - channelShift ch := by omega
      simp [hi, hhigh]

/-- The concatenation's bits, byte by byte. -/
theorem getLsbD_replaceChannel (ch : Config.Channel) (v : Byte) (c : U32) {i : Nat} (hi : i < 32) :
    (replaceChannel ch v c).getLsbD i =
      if channelShift ch ≤ i ∧ i < channelShift ch + 8 then v.getLsbD (i - channelShift ch)
      else c.getLsbD i := by
  cases ch <;>
    simp only [replaceChannel, channelShift, BitVec.getLsbD_append, BitVec.getLsbD_extractLsb',
      Nat.sub_sub] <;>
    split_ifs <;> grind

/-- Masking a channel out and putting a byte in its place replaces that byte (R289). -/
theorem patchChannel_eq (ch : Config.Channel) (v : Byte) (c : U32) :
    patchChannel ch v c = replaceChannel ch v c :=
  BitVec.eq_of_getLsbD_eq fun _ hi =>
    (getLsbD_patchChannel ch v c hi).trans (getLsbD_replaceChannel ch v c hi).symm

/-! ### Scaled data (R292) -/

theorem hamScaled_linear (data d : Nat) : hamScaled .linear data d =
    (2 * data * 255 + (2 ^ d - 1)) / (2 * (2 ^ d - 1)) := rfl

theorem hamScaled_shift (data d : Nat) : hamScaled .shift data d = data <<< (8 - d) :=
  (Nat.shiftLeft_eq data (8 - d)).symm

theorem ceilDiv_mul_ge {d : Nat} (hd : 0 < d) (n : Nat) : n ≤ d * ceilDiv n d := by
  have hmod := Nat.mod_lt (n + (d - 1)) hd
  have hdiv := Nat.div_add_mod (n + (d - 1)) d
  rw [ceilDiv]
  omega

/-- Two repetitions fill the eight bits. -/
theorem hamScaled_replicate {d : Nat} (h4 : 4 ≤ d) (h6 : d ≤ 6) (hdata : data < 2 ^ d) :
    hamScaled .replicate data d = (data <<< (8 - d)) ||| (data >>> (2 * d - 8)) := by
  have htwo : ceilDiv 8 d = 2 := by interval_cases d <;> rfl
  have hpattern : repeatBits d data 2 = data <<< d ||| data := by
    rw [← Nat.shiftLeft_add_eq_or_of_lt hdata, Nat.shiftLeft_eq]
    simp [repeatBits]
  have hshift : data <<< d = data <<< (8 - d) <<< (2 * d - 8) := by
    rw [← Nat.shiftLeft_add, show 8 - d + (2 * d - 8) = d by omega]
  rw [hamScaled, htwo, hpattern, ← Nat.shiftRight_eq_div_pow, Nat.shiftRight_or_distrib,
    Nat.mul_comm d 2, hshift, Nat.shiftLeft_shiftRight]

theorem repeatBits_zero (d n : Nat) : repeatBits d 0 n = 0 := by
  induction n with
  | zero => rfl
  | succ n ih => rw [repeatBits, ih, Nat.zero_mul]

theorem repeatBits_mono {d data data' : Nat} (h : data' ≤ data) (n : Nat) :
    repeatBits d data' n ≤ repeatBits d data n := by
  induction n with
  | zero => exact le_rfl
  | succ n ih => exact Nat.add_le_add (Nat.mul_le_mul_right _ ih) h

theorem repeatBits_lt {d : Nat} (h : data < 2 ^ d) (n : Nat) :
    repeatBits d data n < 2 ^ (d * n) := by
  induction n with
  | zero => exact Nat.one_pos
  | succ n ih =>
    calc repeatBits d data n * 2 ^ d + data
        < (repeatBits d data n + 1) * 2 ^ d := by rw [Nat.succ_mul]; omega
      _ ≤ 2 ^ (d * n) * 2 ^ d := Nat.mul_le_mul_right _ ih
      _ = 2 ^ (d * (n + 1)) := (Nat.pow_add 2 (d * n) d).symm

theorem hamScaled_zero (k : Config.HamScale) {d : Nat} (hd : 1 ≤ d) : hamScaled k 0 d = 0 := by
  cases k with
  | linear =>
    have hpos := chanMax_pos hd
    exact Nat.div_eq_of_lt (by omega)
  | replicate => rw [hamScaled, repeatBits_zero, Nat.zero_div]
  | shift => exact Nat.zero_mul _

theorem hamScaled_mono (k : Config.HamScale) (d : Nat) {data data' : Nat} (h : data' ≤ data) :
    hamScaled k data' d ≤ hamScaled k data d := by
  cases k with
  | linear =>
    refine Nat.div_le_div_right (Nat.add_le_add_right (Nat.mul_le_mul_right _ ?_) _)
    exact Nat.mul_le_mul_left 2 h
  | replicate => exact Nat.div_le_div_right (repeatBits_mono h _)
  | shift => exact Nat.mul_le_mul_right _ h

theorem hamScaled_le (k : Config.HamScale) {d : Nat} (hd : 1 ≤ d) (h8 : d ≤ 8)
    (hdata : data < 2 ^ d) : hamScaled k data d ≤ 255 := by
  cases k with
  | linear => exact rescale_le hd (Nat.le_sub_one_of_lt hdata)
  | replicate =>
    refine Nat.le_of_lt_succ (Nat.div_lt_of_lt_mul ?_)
    have hfill := ceilDiv_mul_ge hd 8
    calc repeatBits d data (ceilDiv 8 d)
        < 2 ^ (d * ceilDiv 8 d) := repeatBits_lt hdata _
      _ = 2 ^ (d * ceilDiv 8 d - 8) * 2 ^ 8 := by rw [← Nat.pow_add, Nat.sub_add_cancel hfill]
  | shift =>
    refine Nat.le_of_lt_succ ?_
    calc data * 2 ^ (8 - d)
        < 2 ^ d * 2 ^ (8 - d) := Nat.mul_lt_mul_of_pos_right hdata (Nat.two_pow_pos _)
      _ = 2 ^ 8 := by rw [← Nat.pow_add, Nat.add_sub_cancel' h8]

end Sys2Proof.Machine

namespace Sys2Proof.Proofs

open Sys2Proof.Machine

/-- Settles O42: the plane count is checked before the slot's view is taken. -/
theorem hamInit : Obligations.HamInit :=
  fun _ _ slot hslot hmade => ⟨hamInit_badPlanes slot, hamInit_completes ⟨hslot, hmade⟩,
    fun hr => hamSetpal_completes hr ⟨hslot, hmade⟩⟩

/-- Settles O43: handed alone to a unit of its plane count, a code does what `hamAnswer` does; the
selectors are the values of a permutation of the channels. -/
theorem hamCodes : Obligations.HamCodes := by
  refine ⟨?codes, hamSel_cover, ?_, ?_, ?_, ?scalings⟩
  case codes =>
    rintro s p data hr rfl - - -
    have patched (sel : HamSel) (ch : Config.Channel) (h : channelOfSel sel = some ch) :
        let new := replaceChannel ch
          (BitVec.ofNat 8 (hamScaled Config.hamScale data (s.ham.planes - 2))) s.ham.cur
        exec (instrOfHam s.ham.planes sel data) s = completes (.u32 new) (withColour new s) := by
      have hmod := exec_modify hr h data
      rwa [modifiedColour, patchChannel_eq] at hmod
    exact ⟨fun hi => (exec_instrOfHam hr .base data).trans (hamAnswer_badIndex hi),
      fun hi hu => (exec_instrOfHam hr .base data).trans (hamAnswer_unset hi hu),
      fun hi hset => (exec_instrOfHam hr .base data).trans (hamAnswer_base ⟨hi, hset⟩),
      patched .modb _ rfl, patched .modr _ rfl, patched .modg _ rfl⟩
  case scalings =>
    intro d data h1 h6 hdata
    exact ⟨hamScaled_linear data d, fun h4 => hamScaled_replicate h4 h6 hdata,
      hamScaled_shift data d, fun k => ⟨hamScaled_zero k h1, hamScaled_le k h1 (by omega) hdata,
        fun data' hlt => hamScaled_mono k d hlt.le⟩⟩
  all_goals exact Config.hamSel.injective.ne (by decide)

end Sys2Proof.Proofs
end

section
/-! `HAM.READ` and `HAM.ADV` over the reader (R288, R294): each issues one operation of BPR, which leaves
HAM's registers, and copies the reader's fault where it gives no result (log 16); O44. -/

namespace Sys2Proof.Machine

variable {α : Type} {s t : State} {x : Op α} {f : α → Op Result} {g : α → Result}

/-! ### The reader leaves HAM -/

/-- "HAM's registers stay". -/
theorem keepsHam_closed : Closed fun s t : State => t.ham = s.ham :=
  ⟨fun _ => rfl, fun h1 h2 => h2.trans h1⟩

theorem bprReadCore_keepsHam (s : State) : Leads (fun s t => t.ham = s.ham) bprReadCore s := by
  unfold Leads endOf
  rcases bprReadCore_cases s with (⟨-, _, -, h⟩ | ⟨-, -, h⟩) | ⟨-, -, h⟩ | ⟨-, h⟩
  · rw [h]
    rfl
  all_goals rw [h]

theorem bprReadOp_keepsHam (s : State) : Leads (fun s t => t.ham = s.ham) bprReadOp s :=
  keepsHam_closed.enter (fun _ _ => rfl) fun _ => bprReadCore_keepsHam s

theorem bprAdvOp_keepsHam (n : Nat) (s : State) :
    Leads (fun s t => t.ham = s.ham) (bprAdvOp n) s :=
  keepsHam_closed.enter (fun _ _ => rfl) fun _ => keepsHam_closed.bind
    (keepsHam_closed.times (I := fun _ => True)
      (fun s _ => keepsHam_closed.bind (bprReadCore_keepsHam s) fun _ _ _ _ => keepsHam_closed.pure ())
      (fun _ _ _ _ _ => trivial) n s trivial)
    fun _ _ _ _ => keepsHam_closed.pure Result.unit

/-! ### The outcome of an operation inside another unit's -/

/-- The host receives no result: the operation faulted, or was refused by its unit (R15). -/
def noResult (y : Reply) : Prop := y = .faulted ∨ y = .refused

/-- All that the host can receive of an operation whose answer is passed on. -/
theorem runOp_map_cases (x : Op α) (g : α → Result) (s : State) :
    (∃ a t, x s = .ok a t ∧ runOp (x >>= fun a => pure (g a)) s = completes (g a) t) ∨
    (∃ e t y, (e = .faulted ∨ e = .refused) ∧ noResult y ∧ x s = .error e t ∧
      runOp (x >>= fun a => pure (g a)) s = .next { t with reply := y }) ∨
    ∃ r t, x s = .error (.outside r) t ∧ runOp (x >>= fun a => pure (g a)) s = .refused r := by
  cases hx : x s with
  | ok a t =>
    exact .inl ⟨a, t, rfl, runOp_ok ((bind_ok hx).trans (pure_run (g a) t))⟩
  | error e t =>
    have h : (x >>= fun a => pure (g a)) s = .error e t := bind_error hx
    cases e with
    | faulted => exact .inr (.inl ⟨_, t, _, .inl rfl, .inl rfl, rfl, runOp_faulted h⟩)
    | refused => exact .inr (.inl ⟨_, t, _, .inr rfl, .inr rfl, rfl, runOp_refused h⟩)
    | outside r => exact .inr (.inr ⟨r, t, rfl, runOp_outside h⟩)

theorem not_noResult_done (r : Result) : ¬ noResult (.done r) := by simp [noResult]

/-- Without a result for the host, the operation itself faulted or was refused. -/
theorem error_of_noResult (h : runOp (x >>= fun a => pure (g a)) s = .next t)
    (ht : noResult t.reply) :
    ∃ e u y, (e = .faulted ∨ e = .refused) ∧ x s = .error e u ∧ t = { u with reply := y } := by
  rcases runOp_map_cases x g s with ⟨a, u, -, hok⟩ | ⟨e, u, y, he, -, hx, herr⟩ | ⟨r, u, -, hout⟩
  · rw [← Host.Outcome.next.inj (hok.symm.trans h)] at ht
    exact absurd ht (not_noResult_done _)
  · exact ⟨e, u, y, he, hx, (Host.Outcome.next.inj (herr.symm.trans h)).symm⟩
  · exact nomatch hout.symm.trans h

/-- Where an operation of BPR gives no result, HAM's operation around it faults with a copy of the
reader's fault, and HAM keeps its other registers. -/
theorem runOp_callFrom_noResult (hkeeps : Leads (fun s t => t.ham = s.ham) x s)
    (h : runOp (x >>= fun a => pure (g a)) s = .next t) (ht : noResult t.reply) :
    runOp (callFrom .ham .bpr x >>= f) s =
      .next { t with ham := { s.ham with fault := t.bpr.fault }, reply := .faulted } := by
  obtain ⟨e, u, y, he, hx, rfl⟩ := error_of_noResult h ht
  have hham : u.ham = s.ham := hkeeps.error hx
  have hcall : callFrom .ham .bpr x s = .error .faulted (withFault .ham (faultOf .bpr u) u) := by
    rcases he with rfl | rfl
    · exact callFrom_faulted hx
    · exact callFrom_refused hx
  rw [runOp_faulted (bind_error hcall), ← hham]
  rfl

/-- What the model refuses of the reader it refuses of HAM over it (log 20). -/
theorem runOp_callFrom_outside {r : Refusal}
    (h : runOp (x >>= fun a => pure (g a)) s = .refused r) :
    runOp (callFrom .ham .bpr x >>= f) s = .refused r := by
  rcases runOp_map_cases x g s with ⟨a, u, -, hok⟩ | ⟨e, u, y, -, -, -, herr⟩ | ⟨q, u, hx, hout⟩
  · exact nomatch hok.symm.trans h
  · exact nomatch herr.symm.trans h
  · cases hout.symm.trans h
    exact runOp_outside (bind_error (callFrom_outside hx))

/-! ### HAM.READ -/

theorem hamRead_badGeometry (hr : ready .ham s) (h : s.bpr.geom.planeCount ≠ s.ham.planes) :
    exec .hamRead s = raises .ham .badGeometry 0 s :=
  runOp_raises (bind_error ((enter_bind hr).trans ((get_bind _ s).trans (raiseIf_bind_true h))))

/-- After its checks `HAM.READ` is a read of the reader and the pixel code that comes of it. -/
theorem exec_hamRead (hr : ready .ham s) (hp : s.bpr.geom.planeCount = s.ham.planes) :
    exec .hamRead s = runOp (callFrom .ham .bpr bprReadOp >>= fun raw =>
      hamAnswer (decodeHam s.ham.planes raw.toNat).1 s.ham.planes
        (decodeHam s.ham.planes raw.toNat).2) s := by
  show runOp (hamReadOp >>= fun c => pure (.u32 c)) s = _
  have hrun : (hamReadOp >>= fun c => pure (.u32 c) : Op Result) s =
      (callFrom .ham .bpr bprReadOp >>= fun raw =>
        hamAnswer (decodeHam s.ham.planes raw.toNat).1 s.ham.planes
          (decodeHam s.ham.planes raw.toNat).2) s := by
    rw [hamReadOp, bind_assoc, enter_bind hr, bind_assoc, get_bind, bind_assoc,
      raiseIf_bind_false (not_not.mpr hp)]
    simp only [bind_assoc]
    rfl
  exact runOp_congr hrun

/-- A read that gives no result leaves a fault in the reader, its own or an earlier one (R386). -/
theorem bprReadOp_error_valid {e : Stop} (he : e = .faulted ∨ e = .refused)
    (h : bprReadOp s = .error e t) : t.bpr.fault.valid = true := by
  cases hv : (faultOf .bpr s).valid with
  | true =>
    cases (bind_error (enter_faulted hv)).symm.trans h
    exact hv
  | false =>
    cases hi : initOf .bpr s with
    | false =>
      cases (bind_error (enter_unready hv hi)).symm.trans h
      rfl
    | true =>
      cases hb : bound .bpr s with
      | false =>
        cases (bind_error (enter_dead hv hi hb)).symm.trans h
        simp at he
      | true =>
        replace h := (enter_bind ⟨hv, hi, hb⟩).symm.trans h
        rcases bprReadCore_cases s with (⟨-, i, -, hpast⟩ | ⟨-, -, hok⟩) | ⟨-, -, hok⟩ | ⟨-, hstale⟩
        · cases hpast.symm.trans h
          rfl
        · exact nomatch hok.symm.trans h
        · exact nomatch hok.symm.trans h
        · cases hstale.symm.trans h
          simp at he

theorem bprRead_noResult_valid (h : exec .bprRead s = .next t) (ht : noResult t.reply) :
    t.bpr.fault.valid = true := by
  obtain ⟨e, u, y, he, hx, rfl⟩ := error_of_noResult (x := bprReadOp) (g := .u8) h ht
  have hvalid : u.bpr.fault.valid = true := bprReadOp_error_valid he hx
  exact hvalid

theorem hamRead_noResult (hr : ready .ham s) (hp : s.bpr.geom.planeCount = s.ham.planes)
    (h : exec .bprRead s = .next t) (ht : noResult t.reply) : exec .hamRead s =
      .next { t with ham := { s.ham with fault := t.bpr.fault }, reply := .faulted } :=
  (exec_hamRead hr hp).trans (runOp_callFrom_noResult (g := .u8) (bprReadOp_keepsHam s) h ht)

theorem hamRead_outside {r : Refusal} (hr : ready .ham s)
    (hp : s.bpr.geom.planeCount = s.ham.planes) (h : exec .bprRead s = .refused r) :
    exec .hamRead s = .refused r :=
  (exec_hamRead hr hp).trans (runOp_callFrom_outside (x := bprReadOp) (g := .u8) h)

/-- Over a reader that reads, `HAM.READ` is the pixel code that the index is, one pixel on. -/
theorem hamRead_of_read (hr : ready .ham s) (hp : s.bpr.geom.planeCount = s.ham.planes)
    (hb : ready .bpr s) (hf : fetchFits s s.bpr.cur) (hc : cacheTrue s) :
    let code := decodeHam s.ham.planes ((readerColumn s).getD s.bpr.cur.bit 0).toNat
    exec .hamRead s = runOp (hamAnswer code.1 s.ham.planes code.2) (readerStepped s) := by
  have hread : bprReadOp s = .ok ((readerColumn s).getD s.bpr.cur.bit 0) (readerStepped s) :=
    (enter_bind hb).trans (bprReadCore_ok hf hc)
  exact (exec_hamRead hr hp).trans (runOp_congr (bind_ok (callFrom_ok hread)))

/-! ### HAM.ADV -/

theorem exec_bprAdv (n : Nat) (s : State) :
    exec (.bprAdv n) s = runOp (bprAdvOp n >>= fun r => pure r) s := by
  rw [bind_pure]
  rfl

theorem exec_hamAdv (hr : ready .ham s) (n : Nat) :
    exec (.hamAdv n) s = runOp (callFrom .ham .bpr (bprAdvOp n) >>= fun r => pure r) s := by
  rw [bind_pure]
  exact runOp_congr (enter_bind hr)

theorem hamAdv_completes {n : Nat} {r : Result} (hr : ready .ham s)
    (h : exec (.bprAdv n) s = completes r t) : exec (.hamAdv n) s = completes r t := by
  rw [exec_bprAdv] at h
  rcases runOp_map_cases (bprAdvOp n) id s with ⟨a, u, hx, hok⟩ | ⟨e, u, y, -, hy, -, herr⟩ |
    ⟨q, u, -, hout⟩
  · rw [exec_hamAdv hr, ← h]
    exact (runOp_ok (bind_ok (callFrom_ok hx))).trans hok.symm
  · have hdone : y = .done r := congrArg State.reply (Host.Outcome.next.inj (herr.symm.trans h))
    exact absurd (hdone ▸ hy) (not_noResult_done _)
  · exact nomatch hout.symm.trans h

theorem hamAdv_outside {n : Nat} {r : Refusal} (hr : ready .ham s)
    (h : exec (.bprAdv n) s = .refused r) : exec (.hamAdv n) s = .refused r := by
  rw [exec_bprAdv] at h
  exact (exec_hamAdv hr n).trans (runOp_callFrom_outside h)

theorem hamAdv_noResult {n : Nat} (hr : ready .ham s) (h : exec (.bprAdv n) s = .next t)
    (ht : noResult t.reply) : exec (.hamAdv n) s =
      .next { t with ham := { s.ham with fault := t.bpr.fault }, reply := .faulted } := by
  rw [exec_bprAdv] at h
  exact (exec_hamAdv hr n).trans (runOp_callFrom_noResult (bprAdvOp_keepsHam n s) h ht)

end Sys2Proof.Machine

namespace Sys2Proof.Proofs

open Sys2Proof.Machine

/-- Settles O44: `HAM.READ` is the reader's read with `hamAnswer` after it, `HAM.ADV` the reader's
advance, each with the reader's fault copied. -/
theorem hamRead : Obligations.HamRead := by
  refine ⟨fun s hr => ⟨hamRead_badGeometry hr, fun hp t h ht => ?_, fun hp r => hamRead_outside hr hp,
    fun hp hb _ hc hf => ?reads⟩, fun s n hr => ⟨fun hb hc hf => ?advances,
      fun r => hamAdv_outside hr, fun t => hamAdv_noResult hr⟩⟩
  · exact ⟨bprRead_noResult_valid h ht, hamRead_noResult hr hp h ht⟩
  case reads =>
    have hcode := hamRead_of_read hr hp hb hf hc
    refine ⟨_, readerStepped s, bprRead_completes hb hf hc, fun hsel => ?_, fun hsel => ?_,
      fun hsel => ?_, fun hsel hi => ?_, fun hsel hi hu => ?_, fun hsel hi hset => ?_⟩
    all_goals refine hcode.trans ?_; rw [hsel]
    · exact hamAnswer_modify (sel := .modb) rfl _ _ (readerStepped s)
    · exact hamAnswer_modify (sel := .modr) rfl _ _ (readerStepped s)
    · exact hamAnswer_modify (sel := .modg) rfl _ _ (readerStepped s)
    · exact hamAnswer_badIndex hi
    · exact hamAnswer_unset hi hu
    · exact hamAnswer_base ⟨hi, hset⟩
  case advances =>
    obtain ⟨cache, h, -⟩ := bprAdv_completes n hb hc hf
    have hadv := hamAdv_completes hr h
    exact ⟨hadv.trans h.symm, cache, hadv⟩

end Sys2Proof.Proofs
end

section
/-! The raster palettes (R295 to R298): configured, loaded in order, and selected for a line; O45. -/

namespace Sys2Proof.Machine

variable {s : State} {k slot y count height : Nat}

theorem rpaConfig_completes (height : Nat) (c : Consumer) (s : State) :
    exec (.rpaConfig height c) s = completes .unit
      { s with rpa := { s.rpa with init := true, count := 0, height := height, consumer := c,
                                   fault := { s.rpa.fault with valid := false } } } := by
  have hrun : rpaConfigOp height c s = .ok .unit
      { s with rpa := { s.rpa with init := true, count := 0, height := height, consumer := c,
                                   fault := { s.rpa.fault with valid := false } } } :=
    bind_ok (clearFault_run .rpa s)
  exact runOp_ok hrun

/-! ### RPA.LOAD -/

theorem rpaLoad_badIndex (slot : Nat) (hr : ready .rpa s)
    (h : Config.rastMax ≤ k ∨ s.rpa.count < k) :
    exec (.rpaLoad k slot) s = raises .rpa .progBadIndex k s :=
  runOp_raises ((enter_bind hr).trans ((get_bind _ s).trans (raiseIf_bind_true h)))

/-- The state with raster palette `k` loaded: the next one counts, an old one is replaced (R296). -/
def rasterLoaded (k : Nat) (l : Lut) (s : State) : State :=
  { s with rpa := { s.rpa with
      ras := sput Lut.empty s.rpa.ras k l
      count := if k = s.rpa.count then s.rpa.count + 1 else s.rpa.count } }

theorem rpaLoad_completes (hr : ready .rpa s) (hk : k < Config.rastMax) (hc : k ≤ s.rpa.count)
    (hs : readableSlot s slot) : exec (.rpaLoad k slot) s =
      completes .unit (rasterLoaded k (viewOf (slotAt s slot)) s) := by
  refine runOp_ok ?_
  rw [rpaLoadOp, enter_bind hr, get_bind, raiseIf_bind_false (by omega),
    bind_ok (view8_ok hs.1 hs.2)]
  rfl

/-! ### RPA.SELECT -/

/-- A line of the image has a raster palette (R297). -/
theorem rasterIndex_lt (hc : 0 < count) (hy : y < height) : rasterIndex count height y < count := by
  unfold rasterIndex
  split_ifs with hfew
  · exact hy.trans_le hfew
  · exact Nat.div_lt_of_lt_mul (Nat.mul_lt_mul_of_pos_right hy hc)

theorem rpaSelect_none (y : Nat) (hr : ready .rpa s) (h : s.rpa.count = 0) :
    exec (.rpaSelect y) s = completes .unit s := by
  refine runOp_ok ?_
  rw [rpaSelectOp, enter_bind hr, get_bind, if_pos h, pure_run]

theorem rpaSelect_badLine (hr : ready .rpa s) (hc : 0 < s.rpa.count) (h : s.rpa.height ≤ y) :
    exec (.rpaSelect y) s = raises .rpa .rangeBadIndex y s := by
  refine runOp_raises ?_
  rw [rpaSelectOp, enter_bind hr, get_bind, if_neg hc.ne', raiseIf_bind_true h]

theorem rpaSelect_completes (hr : ready .rpa s) (hc : 0 < s.rpa.count) (h : y < s.rpa.height) :
    exec (.rpaSelect y) s = completes .unit (installLut s.rpa.consumer
      (sget Lut.empty s.rpa.ras (rasterIndex s.rpa.count s.rpa.height y)) s) := by
  refine runOp_ok ?_
  rw [rpaSelectOp, enter_bind hr, get_bind, if_neg hc.ne', raiseIf_bind_false (by omega)]
  rfl

end Sys2Proof.Machine

namespace Sys2Proof.Proofs

open Sys2Proof.Machine

/-- Settles O45: loading is one write to the table of raster palettes, selecting one read of it. -/
theorem rasterPalettes : Obligations.RasterPalettes := by
  refine ⟨fun s height k slot c => ⟨rpaConfig_completes height c s, fun hr =>
      ⟨rpaLoad_badIndex slot hr, fun hk hc hslot hmade => ?load⟩⟩,
    fun s y hr => ⟨rpaSelect_none y hr, rpaSelect_badLine hr, fun hc hy => ?select⟩⟩
  case load =>
    exact ⟨_, rpaLoad_completes hr hk hc ⟨hslot, hmade⟩,
      sget_sput Lut.empty s.rpa.ras k (viewOf (slotAt s slot))⟩
  case select =>
    refine ⟨rasterIndex_lt hc hy, (rpaSelect_completes hr hc hy).trans ?_⟩
    cases s.rpa.consumer <;> rfl

end Sys2Proof.Proofs
end

section
/-! Updates that an operation does not look at: `Through φ x` says that `x` runs alike from `s` and from
`φ s`, and that what it leaves differs by `φ` again. One lemma for each way operations are composed. -/

namespace Sys2Proof.Machine

variable {α β : Type} {φ : State → State} {x : Op α} {f : α → Op β} {s t : State} {u : UnitId}

/-- An outcome with the state replaced. -/
def mapState (φ : State → State) (r : EStateM.Result Stop State α) : EStateM.Result Stop State α :=
  match r with
  | .ok a t => .ok a (φ t)
  | .error e t => .error e (φ t)

/-- The operation neither reads nor undoes the update `φ`. -/
def Through (φ : State → State) (x : Op α) : Prop := ∀ s, x (φ s) = mapState φ (x s)

theorem Through.ok {a : α} (h : Through φ x) (hx : x s = .ok a t) : x (φ s) = .ok a (φ t) := by
  rw [h s, hx]
  rfl

theorem Through.error {e : Stop} (h : Through φ x) (hx : x s = .error e t) :
    x (φ s) = .error e (φ t) := by
  rw [h s, hx]
  rfl

/-- Unit `u`'s guards do not look at the update, and its faults are raised beside it. -/
structure Beside (φ : State → State) (u : UnitId) : Prop where
  fault : ∀ s, faultOf u (φ s) = faultOf u s
  init : ∀ s, initOf u (φ s) = initOf u s
  bound : ∀ s, bound u (φ s) = bound u s
  raise : ∀ s g, withFault u g (φ s) = φ (withFault u g s)

theorem through_pure (a : α) : Through φ (pure a : Op α) := fun _ => rfl

theorem through_bind (hx : Through φ x) (hf : ∀ a, Through φ (f a)) : Through φ (x >>= f) := fun s => by
  rw [bind_run, bind_run, hx s]
  cases x s with
  | ok a t => exact hf a t
  | error e t => rfl

theorem through_get {g : State → Op β} (hg : ∀ s, g (φ s) = g s) (h : ∀ s, Through φ (g s)) :
    Through φ (get >>= g) := fun s => (congrFun (hg s) (φ s)).trans (h s s)

theorem through_modify {g : State → State} (h : ∀ s, g (φ s) = φ (g s)) :
    Through φ (modify g : Op Unit) := fun s => congrArg (EStateM.Result.ok ()) (h s)

theorem through_raise (h : Beside φ u) (c : FaultCode) (n : Nat) :
    Through φ (raise u c n : Op α) := fun s =>
  congrArg (fun t => (.error .faulted t : EStateM.Result Stop State α)) (h.raise s _)

theorem through_ite {p : Prop} [Decidable p] {y : Op α} (hx : Through φ x) (hy : Through φ y) :
    Through φ (if p then x else y) := by
  split
  · exact hx
  · exact hy

theorem through_raiseIf {p : Prop} [Decidable p] (h : Beside φ u) (c : FaultCode) (n : Nat) :
    Through φ (raiseIf p u c n) := through_ite (through_raise h c n) (through_pure ())

theorem through_enter (h : Beside φ u) : Through φ (enter u) := fun s => by
  unfold enter
  rw [h.fault, h.init, h.bound]
  split_ifs with hv hi hb
  · rfl
  · rfl
  · rfl
  · exact through_raise h .notInit 0 s

theorem through_clearFault (h : Beside φ u) : Through φ (clearFault u) :=
  through_modify fun s => by rw [h.fault, h.raise]

theorem through_checkSlot (h : Beside φ u) (slot : Nat) : Through φ (checkSlot u slot) :=
  through_raiseIf h _ _

theorem through_checkMade (h : Beside φ u) (hslot : ∀ s, slotAt (φ s) = slotAt s) (slot : Nat) :
    Through φ (checkMade u slot) :=
  through_get (fun s => by rw [hslot]) fun _ => through_raiseIf h _ _

theorem through_palPlanes (h : Beside φ .pal) (hslot : ∀ s, slotAt (φ s) = slotAt s) (slot : Nat) :
    Through φ (palPlanesOp slot) :=
  through_bind (through_enter h) fun _ => through_bind (through_checkSlot h slot) fun _ =>
    through_bind (through_checkMade h hslot slot) fun _ =>
      through_get (fun s => by rw [hslot]) fun _ => through_pure _

/-- SEQ's registers replaced. -/
def withSeq (g : Seq) (s : State) : State := { s with seq := g }

theorem beside_withSeq (g : Seq) : Beside (withSeq g) .pal :=
  ⟨fun _ => rfl, fun _ => rfl, fun _ => rfl, fun _ _ => rfl⟩

end Sys2Proof.Machine
end

section
/-! The request checks of the sequencer (R311, R313, R328), in their order, before any write; O50. -/

namespace Sys2Proof.Machine

variable {s t : State} {x b slot w h p c work : Nat} {f : PlaneFormat} {q : Option Nat}

/-! ### SEQ.DECODE -/

theorem seqDecode_badPlanes (hp : p = 0 ∨ Config.planesMax < p) :
    exec (.seqDecode b slot w h p f x) s = raises .seq .badPlanes p s :=
  runOp_raises (clearFault_bind_raise (raiseIf_bind_true hp))

theorem seqDecode_bufSmall (hp : ¬ (p = 0 ∨ Config.planesMax < p))
    (hx : (bufAt s.mem x).len < 4 * w * h) :
    exec (.seqDecode b slot w h p f x) s = raises .seq .bufSmall (4 * w * h) s :=
  runOp_raises (clearFault_bind_raise ((raiseIf_bind_false hp).trans (raiseIf_bind_true hx)))

/-! ### SEQ.ENCODE -/

/-- The plane count of an encode, given or worked out by `PAL.PLANES` (R313, R153). -/
def PlaneCount (s : State) (slot : Nat) (q : Option Nat) (p : Nat) : Prop :=
  q = some p ∨ q = none ∧ ready .pal s ∧ readableSlot s slot ∧ p = planesFor (slotAt s slot).count

/-- With the plane count known only the sizes are checked. -/
theorem encodeChecks_run {r r' : BufRef} (hq : PlaneCount s slot q p) :
    encodeChecks r slot w h q r' s = sizeChecks r w h r' p s := by
  rw [encodeChecks_eq]
  rcases hq with rfl | ⟨rfl, hr, hs, rfl⟩
  · rfl
  · have hplanes : palPlanesOp slot s = .ok (planesFor (slotAt s slot).count) s :=
      (enter_bind hr).trans (checkRead_bind hs)
    exact bind_ok (seqCall_ok hplanes)

theorem seqEncode_raises {code : FaultCode} {info : Nat} (hq : PlaneCount s slot q p)
    (hsize : sizeChecks (wholeBuf s.mem x) w h (wholeBuf s.mem b) p (clearedFault .seq s) =
      .error .faulted (withFault .seq (raisedReg code info) (clearedFault .seq s))) :
    exec (.seqEncode x slot w h q f b) s = raises .seq code info s := by
  have hq' : PlaneCount (clearedFault .seq s) slot q p := hq
  exact runOp_raises (clearFault_bind_raise (bind_error ((encodeChecks_run hq').trans hsize)))

/-- Where `PAL.PLANES` gives no count, its fault is copied (R314; log 16). -/
theorem seqEncode_noPlanes (ht : exec (.palPlanes slot) s = .next t) (hnone : noResult t.reply) :
    exec (.seqEncode x slot w h none f b) s =
      .next { t with seq := { s.seq with state := .faulted, fault := t.pal.fault }
                     reply := .faulted } := by
  obtain ⟨e, u, y, he, hx, rfl⟩ := error_of_noResult (g := .nat) ht hnone
  have hcleared := (through_palPlanes (beside_withSeq (clearedFault .seq s).seq)
    (fun _ => rfl) slot).error hx
  have hcall : seqCall .pal (palPlanesOp slot) (clearedFault .seq s) = .error .faulted
      (seqFaulted (withFault .seq u.pal.fault (withSeq (clearedFault .seq s).seq u))) := by
    rcases he with rfl | rfl
    · exact seqCall_faulted hcleared
    · exact seqCall_refused hcleared
  have hchecks : encodeChecks (wholeBuf s.mem x) slot w h none (wholeBuf s.mem b)
      (clearedFault .seq s) = .error .faulted
        (seqFaulted (withFault .seq u.pal.fault (withSeq (clearedFault .seq s).seq u))) := by
    rw [encodeChecks_eq]
    exact bind_error hcall
  have henc : seqEncodeOp (wholeBuf s.mem x) slot w h none f (wholeBuf s.mem b) s = .error .faulted
      (seqFaulted (withFault .seq u.pal.fault (withSeq (clearedFault .seq s).seq u))) :=
    (bind_ok (clearFault_run .seq s)).trans (bind_error hchecks)
  exact runOp_faulted henc

/-! ### SEQ.ASSEMBLE -/

/-- The bytes of an image's pixels. -/
def containerPixelBytes (hd : Hdr) : Nat := 4 * hd.width.toNat * hd.height.toNat

theorem seqAssemble_notInit (hr : ready .seq s) (hstate : s.seq.state ≠ .assemble) :
    exec (.seqAssemble c work x) s = raises .seq .notInit 0 s :=
  runOp_raises ((enter_bind hr).trans ((get_bind _ s).trans (raiseIf_bind_true hstate)))

/-- A compression code that the spec knows (R319). -/
def KnownCode (k : Config.Codes) (hd : Hdr) : Prop :=
  ¬ (hd.compression ≠ 0 ∧ hd.compression ≠ 1 ∧ hd.compression ≠ k.compStrip)

theorem knownCode_iff {hd : Hdr} :
    KnownCode Config.codes hd ↔ hd.compression ∈ [0, 1, Config.codes.compStrip] := by
  simp only [KnownCode, List.mem_cons, List.not_mem_nil, or_false]
  tauto

/-- The checks before the work begins, of a container whose compression code is known (R328). -/
theorem seqAssembleOp_run {k : Config.Codes} {rc rw rx : BufRef} (hr : ready .seq s)
    (hstate : s.seq.state = .assemble) (hk : KnownCode k s.seq.hdr) :
    seqAssembleOp k rc rw rx s =
      (do
        raiseIf (rx.len < containerPixelBytes s.seq.hdr) .seq .bufSmall (containerPixelBytes s.seq.hdr)
        raiseIf (s.seq.hdr.compression ≠ 0 ∧ rw.len < containerPlaneBytes s.seq.hdr) .seq .bufSmall
          (containerPlaneBytes s.seq.hdr)
        onStop (fun t => closeContainer rc (assembleSpoil rw rx s.seq.hdr t))
          (assemblePass k.strip rc rw rx s.seq.hdr s.seq.body)
        pure .unit : Op Result) s :=
  (enter_bind hr).trans ((get_bind _ s).trans ((raiseIf_bind_false (not_not.mpr hstate)).trans
    (bind_ok (onStop_ok (seqRaiseIf_false hk _ _ _)))))

theorem seqAssemble_bufSmall (hr : ready .seq s) (hstate : s.seq.state = .assemble)
    (hk : KnownCode Config.codes s.seq.hdr)
    (hx : (bufAt s.mem x).len < containerPixelBytes s.seq.hdr) :
    exec (.seqAssemble c work x) s =
      raises .seq .bufSmall (containerPixelBytes s.seq.hdr) s :=
  runOp_raises ((seqAssembleOp_run hr hstate hk).trans (raiseIf_bind_true hx))

theorem seqAssemble_workSmall (hr : ready .seq s) (hstate : s.seq.state = .assemble)
    (hk : KnownCode Config.codes s.seq.hdr)
    (hx : containerPixelBytes s.seq.hdr ≤ (bufAt s.mem x).len) (hraw : s.seq.hdr.compression ≠ 0)
    (hw : (bufAt s.mem work).len < containerPlaneBytes s.seq.hdr) :
    exec (.seqAssemble c work x) s =
      raises .seq .bufSmall (containerPlaneBytes s.seq.hdr) s :=
  runOp_raises ((seqAssembleOp_run hr hstate hk).trans
    ((raiseIf_bind_false (Nat.not_lt.mpr hx)).trans (raiseIf_bind_true ⟨hraw, hw⟩)))

/-- Free bytes reach no further than the range they replace. -/
theorem byteAt_freeRange_outside {m : Mem} {r : BufRef} {off d n id a : Nat}
    (hout : id ≠ r.id ∨ a < r.base + off ∨ r.base + off + n ≤ a) :
    byteAt (freeRange m r off d n) id a = byteAt m id a := by
  refine (writes_freeRange m r off d n).byteAt_eq ?_
  rintro ⟨hid, hlo, hhi⟩
  omega

/-- An unknown compression code: the pixels are left unspecified (R319, R383; logs 13, 20). -/
theorem seqAssemble_badCompression (hr : ready .seq s) (hstate : s.seq.state = .assemble)
    (hk : ¬ KnownCode Config.codes s.seq.hdr) :
    exec (.seqAssemble c work x) s =
      .next { spoil .seq (wholeBuf s.mem x) 0 (containerPixelBytes s.seq.hdr) s with
        reply := .faulted
        seq := { s.seq with state := .faulted
                            fault := raisedReg .badCompression s.seq.hdr.compression.toNat } } := by
  have hcheck : seqAssembleOp Config.codes (wholeBuf s.mem c) (wholeBuf s.mem work)
      (wholeBuf s.mem x) s = .error .faulted
        (spoil .seq (wholeBuf s.mem x) 0 (containerPixelBytes s.seq.hdr) (seqFaulted
          (withFault .seq (raisedReg .badCompression s.seq.hdr.compression.toNat) s))) :=
    (enter_bind hr).trans ((get_bind _ s).trans ((raiseIf_bind_false (not_not.mpr hstate)).trans
      (bind_error (onStop_error (seqRaiseIf_true (not_not.mp hk) _ _ _)))))
  exact runOp_faulted hcheck

/-- The info word of a compression code. -/
theorem raisedReg_badCompression (v : BitVec 8) :
    raisedReg .badCompression v.toNat = ⟨true, 1, 7, v.setWidth 32⟩ := by
  have hv : v.toNat < 2 ^ 32 := by omega
  rw [raisedReg, infoOf, if_pos hv, BitVec.ofNat_toNat]
  rfl

end Sys2Proof.Machine

namespace Sys2Proof.Proofs

open Sys2Proof.Machine

/-- Settles O50: each check raises where those before it pass. -/
theorem seqChecks : Obligations.SeqChecks := by
  refine ⟨fun s x slot w h p b f q => ⟨seqDecode_badPlanes, fun h0 h8 => seqDecode_bufSmall (by omega),
    fun hq => ⟨fun hbad => ?planes, fun h0 h8 => ?sizes⟩, ?count⟩, fun s c work x hr => ?assemble⟩
  case planes =>
    exact seqEncode_raises (hq.imp_right fun ⟨hnone, hr, hslot, hmade, hp⟩ =>
      ⟨hnone, hr, ⟨hslot, hmade⟩, hp⟩) (raiseIf_bind_true hbad)
  case sizes =>
    have hq' : PlaneCount s slot q p := hq.imp_right fun ⟨hnone, hr, hslot, hmade, hp⟩ =>
      ⟨hnone, hr, ⟨hslot, hmade⟩, hp⟩
    have hplanes : ¬ (p = 0 ∨ Config.planesMax < p) := by omega
    refine ⟨fun hw => seqEncode_raises hq' ?_, fun hw hb => seqEncode_raises hq' ?_,
      fun hw hb hx => seqEncode_raises hq' ?_⟩
    · exact (raiseIf_bind_false hplanes).trans (raiseIf_bind_true hw)
    · exact (raiseIf_bind_false hplanes).trans ((raiseIf_bind_false (not_not.mpr hw)).trans
        (raiseIf_bind_true hb))
    · exact (raiseIf_bind_false hplanes).trans ((raiseIf_bind_false (not_not.mpr hw)).trans
        ((raiseIf_bind_false (Nat.not_lt.mpr hb)).trans (raiseIf_bind_true hx)))
  case count =>
    rintro rfl t ht hnone
    exact seqEncode_noPlanes ht hnone
  case assemble =>
    refine ⟨seqAssemble_notInit hr, fun hstate hbad => ?_, fun hstate hgood => ⟨fun hx => ?_,
      fun hx hraw hw => ?_⟩⟩
    · refine ⟨(spoil .seq (wholeBuf s.mem x) 0 (containerPixelBytes s.seq.hdr) s).mem,
        (spoil .seq (wholeBuf s.mem x) 0 (containerPixelBytes s.seq.hdr) s).draws, ?_,
        fun id a hout => byteAt_freeRange_outside ?_⟩
      · rw [seqAssemble_badCompression hr hstate (mt knownCode_iff.mp hbad), raisedReg_badCompression]
        rfl
      · simp only [wholeBuf, containerPixelBytes]
        omega
    · exact seqAssemble_bufSmall hr hstate (knownCode_iff.mpr hgood) hx
    · exact seqAssemble_workSmall hr hstate (knownCode_iff.mpr hgood) hx hraw hw

end Sys2Proof.Proofs
end

section
/-! Painting: a reader over planes and a pixel writer, as SEQ drives them in `SEQ.DECODE` and in
`SEQ.ASSEMBLE` (R311, R321). What the state is after `n` columns and `k` pixels, and one rule for each
step: a pixel, an advance, a line, all lines. -/

namespace Sys2Proof.Machine

variable {α β : Type} {s t : State} {n k m i : Nat} {x : Op Unit} {e : Stop}

/-! ### Loops that stop -/

/-- A loop whose first `j` rounds complete and whose next one stops: it stops there. -/
theorem forFrom_error {g : Nat → Op Unit} {E : State → Prop} (I : Nat → State → Prop) {i j n : Nat}
    (hj : j < n) (step : ∀ k < j, ∀ s, I k s → ∃ t, g (i + k) s = .ok () t ∧ I (k + 1) t)
    (stop : ∀ s, I j s → ∃ t, g (i + j) s = .error e t ∧ E t) (s : State) (h : I 0 s) :
    ∃ t, forFrom g i n s = .error e t ∧ E t := by
  induction j generalizing i n I s with
  | zero =>
    obtain ⟨n, rfl⟩ := Nat.exists_eq_succ_of_ne_zero hj.ne'
    obtain ⟨t, ht, hE⟩ := stop s h
    exact ⟨t, (congrFun (forFrom_succ g i n) s).trans (bind_error ht), hE⟩
  | succ j ih =>
    obtain ⟨n, rfl⟩ := Nat.exists_eq_succ_of_ne_zero (Nat.ne_zero_of_lt hj)
    obtain ⟨u, hu, hI⟩ := step 0 (Nat.succ_pos j) s h
    have hshift (a : Nat) : i + 1 + a = i + (a + 1) := by omega
    obtain ⟨t, ht, hE⟩ := ih (fun k => I (k + 1)) (Nat.lt_of_succ_lt_succ hj) (i := i + 1)
      (fun k hk s hs => hshift k ▸ step (k + 1) (Nat.succ_lt_succ hk) s hs)
      (fun s hs => hshift j ▸ stop s hs) u hI
    exact ⟨t, (congrFun (forFrom_succ g i n) s).trans ((bind_ok hu).trans ht), hE⟩

theorem times_eq_forFrom (x : Op Unit) (i n : Nat) : times x n = forFrom (fun _ => x) i n := by
  induction n generalizing i with
  | zero => rfl
  | succ n ih => rw [times_succ, forFrom_succ, ih (i + 1)]

theorem times_error {E : State → Prop} (I : Nat → State → Prop) {j n : Nat} (hj : j < n)
    (step : ∀ k < j, ∀ s, I k s → ∃ t, x s = .ok () t ∧ I (k + 1) t)
    (stop : ∀ s, I j s → ∃ t, x s = .error e t ∧ E t) (s : State) (h : I 0 s) :
    ∃ t, times x n s = .error e t ∧ E t := by
  rw [times_eq_forFrom x 0 n]
  exact forFrom_error I hj step stop s h

/-! ### The cursor and the columns -/

theorem stepCursorN_succ (g : Geometry) (n : Nat) (c : Cursor) :
    stepCursorN g (n + 1) c = stepCursor g (stepCursorN g n c) := by
  rw [stepCursorN_eq_iterate, stepCursorN_eq_iterate, Function.iterate_succ_apply']

theorem stepCursorN_bit {g : Geometry} (h : geometryOk g = true) (n : Nat) :
    (stepCursorN g n Cursor.zero).bit = n % 8 := by
  obtain ⟨hbytes, hblocks, -⟩ := geometryOk_iff.mp h
  rw [stepCursorN_zero (Nat.pos_of_ne_zero hbytes) (Nat.pos_of_ne_zero hblocks)]

theorem columnIndex_congr {m m' : Mem} {r : BufRef} {g : Geometry} {c : Cursor} {k : Nat}
    (h : ∀ a, byteAt m r.id a = byteAt m' r.id a) (n : Nat) :
    columnIndex m r g c k n = columnIndex m' r g c k n := by
  induction n with
  | zero => rfl
  | succ n ih => rw [columnIndex, columnIndex, ih, refByte, refByte, h]

theorem columnIndices_congr {m m' : Mem} {r : BufRef} {g : Geometry} {c : Cursor}
    (h : ∀ a, byteAt m r.id a = byteAt m' r.id a) : columnIndices m r g c = columnIndices m' r g c :=
  List.map_congr_left fun _ _ => congrArg (BitVec.ofNat 8) (columnIndex_congr h _)

/-- The index that the planes hold at pixel `n` of the reader's pass. -/
def planesIndex (m : Mem) (r : BufRef) (g : Geometry) (n : Nat) : Nat :=
  columnIndex m r g (stepCursorN g n Cursor.zero) (n % 8) g.planeCount

theorem planesIndex_lt (m : Mem) (r : BufRef) (g : Geometry) (n : Nat) :
    planesIndex m r g n < 2 ^ g.planeCount := columnIndex_lt m r g _ _ _

theorem testBit_planesIndex (m : Mem) (r : BufRef) (g : Geometry) (n i : Nat) :
    (planesIndex m r g n).testBit i = (decide (i < g.planeCount) &&
      (refByte m r (planeOffset g (stepCursorN g n Cursor.zero) i)).getLsbD (7 - n % 8)) :=
  testBit_columnIndex m r g _ _ _ i

/-- The index is the one whose bits are the planes' bits. -/
theorem planesIndex_eq {m : Mem} {r : BufRef} {g : Geometry} {index : Nat}
    (hlt : index < 2 ^ g.planeCount) (h : ∀ i < g.planeCount, index.testBit i =
      (refByte m r (planeOffset g (stepCursorN g n Cursor.zero) i)).getLsbD (7 - n % 8)) :
    planesIndex m r g n = index := by
  refine Nat.eq_of_testBit_eq fun i => ?_
  rw [testBit_planesIndex]
  by_cases hi : i < g.planeCount
  · simp [hi, h i hi]
  · have hhigh : index < 2 ^ i := hlt.trans_le (Nat.pow_le_pow_right Nat.two_pos (not_lt.mp hi))
    simp [hi, Nat.testBit_lt_two_pow hhigh]

/-- Pixel `(x, y)` of lines of `8 * lineBytes` pixels. -/
theorem planesIndex_eq_indexAt (m : Mem) (r : BufRef) (g : Geometry) (lineBytes x y : Nat) :
    planesIndex m r g (y * (8 * lineBytes) + x) = indexAt m r g lineBytes x y g.planeCount := by
  have hbit : (y * (8 * lineBytes) + x) % 8 = x % 8 := by
    rw [Nat.mul_left_comm, Nat.mul_add_mod]
  rw [planesIndex, hbit]
  generalize g.planeCount = q
  induction q with
  | zero => rfl
  | succ q ih => rw [columnIndex, indexAt, ih]

/-! ### The setting -/

/-- The reader over its planes and the writer over its pixels are at their starts, on buffers apart. -/
structure Easel (s : State) : Prop where
  reader : ready .bpr s
  geometry : geometryOk s.bpr.geom = true
  start : s.bpr.cur = Cursor.zero
  writer : ready .pxw s
  top : s.pxw.pos = 0
  apart : (refOf s.bpr.buf).id ≠ (refOf s.pxw.buf).id
  inside : refOk s.mem (refOf s.pxw.buf)

/-- The bytes of the first `k` pixels of a buffer. -/
def pixelsWindow (r : BufRef) (k : Nat) : BufRef := ⟨r.id, r.base, 4 * k⟩

/-- The state after `n` columns read and `k` pixels written. -/
def painted (s : State) (n k : Nat) (l : Lut) (hm : Ham) (m : Mem) (cache : List Byte) : State :=
  { overwrite .pxw [pixelsWindow (refOf s.pxw.buf) k] s with
    mem := m
    bpr := { s.bpr with cur := stepCursorN s.bpr.geom n Cursor.zero, cache := cache }
    pxw := { s.pxw with pos := k, lut := l }
    ham := hm }

/-- `t` is `s` after `n` columns read and `k` pixels of the given colours written; the writer's table
and the HAM unit are as given. -/
structure Painting (s : State) (colour : Nat → U32) (n k : Nat) (l : Lut) (hm : Ham) (t : State) :
    Prop where
  shape : t = painted s n k l hm t.mem t.bpr.cache
  cache : cacheTrue t
  writes : Writes (inRange (refOf s.pxw.buf) 0 (4 * k)) s.mem t.mem
  pixels : ∀ j < k, pixelAt t.mem (refOf s.pxw.buf) j = colour j

/-- Every plane's byte of column `n` lies inside the reader's buffer. -/
def columnFits (s : State) (n : Nat) : Prop :=
  planeEof s.bpr.geom (stepCursorN s.bpr.geom n Cursor.zero) (refOf s.bpr.buf).len = false

variable {colour : Nat → U32} {l : Lut} {hm : Ham}

theorem Easel.painting (h : Easel s) (colour : Nat → U32) :
    Painting s colour 0 0 s.pxw.lut s.ham s := by
  refine ⟨?_, fun hb => absurd (congrArg Cursor.bit h.start) hb, .refl _,
    fun j hj => absurd hj (Nat.not_lt_zero j)⟩
  obtain ⟨-, -, hstart, -, htop, -, -⟩ := h
  rw [painted, pixelsWindow, Nat.mul_zero, overwrite_empty, stepCursorN, ← hstart, ← htop]

theorem readerStepped_painted (s : State) (n k : Nat) (l : Lut) (hm : Ham) (m : Mem)
    (cache : List Byte) : readerStepped (painted s n k l hm m cache) =
      painted s (n + 1) k l hm m (readerColumn (painted s n k l hm m cache)) := by
  simp only [readerStepped, painted, stepCursorN_succ]

/-- A binding to another buffer outlives a write. -/
theorem outlived_apart {u v : UnitId} {r : BufRef} {b : Option BufRef} (h : (refOf b).id ≠ r.id) :
    outlived u v [r] b = b := by
  rcases outlived_cases u v [r] b with ⟨-, -, id, a, hw, hb⟩ | ⟨hkept, -⟩
  · obtain ⟨r', hr', hin⟩ := hw
    rw [List.mem_singleton] at hr'
    exact absurd (hb.1.symm.trans (hr' ▸ hin.1)) h
  · exact hkept

/-- A pixel's bytes come behind those of the pixels before it. -/
theorem outlived_pixel {u v : UnitId} {r : BufRef} {b : Option BufRef} :
    outlived u v [⟨r.id, r.base + 4 * k, 4⟩] (outlived u v [pixelsWindow r k] b) =
      outlived u v [pixelsWindow r (k + 1)] b := by
  rw [outlived_outlived]
  refine outlived_congr fun id a => ?_
  simp only [List.cons_append, List.nil_append, covered_cons, covered_nil, or_false, inWindow,
    pixelsWindow]
  omega

theorem pixelStored_painted (h : Easel s) (n k : Nat) (l : Lut) (hm : Ham) (m : Mem)
    (cache : List Byte) (v : U32) : pixelStored v (painted s n k l hm m cache) =
      painted s n (k + 1) l hm (beWrite m (refOf s.pxw.buf) (4 * k) 4 v.toNat) cache := by
  have happart (k : Nat) : outlived .pxw .bpr [⟨(refOf s.pxw.buf).id, (refOf s.pxw.buf).base + 4 * k, 4⟩]
      s.bpr.buf = s.bpr.buf := outlived_apart h.apart
  simp only [pixelStored, painted, overwrite, outlived_pixel, outlived_self, happart]

/-- A pixel written leaves those before it. -/
theorem pixelAt_beWrite_before {m : Mem} {r : BufRef} {j k : Nat} (h : j < k) (v : Nat) :
    pixelAt (beWrite m r (4 * k) 4 v) r j = pixelAt m r j := by
  have hbyte : ∀ i < 4, refByte (beWrite m r (4 * k) 4 v) r (4 * j + i) = refByte m r (4 * j + i) :=
    fun i hi => byteAt_beWrite_outside v (.inr (.inl (by omega)))
  have hfirst := hbyte 0 (by omega)
  rw [Nat.add_zero] at hfirst
  rw [pixelAt, pixelAt, hfirst, hbyte 1 (by omega), hbyte 2 (by omega), hbyte 3 (by omega)]

namespace Painting

theorem bpr (h : Painting s colour n k l hm t) : t.bpr =
    { s.bpr with cur := stepCursorN s.bpr.geom n Cursor.zero, cache := t.bpr.cache } :=
  congrArg State.bpr h.shape

theorem pxw (h : Painting s colour n k l hm t) : t.pxw = { s.pxw with pos := k, lut := l } :=
  congrArg State.pxw h.shape

theorem ham (h : Painting s colour n k l hm t) : t.ham = hm := congrArg State.ham h.shape

theorem reader (h : Painting s colour n k l hm t) (hs : Easel s) : ready .bpr t := by
  rw [h.shape]
  exact hs.reader

theorem writer (h : Painting s colour n k l hm t) (hs : Easel s) : ready .pxw t := by
  rw [h.shape]
  exact hs.writer

/-- Only the pixels' buffer is written. -/
theorem byteAt_other (h : Painting s colour n k l hm t) {id : Nat} (hid : id ≠ (refOf s.pxw.buf).id)
    (a : Nat) : byteAt t.mem id a = byteAt s.mem id a := h.writes.byteAt_eq fun hin => hid hin.1

theorem len_eq (h : Painting s colour n k l hm t) (id : Nat) :
    (bufAt t.mem id).len = (bufAt s.mem id).len := h.writes.len_eq id

/-- What a read gives: the index that the planes hold, whatever has been painted. -/
theorem readerColumn (h : Painting s colour n k l hm t) (hs : Easel s) :
    ((readerColumn t).getD t.bpr.cur.bit 0).toNat =
      planesIndex s.mem (refOf s.bpr.buf) s.bpr.geom n := by
  obtain ⟨-, -, -, hplanes⟩ := geometryOk_iff.mp hs.geometry
  have hmem : Machine.readerColumn t = columnIndices s.mem (refOf s.bpr.buf) s.bpr.geom
      (stepCursorN s.bpr.geom n Cursor.zero) := by
    rw [Machine.readerColumn, h.bpr]
    exact columnIndices_congr (h.byteAt_other hs.apart)
  have hbit : t.bpr.cur.bit = n % 8 := by rw [h.bpr, stepCursorN_bit hs.geometry]
  have hlt : n % 8 < (columnIndices s.mem (refOf s.bpr.buf) s.bpr.geom
      (stepCursorN s.bpr.geom n Cursor.zero)).length := by
    rw [columnIndices_length]
    exact Nat.mod_lt n (Nat.succ_pos 7)
  rw [hmem, hbit, List.getD_eq_getElem _ _ hlt]
  refine Nat.eq_of_testBit_eq fun i => ?_
  rw [testBit_columnIndices hplanes, testBit_planesIndex]

theorem stepped (h : Painting s colour n k l hm t) :
    Painting s colour (n + 1) k l hm (readerStepped t) := by
  refine ⟨?_, cacheTrue_readerStepped t, h.writes, h.pixels⟩
  conv_lhs => rw [h.shape, readerStepped_painted, ← h.shape]
  rfl

/-- A read of a column inside the planes. -/
theorem readCore (h : Painting s colour n k l hm t) (hs : Easel s) (hf : columnFits s n) :
    ∃ v : Byte, v.toNat = planesIndex s.mem (refOf s.bpr.buf) s.bpr.geom n ∧
      bprReadCore t = .ok v (readerStepped t) := by
  refine ⟨_, h.readerColumn hs, bprReadCore_ok (fun _ => ?_) h.cache⟩
  rw [h.bpr]
  exact hf

theorem read (h : Painting s colour n k l hm t) (hs : Easel s) (hf : columnFits s n) :
    ∃ v : Byte, v.toNat = planesIndex s.mem (refOf s.bpr.buf) s.bpr.geom n ∧
      bprReadOp t = .ok v (readerStepped t) := by
  obtain ⟨v, hv, hread⟩ := h.readCore hs hf
  exact ⟨v, hv, (enter_bind (h.reader hs)).trans hread⟩

/-- The first plane whose byte of a column's start lies behind the planes. -/
theorem readCore_pastEnd (h : Painting s colour n k l hm t) (hs : Easel s) (hn : n % 8 = 0)
    (hi : i < s.bpr.geom.planeCount)
    (hpast : (refOf s.bpr.buf).len ≤ planeOffset s.bpr.geom (stepCursorN s.bpr.geom n Cursor.zero) i)
    (hin : ∀ j < i, planeOffset s.bpr.geom (stepCursorN s.bpr.geom n Cursor.zero) j <
      (refOf s.bpr.buf).len) :
    bprReadCore t = .error .faulted (withFault .bpr (raisedReg .pastEnd
      (planeOffset s.bpr.geom (stepCursorN s.bpr.geom n Cursor.zero) i)) t) := by
  have hb := h.bpr
  have hbit : t.bpr.cur.bit = 0 := by rw [hb, stepCursorN_bit hs.geometry, hn]
  have hraise := bprReadCore_pastEnd (s := t) (i := i) hbit
  rw [hb] at hraise
  exact hraise hi hpast hin

/-- `BPR.ADV` inside the planes. -/
theorem adv (h : Painting s colour n k l hm t) (hs : Easel s) (m : Nat)
    (hf : ∀ j < m, columnFits s (n + j)) :
    ∃ u, bprAdvOp m t = .ok .unit u ∧ Painting s colour (n + m) k l hm u := by
  obtain ⟨u, hu, hp⟩ := times_ok (x := bprSkipOne) (fun j => Painting s colour (n + j) k l hm) m
    (fun j hj v hv => by
      obtain ⟨b, -, hread⟩ := hv.readCore hs (hf j hj)
      exact ⟨_, bind_ok hread, hv.stepped⟩) t h
  exact ⟨u, (enter_bind (h.reader hs)).trans (bind_ok hu), hp⟩

/-- `BPR.ADV` over the planes' end. -/
theorem adv_pastEnd {j : Nat} (h : Painting s colour n k l hm t) (hs : Easel s) (hj : j < m)
    (hf : ∀ j' < j, columnFits s (n + j')) (hn : (n + j) % 8 = 0) (hi : i < s.bpr.geom.planeCount)
    (hpast : (refOf s.bpr.buf).len ≤
      planeOffset s.bpr.geom (stepCursorN s.bpr.geom (n + j) Cursor.zero) i)
    (hin : ∀ j' < i, planeOffset s.bpr.geom (stepCursorN s.bpr.geom (n + j) Cursor.zero) j' <
      (refOf s.bpr.buf).len) :
    ∃ u, bprAdvOp m t = .error .faulted (withFault .bpr (raisedReg .pastEnd
        (planeOffset s.bpr.geom (stepCursorN s.bpr.geom (n + j) Cursor.zero) i)) u) ∧
      Painting s colour (n + j) k l hm u := by
  obtain ⟨u, hu, v, hv, rfl⟩ := times_error (x := bprSkipOne) (e := .faulted)
    (E := fun u => ∃ v, Painting s colour (n + j) k l hm v ∧ u = withFault .bpr (raisedReg .pastEnd
        (planeOffset s.bpr.geom (stepCursorN s.bpr.geom (n + j) Cursor.zero) i)) v)
    (fun j' => Painting s colour (n + j') k l hm) hj
    (fun j' hj' v hv => by
      obtain ⟨b, -, hread⟩ := hv.readCore hs (hf j' hj')
      exact ⟨_, bind_ok hread, hv.stepped⟩)
    (fun v hv => ⟨_, bind_error (hv.readCore_pastEnd hs hn hi hpast hin), v, hv, rfl⟩) t h
  exact ⟨v, (enter_bind (h.reader hs)).trans (bind_error hu), hv⟩

/-! ### A pixel -/

theorem pixelStored (h : Painting s colour n k l hm t) (hs : Easel s)
    (hroom : 4 * k + 4 ≤ (refOf s.pxw.buf).len) :
    Painting s colour n (k + 1) l hm (pixelStored (colour k) t) := by
  have hpxw := h.pxw
  have hmem : (Machine.pixelStored (colour k) t).mem =
      beWrite t.mem (refOf s.pxw.buf) (4 * k) 4 (colour k).toNat := by
    rw [Machine.pixelStored, hpxw]
  have hwrite : Writes (inRange (refOf s.pxw.buf) (4 * k) (4 * k + 4)) t.mem
      (Machine.pixelStored (colour k) t).mem := by
    rw [hmem]
    exact writes_beWrite _ _ _ _ _
  refine ⟨?shape, ?cache, ?writes, fun j hj => ?pixels⟩
  case shape =>
    conv_lhs => rw [h.shape, pixelStored_painted hs, ← hmem]
    rfl
  case cache =>
    have hbpr : (Machine.pixelStored (colour k) t).bpr = t.bpr := by
      conv_lhs => rw [h.shape, pixelStored_painted hs]
      exact h.bpr.symm
    have hid : ∀ a, byteAt t.mem (refOf t.bpr.buf).id a =
        byteAt (Machine.pixelStored (colour k) t).mem (refOf t.bpr.buf).id a := fun a =>
      (hwrite.byteAt_eq fun hin => hs.apart (by rw [← hin.1, h.bpr])).symm
    intro hb
    rw [hbpr] at hb ⊢
    exact (h.cache hb).trans (columnIndices_congr hid)
  case writes =>
    exact (h.writes.mono fun _ _ => inRange_mono le_rfl (by omega)).trans
      (hwrite.mono fun _ _ => inRange_mono (by omega) (by omega))
  case pixels =>
    have hinside : refOk t.mem (refOf s.pxw.buf) := (refOk_of_len (h.len_eq _)).mpr hs.inside
    rw [hmem]
    rcases Nat.lt_succ_iff_lt_or_eq.mp hj with hlt | rfl
    · rw [← h.pixels j hlt]
      exact pixelAt_beWrite_before hlt _
    · exact pixelAt_beWrite hinside hroom _

end Painting

end Sys2Proof.Machine
end

section
/-! The steps of a painting as SEQ issues them: a plain pixel, a Hold-and-Modify pixel, the padding, a
line's table, and all lines (R311, R321). -/

namespace Sys2Proof.Machine

variable {s t : State} {n k i y w h pad : Nat} {colour : Nat → U32} {l l' : Lut} {hm : Ham}

namespace Painting

/-! ### A plain pixel -/

theorem store (h : Painting s colour n k l hm t)
    (hroom : 4 * k + 4 ≤ (refOf s.pxw.buf).len) :
    pxwStore (colour k) t = .ok .unit (Machine.pixelStored (colour k) t) := by
  refine pxwStore_ok ?_ _
  rw [h.pxw]
  exact hroom

/-- `PXW.WRITE` of an index that the table has. -/
theorem write {index : Nat} (h : Painting s colour n k l hm t) (hs : Easel s) (hhas : lutHas l index)
    (hcolour : (lutAt l index).val = colour k) (hroom : 4 * k + 4 ≤ (refOf s.pxw.buf).len) :
    pxwWriteOp index t = .ok .unit (Machine.pixelStored (colour k) t) := by
  obtain ⟨hin, hset⟩ := hhas
  have hlut : t.pxw.lut = l := by rw [h.pxw]
  rw [pxwWriteOp, enter_bind (h.writer hs), get_bind, hlut, raiseIf_bind_false (Nat.not_le_of_lt hin),
    raiseIf_bind_false (by simp [hset]), hcolour]
  exact h.store hroom

theorem decodePixel (h : Painting s colour n k l hm t) (hs : Easel s) (hf : columnFits s n)
    (hhas : lutHas l (planesIndex s.mem (refOf s.bpr.buf) s.bpr.geom n))
    (hcolour : (lutAt l (planesIndex s.mem (refOf s.bpr.buf) s.bpr.geom n)).val = colour k)
    (hroom : 4 * k + 4 ≤ (refOf s.pxw.buf).len) :
    ∃ u, Machine.decodePixel t = .ok () u ∧ Painting s colour (n + 1) (k + 1) l hm u := by
  obtain ⟨v, hv, hread⟩ := h.read hs hf
  rw [← hv] at hhas hcolour
  refine ⟨_, ?_, h.stepped.pixelStored hs hroom⟩
  rw [Machine.decodePixel, bind_ok (seqCall_ok hread),
    bind_ok (seqCall_ok (h.stepped.write hs hhas hcolour hroom))]
  rfl

/-! ### The padding -/

theorem skip (h : Painting s colour n k l hm t) (hs : Easel s) (pad : Nat)
    (hf : ∀ j < pad, columnFits s (n + j)) :
    ∃ u, (do let _ ← seqCall .bpr (bprAdvOp pad) : Op Unit) t = .ok () u ∧
      Painting s colour (n + pad) k l hm u := by
  obtain ⟨u, hu, hp⟩ := h.adv hs pad hf
  exact ⟨u, bind_ok (seqCall_ok hu), hp⟩

/-! ### A fetch behind the planes -/

theorem decodePixel_pastEnd (h : Painting s colour n k l hm t) (hs : Easel s) (hn : n % 8 = 0)
    (hi : i < s.bpr.geom.planeCount)
    (hpast : (refOf s.bpr.buf).len ≤ planeOffset s.bpr.geom (stepCursorN s.bpr.geom n Cursor.zero) i)
    (hin : ∀ j < i, planeOffset s.bpr.geom (stepCursorN s.bpr.geom n Cursor.zero) j <
      (refOf s.bpr.buf).len) :
    Machine.decodePixel t = .error .faulted (seqFaulted (withFault .seq (raisedReg .pastEnd
      (planeOffset s.bpr.geom (stepCursorN s.bpr.geom n Cursor.zero) i)) (withFault .bpr
        (raisedReg .pastEnd (planeOffset s.bpr.geom (stepCursorN s.bpr.geom n Cursor.zero) i)) t))) :=
  bind_error (seqCall_faulted
    ((enter_bind (h.reader hs)).trans (h.readCore_pastEnd hs hn hi hpast hin)))

/-! ### The table of a line -/

theorem withLut (h : Painting s colour n k l hm t) (l' : Lut) :
    Painting s colour n k l' hm { t with pxw := { t.pxw with lut := l' } } := by
  refine ⟨?_, h.cache, h.writes, h.pixels⟩
  conv_lhs => rw [h.shape]
  rfl

theorem withHam (h : Painting s colour n k l hm t) (hm' : Ham) :
    Painting s colour n k l hm' { t with ham := hm' } := by
  refine ⟨?_, h.cache, h.writes, h.pixels⟩
  conv_lhs => rw [h.shape]
  rfl

theorem rpa (h : Painting s colour n k l hm t) : t.rpa = s.rpa := by
  rw [h.shape]
  rfl

end Painting

/-! ### The lines -/

/-- With raster data a line starts with the selection of its table (R321). -/
def selectLine (raster : Bool) (y : Nat) : Op Unit := do
  if raster then do
    let _ ← seqCall .rpa (rpaSelectOp y)

theorem paintLines_eq (raster : Bool) (pixel skip : Op Unit) (w h : Nat) :
    paintLines raster pixel skip w h =
      forFrom (fun y => selectLine raster y >>= fun _ => times pixel w >>= fun _ => skip) 0 h := by
  cases raster with
  | false => rfl
  | true => simp only [paintLines, selectLine, if_true, bind_assoc, pure_bind]

/-- The lines: `I y` holds before line `y`, `J y i` after `i` of its pixels. -/
theorem paintLines_ok {raster : Bool} {pixel skip : Op Unit} {I : Nat → State → Prop}
    {J : Nat → Nat → State → Prop}
    (select : ∀ y < h, ∀ t, I y t → ∃ u, selectLine raster y t = .ok () u ∧ J y 0 u)
    (pixels : ∀ y < h, ∀ i < w, ∀ t, J y i t → ∃ u, pixel t = .ok () u ∧ J y (i + 1) u)
    (skips : ∀ y < h, ∀ t, J y w t → ∃ u, skip t = .ok () u ∧ I (y + 1) u) (hs : I 0 s) :
    ∃ u, paintLines raster pixel skip w h s = .ok () u ∧ I h u := by
  rw [paintLines_eq]
  refine forFrom_ok I 0 h (fun y hy t ht => ?_) s hs
  rw [Nat.zero_add]
  obtain ⟨t1, h1, hJ⟩ := select y hy t ht
  obtain ⟨t2, h2, hJ⟩ := times_ok (J y) w (fun i hi => pixels y hy i hi) t1 hJ
  obtain ⟨t3, h3, hI⟩ := skips y hy t2 hJ
  exact ⟨t3, (bind_ok h1).trans ((bind_ok h2).trans h3), hI⟩

theorem selectLine_false (y : Nat) (t : State) : selectLine false y t = .ok () t := rfl

theorem selectLine_true (hr : ready .rpa t) (hc : 0 < t.rpa.count) (hy : y < t.rpa.height) :
    selectLine true y t = .ok () (installLut t.rpa.consumer
      (sget Lut.empty t.rpa.ras (rasterIndex t.rpa.count t.rpa.height y)) t) := by
  have hselect : rpaSelectOp y t = .ok .unit (installLut t.rpa.consumer
      (sget Lut.empty t.rpa.ras (rasterIndex t.rpa.count t.rpa.height y)) t) := by
    rw [rpaSelectOp, enter_bind hr, get_bind, if_neg hc.ne',
      raiseIf_bind_false (Nat.not_le_of_lt hy)]
    rfl
  exact bind_ok (seqCall_ok hselect)

/-! ### An image's colours -/

/-- The selection of a line's table amid a painting. -/
theorem Painting.select (hp : Painting s colour n k l hm t) (hr : ready .rpa s) (hc : 0 < s.rpa.count)
    (hy : y < s.rpa.height) : selectLine true y t = .ok () (installLut s.rpa.consumer
      (sget Lut.empty s.rpa.ras (rasterIndex s.rpa.count s.rpa.height y)) t) := by
  have hrpa := hp.rpa
  have hready : ready .rpa t := by
    refine ⟨?_, ?_, rfl⟩
    · rw [faultOf, hrpa]
      exact hr.1
    · rw [initOf, hrpa]
      exact hr.2.1
  rw [← hrpa] at hc hy ⊢
  exact selectLine_true hready hc hy

/-- The colours of an image of lines of `w` pixels, one line after the other. -/
def imageColour (f : Nat → Nat → U32) (w j : Nat) : U32 := f (j % w) (j / w)

theorem place_div {x : Nat} (hx : x < w) : (y * w + x) / w = y := by
  rw [Nat.mul_comm, Nat.mul_add_div (Nat.zero_lt_of_lt hx), Nat.div_eq_of_lt hx, Nat.add_zero]

theorem place_mod {x : Nat} (hx : x < w) : (y * w + x) % w = x := by
  rw [Nat.mul_comm, Nat.mul_add_mod, Nat.mod_eq_of_lt hx]

theorem imageColour_at {f : Nat → Nat → U32} {x : Nat} (hx : x < w) :
    imageColour f w (y * w + x) = f x y := by
  rw [imageColour, place_mod hx, place_div hx]

/-- Place `x` of line `y` comes before all of a later line. -/
theorem place_lt {w x y h : Nat} (hx : x < w) (hy : y < h) : y * w + x < h * w :=
  calc y * w + x < (y + 1) * w := by rw [Nat.succ_mul]; omega
    _ ≤ h * w := Nat.mul_le_mul_right _ hy

/-- The index of pixel `(x, y)` of lines of `w` pixels and `pad` more. -/
def lineIndex (s : State) (stride x y : Nat) : Nat :=
  planesIndex s.mem (refOf s.bpr.buf) s.bpr.geom (y * stride + x)

/-- The colour of a plain pixel, by the table of its line. -/
def plainColour (s : State) (line : Nat → Lut) (stride x y : Nat) : U32 :=
  (lutAt (line y) (lineIndex s stride x y)).val

/-- All lines of plain pixels, each with a table that has its indices. -/
theorem Easel.paintPlain {raster : Bool} {line : Nat → Lut} (hs : Easel s)
    (hf : ∀ n < h * (w + pad), columnFits s n) (hroom : 4 * (h * w) ≤ (refOf s.pxw.buf).len)
    (hhas : ∀ y < h, ∀ x < w, lutHas (line y) (lineIndex s (w + pad) x y))
    (hplain : raster = false → ∀ y < h, line y = s.pxw.lut)
    (hraster : raster = true → ready .rpa s ∧ 0 < s.rpa.count ∧ s.rpa.height = h ∧
      s.rpa.consumer = .pxw ∧ ∀ y < h, line y = sget Lut.empty s.rpa.ras (rasterIndex s.rpa.count h y)) :
    ∃ u, paintLines raster decodePixel (do let _ ← seqCall .bpr (bprAdvOp pad)) w h s = .ok () u ∧
      ∃ l, Painting s (imageColour (plainColour s line (w + pad)) w) (h * (w + pad)) (h * w) l s.ham
        u := by
  refine (paintLines_ok (raster := raster) (pixel := decodePixel)
    (skip := do let _ ← seqCall .bpr (bprAdvOp pad)) (w := w) (h := h)
    (I := fun y t => ∃ l, Painting s (imageColour (plainColour s line (w + pad)) w) (y * (w + pad))
      (y * w) l s.ham t ∧ (raster = false → l = s.pxw.lut))
    (J := fun y i => Painting s (imageColour (plainColour s line (w + pad)) w) (y * (w + pad) + i)
      (y * w + i) (line y) s.ham)
    ?select ?pixel ?skip (s := s) ⟨_, by simpa using hs.painting _, fun _ => rfl⟩).imp
      fun u ⟨hu, l, hp, _⟩ => ⟨hu, l, hp⟩
  case select =>
    intro y hy t ht
    obtain ⟨l, hp, hl⟩ := ht
    cases raster with
    | false =>
      rw [hl rfl, ← hplain rfl y hy] at hp
      exact ⟨t, selectLine_false y t, hp⟩
    | true =>
      obtain ⟨hready, hcount, hheight, hconsumer, hline⟩ := hraster rfl
      refine ⟨_, hp.select hready hcount (hheight ▸ hy), ?_⟩
      rw [hconsumer, hheight, ← hline y hy]
      exact hp.withLut (line y)
  case pixel =>
    intro y hy i hi t ht
    have hpixel := place_lt hi hy
    exact ht.decodePixel hs (hf _ (place_lt (by omega) hy)) (hhas y hy i hi)
      (imageColour_at (f := plainColour s line (w + pad)) hi).symm (by omega)
  case skip =>
    intro y hy t ht
    obtain ⟨u, hu, hp⟩ := ht.skip hs pad fun j hj => by
      rw [Nat.add_assoc]
      exact hf _ (place_lt (by omega) hy)
    refine ⟨u, hu, line y, ?_, fun hr => hplain hr y hy⟩
    rw [Nat.succ_mul, Nat.succ_mul, ← Nat.add_assoc (y * (w + pad))]
    exact hp

end Sys2Proof.Machine
end

section
/-! `SEQ.DECODE` (R311): the two units' starts, the lines, and a pass over planes that end too soon;
O52. -/

namespace Sys2Proof.Machine

variable {s t : State} {n k i j y w h p pad slot b x : Nat} {colour : Nat → U32} {l : Lut} {hm : Ham}
  {r rx : BufRef} {g : Geometry} {f : PlaneFormat}

/-! ### The starts of the two units -/

/-- After `BPR.INIT` of a geometry that its registers hold. -/
def readerStart (r : BufRef) (g : Geometry) (s : State) : State :=
  { s with bpr := { s.bpr with init := true, geom := g, cur := .zero, buf := some r,
                               fault := { s.bpr.fault with valid := false } } }

theorem bprInitOp_ok (hok : geometryOk g = true) (hfits : geometryFits g) (s : State) :
    bprInitOp r g s = .ok .unit (readerStart r g s) := by
  have hinit : bprInitOp r g s = .ok .unit (readerStart r (registerGeometry g) s) :=
    (bind_ok (clearFault_run .bpr s)).trans (raiseIf_bind_false (by simp [hok]))
  rwa [registerGeometry_of_fits hfits] at hinit

/-- After `PXW.INIT` with a palette's view. -/
def writerStart (r : BufRef) (l : Lut) (s : State) : State :=
  claim .pxw r { s with pxw := ⟨true, some r, 0, l, { s.pxw.fault with valid := false }⟩ }

theorem pxwInitOp_ok (hs : readableSlot s slot) :
    pxwInitOp r slot s = .ok .unit (writerStart r (viewOf (slotAt s slot)) s) :=
  (bind_ok (clearFault_run .pxw s)).trans
    (bind_ok (view8_ok (s := clearedFault .pxw s) hs.1 hs.2))

theorem easel_start (hg : geometryOk g = true) (hapart : r.id ≠ rx.id) (hx : refOk s.mem rx)
    (l : Lut) : Easel (writerStart rx l (readerStart r g s)) :=
  ⟨⟨rfl, rfl, rfl⟩, hg, rfl, ⟨rfl, rfl, rfl⟩, rfl, hapart, hx⟩

/-! ### Palettes that cover the indices -/

theorem lutHas_viewOf {q : Slot} {index : Nat} :
    lutHas (viewOf q) index ↔ index < q.count ∧ (entryAt q index).set = true := by
  have hcount : (viewOf q).count = q.count := rfl
  rw [lutHas, lutAt_viewOf, hcount]
  refine and_congr_right fun hlt => ?_
  rw [if_pos hlt, viewElem]
  exact Eq.congr_left (rescaleEntry_set _ _ _)

theorem lutHas_of_setBelow {q : Slot} {index : Nat} (h : setBelow q n) (hlt : index < n) :
    lutHas (viewOf q) index := lutHas_viewOf.mpr ⟨hlt.trans_le h.1, h.2 index hlt⟩

/-! ### A line's end behind the planes -/

/-- The fault of a fetch behind the planes, copied by SEQ (R314). -/
def pastEndAt (s : State) (n i : Nat) (t : State) : State :=
  let reg := raisedReg .pastEnd
    (planeOffset s.bpr.geom (stepCursorN s.bpr.geom n Cursor.zero) i)
  seqFaulted (withFault .seq reg (withFault .bpr reg t))

/-- The lines of plain pixels stop at the first column that lies behind the planes (R311). -/
theorem Easel.paintPlain_pastEnd (hs : Easel s) (hk : k < h * (w + pad)) (hk8 : k % 8 = 0)
    (hf : ∀ n < k, columnFits s n) (hroom : 4 * (h * w) ≤ (refOf s.pxw.buf).len)
    (hhas : ∀ n < k, lutHas s.pxw.lut (planesIndex s.mem (refOf s.bpr.buf) s.bpr.geom n))
    (hi : i < s.bpr.geom.planeCount)
    (hpast : (refOf s.bpr.buf).len ≤ planeOffset s.bpr.geom (stepCursorN s.bpr.geom k Cursor.zero) i)
    (hin : ∀ j < i, planeOffset s.bpr.geom (stepCursorN s.bpr.geom k Cursor.zero) j <
      (refOf s.bpr.buf).len) :
    ∃ u k', paintLines false decodePixel (do let _ ← seqCall .bpr (bprAdvOp pad)) w h s =
        .error .faulted (pastEndAt s k i u) ∧ k' ≤ h * w ∧
      Painting s (imageColour (plainColour s (fun _ => s.pxw.lut) (w + pad)) w) k k' s.pxw.lut s.ham
        u := by
  have hstride : 0 < w + pad := Nat.pos_of_mul_pos_left (Nat.zero_lt_of_lt hk)
  obtain ⟨y, x, hx, rfl⟩ : ∃ y x, x < w + pad ∧ k = y * (w + pad) + x :=
    ⟨k / (w + pad), k % (w + pad), Nat.mod_lt _ hstride, (Nat.div_add_mod' k (w + pad)).symm⟩
  have hy : y < h := Nat.lt_of_mul_lt_mul_right ((Nat.le_add_right _ _).trans_lt hk)
  generalize hcolour : imageColour (plainColour s (fun _ => s.pxw.lut) (w + pad)) w = colour
  have pixel {a c : Nat} (ha : a < w) (hc : c < h) (hbefore : c * (w + pad) + a < y * (w + pad) + x)
      (t : State) (ht : Painting s colour (c * (w + pad) + a) (c * w + a) s.pxw.lut s.ham t) :
      ∃ u, decodePixel t = .ok () u ∧
        Painting s colour (c * (w + pad) + (a + 1)) (c * w + (a + 1)) s.pxw.lut s.ham u :=
    ht.decodePixel hs (hf _ hbefore) (hhas _ hbefore) (hcolour ▸ (imageColour_at
      (f := plainColour s (fun _ => s.pxw.lut) (w + pad)) ha).symm) (by have := place_lt ha hc; omega)
  have skip {a c : Nat} (ha : a ≤ pad) (hbefore : c * (w + pad) + w + a ≤ y * (w + pad) + x)
      (t : State) (ht : Painting s colour (c * (w + pad) + w) (c * w + w) s.pxw.lut s.ham t) :
      ∃ u, (do let _ ← seqCall .bpr (bprAdvOp a) : Op Unit) t = .ok () u ∧
        Painting s colour (c * (w + pad) + w + a) (c * w + w) s.pxw.lut s.ham u :=
    ht.skip hs a fun j hj => hf _ (by omega)
  have stop : ∀ t, Painting s colour (y * (w + pad)) (y * w) s.pxw.lut s.ham t →
      ∃ u, (times decodePixel w >>= fun _ => do let _ ← seqCall .bpr (bprAdvOp pad)) t =
          .error .faulted u ∧
        ∃ v k', u = pastEndAt s (y * (w + pad) + x) i v ∧ k' ≤ h * w ∧
          Painting s colour (y * (w + pad) + x) k' s.pxw.lut s.ham v := by
    intro t ht
    rcases Nat.lt_or_ge x w with hxw | hwx
    · obtain ⟨u, hu, v, rfl, hv⟩ := times_error (x := decodePixel) (e := .faulted)
        (E := fun u => ∃ v, u = pastEndAt s (y * (w + pad) + x) i v ∧
          Painting s colour (y * (w + pad) + x) (y * w + x) s.pxw.lut s.ham v)
        (fun a => Painting s colour (y * (w + pad) + a) (y * w + a) s.pxw.lut s.ham) hxw
        (fun a ha => pixel (by omega) hy (by omega))
        (fun v hv => ⟨_, hv.decodePixel_pastEnd hs hk8 hi hpast hin, v, rfl, hv⟩) t ht
      exact ⟨_, bind_error hu, v, _, rfl, (place_lt hxw hy).le, hv⟩
    · obtain ⟨j, rfl⟩ := Nat.exists_eq_add_of_le hwx
      rw [← Nat.add_assoc] at hk8 hpast hin ⊢
      obtain ⟨u, hu, hp⟩ := times_ok (x := decodePixel)
        (fun a => Painting s colour (y * (w + pad) + a) (y * w + a) s.pxw.lut s.ham) w
        (fun a ha => pixel ha hy (by omega)) t ht
      obtain ⟨v, hv, hpv⟩ := hp.adv_pastEnd hs (m := pad) (j := j) (by omega)
        (fun a ha => hf _ (by omega)) hk8 hi hpast hin
      refine ⟨_, (bind_ok hu).trans (bind_error (seqCall_faulted hv)), v, _, rfl, ?_, hpv⟩
      rw [← Nat.succ_mul]
      exact Nat.mul_le_mul_right w hy
  obtain ⟨u, hu, v, k', rfl, hk', hv⟩ := forFrom_error (e := .faulted)
    (g := fun y => selectLine false y >>= fun _ => times decodePixel w >>= fun _ => do
      let _ ← seqCall .bpr (bprAdvOp pad)) (i := 0)
    (E := fun u => ∃ v k', u = pastEndAt s (y * (w + pad) + x) i v ∧ k' ≤ h * w ∧
      Painting s colour (y * (w + pad) + x) k' s.pxw.lut s.ham v)
    (fun c => Painting s colour (c * (w + pad)) (c * w) s.pxw.lut s.ham) hy
    (fun c hc t ht => by
      have hline : (c + 1) * (w + pad) ≤ y * (w + pad) := Nat.mul_le_mul_right _ hc
      rw [Nat.succ_mul] at hline
      obtain ⟨t1, h1, hp1⟩ := times_ok (x := decodePixel)
        (fun a => Painting s colour (c * (w + pad) + a) (c * w + a) s.pxw.lut s.ham) w
        (fun a ha => pixel ha (hc.trans hy) (by omega)) t ht
      obtain ⟨t2, h2, hp2⟩ := skip (c := c) le_rfl (by omega) t1 hp1
      refine ⟨t2, (bind_ok h1).trans h2, ?_⟩
      rw [Nat.succ_mul, Nat.succ_mul, ← Nat.add_assoc]
      exact hp2)
    stop s (by simpa using hs.painting colour)
  rw [paintLines_eq]
  exact ⟨v, k', hu, hk', hv⟩

end Sys2Proof.Machine
end

section
/-! `SEQ.DECODE` as a whole (R311): its pass over the planes, what it leaves, and O52. -/

namespace Sys2Proof.Machine

variable {s t : State} {n k i j y w h p pad slot b x : Nat} {f : PlaneFormat}

/-- A buffer's length is below `2 ^ AW` (R10). -/
theorem bufAt_len_lt (h : memoryOk s) (id : Nat) : (bufAt s.mem id).len < Config.bufLimit :=
  ((Buffer.wf_iff _).mp (Memory.wf_bufAt h id)).1

theorem presetGeometry_ok (f : PlaneFormat) (hw : 0 < w) (hh : 0 < h) (hp : 0 < p)
    (h8 : p ≤ Config.planesMax) : geometryOk (presetGeometry f w h p) = true :=
  geometryOk_iff.mpr ⟨(preset_bytesPerBlock_pos hw hh).ne', (preset_blocksPerLine_pos hw).ne',
    by rw [preset_planeCount]; exact hp.ne', by rwa [preset_planeCount]⟩

/-- The registers hold every preset of an image whose pixels fit a buffer (R23). -/
theorem presetGeometry_fits (f : PlaneFormat) (hw : 0 < w) (hh : 0 < h) (h8 : p ≤ Config.planesMax)
    (hsize : 4 * w * h < Config.bufLimit) : geometryFits (presetGeometry f w h p) := by
  have hwidth : 4 * w < Config.bufLimit := (Nat.le_mul_of_pos_right _ hh).trans_lt hsize
  have hplane : ceilDiv w 8 * h ≤ 4 * w * h :=
    Nat.mul_le_mul_right h (by simp only [ceilDiv]; omega)
  have hline : ceilDiv w 8 * p ≤ ceilDiv w 8 * 8 := Nat.mul_le_mul_left _ h8
  have hword : ceilDiv w 16 * 2 * p ≤ ceilDiv w 16 * 2 * 8 := Nat.mul_le_mul_left _ h8
  simp only [Config.bufLimit, Config.planesMax, ceilDiv] at *
  cases f <;> simp only [geometryFits, presetGeometry, ceilDiv, Config.bufLimit] <;> omega

/-- A line's pixels and its padding (R312). -/
theorem add_padPixels (f : PlaneFormat) (w : Nat) :
    w + padPixels (presetLineBytes f w) w = 8 * presetLineBytes f w :=
  Nat.add_sub_of_le (le_presetLineBytes f w)

/-- Inside a column every pixel has the column's bytes. -/
theorem planeOffset_column {g : Geometry} (hg : geometryOk g = true) (hn : n % 8 ≠ 0) (i : Nat) :
    planeOffset g (stepCursorN g n Cursor.zero) i =
      planeOffset g (stepCursorN g (n - 1) Cursor.zero) i := by
  obtain ⟨hbytes, hblocks, -⟩ := geometryOk_iff.mp hg
  have hcolumn : (n - 1) / 8 = n / 8 := by omega
  rw [stepCursorN_zero (Nat.pos_of_ne_zero hbytes) (Nat.pos_of_ne_zero hblocks),
    stepCursorN_zero (Nat.pos_of_ne_zero hbytes) (Nat.pos_of_ne_zero hblocks), hcolumn]
  rfl

/-- The first column behind the planes is met at its first pixel. -/
theorem column_start {g : Geometry} {len : Nat} (hg : geometryOk g = true) (hi : i < g.planeCount)
    (hbefore : ∀ j < n, planeEof g (stepCursorN g j Cursor.zero) len = false)
    (hpast : len ≤ planeOffset g (stepCursorN g n Cursor.zero) i) : n % 8 = 0 := by
  by_contra hn
  have hin := planeEof_eq_false_iff.mp (hbefore (n - 1) (by omega)) i hi
  rw [← planeOffset_column hg hn] at hin
  omega

/-! ### The pass -/

/-- Where both units start in `SEQ.DECODE`. -/
def decodeStart (s : State) (b slot w h p : Nat) (f : PlaneFormat) (x : Nat) : State :=
  writerStart (wholeBuf s.mem x) (viewOf (slotAt s slot))
    (readerStart (wholeBuf s.mem b) (presetGeometry f w h p) (clearedFault .seq s))

theorem decodeLines_eq (w pad h : Nat) : times (decodeLine w pad) h =
    paintLines false decodePixel (do let _ ← seqCall .bpr (bprAdvOp pad)) w h := by
  rw [times_eq_forFrom _ 0, paintLines_eq]
  rfl

section
variable (hmem : memoryOk s) (hw : 0 < w) (hh : 0 < h) (hp : 0 < p) (h8 : p ≤ Config.planesMax)
  (hx : 4 * w * h ≤ (bufAt s.mem x).len) (hslot : readableSlot s slot)

include hw hh hp h8 in
theorem easel_decodeStart (hbx : b ≠ x) : Easel (decodeStart s b slot w h p f x) :=
  easel_start (presetGeometry_ok f hw hh hp h8) hbx (refOk_wholeBuf _ _) _

include hslot in
theorem writerInit_run : seqCall .pxw (pxwInitOp (wholeBuf s.mem x) slot)
      (readerStart (wholeBuf s.mem b) (presetGeometry f w h p) (clearedFault .seq s)) =
    .ok .unit (decodeStart s b slot w h p f x) :=
  seqCall_ok (pxwInitOp_ok
    (s := readerStart (wholeBuf s.mem b) (presetGeometry f w h p) (clearedFault .seq s)) hslot)

include hmem hw hh hp h8 hx

theorem readerInit_run : seqCall .bpr (bprInitOp (wholeBuf s.mem b) (presetGeometry f w h p))
      (clearedFault .seq s) = .ok .unit
        (readerStart (wholeBuf s.mem b) (presetGeometry f w h p) (clearedFault .seq s)) :=
  seqCall_ok (bprInitOp_ok (presetGeometry_ok f hw hh hp h8)
    (presetGeometry_fits f hw hh h8 (hx.trans_lt (bufAt_len_lt hmem x))) _)

include hslot

/-- A pass that completes ends both units' bindings. -/
theorem seqDecode_of_lines {u : State}
    (hlines : times (decodeLine w (padPixels (presetLineBytes f w) w)) h
      (decodeStart s b slot w h p f x) = .ok () u) :
    exec (.seqDecode b slot w h p f x) s = completes .unit
      { unbind .bpr (unbind .pxw u) with seq := { u.seq with state := .done } } := by
  have hpass : decodePass (wholeBuf s.mem b) slot w h p f (wholeBuf s.mem x) (clearedFault .seq s) =
      .ok () (unbind .bpr (unbind .pxw u)) :=
    (bind_ok (readerInit_run hmem hw hh hp h8 hx)).trans
      (endPass_ok ((bind_ok (writerInit_run hslot)).trans (endPass_ok hlines)))
  exact runOp_ok ((bind_ok (clearFault_run .seq s)).trans ((raiseIf_bind_false (by omega)).trans
    ((raiseIf_bind_false (Nat.not_lt.mpr hx)).trans (bind_ok (onStop_ok hpass)))))

/-- A pass that stops ends them too, and leaves the pixels unspecified (R383). -/
theorem seqDecode_of_stop {u : State}
    (hlines : times (decodeLine w (padPixels (presetLineBytes f w) w)) h
      (decodeStart s b slot w h p f x) = .error .faulted u) :
    exec (.seqDecode b slot w h p f x) s = .next
      { spoil .seq (wholeBuf s.mem x) 0 (4 * w * h) (unbind .bpr (unbind .pxw u)) with
        reply := .faulted } := by
  have hpass : decodePass (wholeBuf s.mem b) slot w h p f (wholeBuf s.mem x) (clearedFault .seq s) =
      .error .faulted (unbind .bpr (unbind .pxw u)) :=
    (bind_ok (readerInit_run hmem hw hh hp h8 hx)).trans
      (endPass_error ((bind_ok (writerInit_run hslot)).trans (endPass_error hlines)))
  exact runOp_faulted ((bind_ok (clearFault_run .seq s)).trans ((raiseIf_bind_false (by omega)).trans
    ((raiseIf_bind_false (Nat.not_lt.mpr hx)).trans (bind_error (onStop_error hpass)))))

/-- `SEQ.DECODE` over planes that hold the whole image, by a palette that has its indices. -/
theorem seqDecode_completes (hbx : b ≠ x) (hb : presetLineBytes f w * h * p ≤ (bufAt s.mem b).len)
    (hhas : ∀ yy < h, ∀ xx < w, lutHas (viewOf (slotAt s slot)) (planesIndex s.mem (wholeBuf s.mem b)
      (presetGeometry f w h p) (yy * (8 * presetLineBytes f w) + xx))) :
    ∃ t, exec (.seqDecode b slot w h p f x) s = completes .unit t ∧
      t = { overwrite .pxw [⟨x, 0, 4 * w * h⟩] (claim .pxw (wholeBuf s.mem x) s) with
              mem := t.mem, bpr := t.bpr, pxw := t.pxw,
              seq := { s.seq with state := .done, fault := { s.seq.fault with valid := false } } } ∧
      (∀ xx < w, ∀ yy < h, pixelAt t.mem (wholeBuf s.mem x) (yy * w + xx) =
        (lutAt (viewOf (slotAt s slot)) (planesIndex s.mem (wholeBuf s.mem b)
          (presetGeometry f w h p) (yy * (8 * presetLineBytes f w) + xx))).val) ∧
      Writes (inRange (wholeBuf s.mem x) 0 (4 * w * h)) s.mem t.mem := by
  have hfits : ∀ n < h * (w + padPixels (presetLineBytes f w) w),
      columnFits (decodeStart s b slot w h p f x) n := fun n hn => by
    rw [add_padPixels, Nat.mul_comm h] at hn
    exact planeEof_eq_false_iff.mpr fun i hi =>
      (planeEof_eq_false_iff.mp (passFits_preset f hw hh p n hn) i hi).trans_le hb
  have hsize : 4 * (h * w) = 4 * w * h := by rw [Nat.mul_assoc, Nat.mul_comm w]
  obtain ⟨u, hu, l, hp'⟩ := (easel_decodeStart hw hh hp h8 hbx).paintPlain (raster := false)
    (line := fun _ => viewOf (slotAt s slot)) hfits (hsize.le.trans hx)
    (fun y hy x hx => by rw [add_padPixels]; exact hhas y hy x hx) (fun _ _ _ => rfl) nofun
  rw [← decodeLines_eq] at hu
  rw [← hsize]
  refine ⟨_, seqDecode_of_lines hmem hw hh hp h8 hx hslot hu, ?_, fun xx hxx yy hyy => ?_, hp'.writes⟩
  · rw [hp'.shape]
    rfl
  · rw [add_padPixels] at hp'
    exact (hp'.pixels _ (place_lt hxx hyy)).trans (imageColour_at hxx)

end

end Sys2Proof.Machine

namespace Sys2Proof.Proofs

open Sys2Proof.Machine

/-- Settles O52: the lines paint the image, or stop at the first column behind the planes. -/
theorem seqDecodeComputesImage : Obligations.SeqDecodeComputesImage := by
  intro s b slot w h p x f hmem hw hh hp h8 hbx hx hslot hmade hset
  have hread : readableSlot s slot := ⟨hslot, hmade⟩
  have hhas (n : Nat) : lutHas (viewOf (slotAt s slot))
      (planesIndex s.mem (wholeBuf s.mem b) (presetGeometry f w h p) n) :=
    lutHas_of_setBelow hset ((planesIndex_lt _ _ _ _).trans_eq (by rw [preset_planeCount]))
  refine ⟨fun hb => ?image, fun k i hk hbefore hi hpast hin => ?stops⟩
  case image =>
    obtain ⟨t, hexec, ht, hpix, hwrites⟩ := seqDecode_completes hmem hw hh hp h8 hx hread hbx hb
      fun yy _ xx _ => hhas _
    refine ⟨t, hexec, ht, fun xx hxx yy hyy index hindex hbits => ?_,
      fun id a hout => hwrites.byteAt_eq ?_⟩
    · have hindex' : planesIndex s.mem (wholeBuf s.mem b) (presetGeometry f w h p)
          (yy * (8 * presetLineBytes f w) + xx) = index := by
        refine planesIndex_eq (by rwa [preset_planeCount]) fun i hi => ?_
        rw [preset_planeCount] at hi
        rw [hbits i hi, Nat.mul_left_comm, Nat.mul_add_mod, refByte, wholeBuf, Nat.zero_add]
      rw [beRead_pixel, hpix xx hxx yy hyy, hindex']
    · rintro ⟨hid, -, hlt⟩
      simp only [wholeBuf] at hid hlt
      omega
  case stops =>
    have hplane : i < (presetGeometry f w h p).planeCount := by rwa [preset_planeCount]
    have hk8 := column_start (presetGeometry_ok f hw hh hp h8) hplane hbefore hpast
    have hsize : 4 * (h * w) = 4 * w * h := by rw [Nat.mul_assoc, Nat.mul_comm w]
    have hs : Easel (decodeStart s b slot w h p f x) := easel_decodeStart hw hh hp h8 hbx
    obtain ⟨u, k', hu, hk', hp'⟩ := hs.paintPlain_pastEnd
      (w := w) (h := h) (pad := padPixels (presetLineBytes f w) w) (k := k)
      (by rwa [add_padPixels, Nat.mul_comm h]) hk8 hbefore (hsize.le.trans hx) (fun n _ => hhas n)
      hplane hpast hin
    rw [← decodeLines_eq] at hu
    refine ⟨_, seqDecode_of_stop hmem hw hh hp h8 hx hread hu, rfl, ?_, rfl, fun id a hout => ?_⟩
    · rw [hp'.shape]
      rfl
    · refine (byteAt_freeRange_outside (by simp only [wholeBuf]; omega)).trans
        (hp'.writes.byteAt_eq ?_)
      rintro ⟨hid, -, hlt⟩
      replace hid : id = x := hid
      replace hlt : a < 0 + 4 * k' := hlt
      omega

end Sys2Proof.Proofs
end

section
/-! `SEQ.ENCODE` (R313): where each bit of the planes comes from, one pixel, the pass, and its two
faults; O53. -/

namespace Sys2Proof.Machine

variable {s t : State} {n k i a q w h p slot b x : Nat} {f : PlaneFormat} {index : Nat → Nat}

/-! ### Where the planes' bytes lie -/

/-- Grouped planes: every byte belongs to one plane's one byte-column. -/
theorem groupedOffset_inj {u c c' i' : Nat} (hu : 0 < u) (hi : i < p) (hi' : i' < p)
    (h : groupedOffset u p c i = groupedOffset u p c' i') : c = c' ∧ i = i' := by
  have hp : 0 < p := Nat.zero_lt_of_lt hi
  have hmod : c % u = c' % u := by
    have := congrArg (· % u) h
    simpa [groupedOffset] using this
  have hdiv : c / u * p + i = c' / u * p + i' := by
    rw [groupedOffset, groupedOffset, hmod] at h
    exact Nat.eq_of_mul_eq_mul_left hu (Nat.add_left_cancel h)
  have hgroup : c / u = c' / u := by
    have := congrArg (· / p) hdiv
    simpa [Nat.mul_comm _ p, Nat.mul_add_div hp, Nat.div_eq_of_lt hi, Nat.div_eq_of_lt hi'] using this
  refine ⟨?_, by rw [hgroup] at hdiv; omega⟩
  rw [← Nat.div_add_mod c u, ← Nat.div_add_mod c' u, hmod, hgroup]

/-- Grouped planes: every byte is some plane's. -/
theorem exists_groupedOffset {u m : Nat} (ha : a < u * (m * p)) :
    ∃ c < u * m, ∃ i < p, groupedOffset u p c i = a := by
  have hu : 0 < u := Nat.pos_of_mul_pos_right (Nat.zero_lt_of_lt ha)
  have hp : 0 < p := Nat.pos_of_mul_pos_left (Nat.pos_of_mul_pos_left (Nat.zero_lt_of_lt ha))
  have hq : a / u < m * p := Nat.div_lt_of_lt_mul ha
  have hmod : a % u < u := Nat.mod_lt a hu
  refine ⟨a / u / p * u + a % u, ?_, a / u % p, Nat.mod_lt _ hp, ?_⟩
  · calc a / u / p * u + a % u < m * u := place_lt hmod (Nat.div_lt_of_lt_mul (by rwa [Nat.mul_comm]))
      _ = u * m := Nat.mul_comm _ _
  · rw [groupedOffset, Nat.add_comm (_ * u), Nat.add_mul_mod_self_right, Nat.mod_mod,
      Nat.add_mul_div_right _ _ hu, Nat.div_eq_of_lt hmod, Nat.zero_add, Nat.div_add_mod',
      Nat.mod_add_div]

/-! ### The start of the pass -/

/-- After `PXR.INIT` with a palette's view. -/
def pixelsStart (r : BufRef) (l : Lut) (s : State) : State :=
  { s with pxr := ⟨true, some r, 0, l, { s.pxr.fault with valid := false }⟩ }

theorem pxrInitOp_ok {r : BufRef} (hs : readableSlot s slot) :
    pxrInitOp r slot s = .ok .unit (pixelsStart r (viewOf (slotAt s slot)) s) :=
  (bind_ok (clearFault_run .pxr s)).trans
    (bind_ok (view8_ok (s := clearedFault .pxr s) hs.1 hs.2))

/-- After `BPW.INIT` of a geometry that its registers hold. -/
def planesStart (r : BufRef) (g : Geometry) (s : State) : State :=
  claim .bpw r { s with bpw := { s.bpw with init := true, geom := g, cur := .zero, buf := some r,
                                            fault := { s.bpw.fault with valid := false } } }

theorem bpwInitOp_ok {r : BufRef} {g : Geometry} (hok : geometryOk g = true) (hfits : geometryFits g)
    (s : State) : bpwInitOp r g s = .ok .unit (planesStart r g s) := by
  have hinit : bpwInitOp r g s = .ok .unit (planesStart r (registerGeometry g) s) :=
    (bind_ok (clearFault_run .bpw s)).trans (raiseIf_bind_false (by simp [hok]))
  rwa [registerGeometry_of_fits hfits] at hinit

/-- Where both units start in `SEQ.ENCODE`, the planes cleared. -/
def encodeStart (s : State) (x slot w h p : Nat) (f : PlaneFormat) (b : Nat) : State :=
  { overwrite .bpw [⟨b, 0, encodeSize w h p⟩] (claim .bpw (wholeBuf s.mem b) (clearedFault .seq s)) with
    mem := zeroRange s.mem (wholeBuf s.mem b) 0 (encodeSize w h p)
    pxr := ⟨true, some (wholeBuf s.mem x), 0, viewOf (slotAt s slot), { s.pxr.fault with valid := false }⟩
    bpw := { s.bpw with init := true, geom := presetGeometry f w h p, cur := .zero
                        buf := some (wholeBuf s.mem b), fault := { s.bpw.fault with valid := false } } }

/-- Pixel `n` is the next one. -/
def encodedTo (s : State) (n : Nat) (m : Mem) : State :=
  { s with mem := m
           pxr := { s.pxr with pos := n }
           bpw := { s.bpw with cur := stepCursorN s.bpw.geom n Cursor.zero } }

/-- Writes inside the planes end no more bindings. -/
theorem overwrite_encodeStart {ws : List BufRef} (hbx : b ≠ x)
    (hws : ∀ id a, covered ws id a → id = b ∧ a < encodeSize w h p) :
    overwrite .bpw ws (encodeStart s x slot w h p f b) = encodeStart s x slot w h p f b := by
  have hinside {v : UnitId} {z : Option BufRef} :
      outlived .bpw v ws (outlived .bpw v [⟨b, 0, encodeSize w h p⟩] z) =
        outlived .bpw v [⟨b, 0, encodeSize w h p⟩] z := by
    rw [outlived_outlived]
    refine outlived_congr fun id a => ?_
    rw [covered_append]
    refine or_iff_left_of_imp fun hin => ?_
    obtain ⟨rfl, hlt⟩ := hws id a hin
    exact (covered_cons _ _).mpr (.inl ⟨rfl, Nat.zero_le a, by simpa using hlt⟩)
  have hpixels : outlived .bpw .pxr ws (some (wholeBuf s.mem x)) = some (wholeBuf s.mem x) := by
    rcases outlived_cases .bpw .pxr ws (some (wholeBuf s.mem x)) with ⟨-, -, id, a, hw, hin⟩ | ⟨hkept, -⟩
    · exact absurd ((hws id a hw).1.symm.trans hin.1) hbx
    · exact hkept
  simp only [overwrite, encodeStart, hinside, hpixels, outlived_self]

/-- SEQ clears the planes before the planes' writer claims them: either order ends the same bindings. -/
theorem encodeStart_eq (hsize : encodeSize w h p ≤ (bufAt s.mem b).len) :
    planesStart (wholeBuf s.mem b) (presetGeometry f w h p)
      (pixelsStart (wholeBuf s.mem x) (viewOf (slotAt s slot))
        (clearRange (wholeBuf s.mem b) (encodeSize w h p) (clearedFault .seq s))) =
      encodeStart s x slot w h p f b := by
  have hwindow : windowOf (wholeBuf s.mem b) 0 (encodeSize w h p) = ⟨b, 0, encodeSize w h p⟩ := by
    rw [windowOf, wholeBuf, Nat.sub_zero, Nat.min_eq_left hsize]
  have hunit {v : UnitId} {z : Option BufRef} (h1 : v ≠ .seq) (h2 : v ≠ .bpw) :
      outlived .seq v [⟨b, 0, encodeSize w h p⟩] z = outlived .bpw v [⟨b, 0, encodeSize w h p⟩] z :=
    outlived_unit h1 h2
  have hclaim {v : UnitId} {z : Option BufRef} :
      outlived .bpw v [wholeBuf s.mem b] (outlived .bpw v [⟨b, 0, encodeSize w h p⟩] z) =
        outlived .bpw v [⟨b, 0, encodeSize w h p⟩] (outlived .bpw v [wholeBuf s.mem b] z) := by
    rw [outlived_outlived, outlived_outlived]
    exact outlived_congr fun id a => by rw [covered_append, covered_append, or_comm]
  simp only [planesStart, pixelsStart, clearRange, hwindow, encodeStart, claim, overwrite,
    hunit (v := .bpr) nofun nofun, hunit (v := .pxw) nofun nofun, hunit (v := .ckr) nofun nofun,
    hunit (v := .ckw) nofun nofun, hclaim, outlived_self]
  rfl

end Sys2Proof.Machine
end

section
/-! `SEQ.ENCODE` (R313): one pixel, the pass, what it leaves and its two faults; O53. -/

namespace Sys2Proof.Machine

variable {s t : State} {n k i j a q w h p slot b x : Nat} {f : PlaneFormat} {index : Nat → Nat}

/-- Bit `q` of byte `a` of the planes is set by one of the first `n` pixels. -/
def inked (g : Geometry) (p : Nat) (index : Nat → Nat) (n a q : Nat) : Prop :=
  ∃ k < n, ∃ i < p, planeOffset g (stepCursorN g k Cursor.zero) i = a ∧ q = 7 - k % 8 ∧
    (index k).testBit i = true

/-- `t` is where the first `n` pixels, of the given indices, have brought `SEQ.ENCODE`. -/
structure Encoding (s : State) (x slot w h p : Nat) (f : PlaneFormat) (b : Nat) (index : Nat → Nat)
    (n : Nat) (t : State) : Prop where
  shape : t = encodedTo (encodeStart s x slot w h p f b) n t.mem
  writes : Writes (inRange (wholeBuf s.mem b) 0 (encodeSize w h p)) s.mem t.mem
  bits : ∀ a < encodeSize w h p, ∀ q < 8,
    (byteAt t.mem b a).getLsbD q = true ↔ inked (presetGeometry f w h p) p index n a q

/-- The mask of a pixel's bit (R183). -/
theorem getLsbD_mask {d q : Nat} (hd : d < 8) (hq : q < 8) :
    ((0x80 : Byte) >>> d).getLsbD q = true ↔ q = 7 - d := by
  interval_cases d <;> interval_cases q <;> decide

theorem byteAt_zeroRange {m : Mem} {r : BufRef} {off : Nat} (hr : refOk m r) :
    ∀ n, off + n ≤ r.len → ∀ a < n, byteAt (zeroRange m r off n) r.id (r.base + (off + a)) = 0
  | 0, _, a, ha => absurd ha (Nat.not_lt_zero a)
  | n + 1, hn, a, ha => by
    have hlen : r.base + (off + n) < (bufAt (zeroRange m r off n) r.id).len := by
      rw [(writes_zeroRange m r off n).len_eq]
      unfold refOk at hr
      omega
    rw [zeroRange, byteAt_setByte]
    split
    · rfl
    · next hne =>
      refine byteAt_zeroRange hr n (by omega) a ?_
      omega

namespace Encoding

theorem start (hb : encodeSize w h p ≤ (bufAt s.mem b).len) (index : Nat → Nat) :
    Encoding s x slot w h p f b index 0 (encodeStart s x slot w h p f b) := by
  refine ⟨rfl, (writes_zeroRange _ _ _ _).mono fun _ _ => inRange_mono le_rfl (by omega),
    fun a ha q hq => ?_⟩
  have hzero := byteAt_zeroRange (off := 0) (refOk_wholeBuf s.mem b) (encodeSize w h p)
    ((Nat.zero_add _).le.trans hb) a ha
  rw [wholeBuf, Nat.zero_add, Nat.zero_add] at hzero
  rw [show byteAt (encodeStart s x slot w h p f b).mem b a = 0 from hzero]
  simp [inked]

variable (hE : Encoding s x slot w h p f b index n t)
include hE

theorem pxr : t.pxr = ⟨true, some (wholeBuf s.mem x), n, viewOf (slotAt s slot),
    { s.pxr.fault with valid := false }⟩ := congrArg State.pxr hE.shape

theorem bpw : t.bpw = { s.bpw with
    init := true, geom := presetGeometry f w h p
    cur := stepCursorN (presetGeometry f w h p) n Cursor.zero
    buf := some (wholeBuf s.mem b), fault := { s.bpw.fault with valid := false } } :=
  congrArg State.bpw hE.shape

theorem readyPxr : ready .pxr t := by
  rw [hE.shape]
  exact ⟨rfl, rfl, rfl⟩

theorem readyBpw : ready .bpw t := by
  rw [hE.shape]
  exact ⟨rfl, rfl, rfl⟩

theorem byteAt_other {id : Nat} (hid : id ≠ b) (a : Nat) : byteAt t.mem id a = byteAt s.mem id a :=
  hE.writes.byteAt_eq fun hin => hid hin.1

/-- The pixels are as they were. -/
theorem readerPixel (hbx : b ≠ x) : Machine.readerPixel t = pixelAt s.mem (wholeBuf s.mem x) n := by
  rw [Machine.readerPixel, hE.pxr]
  simp only [pixelAt, refByte, refOf, Option.getD_some, wholeBuf, hE.byteAt_other hbx.symm]

end Encoding

/-- `PXR.READ` of a colour that its table holds. -/
theorem pxrReadOp_ok (hr : ready .pxr s) (hroom : 4 * s.pxr.pos + 4 ≤ (refOf s.pxr.buf).len)
    (hsome : findColour s.pxr.lut (readerPixel s) 0 s.pxr.lut.count = some j) :
    pxrReadOp s = .ok j { s with pxr := { s.pxr with pos := s.pxr.pos + 1 } } := by
  rw [pxrReadOp, enter_bind hr, get_bind, bind_ok (memRead_pixel hroom), BitVec.ofNat_toNat,
    BitVec.setWidth_eq, ← readerPixel, hsome]
  rfl

theorem pxrReadOp_colour (hr : ready .pxr s) (hroom : 4 * s.pxr.pos + 4 ≤ (refOf s.pxr.buf).len)
    (hnone : findColour s.pxr.lut (readerPixel s) 0 s.pxr.lut.count = none) :
    pxrReadOp s = .error .faulted (withFault .pxr (raisedReg .colour (readerPixel s).toNat) s) := by
  rw [pxrReadOp, enter_bind hr, get_bind, bind_ok (memRead_pixel hroom), BitVec.ofNat_toNat,
    BitVec.setWidth_eq, ← readerPixel, hnone]
  rfl

/-- `BPW.WRITE` of an index of the planes' bits. -/
theorem bpwWriteOp_ok {index : Nat} (hr : ready .bpw s) (hlt : index < 2 ^ s.bpw.geom.planeCount)
    (hin : ∀ i < s.bpw.geom.planeCount,
      planeOffset s.bpw.geom s.bpw.cur i < (refOf s.bpw.buf).len) :
    bpwWriteOp index s = .ok .unit
      { overwrite .bpw (planesWritten (refOf s.bpw.buf) s.bpw.geom s.bpw.cur index) s with
        mem := orPlanes s.mem (refOf s.bpw.buf) s.bpw.geom s.bpw.cur index s.bpw.geom.planeCount
        bpw := { s.bpw with cur := stepCursor s.bpw.geom s.bpw.cur } } := by
  have hnone := firstPlanePastEnd_eq_none (planeEof_eq_false_iff.mpr hin)
  refine (enter_bind hr).trans ((raiseIf_bind_false (Nat.not_le_of_lt hlt)).trans ?_)
  rw [hnone]
  rfl

theorem bpwWriteOp_indexWide {index : Nat} (hr : ready .bpw s)
    (hwide : 2 ^ s.bpw.geom.planeCount ≤ index) :
    bpwWriteOp index s = .error .faulted (withFault .bpw (raisedReg .indexWide index) s) :=
  (enter_bind hr).trans (raiseIf_bind_true hwide)

/-! ### One pixel -/

theorem encodeSize_eq (f : PlaneFormat) (hw16 : w % 16 = 0) (h p : Nat) :
    encodeSize w h p = presetLineBytes f w * h * p := by
  have hline : w / 8 = presetLineBytes f w := by
    cases f <;> simp only [presetLineBytes, ceilDiv] <;> omega
  rw [encodeSize, hline]

/-- A width of whole words needs no padding. -/
theorem eight_mul_presetLineBytes (f : PlaneFormat) (hw16 : w % 16 = 0) : 8 * presetLineBytes f w = w := by
  cases f <;> simp only [presetLineBytes, ceilDiv] <;> omega

section
variable (hw : 0 < w) (hw16 : w % 16 = 0) (hh : 0 < h)
include hw hw16 hh

theorem planeOffset_lt_encodeSize (hn : n < w * h) (hi : i < p) :
    planeOffset (presetGeometry f w h p) (stepCursorN (presetGeometry f w h p) n Cursor.zero) i <
      encodeSize w h p := by
  rw [encodeSize_eq f hw16]
  exact planeEof_eq_false_iff.mp (passFits_preset f hw hh p n
    (by rwa [eight_mul_presetLineBytes f hw16])) i (by rwa [preset_planeCount])

variable (hp : 0 < p) (h8 : p ≤ Config.planesMax) (hbx : b ≠ x)
  (hb : encodeSize w h p ≤ (bufAt s.mem b).len) (hx : 4 * w * h ≤ (bufAt s.mem x).len)

omit hw hw16 hh in
include hbx hx in
theorem Encoding.pixelRead (hE : Encoding s x slot w h p f b index n t) (hn : n < w * h)
    (hsome : findColour (viewOf (slotAt s slot)) (pixelAt s.mem (wholeBuf s.mem x) n) 0
      (viewOf (slotAt s slot)).count = some j) :
    seqCall .pxr pxrReadOp t = .ok j { t with pxr := { t.pxr with pos := n + 1 } } := by
  have hpos : 4 * t.pxr.pos + 4 ≤ (refOf t.pxr.buf).len := by
    rw [hE.pxr]
    show 4 * n + 4 ≤ (bufAt s.mem x).len
    rw [Nat.mul_assoc] at hx
    omega
  have hread := pxrReadOp_ok (j := j) hE.readyPxr hpos (by rw [hE.readerPixel hbx, hE.pxr]; exact hsome)
  rw [show t.pxr.pos = n by rw [hE.pxr]] at hread
  exact seqCall_ok hread

include hb in
/-- `BPW.WRITE` of a pixel's index (R183). -/
theorem Encoding.pixelWrite (hE : Encoding s x slot w h p f b index n t) (hn : n < w * h)
    (hlt : index n < 2 ^ p) :
    let g := presetGeometry f w h p
    let c := stepCursorN g n Cursor.zero
    bpwWriteOp (index n) { t with pxr := { t.pxr with pos := n + 1 } } = .ok .unit
      { overwrite .bpw (planesWritten (wholeBuf s.mem b) g c (index n))
          { t with pxr := { t.pxr with pos := n + 1 } } with
        mem := orPlanes t.mem (wholeBuf s.mem b) g c (index n) p
        bpw := { t.bpw with cur := stepCursorN g (n + 1) Cursor.zero } } := by
  have hwrite := bpwWriteOp_ok (s := { t with pxr := { t.pxr with pos := n + 1 } }) (index := index n)
    hE.readyBpw (by rw [hE.bpw, preset_planeCount]; exact hlt)
    (by rw [hE.bpw, preset_planeCount]
        exact fun i hi => (planeOffset_lt_encodeSize hw hw16 hh hn hi).trans_le hb)
  simp only [hE.bpw, preset_planeCount] at hwrite ⊢
  rw [stepCursorN_succ]
  exact hwrite

include hbx hb in
/-- What the write leaves is the next pixel's state. -/
theorem Encoding.next (hE : Encoding s x slot w h p f b index n t) (hn : n < w * h) :
    let g := presetGeometry f w h p
    let c := stepCursorN g n Cursor.zero
    Encoding s x slot w h p f b index (n + 1)
      { overwrite .bpw (planesWritten (wholeBuf s.mem b) g c (index n))
          { t with pxr := { t.pxr with pos := n + 1 } } with
        mem := orPlanes t.mem (wholeBuf s.mem b) g c (index n) p
        bpw := { t.bpw with cur := stepCursorN g (n + 1) Cursor.zero } } := by
  intro g c
  have hoff {i : Nat} (hi : i < p) : planeOffset g c i < encodeSize w h p :=
    planeOffset_lt_encodeSize hw hw16 hh hn hi
  have hws : ∀ id a, covered (planesWritten (wholeBuf s.mem b) g c (index n)) id a →
      id = b ∧ a < encodeSize w h p := by
    rintro id a ⟨r, hr, hid, hlo, hhi⟩
    rw [planesWritten_eq fun i hi => (hoff (by rwa [preset_planeCount] at hi)).trans_le hb] at hr
    obtain ⟨i, hi, rfl⟩ := List.mem_map.mp hr
    have hplane := hoff (by simpa [g] using (List.mem_filter.mp hi).1)
    simp only [wholeBuf] at hid hlo hhi
    exact ⟨hid, by omega⟩
  refine ⟨?shape, ?writes, fun a ha q hq => ?bits⟩
  case shape =>
    have hS := overwrite_encodeStart (f := f) (s := s) (slot := slot) hbx hws
    rw [hE.shape]
    conv_rhs => rw [← hS]
    rfl
  case writes =>
    refine hE.writes.trans ((writes_orPlanes _ _ _ _ _ _).mono ?_)
    rintro id a ⟨hid, i, hi, -, rfl⟩
    exact ⟨hid, by omega, by have := hoff hi; omega⟩
  case bits =>
    have hlen (i : Nat) (hi : i < p) : (wholeBuf s.mem b).base + planeOffset g c i <
        (bufAt t.mem (wholeBuf s.mem b).id).len := by
      rw [hE.writes.len_eq]
      have := hoff hi
      simp only [wholeBuf]
      omega
    have hbit : c.bit = n % 8 := congrArg Cursor.bit
      (stepCursorN_zero (preset_bytesPerBlock_pos hw hh) (preset_blocksPerLine_pos hw) n)
    have hinked : inked g p index (n + 1) a q ↔ inked g p index n a q ∨
        q = 7 - n % 8 ∧ ∃ i < p, (index n).testBit i = true ∧ a = planeOffset g c i := by
      simp only [inked, Nat.exists_lt_succ_right]
      refine or_congr_right ⟨?_, ?_⟩
      · rintro ⟨i, hi, rfl, hq, htest⟩
        exact ⟨hq, i, hi, htest, rfl⟩
      · rintro ⟨hq, i, hi, htest, rfl⟩
        exact ⟨i, hi, rfl, hq, htest⟩
    have hmask : (if b = (wholeBuf s.mem b).id ∧ ∃ i < p, (index n).testBit i = true ∧
        a = (wholeBuf s.mem b).base + planeOffset g c i then (0x80 : Byte) >>> c.bit else 0).getLsbD q =
          true ↔ q = 7 - n % 8 ∧ ∃ i < p, (index n).testBit i = true ∧ a = planeOffset g c i := by
      simp only [wholeBuf, true_and, Nat.zero_add, hbit]
      split
      · next hplane =>
        rw [getLsbD_mask (Nat.mod_lt n (Nat.succ_pos 7)) hq, and_iff_left hplane]
      · next hplane =>
        simp [hplane]
    show (byteAt (orPlanes t.mem (wholeBuf s.mem b) g c (index n) p) b a).getLsbD q = true ↔ _
    rw [byteAt_orPlanes hlen, BitVec.getLsbD_or, Bool.or_eq_true, hE.bits a ha q hq, hmask, hinked]

include hbx hb hx in
theorem Encoding.pixel (hE : Encoding s x slot w h p f b index n t) (hn : n < w * h)
    (hsome : findColour (viewOf (slotAt s slot)) (pixelAt s.mem (wholeBuf s.mem x) n) 0
      (viewOf (slotAt s slot)).count = some (index n)) (hlt : index n < 2 ^ p) :
    ∃ u, encodePixel t = .ok () u ∧ Encoding s x slot w h p f b index (n + 1) u :=
  ⟨_, (bind_ok (hE.pixelRead hbx hx hn hsome)).trans
    (bind_ok (seqCall_ok (hE.pixelWrite hw hw16 hh hb hn hlt))), hE.next hw hw16 hh hbx hb hn⟩

end

end Sys2Proof.Machine
end

section
/-! `SEQ.ENCODE` as a whole (R313): its two faults, what the pass leaves, O53; and the round trip of the
generic codec (R315), O54. -/

namespace Sys2Proof.Machine

variable {s t : State} {n k i j a q w h p slot b x : Nat} {f : PlaneFormat} {index : Nat → Nat}
  {p? : Option Nat}

/-! ### A pixel that stops the pass -/

/-- The fault of a unit that SEQ uses, copied (R314). -/
def copiedFault (u : UnitId) (reg : FaultReg) (t : State) : State :=
  seqFaulted (withFault .seq reg (withFault u reg t))

theorem copiedFault_seq (u : UnitId) (reg : FaultReg) (t : State) :
    (copiedFault u reg t).seq = { t.seq with state := .faulted, fault := reg } := by cases u <;> rfl

@[simp] theorem faultOf_copiedFault (u : UnitId) (reg : FaultReg) (t : State) :
    faultOf u (copiedFault u reg t) = reg := by cases u <;> rfl

@[simp] theorem copiedFault_mem (u : UnitId) (reg : FaultReg) (t : State) :
    (copiedFault u reg t).mem = t.mem := by cases u <;> rfl

@[simp] theorem faultOf_spoil (u v : UnitId) (r : BufRef) (off n : Nat) (t : State) :
    faultOf u (spoil v r off n t) = faultOf u t := by cases u <;> rfl

theorem Encoding.pixel_colour (hbx : b ≠ x) (hx : 4 * w * h ≤ (bufAt s.mem x).len)
    (hE : Encoding s x slot w h p f b index n t) (hn : n < w * h)
    (hnone : findColour (viewOf (slotAt s slot)) (pixelAt s.mem (wholeBuf s.mem x) n) 0
      (viewOf (slotAt s slot)).count = none) :
    encodePixel t = .error .faulted (copiedFault .pxr
      (raisedReg .colour (pixelAt s.mem (wholeBuf s.mem x) n).toNat) t) := by
  have hpos : 4 * t.pxr.pos + 4 ≤ (refOf t.pxr.buf).len := by
    rw [hE.pxr]
    show 4 * n + 4 ≤ (bufAt s.mem x).len
    rw [Nat.mul_assoc] at hx
    omega
  have hread := pxrReadOp_colour hE.readyPxr hpos (by rw [hE.readerPixel hbx, hE.pxr]; exact hnone)
  rw [hE.readerPixel hbx] at hread
  exact bind_error (seqCall_faulted hread)

theorem Encoding.pixel_wide (hbx : b ≠ x) (hx : 4 * w * h ≤ (bufAt s.mem x).len)
    (hE : Encoding s x slot w h p f b index n t) (hn : n < w * h)
    (hsome : findColour (viewOf (slotAt s slot)) (pixelAt s.mem (wholeBuf s.mem x) n) 0
      (viewOf (slotAt s slot)).count = some j) (hwide : 2 ^ p ≤ j) :
    encodePixel t = .error .faulted (copiedFault .bpw (raisedReg .indexWide j)
      { t with pxr := { t.pxr with pos := n + 1 } }) := by
  have hwrite := bpwWriteOp_indexWide (s := { t with pxr := { t.pxr with pos := n + 1 } })
    (index := j) hE.readyBpw (by rw [hE.bpw, preset_planeCount]; exact hwide)
  exact (bind_ok (hE.pixelRead hbx hx hn hsome)).trans (bind_error (seqCall_faulted hwrite))

/-! ### The pass -/

section
variable (hmem : memoryOk s) (hw : 0 < w) (hw16 : w % 16 = 0) (hh : 0 < h) (hp : 0 < p)
  (h8 : p ≤ Config.planesMax) (hslot : readableSlot s slot) (hq : PlaneCount s slot p? p)
  (hb : encodeSize w h p ≤ (bufAt s.mem b).len) (hx : 4 * w * h ≤ (bufAt s.mem x).len)

include hw16 hp h8 hq hb hx in
theorem encodeChecks_ok : encodeChecks (wholeBuf s.mem x) slot w h p? (wholeBuf s.mem b)
    (clearedFault .seq s) = .ok p (clearedFault .seq s) :=
  (encodeChecks_run (s := clearedFault .seq s) hq).trans ((raiseIf_bind_false (by omega)).trans
    ((raiseIf_bind_false (not_not.mpr hw16)).trans ((raiseIf_bind_false (Nat.not_lt.mpr hb)).trans
      (raiseIf_bind_false (Nat.not_lt.mpr hx)))))

include hslot in
theorem pixelsInit_run : seqCall .pxr (pxrInitOp (wholeBuf s.mem x) slot)
    (clearRange (wholeBuf s.mem b) (encodeSize w h p) (clearedFault .seq s)) = .ok .unit
      (pixelsStart (wholeBuf s.mem x) (viewOf (slotAt s slot))
        (clearRange (wholeBuf s.mem b) (encodeSize w h p) (clearedFault .seq s))) :=
  seqCall_ok (pxrInitOp_ok (s := clearRange (wholeBuf s.mem b) (encodeSize w h p)
    (clearedFault .seq s)) hslot)

include hmem hw hh hp h8 hb hx

theorem planesInit_run : seqCall .bpw (bpwInitOp (wholeBuf s.mem b) (presetGeometry f w h p))
    (pixelsStart (wholeBuf s.mem x) (viewOf (slotAt s slot))
      (clearRange (wholeBuf s.mem b) (encodeSize w h p) (clearedFault .seq s))) =
    .ok .unit (encodeStart s x slot w h p f b) := by
  rw [← encodeStart_eq hb]
  exact seqCall_ok (bpwInitOp_ok (presetGeometry_ok f hw hh hp h8)
    (presetGeometry_fits f hw hh h8 (hx.trans_lt (bufAt_len_lt hmem x))) _)

include hw16 hslot hq

theorem seqEncode_of_loop {u : State}
    (hloop : times encodePixel (w * h) (encodeStart s x slot w h p f b) = .ok () u) :
    exec (.seqEncode x slot w h p? f b) s = completes .unit
      { unbind .pxr (unbind .bpw u) with seq := { u.seq with state := .done } } := by
  have hpass : encodePass (wholeBuf s.mem x) slot w h p f (wholeBuf s.mem b) (clearedFault .seq s) =
      .ok () { unbind .pxr (unbind .bpw u) with seq := { u.seq with state := .done } } :=
    onStop_ok ((bind_ok (pixelsInit_run hslot)).trans (bind_ok (endPass_ok
      ((bind_ok (planesInit_run hmem hw hh hp h8 hb hx)).trans (endPass_ok hloop)))))
  exact runOp_ok ((bind_ok (clearFault_run .seq s)).trans
    ((bind_ok (encodeChecks_ok hw16 hp h8 hq hb hx)).trans (bind_ok hpass)))

/-- A pass that stops leaves the planes unspecified (R383). -/
theorem seqEncode_of_stop {u : State}
    (hloop : times encodePixel (w * h) (encodeStart s x slot w h p f b) = .error .faulted u) :
    exec (.seqEncode x slot w h p? f b) s = .next
      { spoil .seq (wholeBuf s.mem b) 0 (encodeSize w h p) (unbind .pxr (unbind .bpw u)) with
        reply := .faulted } := by
  have hpass : encodePass (wholeBuf s.mem x) slot w h p f (wholeBuf s.mem b) (clearedFault .seq s) =
      .error .faulted
        (spoil .seq (wholeBuf s.mem b) 0 (encodeSize w h p) (unbind .pxr (unbind .bpw u))) :=
    onStop_error ((bind_ok (pixelsInit_run hslot)).trans (bind_error (endPass_error
      ((bind_ok (planesInit_run hmem hw hh hp h8 hb hx)).trans (endPass_error hloop)))))
  exact runOp_faulted ((bind_ok (clearFault_run .seq s)).trans
    ((bind_ok (encodeChecks_ok hw16 hp h8 hq hb hx)).trans (bind_error hpass)))

/-- The search of each of the first `n` pixels' colours ends at an index of the planes' bits. -/
def Indexed (s : State) (x slot p n : Nat) (index : Nat → Nat) : Prop :=
  ∀ k < n, index k < 2 ^ p ∧ findColour (viewOf (slotAt s slot)) (pixelAt s.mem (wholeBuf s.mem x) k) 0
    (viewOf (slotAt s slot)).count = some (index k)

theorem seqEncode_completes (hbx : b ≠ x) (hI : Indexed s x slot p (w * h) index) :
    ∃ t, exec (.seqEncode x slot w h p? f b) s = completes .unit t ∧
      t = { overwrite .bpw [⟨b, 0, w / 8 * h * p⟩] (claim .bpw (wholeBuf s.mem b) s) with
              mem := t.mem, pxr := t.pxr, bpw := t.bpw,
              seq := { s.seq with state := .done, fault := { s.seq.fault with valid := false } } } ∧
      (∀ a < encodeSize w h p, ∀ q < 8, (byteAt t.mem b a).getLsbD q = true ↔
        inked (presetGeometry f w h p) p index (w * h) a q) ∧
      Writes (inRange (wholeBuf s.mem b) 0 (encodeSize w h p)) s.mem t.mem := by
  obtain ⟨u, hu, hE⟩ := times_ok (x := encodePixel) (Encoding s x slot w h p f b index) (w * h)
    (fun k hk v hv => hv.pixel hw hw16 hh hbx hb hx hk (hI k hk).2 (hI k hk).1) _ (.start hb index)
  refine ⟨_, seqEncode_of_loop hmem hw hw16 hh hp h8 hslot hq hb hx hu, ?_, hE.bits, hE.writes⟩
  rw [hE.shape]
  rfl

/-- The pass stops at pixel `k`, the first one that stops. -/
theorem seqEncode_stops {u : UnitId} {reg : FaultReg} (hbx : b ≠ x) (hk : k < w * h)
    (hI : Indexed s x slot p k index)
    (hstop : ∀ t, Encoding s x slot w h p f b index k t → ∃ v, encodePixel t =
      .error .faulted (copiedFault u reg v) ∧ v.mem = t.mem ∧ v.seq = t.seq) :
    ∃ t, exec (.seqEncode x slot w h p? f b) s = .next t ∧ t.reply = .faulted ∧
      t.seq = { s.seq with state := .faulted, fault := reg } ∧ faultOf u t = reg ∧
      ∀ id a, (id ≠ b ∨ encodeSize w h p ≤ a) → byteAt t.mem id a = byteAt s.mem id a := by
  obtain ⟨v, hv, v', t, rfl, hE, hmem', hseq⟩ := times_error (x := encodePixel) (e := .faulted)
    (E := fun v => ∃ v' t, v = copiedFault u reg v' ∧ Encoding s x slot w h p f b index k t ∧
      v'.mem = t.mem ∧ v'.seq = t.seq)
    (Encoding s x slot w h p f b index) hk
    (fun k hk v hv => hv.pixel hw hw16 hh hbx hb hx (by omega) (hI k hk).2 (hI k hk).1)
    (fun t ht => by
      obtain ⟨v, hv, hm, hq⟩ := hstop t ht
      exact ⟨_, hv, v, t, rfl, ht, hm, hq⟩) _ (.start hb index)
  have hseq' : t.seq = { s.seq with fault := { s.seq.fault with valid := false } } := by
    rw [hE.shape]
    rfl
  refine ⟨_, seqEncode_of_stop hmem hw hw16 hh hp h8 hslot hq hb hx hv, rfl, ?_, ?_, fun id a hout => ?_⟩
  · show (copiedFault u reg v').seq = _
    rw [copiedFault_seq, hseq, hseq']
  · rw [faultOf_reply, faultOf_spoil, faultOf_unbind, faultOf_unbind, faultOf_copiedFault]
  · refine (byteAt_freeRange_outside (by simp only [wholeBuf]; omega)).trans ?_
    show byteAt (unbind .pxr (unbind .bpw (copiedFault u reg v'))).mem id a = _
    rw [unbind_mem, unbind_mem, copiedFault_mem, hmem']
    refine hE.writes.byteAt_eq ?_
    rintro ⟨hid, -, hlt⟩
    simp only [wholeBuf] at hid hlt
    omega

end

/-! ### The colours' indices -/

theorem exists_least {P : Nat → Prop} {n : Nat} (h : ∃ j < n, P j) :
    ∃ j < n, P j ∧ ∀ i < j, ¬ P i := by
  classical
  obtain ⟨j, hj, hP⟩ := h
  have hex : ∃ j, P j := ⟨j, hP⟩
  exact ⟨Nat.find hex, (Nat.find_min' hex hP).trans_lt hj, Nat.find_spec hex,
    fun i hi => Nat.find_min hex hi⟩

/-- An index that the statements' readings of a pixel's colour name (R203). -/
def holdsPixel (m : Mem) (r : BufRef) (l : Lut) (j k : Nat) : Prop :=
  j < l.count ∧ (lutAt l j).set = true ∧ (lutAt l j).val.toNat = beRead m r (4 * k) 4

theorem holdsPixel_iff {m : Mem} {r : BufRef} {l : Lut} :
    holdsPixel m r l j k ↔ j < l.count ∧ holdsColour l (pixelAt m r k) j := by
  rw [holdsPixel, holdsColour, beRead_pixel, BitVec.toNat_inj]

theorem findColour_least {m : Mem} {r : BufRef} {l : Lut} (hj : holdsPixel m r l j k)
    (hleast : ∀ i < j, ¬ holdsPixel m r l i k) :
    findColour l (pixelAt m r k) 0 l.count = some j := by
  obtain ⟨hlt, hold⟩ := holdsPixel_iff.mp hj
  exact findColour_eq_some hlt hold fun i hi hold' =>
    hleast i hi (holdsPixel_iff.mpr ⟨hi.trans hlt, hold'⟩)

theorem findColour_absent {m : Mem} {r : BufRef} {l : Lut} (h : ∀ j, ¬ holdsPixel m r l j k) :
    findColour l (pixelAt m r k) 0 l.count = none :=
  findColour_eq_none fun i hi hold => h i (holdsPixel_iff.mpr ⟨hi, hold⟩)

/-- The index at which a pixel's colour is found. -/
def pixelIndex (s : State) (x slot k : Nat) : Nat :=
  (findColour (viewOf (slotAt s slot)) (pixelAt s.mem (wholeBuf s.mem x) k) 0
    (viewOf (slotAt s slot)).count).getD 0

theorem indexed_of_holds (h : ∀ k < n, ∃ j < 2 ^ p,
    holdsPixel s.mem (wholeBuf s.mem x) (viewOf (slotAt s slot)) j k) :
    Indexed s x slot p n (pixelIndex s x slot) := fun k hk => by
  obtain ⟨j, hj, hold, hleast⟩ := exists_least (h k hk)
  have hfind := findColour_least hold hleast
  rw [pixelIndex, hfind]
  exact ⟨hj, rfl⟩

/-- Among the first pixels of an image each bit of the planes is one pixel's. -/
theorem inked_iff (hw : 0 < w) (hw16 : w % 16 = 0) (hh : 0 < h) (hn : n < w * h) (hi : i < p) :
    let g := presetGeometry f w h p
    inked g p index (w * h) (planeOffset g (stepCursorN g n Cursor.zero) i) (7 - n % 8) ↔
      (index n).testBit i = true := by
  intro g
  have hcolumn {k : Nat} (hk : k < w * h) : k / 8 < presetLineBytes f w * h := by
    refine Nat.div_lt_of_lt_mul ?_
    rwa [← Nat.mul_assoc, eight_mul_presetLineBytes f hw16]
  refine ⟨?_, fun htest => ⟨n, hn, i, hi, rfl, rfl, htest⟩⟩
  rintro ⟨k, hk, i', hi', hoff, hbit, htest⟩
  rw [planeOffset_preset hw hh (hcolumn hk), planeOffset_preset hw hh (hcolumn hn)] at hoff
  obtain ⟨hdiv, rfl⟩ := groupedOffset_inj (preset_bytesPerBlock_pos hw hh) hi' hi hoff
  rwa [show n = k by omega]

/-- Every byte of the planes is some pixel's. -/
theorem exists_planeOffset (hw : 0 < w) (hw16 : w % 16 = 0) (hh : 0 < h)
    (ha : a < encodeSize w h p) : ∃ n < w * h, ∃ i < p, planeOffset (presetGeometry f w h p)
      (stepCursorN (presetGeometry f w h p) n Cursor.zero) i = a := by
  rw [encodeSize_eq f hw16, presetSize_eq_groups] at ha
  obtain ⟨c, hc, i, hi, hoff⟩ := exists_groupedOffset ha
  rw [← presetLineBytes_mul] at hc
  have hn : 8 * c < w * h := by
    rw [← eight_mul_presetLineBytes f hw16 (w := w), Nat.mul_assoc]
    omega
  refine ⟨8 * c, hn, i, hi, ?_⟩
  have hdiv : 8 * c / 8 = c := by omega
  rw [planeOffset_preset hw hh (by omega), hdiv, hoff]

end Sys2Proof.Machine

namespace Sys2Proof.Proofs

open Sys2Proof.Machine

/-- Settles O53: the pixels' bits are the planes' bits, each in its own place. -/
theorem seqEncodeCompletes : Obligations.SeqEncodeCompletes := by
  intro s x slot w h b p? p f hmem hw hw16 hh hp h8 hbx hslot hmade hq hb hx
  have hread : readableSlot s slot := ⟨hslot, hmade⟩
  have hcount : PlaneCount s slot p? p := hq.imp_right fun ⟨hnone, hp, hr⟩ => ⟨hnone, hr, hread, hp⟩
  refine ⟨fun hall => ?image, fun k hk hbefore => ⟨fun habsent => ?colour, fun j hwide hold hleast => ?wide⟩⟩
  case image =>
    obtain ⟨t, hexec, ht, hbits, hwrites⟩ := seqEncode_completes (f := f) hmem hw hw16 hh hp h8 hread hcount
      hb hx hbx (indexed_of_holds hall)
    refine ⟨t, hexec, ht, fun xx hxx yy hyy i hi j hold hleast => ?_,
      fun a ha => exists_planeOffset hw hw16 hh ha, fun id a hout => hwrites.byteAt_eq ?_⟩
    · have hn : yy * w + xx < w * h := (place_lt hxx hyy).trans_eq (Nat.mul_comm h w)
      have hrow : (yy * w + xx) % 8 = xx % 8 := by
        obtain ⟨v, rfl⟩ : ∃ v, w = 8 * v := ⟨w / 8, by omega⟩
        rw [Nat.mul_left_comm, Nat.mul_add_mod]
      have hindex : pixelIndex s x slot (yy * w + xx) = j := by
        rw [pixelIndex, findColour_least hold hleast, Option.getD_some]
      have hiff := (hbits _ (planeOffset_lt_encodeSize (f := f) hw hw16 hh hn hi) (7 - xx % 8)
        (by omega)).trans (hrow ▸ inked_iff hw hw16 hh hn hi)
      rw [hindex] at hiff
      exact Bool.eq_iff_iff.mpr hiff
    · rintro ⟨hid, -, hlt⟩
      simp only [wholeBuf, encodeSize] at hid hlt
      omega
  case colour =>
    have hfind := findColour_absent habsent
    rw [beRead_pixel]
    exact seqEncode_stops (u := .pxr) hmem hw hw16 hh hp h8 hread hcount hb hx hbx hk
      (indexed_of_holds hbefore) fun t ht => ⟨t, ht.pixel_colour hbx hx hk hfind, rfl, rfl⟩
  case wide =>
    have hfind := findColour_least hold hleast
    exact seqEncode_stops (u := .bpw) hmem hw hw16 hh hp h8 hread hcount hb hx hbx hk
      (indexed_of_holds hbefore) fun t ht => ⟨_, ht.pixel_wide hbx hx hk hfind hwide, rfl, rfl⟩

end Sys2Proof.Proofs
end

section
/-! The round trip of the generic codec (R315): the planes that `SEQ.ENCODE` leaves hold the indices of
the pixels, and `SEQ.DECODE` paints the same colours from them; O54. -/

namespace Sys2Proof.Machine

variable {s t : State} {n k i a w h p slot b x : Nat} {f : PlaneFormat} {index : Nat → Nat}

/-- A packed colour determines its channels. -/
theorem packPixel_inj {r g b a r' g' b' a' : Byte} (h : packPixel r g b a = packPixel r' g' b' a') :
    r = r' ∧ g = g' ∧ b = b' ∧ a = a' := by
  have heq := congrArg BitVec.toNat h
  simp only [toNat_packPixel] at heq
  have hg : g.toNat < 256 ∧ g'.toNat < 256 := ⟨g.isLt, g'.isLt⟩
  have hb : b.toNat < 256 ∧ b'.toNat < 256 := ⟨b.isLt, b'.isLt⟩
  have ha : a.toNat < 256 ∧ a'.toNat < 256 := ⟨a.isLt, a'.isLt⟩
  refine ⟨?_, ?_, ?_, ?_⟩
  all_goals
    apply BitVec.eq_of_toNat_eq
    omega

/-- A pixel's colour is its four bytes. -/
theorem refByte_of_pixelAt {m m' : Mem} {r r' : BufRef} (h : pixelAt m r k = pixelAt m' r' k)
    (hi : i < 4) : refByte m r (4 * k + i) = refByte m' r' (4 * k + i) := by
  obtain ⟨h0, h1, h2, h3⟩ := packPixel_inj h
  interval_cases i
  · exact h0
  · exact h1
  · exact h2
  · exact h3

/-- What the search finds is an index of the pixel's colour. -/
theorem pixelIndex_holds
    (h : ∃ j < n, holdsPixel s.mem (wholeBuf s.mem x) (viewOf (slotAt s slot)) j k) :
    holdsPixel s.mem (wholeBuf s.mem x) (viewOf (slotAt s slot)) (pixelIndex s x slot k) k := by
  obtain ⟨j, -, hold, hleast⟩ := exists_least h
  rwa [pixelIndex, findColour_least hold hleast, Option.getD_some]

/-- The planes of inked bits hold the indices. -/
theorem planesIndex_of_inked {m : Mem} {r : BufRef} (hw : 0 < w) (hw16 : w % 16 = 0) (hh : 0 < h)
    (hr : r.base = 0)
    (hbits : ∀ a < encodeSize w h p, ∀ q < 8, (byteAt m r.id a).getLsbD q = true ↔
      inked (presetGeometry f w h p) p index (w * h) a q)
    (hn : n < w * h) (hlt : index n < 2 ^ p) :
    planesIndex m r (presetGeometry f w h p) n = index n := by
  refine planesIndex_eq (by rwa [preset_planeCount]) fun i hi => ?_
  rw [preset_planeCount] at hi
  rw [refByte, hr, Nat.zero_add]
  exact Bool.eq_iff_iff.mpr ((hbits _ (planeOffset_lt_encodeSize hw hw16 hh hn hi) _ (by omega)).trans
    (inked_iff hw hw16 hh hn hi)).symm

end Sys2Proof.Machine

namespace Sys2Proof.Proofs

open Sys2Proof.Machine

/-- Settles O54: the planes of the encode hold the pixels' indices, and a colour's index has it. -/
theorem seqCodecRoundTrip : Obligations.SeqCodecRoundTrip := by
  intro s x slot w h b y p? p f hmem hw hw16 hh hp h8 hbx hby hslot hmade hq hb hx hy lut hall
  have hread : readableSlot s slot := ⟨hslot, hmade⟩
  have hcount : PlaneCount s slot p? p := hq.imp_right fun ⟨hnone, hp, hr⟩ => ⟨hnone, hr, hread, hp⟩
  have hI : Indexed s x slot p (w * h) (pixelIndex s x slot) := indexed_of_holds hall
  obtain ⟨t, henc, ht, hbits, hwrites⟩ := seqEncode_completes (f := f) hmem hw hw16 hh hp h8 hread
    hcount hb hx hbx hI
  have hslots : slotAt t slot = slotAt s slot := by
    rw [ht]
    rfl
  have hplaces (yy xx : Nat) : yy * (8 * presetLineBytes f w) + xx = yy * w + xx := by
    rw [eight_mul_presetLineBytes f hw16]
  have hindex {xx yy : Nat} (hxx : xx < w) (hyy : yy < h) :
      planesIndex t.mem (wholeBuf t.mem b) (presetGeometry f w h p)
        (yy * (8 * presetLineBytes f w) + xx) = pixelIndex s x slot (yy * w + xx) := by
    have hn : yy * w + xx < w * h := (place_lt hxx hyy).trans_eq (Nat.mul_comm h w)
    rw [hplaces]
    exact planesIndex_of_inked hw hw16 hh rfl hbits hn (hI _ hn).1
  have hholds {xx yy : Nat} (hxx : xx < w) (hyy : yy < h) := holdsPixel_iff.mp
    (pixelIndex_holds (hall (yy * w + xx) ((place_lt hxx hyy).trans_eq (Nat.mul_comm h w))))
  obtain ⟨t', hdec, -, hpix, -⟩ := seqDecode_completes (s := t) (b := b) (slot := slot) (p := p)
    (x := y) (f := f) (hwrites.wf hmem) hw hh hp h8 (by rwa [hwrites.len_eq])
    ⟨hslot, by rwa [hslots]⟩ hby (by rw [hwrites.len_eq, ← encodeSize_eq f hw16]; exact hb)
    (fun yy hyy xx hxx => by
      obtain ⟨hlt, hset, -⟩ := hholds hxx hyy
      rw [hindex hxx hyy, hslots]
      exact ⟨hlt, hset⟩)
  refine ⟨t, t', henc, hdec, fun a ha => ?_⟩
  have hk : a / 4 < h * w := Nat.div_lt_of_lt_mul (by rwa [Nat.mul_comm h, ← Nat.mul_assoc])
  obtain ⟨xx, yy, hxx, hyy, hplace⟩ : ∃ xx yy, xx < w ∧ yy < h ∧ a / 4 = yy * w + xx :=
    ⟨a / 4 % w, a / 4 / w, Nat.mod_lt _ hw, Nat.div_lt_of_lt_mul (by rwa [Nat.mul_comm]),
      (Nat.div_add_mod' _ _).symm⟩
  have hpixel : pixelAt t'.mem (wholeBuf t.mem y) (a / 4) = pixelAt s.mem (wholeBuf s.mem x) (a / 4) := by
    obtain ⟨-, -, hval⟩ := hholds hxx hyy
    rw [hplace, hpix xx hxx yy hyy, hindex hxx hyy, hslots, hval]
  have hbyte := refByte_of_pixelAt hpixel (Nat.mod_lt a (Nat.succ_pos 3))
  simpa [refByte, wholeBuf, Nat.div_add_mod] using hbyte

end Sys2Proof.Proofs
end

section
/-! The image of `SEQ.ASSEMBLE` (R320, R321, R326): the container's geometries, the start of its two
units with the active palette, and plain pixels. -/

namespace Sys2Proof.Machine

variable {s t u : State} {n k i y w h p lb sa : Nat} {r rx : BufRef} {g : Geometry} {hd : Hdr}
  {layout : BodyLayout} {line : Nat → Lut}

/-! ### The container's geometries -/

/-- The preset whose bytes a body's layout implies. -/
def layoutFormat (layout : BodyLayout) : PlaneFormat :=
  match layout with
  | .line => .line
  | .contig => .contiguous

/-- A container's geometry is the preset's of lines of whole bytes (R326). -/
theorem containerGeometry_eq (layout : BodyLayout) (lb h p : Nat) :
    containerGeometry layout lb h p = presetGeometry (layoutFormat layout) (8 * lb) h p := by
  have hline : ceilDiv (8 * lb) 8 = lb := by
    rw [ceilDiv]
    omega
  cases layout <;> simp only [containerGeometry, presetGeometry, layoutFormat, hline]

theorem presetLineBytes_layout (layout : BodyLayout) (lb : Nat) :
    presetLineBytes (layoutFormat layout) (8 * lb) = lb := by
  cases layout <;> simp only [presetLineBytes, layoutFormat, ceilDiv] <;> omega

@[simp] theorem container_planeCount (layout : BodyLayout) (lb h p : Nat) :
    (containerGeometry layout lb h p).planeCount = p := by cases layout <;> rfl

theorem containerGeometry_ok (layout : BodyLayout) (hl : 0 < lb) (hh : 0 < h) (hp : 0 < p)
    (h8 : p ≤ Config.planesMax) : geometryOk (containerGeometry layout lb h p) = true := by
  rw [containerGeometry_eq]
  exact presetGeometry_ok _ (Nat.mul_pos (Nat.succ_pos 7) hl) hh hp h8

/-- A header's 16-bit sizes keep the geometry inside the registers (R23, R105). -/
theorem containerGeometry_fits (layout : BodyLayout) (hl : lb ≤ 2 ^ 13) (hh : h < 2 ^ 16)
    (h8 : p ≤ Config.planesMax) : geometryFits (containerGeometry layout lb h p) := by
  have hplane : lb * h ≤ 2 ^ 13 * 2 ^ 16 := Nat.mul_le_mul hl hh.le
  have hrow : lb * p ≤ 2 ^ 13 * 8 := Nat.mul_le_mul hl h8
  simp only [Config.planesMax] at h8
  cases layout <;> simp only [geometryFits, containerGeometry, Config.bufLimit] <;> omega

/-- A body of the image's size holds every column. -/
theorem container_planeEof (layout : BodyLayout) (hl : 0 < lb) (hh : 0 < h) {len : Nat}
    (hlen : lb * p * h ≤ len) (hn : n < h * (8 * lb)) :
    planeEof (containerGeometry layout lb h p)
      (stepCursorN (containerGeometry layout lb h p) n Cursor.zero) len = false := by
  have hpass := passFits_preset (layoutFormat layout) (Nat.mul_pos (Nat.succ_pos 7) hl) hh p n
  rw [presetLineBytes_layout, ← containerGeometry_eq] at hpass
  refine planeEof_eq_false_iff.mpr fun i hi => ?_
  have hin := planeEof_eq_false_iff.mp (hpass (by rwa [Nat.mul_comm h] at hn)) i hi
  rw [Nat.mul_right_comm] at hlen
  omega

/-! ### The active palette -/

/-- The active palette (R320). -/
def activePalette (s : State) : Slot :=
  if modeEhb s.seq.mode then ehbPalette (slotAt s 0) else slotAt s 0

/-- The active slot. -/
def activeIndex (s : State) : Nat := if modeEhb s.seq.mode then 1 else 0

/-- Extra-Half-Brite writes its palette into slot 1. -/
def activated (s : State) : State :=
  if modeEhb s.seq.mode then setSlot 1 (ehbPalette (slotAt s 0)) s else s

/-- The active palette can be made. -/
def PaletteReady (s : State) : Prop :=
  if modeEhb s.seq.mode then ready .pal s ∧ (slotAt s 0).made = true ∧ setBelow (slotAt s 0) 32
  else (slotAt s 0).made = true

theorem activeSlot_run (h : PaletteReady s) :
    activeSlot (readerStart r g s) = .ok (activeIndex s) (readerStart r g (activated s)) := by
  unfold activeSlot activeIndex activated
  unfold PaletteReady at h
  split at h
  · next hehb =>
    obtain ⟨hr, hmade, hset⟩ := h
    have hready : ready .pal (readerStart r g s) := hr
    have hread : readableSlot (readerStart r g s) 0 := ⟨by decide, hmade⟩
    have hrun : palEhbOp 1 0 (readerStart r g s) = .ok .unit
        (setSlot 1 (ehbPalette (slotAt s 0)) (readerStart r g s)) :=
      (palEhbOp_run hready (by decide) hread).trans
        ((raiseIf_bind_false (Nat.not_lt.mpr hset.1)).trans (raiseUnset_bind hset.2))
    rw [get_bind]
    have hehb' : modeEhb (readerStart r g s).seq.mode = true := hehb
    rw [if_pos hehb', if_pos hehb, if_pos hehb, bind_ok (seqCall_ok hrun)]
    rfl
  · next hehb =>
    have hehb' : ¬ modeEhb (readerStart r g s).seq.mode = true := hehb
    rw [get_bind, if_neg hehb', if_neg hehb, if_neg hehb]
    rfl

theorem slotAt_activated (s : State) (slot : Nat) : slotAt (activated s) slot =
    if modeEhb s.seq.mode = true ∧ slot = 1 then activePalette s else slotAt s slot := by
  unfold activated activePalette
  split
  · next hehb => simp only [slotAt_setSlot, hehb, true_and]
  · next hehb => simp [hehb]

theorem slotAt_activeIndex (s : State) : slotAt (activated s) (activeIndex s) = activePalette s := by
  rw [slotAt_activated]
  unfold activeIndex activePalette
  split <;> simp_all

theorem readable_activeIndex (h : PaletteReady s) : readableSlot (activated s) (activeIndex s) := by
  refine ⟨by unfold activeIndex; split <;> decide, ?_⟩
  rw [slotAt_activeIndex]
  unfold activePalette
  unfold PaletteReady at h
  split at h
  · next hehb =>
    rw [if_pos hehb]
    rfl
  · next hehb => rwa [if_neg hehb]

/-! ### The start -/

/-- Where the reader and the pixel writer start in `SEQ.ASSEMBLE`. -/
def imageStart (s : State) (r : BufRef) (g : Geometry) (rx : BufRef) : State :=
  writerStart rx (viewOf (activePalette s)) (readerStart r g (activated s))

theorem easel_imageStart (hg : geometryOk g = true) (hapart : r.id ≠ rx.id) (hx : refOk s.mem rx) :
    Easel (imageStart s r g rx) := by
  have hmem : (activated s).mem = s.mem := by
    unfold activated
    split <;> rfl
  exact easel_start hg hapart (hmem ▸ hx) _

/-- The part of `SEQ.ASSEMBLE` from the dispatch on (R321). -/
def imagePixels (hd : Hdr) (sa : Nat) : Op Unit := do
  let s ← get
  if modeHam s.seq.mode then do
    let _ ← seqCall .ham (hamInitOp hd.planes.toNat sa)
  assemblePixels hd

section
variable (hok : geometryOk g = true) (hfits : geometryFits g)
include hok hfits

theorem assembleImage_of_pixels (hpal : PaletteReady s)
    (hpix : imagePixels hd (activeIndex s) (imageStart s r g rx) = .ok () u) :
    assembleImage rx (r, g) hd s = .ok () (unbind .bpr (unbind .pxw u)) := by
  have hwriter : pxwInitOp rx (activeIndex s) (readerStart r g (activated s)) =
      .ok .unit (imageStart s r g rx) := by
    rw [imageStart, ← slotAt_activeIndex]
    exact pxwInitOp_ok (s := readerStart r g (activated s)) (readable_activeIndex hpal)
  exact (bind_ok (seqCall_ok (bprInitOp_ok hok hfits s))).trans
    (endPass_ok ((bind_ok (activeSlot_run hpal)).trans
      ((bind_ok (seqCall_ok hwriter)).trans (endPass_ok hpix))))

theorem assembleImage_of_stop (hpal : PaletteReady s)
    (hpix : imagePixels hd (activeIndex s) (imageStart s r g rx) = .error .faulted u) :
    assembleImage rx (r, g) hd s = .error .faulted (unbind .bpr (unbind .pxw u)) := by
  have hwriter : pxwInitOp rx (activeIndex s) (readerStart r g (activated s)) =
      .ok .unit (imageStart s r g rx) := by
    rw [imageStart, ← slotAt_activeIndex]
    exact pxwInitOp_ok (s := readerStart r g (activated s)) (readable_activeIndex hpal)
  exact (bind_ok (seqCall_ok (bprInitOp_ok hok hfits s))).trans
    (endPass_error ((bind_ok (activeSlot_run hpal)).trans
      ((bind_ok (seqCall_ok hwriter)).trans (endPass_error hpix))))

theorem assembleImage_noPalette (hact : activeSlot (readerStart r g s) = .error .faulted u) :
    assembleImage rx (r, g) hd s = .error .faulted (unbind .bpr u) :=
  (bind_ok (seqCall_ok (bprInitOp_ok hok hfits s))).trans (endPass_error (bind_error hact))

end

/-! ### Plain pixels -/

/-- RPA's registers set for the dispatch, if it holds raster palettes (R321). -/
def rastered (c : Consumer) (h : Nat) (s : State) : State :=
  if rasterPresent s.rpa then { s with rpa := { s.rpa with consumer := c, height := h } } else s

/-- The padding of a line, as SEQ skips it without Hold-and-Modify. -/
def skipPadding (pad : Nat) : Op Unit := do
  let _ ← seqCall .bpr (bprAdvOp pad)

theorem imagePixels_plain (hham : modeHam s.seq.mode = false) (sa : Nat) :
    imagePixels hd sa s = paintLines (rasterPresent s.rpa) decodePixel
      (skipPadding (padPixels hd.bytesPerLine hd.width.toNat)) hd.width.toNat hd.height.toNat
      (rastered .pxw hd.height.toNat s) := by
  have hham' : ¬ modeHam s.seq.mode = true := by simp [hham]
  have hstart : imagePixels hd sa s = assemblePixels hd s := congrFun (if_neg hham') s
  have hdispatch : assemblePixels hd s =
      (if rasterPresent s.rpa then do
          setRaster .pxw hd.height.toNat
          paintLines true decodePixel (skipPadding (padPixels hd.bytesPerLine hd.width.toNat))
            hd.width.toNat hd.height.toNat
        else paintLines false decodePixel (skipPadding (padPixels hd.bytesPerLine hd.width.toNat))
          hd.width.toNat hd.height.toNat : Op Unit) s := congrFun (if_neg hham') s
  rw [hstart, hdispatch]
  unfold rastered
  cases rasterPresent s.rpa <;> rfl

/-- The table of a line (R297, R321). -/
def lineTable (s : State) (h : Nat) (plain : Lut) (y : Nat) : Lut :=
  if rasterPresent s.rpa then sget Lut.empty s.rpa.ras (rasterIndex s.rpa.count h y) else plain

/-- The lines of plain pixels of a container's image. -/
theorem Easel.imagePlain (hs : Easel s) (hham : modeHam s.seq.mode = false) (sa : Nat)
    (hw : hd.width.toNat ≤ 8 * hd.bytesPerLine)
    (hf : ∀ n < hd.height.toNat * (8 * hd.bytesPerLine), columnFits s n)
    (hroom : 4 * (hd.height.toNat * hd.width.toNat) ≤ (refOf s.pxw.buf).len)
    (hrpa : rasterPresent s.rpa = true → s.rpa.fault.valid = false)
    (hhas : ∀ y < hd.height.toNat, ∀ x < hd.width.toNat,
      lutHas (lineTable s hd.height.toNat s.pxw.lut y) (lineIndex s (8 * hd.bytesPerLine) x y)) :
    ∃ u, imagePixels hd sa s = .ok () u ∧ ∃ l,
      Painting (rastered .pxw hd.height.toNat s) (imageColour (plainColour s
        (lineTable s hd.height.toNat s.pxw.lut) (8 * hd.bytesPerLine)) hd.width.toNat)
        (hd.height.toNat * (8 * hd.bytesPerLine)) (hd.height.toNat * hd.width.toNat) l s.ham u := by
  have hstride : hd.width.toNat + padPixels hd.bytesPerLine hd.width.toNat = 8 * hd.bytesPerLine :=
    Nat.add_sub_of_le hw
  rw [imagePixels_plain hham, ← hstride]
  rw [← hstride] at hf hhas
  unfold rastered
  cases hr : rasterPresent s.rpa with
  | false =>
    exact hs.paintPlain hf hroom hhas (fun _ y _ => by simp [lineTable, hr]) nofun
  | true =>
    have hs' : Easel { s with rpa := { s.rpa with consumer := .pxw, height := hd.height.toNat } } :=
      ⟨hs.reader, hs.geometry, hs.start, hs.writer, hs.top, hs.apart, hs.inside⟩
    have hready := hr
    rw [rasterPresent, Bool.and_eq_true, decide_eq_true_iff] at hready
    exact hs'.paintPlain hf hroom hhas nofun fun _ => ⟨⟨hrpa hr, hready.1, rfl⟩, hready.2, rfl, rfl,
      fun y _ => by simp [lineTable, hr]⟩

end Sys2Proof.Machine
end

section
/-! `SEQ.ASSEMBLE` of a raw, plain indexed body (R321, R326, R328, R329); O56. -/

namespace Sys2Proof.Machine

variable {s t u : State} {n k i y w h p lb sa c work x : Nat} {r rc rw rx : BufRef} {g : Geometry}
  {hd : Hdr} {layout : BodyLayout} {line : Nat → Lut}

/-- A header of an image that a container can hold (R34, R318). -/
structure GoodHeader (hd : Hdr) : Prop where
  width : 0 < hd.width.toNat
  height : 0 < hd.height.toNat
  planes : 0 < hd.planes.toNat
  most : hd.planes.toNat ≤ Config.planesMax
  line : hd.bytesPerLine = (hd.width.toNat + 15) / 16 * 2

/-- The geometry of a header's planes in a layout (R326). -/
def hdrGeometry (layout : BodyLayout) (hd : Hdr) : Geometry :=
  containerGeometry layout hd.bytesPerLine hd.height.toNat hd.planes.toNat

/-- The bytes of a header's planes. -/
def hdrBytes (hd : Hdr) : Nat := hd.bytesPerLine * hd.planes.toNat * hd.height.toNat

namespace GoodHeader

variable (hg : GoodHeader hd)
include hg

theorem line_pos : 0 < hd.bytesPerLine := by
  have := hg.width
  rw [hg.line]
  omega

theorem width_le : hd.width.toNat ≤ 8 * hd.bytesPerLine := by
  rw [hg.line]
  omega

theorem geometryOk (layout : BodyLayout) : geometryOk (hdrGeometry layout hd) = true :=
  containerGeometry_ok layout hg.line_pos hg.height hg.planes hg.most

theorem geometryFits (layout : BodyLayout) : geometryFits (hdrGeometry layout hd) := by
  have hwidth := hd.width.isLt
  exact containerGeometry_fits layout (by rw [hg.line]; omega) hd.height.isLt hg.most

end GoodHeader

/-! ### Plain pixels from one palette -/

theorem closeContainer_eq (r : BufRef) (s : State) : closeContainer r s =
    { s with ckr := { s.ckr with src := if s.ckr.src = some r then none else s.ckr.src } } := by
  unfold closeContainer
  split <;> rfl

@[simp] theorem closeContainer_mem (r : BufRef) (s : State) : (closeContainer r s).mem = s.mem := by
  rw [closeContainer_eq]

theorem imageStart_plain (hehb : modeEhb s.seq.mode = false) : imageStart s r g rx =
    writerStart rx (viewOf (slotAt s 0)) (readerStart r g s) := by
  simp only [imageStart, activePalette, activated, hehb, Bool.false_eq_true, if_false]

section
variable (s r g rx)

theorem imageStart_seq : (imageStart s r g rx).seq = s.seq := by
  unfold imageStart activated
  split <;> rfl

theorem imageStart_rpa : (imageStart s r g rx).rpa = s.rpa := by
  unfold imageStart activated
  split <;> rfl

theorem imageStart_mem : (imageStart s r g rx).mem = s.mem := by
  unfold imageStart activated
  split <;> rfl

theorem imageStart_bpr : (imageStart s r g rx).bpr = (readerStart r g s).bpr := by
  unfold imageStart activated
  split <;> rfl

theorem imageStart_lut : (imageStart s r g rx).pxw.lut = viewOf (activePalette s) := rfl

end

/-- The index that is read at a pixel of the image. -/
theorem lineIndex_imageStart (lb xx yy : Nat) : lineIndex (imageStart s r g rx) (8 * lb) xx yy =
    indexAt s.mem r g lb xx yy g.planeCount := by
  rw [lineIndex, imageStart_mem, imageStart_bpr]
  exact planesIndex_eq_indexAt _ _ _ _ _ _

/-- The index is the one whose bits are the planes' bits. -/
theorem indexAt_eq {m : Mem} {index xx yy : Nat} (hcount : g.planeCount = p) (hlt : index < 2 ^ p)
    (h : ∀ i < p, index.testBit i = (refByte m r (planeOffset g
      (stepCursorN g (yy * (8 * lb) + xx) Cursor.zero) i)).getLsbD (7 - xx % 8)) :
    indexAt m r g lb xx yy p = index := by
  subst hcount
  have hbit : (yy * (8 * lb) + xx) % 8 = xx % 8 := by rw [Nat.mul_left_comm, Nat.mul_add_mod]
  rw [← planesIndex_eq_indexAt]
  exact planesIndex_eq hlt fun i hi => by rw [hbit, h i hi]

theorem indexAt_lt (m : Mem) (r : BufRef) (g : Geometry) (lb xx yy : Nat) :
    indexAt m r g lb xx yy g.planeCount < 2 ^ g.planeCount := by
  rw [← planesIndex_eq_indexAt]
  exact planesIndex_lt _ _ _ _

/-- A body of the image's size: every column is inside. -/
theorem columnFits_imageStart (hg : GoodHeader hd) (hr : hdrBytes hd ≤ r.len)
    (hn : n < hd.height.toNat * (8 * hd.bytesPerLine)) :
    columnFits (imageStart s r (hdrGeometry layout hd) rx) n := by
  rw [columnFits, imageStart_bpr]
  exact container_planeEof layout hg.line_pos hg.height hr hn

theorem size_comm (hd : Hdr) : 4 * (hd.height.toNat * hd.width.toNat) = containerPixelBytes hd := by
  rw [containerPixelBytes, Nat.mul_assoc, Nat.mul_comm hd.width.toNat]

/-- Plain pixels by slot 0, without raster palettes: the image and what else changes. -/
theorem assembleImage_plain (hg : GoodHeader hd) (hehb : modeEhb s.seq.mode = false)
    (hham : modeHam s.seq.mode = false) (hraster : rasterPresent s.rpa = false)
    (hr : hdrBytes hd ≤ r.len) (hapart : r.id ≠ rx.id) (hin : refOk s.mem rx)
    (hx : containerPixelBytes hd ≤ rx.len) (hmade : (slotAt s 0).made = true)
    (hset : setBelow (slotAt s 0) (2 ^ hd.planes.toNat)) :
    ∃ u, assembleImage rx (r, hdrGeometry layout hd) hd s = .ok () u ∧
      u = { overwrite .pxw [⟨rx.id, rx.base, containerPixelBytes hd⟩] (claim .pxw rx s) with
              mem := u.mem, bpr := u.bpr, pxw := u.pxw } ∧
      (∀ xx < hd.width.toNat, ∀ yy < hd.height.toNat,
        pixelAt u.mem rx (yy * hd.width.toNat + xx) = (lutAt (viewOf (slotAt s 0))
          (indexAt s.mem r (hdrGeometry layout hd) hd.bytesPerLine xx yy hd.planes.toNat)).val) ∧
      Writes (inRange rx 0 (containerPixelBytes hd)) s.mem u.mem := by
  have hpal : PaletteReady s := by
    unfold PaletteReady
    rw [if_neg (by simp [hehb])]
    exact hmade
  have hactive : activePalette s = slotAt s 0 := by simp [activePalette, hehb]
  have hcount : (hdrGeometry layout hd).planeCount = hd.planes.toNat := container_planeCount _ _ _ _
  have hs : Easel (imageStart s r (hdrGeometry layout hd) rx) :=
    easel_imageStart (hg.geometryOk layout) hapart hin
  have htable (y : Nat) : lineTable (imageStart s r (hdrGeometry layout hd) rx) hd.height.toNat
      (imageStart s r (hdrGeometry layout hd) rx).pxw.lut y = viewOf (slotAt s 0) := by
    rw [lineTable, imageStart_rpa, hraster, imageStart_lut, hactive]
    rfl
  obtain ⟨u, hu, l, hp⟩ := hs.imagePlain (hd := hd) (by rwa [imageStart_seq]) (activeIndex s)
    hg.width_le (fun n hn => columnFits_imageStart hg hr hn) ((size_comm hd).le.trans hx)
    (fun h => by rw [imageStart_rpa, hraster] at h; cases h)
    (fun y _ x _ => by
      rw [htable, lineIndex_imageStart]
      exact lutHas_of_setBelow hset ((indexAt_lt _ _ _ _ _ _).trans_eq (by rw [hcount])))
  have hplain : rastered .pxw hd.height.toNat (imageStart s r (hdrGeometry layout hd) rx) =
      imageStart s r (hdrGeometry layout hd) rx := by
    rw [rastered, imageStart_rpa, hraster]
    rfl
  rw [hplain] at hp
  refine ⟨_, assembleImage_of_pixels (hg.geometryOk layout) (hg.geometryFits layout) hpal hu, ?_,
    fun xx hxx yy hyy => ?_, ?_⟩
  · rw [← size_comm, hp.shape, imageStart_plain hehb]
    rfl
  · refine (hp.pixels _ (place_lt hxx hyy)).trans ((imageColour_at hxx).trans ?_)
    rw [plainColour, htable, lineIndex_imageStart, hcount]
  · have hwrites := hp.writes
    rw [size_comm, imageStart_mem] at hwrites
    exact hwrites

/-! ### The whole operation -/

/-- What `SEQ.ASSEMBLE` checks before its work (R328). -/
structure Assembling (s : State) (work x : Nat) : Prop where
  ready : ready .seq s
  state : s.seq.state = .assemble
  code : KnownCode Config.codes s.seq.hdr
  pixels : containerPixelBytes s.seq.hdr ≤ (bufAt s.mem x).len
  work : s.seq.hdr.compression ≠ 0 → hdrBytes s.seq.hdr ≤ (bufAt s.mem work).len

theorem knownCode_raw (h : hd.compression = 0) : KnownCode Config.codes hd := fun hbad => hbad.1 h

section
variable {pg : BufRef × Geometry} (hA : Assembling s work x)
include hA

theorem Assembling.run : seqAssembleOp Config.codes (wholeBuf s.mem c) (wholeBuf s.mem work)
      (wholeBuf s.mem x) s =
    (do
      onStop (fun t => closeContainer (wholeBuf s.mem c)
          (assembleSpoil (wholeBuf s.mem work) (wholeBuf s.mem x) s.seq.hdr t))
        (assemblePass Config.codes.strip (wholeBuf s.mem c) (wholeBuf s.mem work) (wholeBuf s.mem x)
          s.seq.hdr s.seq.body)
      pure .unit : Op Result) s :=
  (seqAssembleOp_run hA.ready hA.state hA.code).trans
    ((raiseIf_bind_false (Nat.not_lt.mpr hA.pixels)).trans
      (raiseIf_bind_false fun hbad => absurd (hA.work hbad.1) (Nat.not_le_of_lt hbad.2)))

theorem Assembling.completes
    (hplanes : assemblePlanes Config.codes.strip (wholeBuf s.mem c) (wholeBuf s.mem work) s.seq.hdr
      s.seq.body s = .ok pg t)
    (himage : assembleImage (wholeBuf s.mem x) pg s.seq.hdr t = .ok () u) :
    exec (.seqAssemble c work x) s = Machine.completes .unit
      (closeContainer (wholeBuf s.mem c) { u with seq := { u.seq with state := .done } }) :=
  runOp_ok (hA.run.trans (bind_ok (onStop_ok ((bind_ok hplanes).trans (bind_ok himage)))))

theorem Assembling.stops
    (hpass : assemblePass Config.codes.strip (wholeBuf s.mem c) (wholeBuf s.mem work)
      (wholeBuf s.mem x) s.seq.hdr s.seq.body s = .error .faulted u) :
    exec (.seqAssemble c work x) s = .next
      { closeContainer (wholeBuf s.mem c)
          (assembleSpoil (wholeBuf s.mem work) (wholeBuf s.mem x) s.seq.hdr u) with
        reply := .faulted } :=
  runOp_faulted (hA.run.trans (bind_error (onStop_error hpass)))

end

/-- A raw body's planes are the body (R328). -/
theorem assemblePlanes_raw {tag : U32} {body : BodyDesc} (hraw : hd.compression = 0)
    (hbody : body.base + body.len ≤ r.len) :
    assemblePlanes tag r rw hd body s =
      .ok (⟨r.id, r.base + body.base, body.len⟩, hdrGeometry body.layout hd) s := by
  rw [← windowOf_of_le hbody]
  exact congrFun (if_pos hraw) s

/-- A plain raw container's image. -/
theorem seqAssemble_raw (hA : Assembling s work x) (hg : GoodHeader s.seq.hdr)
    (hraw : s.seq.hdr.compression = 0) (hehb : modeEhb s.seq.mode = false)
    (hham : modeHam s.seq.mode = false) (hraster : rasterPresent s.rpa = false)
    (hbody : s.seq.body.base + s.seq.body.len ≤ (bufAt s.mem c).len)
    (hr : hdrBytes s.seq.hdr ≤ s.seq.body.len) (hcx : c ≠ x) (hmade : (slotAt s 0).made = true)
    (hset : setBelow (slotAt s 0) (2 ^ s.seq.hdr.planes.toNat)) :
    ∃ t, exec (.seqAssemble c work x) s = completes .unit t ∧
      t = { closeContainer (wholeBuf s.mem c) (overwrite .pxw
              [⟨x, 0, containerPixelBytes s.seq.hdr⟩] (claim .pxw (wholeBuf s.mem x) s)) with
              mem := t.mem, bpr := t.bpr, pxw := t.pxw, seq := { s.seq with state := .done } } ∧
      (∀ xx < s.seq.hdr.width.toNat, ∀ yy < s.seq.hdr.height.toNat,
        pixelAt t.mem (wholeBuf s.mem x) (yy * s.seq.hdr.width.toNat + xx) =
          (lutAt (viewOf (slotAt s 0)) (indexAt s.mem ⟨c, s.seq.body.base, s.seq.body.len⟩
            (hdrGeometry s.seq.body.layout s.seq.hdr) s.seq.hdr.bytesPerLine xx yy
            s.seq.hdr.planes.toNat)).val) ∧
      Writes (inRange (wholeBuf s.mem x) 0 (containerPixelBytes s.seq.hdr)) s.mem t.mem := by
  obtain ⟨u, hu, hshape, hpix, hwrites⟩ := assembleImage_plain (layout := s.seq.body.layout) hg hehb
    hham hraster (r := ⟨c, s.seq.body.base, s.seq.body.len⟩) hr hcx (refOk_wholeBuf _ _) hA.pixels
    hmade hset
  have hplanes := assemblePlanes_raw (s := s) (tag := Config.codes.strip) (rw := wholeBuf s.mem work)
    (r := wholeBuf s.mem c) hraw hbody
  have hbase : (wholeBuf s.mem c).base + s.seq.body.base = s.seq.body.base := Nat.zero_add _
  rw [hbase] at hplanes
  refine ⟨_, hA.completes hplanes hu, ?_, ?_, ?_⟩
  · rw [closeContainer_eq, closeContainer_eq, hshape]
    rfl
  · rw [closeContainer_mem]
    exact hpix
  · rw [closeContainer_mem]
    exact hwrites

end Sys2Proof.Machine

namespace Sys2Proof.Proofs

open Sys2Proof.Machine

/-- Settles O56: the raw body is the planes, painted line by line. -/
theorem seqAssembleRawImage : Obligations.SeqAssembleRawImage := by
  intro s c work x hr hstate hd w h p lb g hraw hehb hham hraster hw hh hp h8 hl hbody hlen hcx hx hmade
    hset
  have hA : Assembling s work x := ⟨hr, hstate, knownCode_raw hraw, hx, fun hne => absurd hraw hne⟩
  obtain ⟨t, hexec, ht, hpix, hwrites⟩ := seqAssemble_raw (c := c) hA ⟨hw, hh, hp, h8, hl⟩ hraw hehb
    hham hraster hbody hlen hcx hmade hset
  refine ⟨t, hexec, ht, fun xx hxx yy hyy index hindex hbits => ?_, fun id a hout => hwrites.byteAt_eq ?_⟩
  · have hread : indexAt s.mem ⟨c, s.seq.body.base, s.seq.body.len⟩
        (hdrGeometry s.seq.body.layout s.seq.hdr) lb xx yy p = index :=
      indexAt_eq (container_planeCount _ _ _ _) hindex hbits
    rw [beRead_pixel, hpix xx hxx yy hyy]
    exact congrArg (fun i => (lutAt (viewOf (slotAt s 0)) i).val.toNat) hread
  · rintro ⟨hid, -, hlt⟩
    replace hid : id = x := hid
    replace hlt : a < 0 + 4 * w * h := hlt
    omega

end Sys2Proof.Proofs
end

section
/-! Hold-and-Modify in `SEQ.ASSEMBLE` (R289, R291, R321): one pixel, and all lines. -/

namespace Sys2Proof.Machine

variable {s t u : State} {n k i y w h p pad data : Nat} {colour : Nat → U32} {l : Lut} {hm : Ham}
  {line : Nat → Lut}

/-! ### One code -/

/-- A pixel code's effect is one `HamStep` (R289). -/
theorem hamPixel_ok {raw : Nat} (hraw : raw < 2 ^ p) (h3 : 3 ≤ p)
    (hbase : raw < 2 ^ (p - 2) → lutHas s.ham.lut raw) :
    ∃ set, hamPixel (decodeHam p raw).1 p (decodeHam p raw).2 s = .ok ()
      { s with ham := { s.ham with cur := hamStep s.ham.lut p s.ham.cur raw, curSet := set } } := by
  have hpow : 2 ^ p = 2 ^ (p - 2) * 4 := by
    rw [show (4 : Nat) = 2 ^ 2 from rfl, ← Nat.pow_add]
    congr 1
    omega
  have hsel : raw / 2 ^ (p - 2) < 4 := Nat.div_lt_of_lt_mul (hpow ▸ hraw)
  rw [decodeHam, hamStep]
  match hq : raw / 2 ^ (p - 2), hsel with
  | 0, _ =>
    have hlt : raw < 2 ^ (p - 2) := (Nat.div_eq_zero_iff_lt (Nat.two_pow_pos _)).mp hq
    rw [Nat.mod_eq_of_lt hlt]
    exact ⟨true, hamBaseOp_ok (hbase hlt)⟩
  | 1, _ => exact ⟨s.ham.curSet, rfl⟩
  | 2, _ => exact ⟨s.ham.curSet, rfl⟩
  | 3, _ => exact ⟨s.ham.curSet, rfl⟩

namespace Painting

theorem hamReady (hp : Painting s colour n k l hm t) (hinit : hm.init = true)
    (hfault : hm.fault.valid = false) : ready .ham t := by
  have hham := hp.ham
  refine ⟨?_, ?_, rfl⟩
  · rw [faultOf, hham]
    exact hfault
  · rw [initOf, hham]
    exact hinit

/-- One Hold-and-Modify pixel. -/
theorem hamPixel (hp : Painting s colour n k l hm t) (hs : Easel s) (hf : columnFits s n)
    (hinit : hm.init = true) (hfault : hm.fault.valid = false)
    (hplanes : s.bpr.geom.planeCount = hm.planes) (h3 : 3 ≤ hm.planes)
    (hbase : planesIndex s.mem (refOf s.bpr.buf) s.bpr.geom n < 2 ^ (hm.planes - 2) →
      lutHas hm.lut (planesIndex s.mem (refOf s.bpr.buf) s.bpr.geom n))
    (hcolour : hamStep hm.lut hm.planes hm.cur
      (planesIndex s.mem (refOf s.bpr.buf) s.bpr.geom n) = colour k)
    (hroom : 4 * k + 4 ≤ (refOf s.pxw.buf).len) :
    ∃ u set, hamPixelOut t = .ok () u ∧
      Painting s colour (n + 1) (k + 1) l { hm with cur := colour k, curSet := set } u := by
  obtain ⟨v, hv, hread⟩ := hp.read hs hf
  rw [← hv] at hbase hcolour
  have hham : (readerStepped t).ham = hm := hp.ham
  have hraw : v.toNat < 2 ^ hm.planes := by
    rw [hv, ← hplanes]
    exact planesIndex_lt _ _ _ _
  obtain ⟨set, hcode⟩ := hamPixel_ok (s := readerStepped t) hraw h3 (by rwa [hham])
  rw [hham, hcolour] at hcode
  have hp' := hp.stepped.withHam { hm with cur := colour k, curSet := set }
  have hcount : t.bpr.geom.planeCount = t.ham.planes := by
    rw [hp.ham, ← hplanes, hp.bpr]
  have hhamRead : hamReadOp t = .ok (colour k)
      { readerStepped t with ham := { hm with cur := colour k, curSet := set } } := by
    refine (enter_bind (hp.hamReady hinit hfault)).trans ((get_bind _ t).trans
      ((raiseIf_bind_false (not_not.mpr hcount)).trans ((bind_ok (callFrom_ok hread)).trans ?_)))
    rw [hp.ham]
    exact bind_ok hcode
  have hwrite : pxwWritecOp (colour k) _ = _ := (enter_bind (hp'.writer hs)).trans (hp'.store hroom)
  exact ⟨_, set, (bind_ok (seqCall_ok hhamRead)).trans (bind_ok (seqCall_ok hwrite)),
    hp'.pixelStored hs hroom⟩

/-- The padding, skipped through HAM (R294). -/
theorem hamSkip (hp : Painting s colour n k l hm t) (hs : Easel s) (hinit : hm.init = true)
    (hfault : hm.fault.valid = false) (pad : Nat) (hf : ∀ j < pad, columnFits s (n + j)) :
    ∃ u, (do let _ ← seqCall .ham (hamAdvOp pad) : Op Unit) t = .ok () u ∧
      Painting s colour (n + pad) k l hm u := by
  obtain ⟨u, hu, hpu⟩ := hp.adv hs pad hf
  have hadv : hamAdvOp pad t = .ok .unit u :=
    (enter_bind (hp.hamReady hinit hfault)).trans (callFrom_ok hu)
  exact ⟨u, bind_ok (seqCall_ok hadv), hpu⟩

end Painting

/-! ### The lines -/

/-- HAM's registers after some pixels: the line's table and the current colour. -/
def hamAfter (hm : Ham) (l : Lut) (cur : U32) (set : Bool) : Ham :=
  { hm with lut := l, cur := cur, curSet := set }

/-- All lines of Hold-and-Modify pixels. -/
theorem Easel.paintHam {raster : Bool} (hs : Easel s) (hinit : s.ham.init = true)
    (hfault : s.ham.fault.valid = false) (hplanes : s.bpr.geom.planeCount = s.ham.planes)
    (h3 : 3 ≤ s.ham.planes) (hcur : s.ham.cur = Config.hamInit)
    (hf : ∀ n < h * (w + pad), columnFits s n) (hroom : 4 * (h * w) ≤ (refOf s.pxw.buf).len)
    (hhas : ∀ y < h, ∀ x < w, lineIndex s (w + pad) x y < 2 ^ (s.ham.planes - 2) →
      lutHas (line y) (lineIndex s (w + pad) x y))
    (hplain : raster = false → ∀ y < h, line y = s.ham.lut)
    (hraster : raster = true → ready .rpa s ∧ 0 < s.rpa.count ∧ s.rpa.height = h ∧
      s.rpa.consumer = .ham ∧ ∀ y < h, line y = sget Lut.empty s.rpa.ras (rasterIndex s.rpa.count h y)) :
    let colours := hamColour line s.ham.planes w
      fun n => lineIndex s (w + pad) (n % w) (n / w)
    ∃ u, paintLines raster hamPixelOut (do let _ ← seqCall .ham (hamAdvOp pad)) w h s = .ok () u ∧
      ∃ hm, Painting s (fun j => colours (j + 1)) (h * (w + pad)) (h * w) s.pxw.lut hm u := by
  intro colours
  refine (paintLines_ok (raster := raster) (pixel := hamPixelOut)
    (skip := do let _ ← seqCall .ham (hamAdvOp pad)) (w := w) (h := h)
    (I := fun y t => ∃ l set, Painting s (fun j => colours (j + 1)) (y * (w + pad)) (y * w) s.pxw.lut
      (hamAfter s.ham l (colours (y * w)) set) t ∧ (raster = false → l = s.ham.lut))
    (J := fun y i t => ∃ set, Painting s (fun j => colours (j + 1)) (y * (w + pad) + i) (y * w + i)
      s.pxw.lut (hamAfter s.ham (line y) (colours (y * w + i)) set) t)
    ?select ?pixel ?skip (s := s) ?start).imp fun u ⟨hu, l, set, hp, _⟩ => ⟨hu, _, hp⟩
  case start =>
    refine ⟨s.ham.lut, s.ham.curSet, ?_, fun _ => rfl⟩
    have hstart : hamAfter s.ham s.ham.lut (colours (0 * w)) s.ham.curSet = s.ham := by
      rw [Nat.zero_mul]
      show hamAfter s.ham s.ham.lut Config.hamInit s.ham.curSet = s.ham
      rw [← hcur]
      rfl
    rw [hstart, Nat.zero_mul, Nat.zero_mul]
    exact hs.painting _
  case select =>
    rintro y hy t ⟨l, set, hp, hl⟩
    cases raster with
    | false =>
      rw [hl rfl, ← hplain rfl y hy] at hp
      exact ⟨t, selectLine_false y t, set, hp⟩
    | true =>
      obtain ⟨hready, hcount, hheight, hconsumer, hline⟩ := hraster rfl
      refine ⟨_, hp.select hready hcount (hheight ▸ hy), set, ?_⟩
      rw [hconsumer, hheight, ← hline y hy]
      have hp' := hp.withHam (hamAfter s.ham (line y) (colours (y * w)) set)
      rw [installLut, hp.ham]
      exact hp'
  case pixel =>
    rintro y hy i hi t ⟨set, hp⟩
    have hplace := place_lt hi hy
    have hstep : hamStep (line y) s.ham.planes (colours (y * w + i))
        (lineIndex s (w + pad) i y) = colours (y * w + i + 1) := by
      show _ = hamStep (line ((y * w + i) / w)) s.ham.planes (colours (y * w + i))
        (lineIndex s (w + pad) ((y * w + i) % w) ((y * w + i) / w))
      rw [place_div hi, place_mod hi]
    obtain ⟨u, set', hu, hp'⟩ := hp.hamPixel hs (hf _ (place_lt (by omega) hy)) hinit hfault hplanes h3
      (hhas y hy i hi) hstep (by omega)
    exact ⟨u, hu, set', hp'⟩
  case skip =>
    rintro y hy t ⟨set, hp⟩
    obtain ⟨u, hu, hp'⟩ := hp.hamSkip hs hinit hfault pad fun j hj => by
      rw [Nat.add_assoc]
      exact hf _ (place_lt (by omega) hy)
    refine ⟨u, hu, line y, set, ?_, fun hr => hplain hr y hy⟩
    rw [Nat.succ_mul, Nat.succ_mul, ← Nat.add_assoc (y * (w + pad))]
    exact hp'

end Sys2Proof.Machine
end

section
/-! The dispatch of `SEQ.ASSEMBLE` over a raw body (R320, R321): Extra-Half-Brite and its faults, raster
palettes, Hold-and-Modify; O58. -/

namespace Sys2Proof.Machine

variable {s t u : State} {n k i y w h p lb sa c work x : Nat} {r rc rw rx : BufRef} {g : Geometry}
  {hd : Hdr} {layout : BodyLayout} {line : Nat → Lut} {colour : Nat → U32} {l : Lut} {hm hm0 : Ham}
  {cons : Consumer} {φ : State → State} {f : FaultReg}

/-! ### PAL.EHB amid the assembly -/

theorem through_raiseUnset {v : UnitId} (h : Beside φ v) (q : Slot) (n : Nat) :
    Through φ (raiseUnset v q n) := by
  unfold raiseUnset
  split
  · exact through_raise h _ _
  · exact through_pure ()

theorem through_palEhb (h : Beside φ .pal) (hslot : ∀ s, slotAt (φ s) = slotAt s)
    (hset : ∀ slot q s, setSlot slot q (φ s) = φ (setSlot slot q s)) (sd ss : Nat) :
    Through φ (palEhbOp sd ss) :=
  through_bind (through_enter h) fun _ => through_bind (through_checkSlot h sd) fun _ =>
    through_bind (through_checkSlot h ss) fun _ => through_bind (through_checkMade h hslot ss) fun _ =>
      through_get (fun s => by rw [hslot]) fun s => through_bind (through_raiseIf h _ _) fun _ =>
        through_bind (through_raiseUnset h _ _) fun _ =>
          through_bind (through_modify fun t => hset _ _ t) fun _ => through_pure _

/-- The memory replaced. -/
def withMem (m : Mem) (s : State) : State := { s with mem := m }

/-- `PAL.EHB` without a result leaves SEQ's registers and the memory. -/
theorem palEhb_error_keeps {e : Stop} (h : palEhbOp 1 0 s = .error e u) :
    u.seq = s.seq ∧ u.mem = s.mem := by
  have hseq := (through_palEhb (beside_withSeq s.seq) (fun _ => rfl) (fun _ _ _ => rfl) 1 0).error h
  have hmem := (through_palEhb (φ := withMem s.mem) ⟨fun _ => rfl, fun _ => rfl, fun _ => rfl,
    fun _ _ => rfl⟩ (fun _ => rfl) (fun _ _ _ => rfl) 1 0).error h
  have hseq' : (.error e u : EStateM.Result Stop State Result) = .error e (withSeq s.seq u) :=
    h.symm.trans hseq
  have hmem' : (.error e u : EStateM.Result Stop State Result) = .error e (withMem s.mem u) :=
    h.symm.trans hmem
  injection hseq' with _ hseq'
  injection hmem' with _ hmem'
  exact ⟨(congrArg State.seq hseq').trans rfl, (congrArg State.mem hmem').trans rfl⟩

theorem beside_readerStart (r : BufRef) (g : Geometry) : Beside (readerStart r g) .pal :=
  ⟨fun _ => rfl, fun _ => rfl, fun _ => rfl, fun _ _ => rfl⟩

/-- Where `PAL.EHB` gives no result, its fault is copied (R314; log 16). -/
theorem activeSlot_stops {e : Stop} (hehb : modeEhb s.seq.mode = true)
    (he : e = .faulted ∨ e = .refused) (h : palEhbOp 1 0 s = .error e u) :
    activeSlot (readerStart r g s) = .error .faulted
      (seqFaulted (withFault .seq u.pal.fault (readerStart r g u))) := by
  have hrun := (through_palEhb (beside_readerStart r g) (fun _ => rfl) (fun _ _ _ => rfl) 1 0).error h
  have hcall : seqCall .pal (palEhbOp 1 0) (readerStart r g s) = .error .faulted
      (seqFaulted (withFault .seq u.pal.fault (readerStart r g u))) := by
    rcases he with rfl | rfl
    · exact seqCall_faulted hrun
    · exact seqCall_refused hrun
  have hbranch : activeSlot (readerStart r g s) = (do
      let _ ← seqCall .pal (palEhbOp 1 0)
      pure 1 : Op Nat) (readerStart r g s) := congrFun (if_pos hehb) _
  rw [hbranch]
  exact bind_error hcall

/-! ### How the assembly of a raw body ends -/

theorem assembleSpoil_raw (hraw : hd.compression = 0) :
    assembleSpoil rw rx hd u = spoil .seq rx 0 (containerPixelBytes hd) u := if_pos hraw

/-- A stop of a raw body's assembly: SEQ's fault, and the pixels alone unspecified. -/
theorem Assembling.stops_raw (hA : Assembling s work x) (hraw : s.seq.hdr.compression = 0)
    (hpass : assemblePass Config.codes.strip (wholeBuf s.mem c) (wholeBuf s.mem work)
      (wholeBuf s.mem x) s.seq.hdr s.seq.body s = .error .faulted u)
    (hseq : u.seq = { s.seq with state := .faulted, fault := f }) (hmem : u.mem = s.mem) :
    ∃ t, exec (.seqAssemble c work x) s = .next t ∧ t.reply = .faulted ∧
      t.seq = { s.seq with state := .faulted, fault := f } ∧
      ∀ id a, (id ≠ x ∨ containerPixelBytes s.seq.hdr ≤ a) → byteAt t.mem id a = byteAt s.mem id a := by
  refine ⟨_, hA.stops hpass, rfl, ?_, fun id a hout => ?_⟩
  · rw [closeContainer_eq, assembleSpoil_raw hraw]
    exact hseq
  · rw [closeContainer_eq, assembleSpoil_raw hraw, ← hmem]
    exact byteAt_freeRange_outside (by simp only [wholeBuf]; omega)

/-- RPA's registers in the dispatch. -/
def rasteredRpa (c : Consumer) (h : Nat) (q : Rpa) : Rpa :=
  if rasterPresent q then { q with consumer := c, height := h } else q

theorem rastered_frame (c : Consumer) (h : Nat) (s : State) : (rastered c h s).rpa =
    rasteredRpa c h s.rpa ∧ (rastered c h s).seq = s.seq ∧ (rastered c h s).pal = s.pal ∧
      (rastered c h s).mem = s.mem ∧ (rastered c h s).bpr = s.bpr ∧ (rastered c h s).pxw = s.pxw := by
  unfold rastered rasteredRpa
  split <;> exact ⟨rfl, rfl, rfl, rfl, rfl, rfl⟩

/-! ### Hold-and-Modify -/

/-- After `HAM.INIT` with the active palette (R286). -/
def hamStart (p : Nat) (l : Lut) (s : State) : Ham :=
  ⟨true, p, Config.hamInit, false, l, { s.ham.fault with valid := false }⟩

theorem assemblePixels_ham (hham : modeHam s.seq.mode = true) :
    assemblePixels hd s = paintLines (rasterPresent s.rpa) hamPixelOut
      (do let _ ← seqCall .ham (hamAdvOp (padPixels hd.bytesPerLine hd.width.toNat)))
      hd.width.toNat hd.height.toNat (rastered .ham hd.height.toNat s) := by
  have hdispatch : assemblePixels hd s =
      (if rasterPresent s.rpa then setRaster .ham hd.height.toNat >>= fun _ =>
          paintLines (rasterPresent s.rpa) hamPixelOut
            (do let _ ← seqCall .ham (hamAdvOp (padPixels hd.bytesPerLine hd.width.toNat)))
            hd.width.toNat hd.height.toNat
        else paintLines (rasterPresent s.rpa) hamPixelOut
            (do let _ ← seqCall .ham (hamAdvOp (padPixels hd.bytesPerLine hd.width.toNat)))
            hd.width.toNat hd.height.toNat) s := congrFun (if_pos hham) s
  rw [hdispatch]
  unfold rastered
  cases rasterPresent s.rpa <;> rfl

theorem imagePixels_ham (hham : modeHam s.seq.mode = true) (h3 : 3 ≤ hd.planes.toNat)
    (h8 : hd.planes.toNat ≤ Config.planesMax) (hread : readableSlot s sa) :
    imagePixels hd sa s = paintLines (rasterPresent s.rpa) hamPixelOut
      (do let _ ← seqCall .ham (hamAdvOp (padPixels hd.bytesPerLine hd.width.toNat)))
      hd.width.toNat hd.height.toNat (rastered .ham hd.height.toNat
        { s with ham := hamStart hd.planes.toNat (viewOf (slotAt s sa)) s }) := by
  have hinit : hamInitOp hd.planes.toNat sa s = .ok .unit
      { s with ham := hamStart hd.planes.toNat (viewOf (slotAt s sa)) s } :=
    (bind_ok (clearFault_run .ham s)).trans ((raiseIf_bind_false (by omega)).trans
      (bind_ok (view8_ok (s := clearedFault .ham s) hread.1 hread.2)))
  have hstart : imagePixels hd sa s = (do
      let _ ← seqCall .ham (hamInitOp hd.planes.toNat sa)
      assemblePixels hd : Op Unit) s := congrFun (if_pos hham) s
  exact hstart.trans ((bind_ok (seqCall_ok hinit)).trans (assemblePixels_ham hham))

theorem imagePixels_badGeometry (hham : modeHam s.seq.mode = true) (h3 : hd.planes.toNat < 3) :
    imagePixels hd sa s = .error .faulted
      (copiedFault .ham (raisedReg .badGeometry hd.planes.toNat) s) := by
  have hinit : hamInitOp hd.planes.toNat sa s = .error .faulted
      (withFault .ham (raisedReg .badGeometry hd.planes.toNat) s) :=
    clearFault_bind_raise (raiseIf_bind_true (.inl h3))
  have hstart : imagePixels hd sa s = (do
      let _ ← seqCall .ham (hamInitOp hd.planes.toNat sa)
      assemblePixels hd : Op Unit) s := congrFun (if_pos hham) s
  rw [hstart]
  exact bind_error (seqCall_faulted hinit)

/-- The lines of Hold-and-Modify pixels of a container's image, after `HAM.INIT`. -/
theorem Easel.imageHam (hs : Easel s) (hinit : s.ham.init = true) (hfault : s.ham.fault.valid = false)
    (hcur : s.ham.cur = Config.hamInit) (hplanes : s.bpr.geom.planeCount = s.ham.planes)
    (h3 : 3 ≤ s.ham.planes) (hw : hd.width.toNat ≤ 8 * hd.bytesPerLine)
    (hf : ∀ n < hd.height.toNat * (8 * hd.bytesPerLine), columnFits s n)
    (hroom : 4 * (hd.height.toNat * hd.width.toNat) ≤ (refOf s.pxw.buf).len)
    (hrpa : rasterPresent s.rpa = true → s.rpa.fault.valid = false)
    (hhas : ∀ y < hd.height.toNat, ∀ x < hd.width.toNat,
      lineIndex s (8 * hd.bytesPerLine) x y < 2 ^ (s.ham.planes - 2) →
        lutHas (lineTable s hd.height.toNat s.ham.lut y) (lineIndex s (8 * hd.bytesPerLine) x y)) :
    ∃ u, paintLines (rasterPresent s.rpa) hamPixelOut
        (do let _ ← seqCall .ham (hamAdvOp (padPixels hd.bytesPerLine hd.width.toNat)))
        hd.width.toNat hd.height.toNat (rastered .ham hd.height.toNat s) = .ok () u ∧
      ∃ hm, Painting (rastered .ham hd.height.toNat s)
        (fun j => hamColour (lineTable s hd.height.toNat s.ham.lut) s.ham.planes hd.width.toNat
          (fun n => lineIndex s (8 * hd.bytesPerLine) (n % hd.width.toNat) (n / hd.width.toNat)) (j + 1))
        (hd.height.toNat * (8 * hd.bytesPerLine)) (hd.height.toNat * hd.width.toNat) s.pxw.lut hm u := by
  have hstride : hd.width.toNat + padPixels hd.bytesPerLine hd.width.toNat = 8 * hd.bytesPerLine :=
    Nat.add_sub_of_le hw
  rw [← hstride] at hf hhas ⊢
  unfold rastered
  cases hr : rasterPresent s.rpa with
  | false =>
    exact hs.paintHam hinit hfault hplanes h3 hcur hf hroom hhas
      (fun _ y _ => by simp [lineTable, hr]) nofun
  | true =>
    have hs' : Easel { s with rpa := { s.rpa with consumer := .ham, height := hd.height.toNat } } :=
      ⟨hs.reader, hs.geometry, hs.start, hs.writer, hs.top, hs.apart, hs.inside⟩
    have hready := hr
    rw [rasterPresent, Bool.and_eq_true, decide_eq_true_iff] at hready
    exact hs'.paintHam hinit hfault hplanes h3 hcur hf hroom hhas nofun fun _ =>
      ⟨⟨hrpa hr, hready.1, rfl⟩, hready.2, rfl, rfl, fun y _ => by simp [lineTable, hr]⟩

/-! ### The two paintings -/

/-- The table of a line, by the active palette or the raster palettes. -/
def imageLine (s : State) (h : Nat) : Nat → Lut := lineTable s h (viewOf (activePalette s))

/-- The index at a pixel of the image. -/
def imageIndex (s : State) (r : BufRef) (layout : BodyLayout) (hd : Hdr) (x y : Nat) : Nat :=
  indexAt s.mem r (hdrGeometry layout hd) hd.bytesPerLine x y hd.planes.toNat

theorem lineIndex_image (x y : Nat) : lineIndex (imageStart s r (hdrGeometry layout hd) rx)
    (8 * hd.bytesPerLine) x y = imageIndex s r layout hd x y := by
  rw [lineIndex_imageStart, imageIndex]
  congr 1
  exact container_planeCount _ _ _ _

/-- The image in the pixels' window, and what the dispatch leaves of the state. -/
structure Image (s : State) (rx : BufRef) (hd : Hdr) (cons : Consumer) (colour : Nat → Nat → U32)
    (u : State) : Prop where
  seq : u.seq = s.seq
  pal : u.pal = (activated s).pal
  rpa : u.rpa = rasteredRpa cons hd.height.toNat s.rpa
  pixels : ∀ xx < hd.width.toNat, ∀ yy < hd.height.toNat,
    pixelAt u.mem rx (yy * hd.width.toNat + xx) = colour xx yy
  writes : Writes (inRange rx 0 (containerPixelBytes hd)) s.mem u.mem

theorem image_of_painting {colours : Nat → Nat → U32}
    (hp : Painting (rastered cons hd.height.toNat { imageStart s r g rx with ham := hm0 }) colour n
      (hd.height.toNat * hd.width.toNat) l hm u)
    (hcolour : ∀ xx < hd.width.toNat, ∀ yy < hd.height.toNat,
      colour (yy * hd.width.toNat + xx) = colours xx yy) : Image s rx hd cons colours u := by
  obtain ⟨hrpa, hseq, hpal, hmem, -, hpxw⟩ :=
    rastered_frame cons hd.height.toNat { imageStart s r g rx with ham := hm0 }
  have hwindow : refOf (rastered cons hd.height.toNat { imageStart s r g rx with ham := hm0 }).pxw.buf =
      rx := by rw [hpxw]; rfl
  have hpix := hp.pixels
  have hwrites := hp.writes
  rw [hwindow] at hpix hwrites
  refine ⟨?_, ?_, ?_, fun xx hxx yy hyy => (hpix _ (place_lt hxx hyy)).trans (hcolour xx hxx yy hyy), ?_⟩
  · rw [hp.shape]
    exact hseq.trans (imageStart_seq s r rx g)
  · rw [hp.shape]
    exact hpal
  · rw [hp.shape]
    exact hrpa.trans (by rw [imageStart_rpa])
  · rw [size_comm, hmem] at hwrites
    rwa [← imageStart_mem s r rx g]

section
variable (hg : GoodHeader hd) (hr : hdrBytes hd ≤ r.len) (hapart : r.id ≠ rx.id)
  (hin : refOk s.mem rx) (hx : containerPixelBytes hd ≤ rx.len)
  (hrpa : rasterPresent s.rpa = true → s.rpa.fault.valid = false)
include hg hr hapart hin hx hrpa

theorem imagePixels_image (hham : modeHam s.seq.mode = false)
    (hhas : ∀ yy < hd.height.toNat, ∀ xx < hd.width.toNat,
      lutHas (imageLine s hd.height.toNat yy) (imageIndex s r layout hd xx yy)) :
    ∃ u, imagePixels hd sa (imageStart s r (hdrGeometry layout hd) rx) = .ok () u ∧
      Image s rx hd .pxw (fun xx yy => (lutAt (imageLine s hd.height.toNat yy)
        (imageIndex s r layout hd xx yy)).val) u := by
  have hs : Easel (imageStart s r (hdrGeometry layout hd) rx) :=
    easel_imageStart (hg.geometryOk layout) hapart hin
  have htable : lineTable (imageStart s r (hdrGeometry layout hd) rx) hd.height.toNat
      (imageStart s r (hdrGeometry layout hd) rx).pxw.lut = imageLine s hd.height.toNat := by
    funext y
    rw [imageLine, lineTable, lineTable, imageStart_rpa, imageStart_lut]
  obtain ⟨u, hu, l, hp⟩ := hs.imagePlain (hd := hd) (by rwa [imageStart_seq]) sa hg.width_le
    (fun n hn => columnFits_imageStart hg hr hn) ((size_comm hd).le.trans hx)
    (by rwa [imageStart_rpa]) (fun y hy x hx => by
      rw [htable, lineIndex_image]
      exact hhas y hy x hx)
  refine ⟨u, hu, image_of_painting hp fun xx hxx yy hyy => (imageColour_at hxx).trans ?_⟩
  rw [plainColour, htable, lineIndex_image]

theorem imagePixels_hamImage (hham : modeHam s.seq.mode = true) (h3 : 3 ≤ hd.planes.toNat)
    (hpal : PaletteReady s)
    (hhas : ∀ yy < hd.height.toNat, ∀ xx < hd.width.toNat,
      imageIndex s r layout hd xx yy < 2 ^ (hd.planes.toNat - 2) →
        lutHas (imageLine s hd.height.toNat yy) (imageIndex s r layout hd xx yy)) :
    ∃ u, imagePixels hd (activeIndex s) (imageStart s r (hdrGeometry layout hd) rx) = .ok () u ∧
      Image s rx hd .ham (fun xx yy => hamColour (imageLine s hd.height.toNat) hd.planes.toNat
        hd.width.toNat (fun n => imageIndex s r layout hd (n % hd.width.toNat) (n / hd.width.toNat))
        (yy * hd.width.toNat + xx + 1)) u := by
  have hs : Easel (imageStart s r (hdrGeometry layout hd) rx) :=
    easel_imageStart (hg.geometryOk layout) hapart hin
  have hactive : slotAt (imageStart s r (hdrGeometry layout hd) rx) (activeIndex s) =
      activePalette s := slotAt_activeIndex s
  have hread : readableSlot (imageStart s r (hdrGeometry layout hd) rx) (activeIndex s) :=
    readable_activeIndex hpal
  let hm1 := hamStart hd.planes.toNat (viewOf (activePalette s))
    (imageStart s r (hdrGeometry layout hd) rx)
  have hs1 : Easel { imageStart s r (hdrGeometry layout hd) rx with ham := hm1 } :=
    ⟨hs.reader, hs.geometry, hs.start, hs.writer, hs.top, hs.apart, hs.inside⟩
  have hrpa' := imageStart_rpa s r rx (hdrGeometry layout hd)
  have htable : lineTable { imageStart s r (hdrGeometry layout hd) rx with ham := hm1 } hd.height.toNat
      hm1.lut = imageLine s hd.height.toNat := by
    funext y
    rw [imageLine, lineTable, lineTable]
    simp only [hrpa']
    rfl
  have hline (xx yy : Nat) : lineIndex { imageStart s r (hdrGeometry layout hd) rx with ham := hm1 }
      (8 * hd.bytesPerLine) xx yy = imageIndex s r layout hd xx yy :=
    lineIndex_image (rx := rx) xx yy
  obtain ⟨u, hu, hm, hp⟩ := hs1.imageHam (hd := hd) rfl rfl rfl
    (by rw [imageStart_bpr]; exact container_planeCount _ _ _ _) h3 hg.width_le
    (fun n hn => columnFits_imageStart (rx := rx) hg hr hn) ((size_comm hd).le.trans hx)
    (by simpa only [hrpa'] using hrpa) (fun y hy x hx => by
      rw [hline]
      intro hlt
      exact htable ▸ hhas y hy x hx hlt)
  have hrun := imagePixels_ham (hd := hd) (s := imageStart s r (hdrGeometry layout hd) rx)
    (by rwa [imageStart_seq]) h3 hg.most hread
  rw [hactive] at hrun
  refine ⟨u, hrun.trans hu, image_of_painting hp fun xx hxx yy hyy => ?_⟩
  simp only [hline]
  rw [← htable]
  rfl

end

/-- Hold-and-Modify of fewer than 3 planes (R289). -/
theorem Assembling.badGeometry_raw (hA : Assembling s work x) (hg : GoodHeader s.seq.hdr)
    (hraw : s.seq.hdr.compression = 0) (hpal : PaletteReady s) (hham : modeHam s.seq.mode = true)
    (h3 : s.seq.hdr.planes.toNat < 3)
    (hbody : s.seq.body.base + s.seq.body.len ≤ (bufAt s.mem c).len) :
    ∃ t, exec (.seqAssemble c work x) s = .next t ∧ t.reply = .faulted ∧
      t.seq = { s.seq with state := .faulted
                           fault := raisedReg .badGeometry s.seq.hdr.planes.toNat } ∧
      ∀ id a, (id ≠ x ∨ containerPixelBytes s.seq.hdr ≤ a) → byteAt t.mem id a = byteAt s.mem id a := by
  have hplanes := assemblePlanes_raw (s := s) (tag := Config.codes.strip) (rw := wholeBuf s.mem work)
    (r := wholeBuf s.mem c) hraw hbody
  generalize hr : (⟨(wholeBuf s.mem c).id, (wholeBuf s.mem c).base + s.seq.body.base,
    s.seq.body.len⟩ : BufRef) = r at hplanes
  have hstart := imageStart_seq s r (wholeBuf s.mem x) (hdrGeometry s.seq.body.layout s.seq.hdr)
  have hpix := imagePixels_badGeometry (sa := activeIndex s) (hstart ▸ hham) h3
  refine hA.stops_raw (c := c) hraw ((bind_ok hplanes).trans (bind_error
    (assembleImage_of_stop (hg.geometryOk _) (hg.geometryFits _) hpal hpix))) ?_
    (imageStart_mem s r (wholeBuf s.mem x) (hdrGeometry s.seq.body.layout s.seq.hdr))
  exact congrArg (fun q : Seq => { q with
    state := .faulted, fault := raisedReg .badGeometry s.seq.hdr.planes.toNat }) hstart

/-- What the assembly of a raw body leaves, with its image painted. -/
theorem Assembling.image_raw {colours : Nat → Nat → U32} (hA : Assembling s work x)
    (hg : GoodHeader s.seq.hdr) (hraw : s.seq.hdr.compression = 0) (hpal : PaletteReady s)
    (hbody : s.seq.body.base + s.seq.body.len ≤ (bufAt s.mem c).len)
    (himage : ∃ u, imagePixels s.seq.hdr (activeIndex s) (imageStart s
        ⟨c, s.seq.body.base, s.seq.body.len⟩ (hdrGeometry s.seq.body.layout s.seq.hdr)
        (wholeBuf s.mem x)) = .ok () u ∧
      Image s (wholeBuf s.mem x) s.seq.hdr cons colours u) :
    ∃ t, exec (.seqAssemble c work x) s = Machine.completes .unit t ∧
      t.seq = { s.seq with state := .done } ∧
      (∀ slot, slotAt t slot =
        if modeEhb s.seq.mode = true ∧ slot = 1 then activePalette s else slotAt s slot) ∧
      t.rpa = rasteredRpa cons s.seq.hdr.height.toNat s.rpa ∧
      (∀ xx < s.seq.hdr.width.toNat, ∀ yy < s.seq.hdr.height.toNat,
        beRead t.mem (wholeBuf s.mem x) (4 * (yy * s.seq.hdr.width.toNat + xx)) 4 =
          (colours xx yy).toNat) ∧
      ∀ id a, (id ≠ x ∨ containerPixelBytes s.seq.hdr ≤ a) →
        byteAt t.mem id a = byteAt s.mem id a := by
  obtain ⟨u, hu, hI⟩ := himage
  have hplanes := assemblePlanes_raw (s := s) (tag := Config.codes.strip) (rw := wholeBuf s.mem work)
    (r := wholeBuf s.mem c) hraw hbody
  have hbase : (wholeBuf s.mem c).base + s.seq.body.base = s.seq.body.base := Nat.zero_add _
  rw [hbase] at hplanes
  refine ⟨_, hA.completes hplanes (assembleImage_of_pixels (hg.geometryOk _) (hg.geometryFits _) hpal hu),
    ?_, fun slot => ?_, ?_, fun xx hxx yy hyy => ?_, fun id a hout => ?_⟩
  · rw [closeContainer_eq]
    exact congrArg (fun q : Seq => { q with state := .done }) hI.seq
  · rw [closeContainer_eq, ← slotAt_activated]
    exact congrArg (fun q : Pal => sget Slot.empty q.slots slot) hI.pal
  · rw [closeContainer_eq]
    exact hI.rpa
  · rw [closeContainer_mem]
    exact (beRead_pixel _ _ _).trans (congrArg BitVec.toNat (hI.pixels xx hxx yy hyy))
  · rw [closeContainer_mem]
    refine hI.writes.byteAt_eq ?_
    rintro ⟨hid, -, hlt⟩
    simp only [wholeBuf] at hid hlt
    omega

end Sys2Proof.Machine

namespace Sys2Proof.Proofs

open Sys2Proof.Machine

/-- Settles O58: each dispatch paints its lines, or stops before the first of them. -/
theorem seqAssembleDispatch : Obligations.SeqAssembleDispatch := by
  intro s c work x hr hstate hd body w h p lb g ehb ham raster old active line index asm done fails
    hraw hw hh hp h8 hl hbody hlen hcx hx
  have hA : Assembling s work x := ⟨hr, hstate, knownCode_raw hraw, hx, fun hne => absurd hraw hne⟩
  have hg : GoodHeader s.seq.hdr := ⟨hw, hh, hp, h8, hl⟩
  have hplanes := assemblePlanes_raw (s := s) (tag := Config.codes.strip) (rw := wholeBuf s.mem work)
    (r := wholeBuf s.mem c) hraw hbody
  refine ⟨fun hehb t ht hnone => ?noPalette, fun hpal => ⟨fun hham h3 => ?badGeometry,
    fun hrpa => ⟨fun hham hhas => ?plain, fun hham h3 hhas => ?ham⟩⟩⟩
  case noPalette =>
    have hexec : exec (.palEhb 1 0) s = runOp (palEhbOp 1 0 >>= fun r => pure r) s := by
      rw [bind_pure]
      rfl
    obtain ⟨e, u, y, he, hu, rfl⟩ := error_of_noResult (g := id) (hexec.symm.trans ht) hnone
    obtain ⟨hseq, hmem⟩ := palEhb_error_keeps hu
    refine hA.stops_raw (c := c) hraw ((bind_ok hplanes).trans (bind_error (assembleImage_noPalette
      (hg.geometryOk _) (hg.geometryFits _) (activeSlot_stops hehb he hu)))) ?_ hmem
    rw [← hseq]
    rfl
  case badGeometry => exact hA.badGeometry_raw hg hraw hpal hham h3 hbody
  case plain =>
    obtain ⟨t, hexec, hseq, hslots, ht, hpix, hout⟩ := hA.image_raw (c := c) hg hraw hpal hbody
      (imagePixels_image (layout := s.seq.body.layout) hg hlen hcx (refOk_wholeBuf _ _) hx hrpa hham
        fun yy hyy xx hxx => hhas xx hxx yy hyy)
    refine ⟨t, hexec, hseq, hslots, ht.trans ?_, hpix, hout⟩
    rw [hham]
    rfl
  case ham =>
    obtain ⟨t, hexec, hseq, hslots, ht, hpix, hout⟩ := hA.image_raw (c := c) hg hraw hpal hbody
      (imagePixels_hamImage (layout := s.seq.body.layout) hg hlen hcx (refOk_wholeBuf _ _) hx hrpa hham
        h3 hpal fun yy hyy xx hxx => hhas xx hxx yy hyy)
    refine ⟨t, hexec, hseq, hslots, ht.trans ?_, hpix, hout⟩
    rw [hham]
    rfl

end Sys2Proof.Proofs
end

section
/-! `SEQ.ASSEMBLE` of a strip body with no view open in the chunk reader (R268, R328): the view over the
body is then the outermost one, and leaving it faults. O57 admits such states. -/

namespace Sys2Proof.Machine

variable {s : State} {hd : Hdr} {body : BodyDesc} {r rw : BufRef} {tag : U32} {n : Nat}

/-- The strip body's branch of the planes (R328). -/
theorem assemblePlanes_strip (hcode : hd.compression = Config.codes.compStrip) :
    assemblePlanes tag r rw hd body s = (do
      seqCall .ckr (ckrEnterOp body.base body.len)
      let k ← stripLoop tag r rw hd.bytesPerLine hd.height.toNat hd.planes.toNat (body.len + 1) 0
      seqCall .ckr ckrLeaveOp
      seqRaiseIf (k < hd.planes.toNat) .planesMissing k
      pure (windowOf rw 0 (hdrBytes hd), hdrGeometry .contig hd) : Op (BufRef × Geometry))
        (clearRange rw (hdrBytes hd) s) := by
  obtain ⟨hraw, hgeneric⟩ := compStrip_ne
  rw [← hcode] at hraw hgeneric
  exact congrFun ((if_neg hraw).trans (if_neg hgeneric)) s

/-- Clearing the work buffer leaves a reader of another buffer as it is (R422). -/
theorem reading_clearRange {vs : List View} (h : Reading r vs s) (hapart : r.id ≠ rw.id) :
    Reading r vs (clearRange rw n s) := by
  have hsrc : (clearRange rw n s).ckr.src = s.ckr.src :=
    outlived_apart (r := windowOf rw 0 n) (by rw [h.source]; exact hapart)
  obtain ⟨hfault, hinit, -⟩ := h.ready
  refine ⟨⟨hfault, hinit, ?_⟩, hsrc.trans h.src, h.depth, h.stack⟩
  show (true && (clearRange rw n s).ckr.src.isSome) = true
  rw [hsrc, h.src]
  rfl

theorem assembleSpoil_seq {w x : BufRef} : (assembleSpoil w x hd s).seq = s.seq := by
  unfold assembleSpoil
  split <;> rfl

/-- Leaving the only view is CKR's `E_PROG(STACK)` (R268, R314). -/
theorem leave_outermost_fails {v : View} (h : Reading r [v] s) :
    Fails (.stack, 1) (seqCall .ckr ckrLeaveOp) s := by
  have hrun := ckrLeaveOp_last h.ready h.depth.le
  rw [h.depth] at hrun
  exact fails_seqCall hrun

/-- An empty strip body with no view open: the planes are not counted, the call to leave faults. -/
theorem assemblePlanes_noView (h : Reading r [] s) (hcode : hd.compression = Config.codes.compStrip)
    (hapart : r.id ≠ rw.id) (hin : body.base + body.len ≤ r.len) (hempty : body.len = 0) :
    ∃ u, assemblePlanes tag r rw hd body s = .error .faulted u ∧
      u.seq.fault = raisedReg .stack 1 := by
  have hcleared : Reading r [] (clearRange rw (hdrBytes hd) s) := reading_clearRange h hapart
  have hinside : Reading r [⟨body.base, body.len, 0⟩] _ := hcleared.pushView
  have hend : viewEof ⟨body.base, body.len, 0⟩ = true := decide_eq_true hempty.le
  have hloop : stripLoop tag r rw hd.bytesPerLine hd.height.toNat hd.planes.toNat (body.len + 1) 0 _ =
      .ok 0 _ := (bind_ok hinside.eof).trans (by rw [hend]; rfl)
  obtain ⟨u, hleave, -, -, hfault⟩ := leave_outermost_fails hinside
  exact ⟨u, (assemblePlanes_strip hcode).trans ((bind_ok (hcleared.enter (by decide) hin)).trans
    ((bind_ok hloop).trans (bind_error hleave))), hfault⟩

end Sys2Proof.Machine

namespace Sys2Proof.Proofs

open Sys2Proof.Machine

/-- A container's registers after the scan: one line of 16 pixels in one plane, an empty strip body;
a palette of two colours; the chunk reader bound to the empty buffer 0 with no view open. -/
def noViewOpen : State :=
  { setSlot 0 ⟨true, 2, 8, [(0, ⟨true, 0, 0, 0, 255⟩), (1, ⟨true, 255, 255, 255, 255⟩)]⟩ State.reset with
    mem := [(1, ⟨2, []⟩), (2, ⟨64, []⟩)]
    ckr := ⟨true, some ⟨0, 0, 0⟩, 0, [], .clear⟩
    seq := { State.reset.seq with
      state := .assemble
      hdr := { Hdr.reset with
        width := 16, height := 1, planes := 1, compression := Config.codes.compStrip
        bytesPerLine := 2, valid := true } } }

/-- Refutes O57: nothing in the statement asks for an open view. With none open the view that
`SEQ.ASSEMBLE` opens over a strip body is the outermost one, and leaving it is CKR's fault `STACK`
(R268), which SEQ copies: `noViewOpen` does not end with `PLANES_MISSING`. -/
theorem not_seqAssembleBodies : ¬ Obligations.SeqAssembleBodies := by
  intro h
  have hready : ready .seq noViewOpen := ⟨rfl, rfl, rfl⟩
  obtain ⟨-, hstrip⟩ := h noViewOpen 0 1 2 (by unfold memoryOk; decide +kernel) hready rfl rfl rfl rfl
    (by decide) (by decide) (by decide) (by decide) rfl (by decide +kernel) (by decide) (by decide)
    (by decide +kernel) (by decide +kernel) rfl (by unfold setBelow; decide +kernel)
  obtain ⟨-, hmissing⟩ := hstrip rfl ⟨rfl, rfl, rfl⟩ rfl (by decide) [] rfl
  obtain ⟨t, hexec, -, hseq, -⟩ := hmissing (by decide)
  have hA : Assembling noViewOpen 1 2 :=
    { ready := hready
      state := rfl
      code := fun hbad => hbad.2.2 rfl
      pixels := by decide +kernel
      work := fun _ => by decide +kernel }
  have hview : Reading (wholeBuf noViewOpen.mem 0) [] noViewOpen := ⟨⟨rfl, rfl, rfl⟩, rfl, rfl, trivial⟩
  obtain ⟨u, hplanes, hfault⟩ := assemblePlanes_noView (tag := Config.codes.strip)
    (rw := wholeBuf noViewOpen.mem 1) (hd := noViewOpen.seq.hdr) (body := noViewOpen.seq.body) hview
    rfl (by decide) (by decide +kernel) rfl
  have hstack := hA.stops (c := 0) (bind_error hplanes)
  have hsame := congrArg (fun q : Seq => q.fault) (hseq.symm.trans
    (congrArg State.seq (Host.Outcome.next.inj (hexec.symm.trans hstack))))
  rw [closeContainer_eq, assembleSpoil_seq, hfault] at hsame
  exact absurd hsame (by decide)

end Sys2Proof.Proofs
end

section
/-! `SEQ.SCAN` of a good and complete container (R317, R324, R330): the view it leaves open, the side
channel it finds behind the outer chunk, the registers and the palette; O55. -/

namespace Sys2Proof.Machine

variable {s t : State} {c : BufRef} {off n behind : Nat} {m : Mem} {type tag : U32} {q : Seq}
  {bs tail : List Byte} {chunks : List (U32 × List Byte)}

/-! ### The side channel's header (R324) -/

/-- Bytes read as a number and written out again (R10). -/
theorem beBytes_beRead (m : Mem) (r : BufRef) (off : Nat) :
    ∀ n, beBytes n (beRead m r off n) = bytesOf m r off n
  | 0 => rfl
  | n + 1 => by
    have hlt : (refByte m r (off + n)).toNat < 256 := (refByte m r (off + n)).isLt
    have hhigh : (beRead m r off n * 256 + (refByte m r (off + n)).toNat) / 256 = beRead m r off n := by
      omega
    have hlow : BitVec.ofNat 8 (beRead m r off n * 256 + (refByte m r (off + n)).toNat) =
        refByte m r (off + n) := by
      refine BitVec.eq_of_toNat_eq ?_
      rw [BitVec.toNat_ofNat]
      omega
    rw [beRead, beBytes, hhigh, hlow, beBytes_beRead m r off n, bytesOf, bytesOf, List.range_succ,
      List.map_append]
    rfl

/-- A chunk header stands at an offset exactly if the two numbers read there are its tag and length. -/
theorem chunkHeader_iff (hb : bytesAt m c off bs) (hlen : 8 ≤ bs.length) :
    (bs.take 8 = beBytes 4 tag.toNat ++ beBytes 4 n ∧ n < 2 ^ 32) ↔
      (BitVec.ofNat 32 (beRead m c off 4), beRead m c (off + 4) 4) = (tag, n) := by
  have htake : bs.take 8 = bytesOf m c off 8 := by
    rw [← hb, take_bytesOf (by simpa using hlen)]
  rw [Prod.mk.injEq, htake]
  constructor
  · rintro ⟨hbytes, hn⟩
    obtain ⟨htag, hlength⟩ := bytesAt_append.mp (bytesAt_of_eq hbytes)
    rw [beBytes_length] at hlength
    rw [beRead_of_bytesAt htag tag.isLt, BitVec.ofNat_toNat, BitVec.setWidth_eq]
    exact ⟨rfl, beRead_of_bytesAt hlength hn⟩
  · rintro ⟨rfl, rfl⟩
    have hlt : beRead m c off 4 < 2 ^ 32 := beRead_lt m c off 4
    rw [BitVec.toNat_ofNat, Nat.mod_eq_of_lt hlt, beBytes_beRead, beBytes_beRead]
    refine ⟨?_, beRead_lt m c (off + 4) 4⟩
    rw [← List.take_append_drop 4 (bytesOf m c off 8), take_bytesOf (by decide), drop_bytesOf]

/-- The probe at the end of the outer chunk, with `tail` behind it to the container's end (R324). -/
theorem scanSide_at (hr : Reading c [⟨0, c.len, behind⟩] s) (hb : bytesAt s.mem c behind tail)
    (hlen : c.len = behind + tail.length) : scanSide Config.codes s =
      .ok () (scanned s.ckr.views s.pal
        { s.seq with side := sideOf Config.codes behind tail s.seq.side } s) := by
  have hview := hr.curView
  unfold scanSide
  by_cases hshort : tail.length < 8
  · rw [bind_ok (seqCall_ok (ckrPeekOp_none hr.ready (by rw [hview]; dsimp only; omega))), modify_run,
      sideOf, if_neg (fun h => nomatch h.1), if_neg (fun h => ?_)]
    · rfl
    · have hsize := h.2.2
      omega
  · have hpeek := ckrPeekOp_some hr.ready (by rw [hview]; dsimp only; omega)
    rw [viewRead, viewRead, hview, hr.source] at hpeek
    simp only [Nat.zero_add] at hpeek
    rw [bind_ok (seqCall_ok hpeek), modify_run]
    dsimp only
    have hiff : (some (BitVec.ofNat 32 (beRead s.mem c behind 4), beRead s.mem c (behind + 4) 4) =
          some (Config.codes.rastSide, Config.rastSideLen) ∧
        behind + 8 + Config.rastSideLen ≤ behind + tail.length) ↔
        tail.take 8 = beBytes 4 Config.codes.rastSide.toNat ++ beBytes 4 Config.rastSideLen ∧
          Config.rastSideLen < 2 ^ 32 ∧ 8 + Config.rastSideLen ≤ tail.length := by
      rw [Option.some.injEq, ← chunkHeader_iff hb (Nat.not_lt.mp hshort), and_assoc, Nat.add_assoc,
        Nat.add_le_add_iff_left]
    rw [hview, sideOf]
    simp only [hlen, Nat.zero_add]
    by_cases hside : tail.take 8 = beBytes 4 Config.codes.rastSide.toNat ++
        beBytes 4 Config.rastSideLen ∧ Config.rastSideLen < 2 ^ 32 ∧ 8 + Config.rastSideLen ≤ tail.length
    · rw [if_pos (hiff.mpr hside), if_pos hside]
      rfl
    · rw [if_neg fun h => hside (hiff.mp h), if_neg hside]
      rfl

/-! ### The palette chunk of a complete container (R322, R330) -/

theorem noteChunk_palPresent {k : Config.Codes} {base : Nat} {chunk : U32 × List Byte}
    (h : chunk.1 ≠ k.pal) : (noteChunk k base chunk q).palPresent = q.palPresent := by
  unfold noteChunk
  rw [if_neg h]
  split_ifs <;> rfl

/-- Chunks that record a palette hold one. -/
theorem exists_palette {k : Config.Codes} : ∀ {chunks : List (U32 × List Byte)} {pos : Nat} {q q' : Seq},
    noteChunks k pos chunks q = .ok q' → q.palPresent = false → q'.palPresent = true →
      ∃ c ∈ chunks, c.1 = k.pal
  | [], _, _, _, h, hnone, hsome => by
    obtain rfl := Except.ok.inj h
    rw [hnone] at hsome
    cases hsome
  | chunk :: chunks, pos, q, q', h, hnone, hsome => by
    by_cases hpal : chunk.1 = k.pal
    · exact ⟨chunk, List.mem_cons_self, hpal⟩
    · rw [noteChunks] at h
      cases hfault : chunkFault k chunk with
      | some e => rw [hfault] at h; cases h
      | none =>
        rw [hfault] at h
        obtain ⟨c, hc, hcpal⟩ := exists_palette h ((noteChunk_palPresent hpal).trans hnone) hsome
        exact ⟨c, List.mem_cons_of_mem _ hc, hcpal⟩

theorem incomplete_none (h : incomplete q = none) :
    q.body.present = true ∧ q.palPresent = true ∧ q.hdr.valid = true := by
  unfold incomplete at h
  split_ifs at h with hbody hpal hhdr
  exact ⟨by simpa using hbody, by simpa using hpal, by simpa using hhdr⟩

/-! ### The scan to its end -/

theorem paddedChunks_even : ∀ chunks : List (U32 × List Byte),
    (chunks.flatMap paddedChunk).length % 2 = 0
  | [] => rfl
  | chunk :: chunks => by
    have hrest := paddedChunks_even chunks
    rw [List.flatMap_cons, List.length_append, paddedChunk_length]
    omega

theorem scanComplete_ok (h : incomplete s.seq = none) :
    scanComplete s = .ok () { s with seq := { s.seq with state := .assemble } } := by
  obtain ⟨hbody, hpal, hhdr⟩ := incomplete_none h
  unfold scanComplete
  rw [get_bind, seqRaiseIf_bind (by simp [hbody]), seqRaiseIf_bind (by simp [hpal]),
    seqRaiseIf_bind (by simp [hhdr])]
  rfl

/-- The registers of a complete scan whose chunks left `q`, with `tail` behind the outer chunk (R324,
R330). -/
def completed (chunks : List (U32 × List Byte)) (tail : List Byte) (q : Seq) : Seq :=
  { q with
    state := .assemble
    side := sideOf Config.codes (12 + (chunks.flatMap paddedChunk).length) tail q.side }

section
variable (hr : Reading c [⟨0, c.len, 0⟩] s) (hc : ContainerAt s.mem c Config.codes type chunks [])
  (hgood : type = Config.codes.typeLine ∨ type = Config.codes.typeContig)
  (h : noteChunks Config.codes 12 chunks s.seq = .ok q)

include hr hc hgood h

/-- Behind good chunks the inner view is read to its end, and the outer one stands behind the outer
chunk, whose length is even (R262, R263). -/
theorem scanPass_behind : ∃ t fuel, Reading c [⟨8, outerLength chunks [],
      4 + (chunks.flatMap paddedChunk).length⟩,
      ⟨0, c.len, 12 + (chunks.flatMap paddedChunk).length⟩] t ∧
    scanPass Config.codes c s = scanInside Config.codes (fuel + 1) t ∧
    PalettesNoted Config.codes chunks s t ∧
    ∃ m p, t = scanned m p q (pushView 8 (outerLength chunks []) s) := by
  have hfits := hc.fits
  have hshort := hc.short
  have hcount := length_le_paddedChunks chunks
  have heven := paddedChunks_even chunks
  have hlength : outerLength chunks [] = 4 + (chunks.flatMap paddedChunk).length := rfl
  rw [hlength] at hfits
  obtain ⟨m, hm, hrun⟩ := scanPass_inside hr hc.header (by omega) hc.fits hc.subtype (by omega) rfl hgood
  have hpad : padProbe s (8 + outerLength chunks []) = 12 + (chunks.flatMap paddedChunk).length := by
    rw [padProbe_eq, if_neg (by omega)]
    omega
  rw [hpad] at hm
  have hin := (hr.pushView (base := 8) (len := outerLength chunks [])).scanned (p := s.pal) (q := s.seq) hm rfl
  have hat : ChunksAt s.mem c 8 (outerLength chunks []) 4 chunks :=
    ⟨hc.fits, by omega, rfl, hc.chunksAt, hlength.ge⟩
  obtain ⟨m', p, hm', hloop, hpal⟩ := scanLoop_good (fuel := c.len - chunks.length + 1)
    (vs := [⟨0, c.len, 12 + (chunks.flatMap paddedChunk).length⟩])
    (show 2 < Config.ckDepth by decide) hin hat h
  rw [← Nat.add_assoc, show chunks.length + (c.len - chunks.length) = c.len by omega] at hloop
  exact ⟨_, _, hin.scanned hm' rfl, hrun.trans (bind_run_congr hloop),
    ⟨fun hsome => (hpal.loads hsome).of_pal rfl, hpal.keeps⟩, m', p, rfl⟩

/-- A good and complete container is scanned to its end. -/
theorem scanPass_complete (hdone : incomplete q = none)
    (htail : bytesAt s.mem c (12 + (chunks.flatMap paddedChunk).length) tail)
    (hlen : c.len = 12 + (chunks.flatMap paddedChunk).length + tail.length) : ∃ m p,
    scanPass Config.codes c s = .ok () (scanned m p (completed chunks tail q) s) ∧
      PalettesNoted Config.codes chunks s (scanned m p (completed chunks tail q) s) := by
  obtain ⟨t, fuel, hin, hrun, hpal, m, p, rfl⟩ := scanPass_behind hr hc hgood h
  have hend := scanLoop_end (k := Config.codes) (fuel := fuel) hin le_rfl
  have hside := scanSide_at hin.popView htail hlen
  have hpass : scanInside Config.codes (fuel + 1) _ = .ok () (scanned m p (completed chunks tail q) s) :=
    (bind_ok hend).trans ((bind_ok hin.leave).trans ((bind_ok hside).trans (scanComplete_ok hdone)))
  exact ⟨m, p, hrun.trans hpass, fun hsome => (hpal.loads hsome).congr rfl, hpal.keeps⟩

end

end Sys2Proof.Machine

namespace Sys2Proof.Proofs

open Sys2Proof.Machine

/-- Settles O55: the chunks are an induction over their list; what is behind them is one probe. -/
theorem seqScanCompletes : Obligations.SeqScanCompletes := by
  intro s b type chunks tail q k behind hgood hshort hbytes hq hdone
  have hr := scanOpened_reading (wholeBuf s.mem b) s
  have hc : ContainerAt s.mem (wholeBuf s.mem b) k type chunks [] :=
    containerAt_of_bytes hbytes hshort
  have hnotes := noteChunks_fault (k := k) { s.seq.fault with valid := false } 12 chunks
    (scanStart s.seq)
  rw [hq] at hnotes
  have hsize : (containerBytes k type chunks []).length = behind := by
    rw [containerBytes, chunkBytes_length]
    simp only [List.append_nil, List.length_append, beBytes_length]
    omega
  have hlen := congrArg List.length hbytes
  rw [bytesOf_length, List.length_append, hsize] at hlen
  have htail := (bytesAt_append.mp (bytesAt_of_eq hbytes)).2
  rw [hsize, Nat.zero_add] at htail
  obtain ⟨m, p, hpass, hpal⟩ := scanPass_complete hr hc hgood hnotes hdone htail hlen
  have hload := hpal.loads (exists_palette hq rfl (incomplete_none hdone).2.1)
  exact ⟨_, runOp_ok ((seqScanOp_run ..).trans (bind_ok (onStop_ok hpass))), rfl,
    hload.holdsPalette, hload.others, hload.fault, rfl, rfl, rfl, rfl, rfl⟩

end Sys2Proof.Proofs
end

section
/-! No operation of an assembly looks at the reply register (R15): each runs alike whatever reply the
instruction before it has left. One lemma for each way operations are composed, then one for each
operation of the units that `SEQ.ASSEMBLE` issues. -/

namespace Sys2Proof.Machine

variable {α β : Type} {y : Reply} {x : Op α} {f : α → Op β} {φ : State → State} {u v : UnitId}
  {p : Prop} [Decidable p] {code : FaultCode} {n : Nat}

/-! ### Calls and passes, for any update -/

theorem through_onStop {g : State → State} (hx : Through φ x) (hg : ∀ s, g (φ s) = φ (g s)) :
    Through φ (onStop g x) := fun s => by
  unfold onStop
  rw [hx s]
  cases x s with
  | ok a t => rfl
  | error e t => exact congrArg _ (hg t)

theorem through_callFrom (hu : Beside φ u) (hv : Beside φ v) (hx : Through φ x) :
    Through φ (callFrom u v x) := fun s => by
  unfold callFrom
  rw [hx s]
  cases x s with
  | ok a t => rfl
  | error e t =>
    cases e with
    | faulted => exact congrArg _ ((congrArg (withFault u · _) (hv.fault t)).trans (hu.raise t _))
    | refused => exact congrArg _ ((congrArg (withFault u · _) (hv.fault t)).trans (hu.raise t _))
    | outside r => rfl

theorem through_endPass (hx : Through φ x) (hu : ∀ s, unbind u (φ s) = φ (unbind u s)) :
    Through φ (endPass u x) := fun s => by
  unfold endPass
  rw [hx s]
  cases x s with
  | ok a t => exact congrArg _ (hu t)
  | error e t => exact congrArg _ (hu t)

theorem through_forFrom {g : Nat → Op Unit} (hg : ∀ i, Through φ (g i)) :
    ∀ n i, Through φ (forFrom g i n)
  | 0, _ => through_pure ()
  | n + 1, i => through_bind (hg i) fun _ => through_forFrom hg n (i + 1)

theorem through_times {g : Op Unit} (hg : Through φ g) : ∀ n, Through φ (times g n)
  | 0 => through_pure ()
  | n + 1 => through_bind hg fun _ => through_times hg n

/-! ### The reply -/

/-- The reply replaced. -/
def withReply (y : Reply) (s : State) : State := { s with reply := y }

theorem beside_withReply (y : Reply) (u : UnitId) : Beside (withReply y) u := by
  cases u <;> exact ⟨fun _ => rfl, fun _ => rfl, fun _ => rfl, fun _ _ => rfl⟩

theorem unbind_withReply (y : Reply) (u : UnitId) (s : State) :
    unbind u (withReply y s) = withReply y (unbind u s) := by cases u <;> rfl

/-- The operation does not look at the reply. -/
def Blind (x : Op α) : Prop := ∀ y, Through (withReply y) x

theorem blind_pure (a : α) : Blind (pure a : Op α) := fun _ => through_pure a

theorem blind_bind (hx : Blind x) (hf : ∀ a, Blind (f a)) : Blind (x >>= f) := fun y =>
  through_bind (hx y) fun a => hf a y

/-- A result passed on changed, or dropped. -/
theorem blind_map {g : α → β} (hx : Blind x) : Blind (x >>= fun a => pure (g a)) :=
  blind_bind hx fun a => blind_pure (g a)

theorem blind_get {g : State → Op β} (hg : ∀ y s, g (withReply y s) = g s) (h : ∀ s, Blind (g s)) :
    Blind (get >>= g) := fun y => through_get (hg y) fun s => h s y

theorem blind_modify {g : State → State} (h : ∀ y s, g (withReply y s) = withReply y (g s)) :
    Blind (modify g) := fun y => through_modify (h y)

theorem blind_set {g : State → State} {k : Unit → Op β}
    (h : ∀ y s, g (withReply y s) = withReply y (g s)) (hk : Blind (k ())) :
    Blind (modify g >>= k) := blind_bind (blind_modify h) fun _ => hk

theorem blind_raise : Blind (raise u code n : Op α) := fun y =>
  through_raise (beside_withReply y u) code n

theorem blind_raiseIf : Blind (raiseIf p u code n) := fun y =>
  through_raiseIf (beside_withReply y u) code n

theorem blind_check {k : Unit → Op β} (hk : Blind (k ())) : Blind (raiseIf p u code n >>= k) :=
  blind_bind blind_raiseIf fun _ => hk

theorem blind_enter {k : Unit → Op β} (hk : Blind (k ())) : Blind (enter u >>= k) :=
  blind_bind (fun y => through_enter (beside_withReply y u)) fun _ => hk

theorem blind_clear {k : Unit → Op β} (hk : Blind (k ())) : Blind (clearFault u >>= k) :=
  blind_bind (fun y => through_clearFault (beside_withReply y u)) fun _ => hk

theorem blind_refuseIf {r : Refusal} : Blind (refuseIf p r) := by
  unfold refuseIf
  split
  · exact fun _ _ => rfl
  · exact blind_pure ()

theorem blind_ite {x' : Op α} (hx : Blind x) (hx' : Blind x') : Blind (if p then x else x') :=
  fun y => through_ite (hx y) (hx' y)

theorem blind_onStop {g : State → State} (hx : Blind x)
    (hg : ∀ y s, g (withReply y s) = withReply y (g s)) : Blind (onStop g x) := fun y =>
  through_onStop (hx y) (hg y)

theorem blind_callFrom (hx : Blind x) : Blind (callFrom u v x) := fun y =>
  through_callFrom (beside_withReply y u) (beside_withReply y v) (hx y)

theorem blind_endPass (hx : Blind x) : Blind (endPass u x) := fun y =>
  through_endPass (hx y) (unbind_withReply y u)

theorem blind_forFrom {g : Nat → Op Unit} (hg : ∀ i, Blind (g i)) (n i : Nat) :
    Blind (forFrom g i n) := fun y => through_forFrom (fun i => hg i y) n i

theorem blind_times {g : Op Unit} (hg : Blind g) (n : Nat) : Blind (times g n) := fun y =>
  through_times (hg y) n

theorem blind_seqCall (hx : Blind x) : Blind (seqCall v x) :=
  blind_onStop (blind_callFrom hx) fun _ _ => rfl

theorem blind_seqRaiseIf : Blind (seqRaiseIf p code n) := blind_onStop blind_raiseIf fun _ _ => rfl

/-! ### Memory -/

theorem blind_memRead (r : BufRef) (off : Nat) : Blind (memRead u r off n) :=
  blind_check <| blind_get (fun _ _ => rfl) fun _ => blind_pure _

theorem blind_memWrite (r : BufRef) (off w : Nat) : Blind (memWrite u r off n w) :=
  blind_check <| blind_modify fun _ _ => rfl

/-! ### Palettes and their views -/

theorem blind_palEhb (sd ss : Nat) : Blind (palEhbOp sd ss) := fun y =>
  through_palEhb (beside_withReply y .pal) (fun _ => rfl) (fun _ _ _ => rfl) sd ss

theorem blind_view8 (slot : Nat) : Blind (view8 u slot) :=
  blind_bind (fun y => through_checkSlot (beside_withReply y u) slot) fun _ =>
    blind_bind (fun y => through_checkMade (beside_withReply y u) (fun _ => rfl) slot) fun _ =>
      blind_get (fun _ _ => rfl) fun _ => blind_pure _

/-! ### The plane reader and the pixel writer -/

theorem blind_bprInit (r : BufRef) (g : Geometry) : Blind (bprInitOp r g) :=
  blind_clear <| blind_check <| blind_set (fun _ _ => rfl) (blind_pure _)

theorem blind_bprFetch : Blind bprFetch :=
  blind_get (fun _ _ => rfl) fun s => by
    dsimp only
    split
    · exact blind_raise
    · exact blind_modify fun _ _ => rfl

theorem blind_bprReadCore : Blind bprReadCore :=
  have hrest : Blind (do
      let t ← get
      modify fun s => { s with bpr := { s.bpr with cur := stepCursor s.bpr.geom s.bpr.cur } }
      pure (bprCached t) : Op Byte) :=
    blind_get (fun _ _ => rfl) fun _ => blind_set (fun _ _ => rfl) (blind_pure _)
  blind_get (fun _ _ => rfl) fun _ =>
    blind_ite (blind_bind blind_bprFetch fun _ => hrest) (blind_bind blind_refuseIf fun _ => hrest)

theorem blind_bprRead : Blind bprReadOp := blind_enter blind_bprReadCore

theorem blind_bprAdv (n : Nat) : Blind (bprAdvOp n) :=
  blind_enter <| blind_bind (blind_times (blind_map blind_bprReadCore) n) fun _ => blind_pure _

theorem blind_pxwInit (r : BufRef) (slot : Nat) : Blind (pxwInitOp r slot) :=
  blind_clear <| blind_bind (blind_view8 slot) fun _ => blind_set (fun _ _ => rfl) (blind_pure _)

theorem blind_pxwStore (colour : U32) : Blind (pxwStore colour) :=
  blind_get (fun _ _ => rfl) fun _ => blind_bind (blind_memWrite _ _ _) fun _ =>
    blind_set (fun _ _ => rfl) (blind_pure _)

theorem blind_pxwWrite (index : Nat) : Blind (pxwWriteOp index) :=
  blind_enter <| blind_get (fun _ _ => rfl) fun _ => blind_check <| blind_check <| blind_pxwStore _

theorem blind_pxwWritec (colour : U32) : Blind (pxwWritecOp colour) :=
  blind_enter <| blind_pxwStore colour

/-! ### Hold-and-Modify and raster palettes -/

theorem blind_hamPixel (sel : HamSel) (planes data : Nat) : Blind (hamPixel sel planes data) := by
  cases sel with
  | base =>
    exact blind_get (fun _ _ => rfl) fun _ => blind_check <| blind_check <|
      blind_modify fun _ _ => rfl
  | modb => exact blind_modify fun _ _ => rfl
  | modr => exact blind_modify fun _ _ => rfl
  | modg => exact blind_modify fun _ _ => rfl

theorem blind_hamInit (planes slot : Nat) : Blind (hamInitOp planes slot) :=
  blind_clear <| blind_check <| blind_bind (blind_view8 slot) fun _ =>
    blind_set (fun _ _ => rfl) (blind_pure _)

theorem blind_hamRead : Blind hamReadOp :=
  blind_enter <| blind_get (fun _ _ => rfl) fun _ => blind_check <|
    blind_bind (blind_callFrom blind_bprRead) fun _ => blind_bind (blind_hamPixel _ _ _) fun _ =>
      blind_get (fun _ _ => rfl) fun _ => blind_pure _

theorem blind_hamAdv (n : Nat) : Blind (hamAdvOp n) :=
  blind_enter <| blind_callFrom (blind_bprAdv n)

theorem installLut_withReply (con : Consumer) (l : Lut) (y : Reply) (s : State) :
    installLut con l (withReply y s) = withReply y (installLut con l s) := by cases con <;> rfl

theorem blind_rpaSelect (line : Nat) : Blind (rpaSelectOp line) :=
  blind_enter <| blind_get (fun _ _ => rfl) fun _ => blind_ite (blind_pure _) <| blind_check <|
    blind_set (fun y s => installLut_withReply s.rpa.consumer _ y s) (blind_pure _)

/-! ### The Packbits decoder -/

theorem blind_pbdNext : Blind pbdNext :=
  blind_get (fun _ _ => rfl) fun _ => blind_check <| blind_set (fun _ _ => rfl) (blind_pure _)

theorem blind_pbdEmit (w : Byte) : Blind (pbdEmit w) :=
  blind_get (fun _ _ => rfl) fun _ => blind_bind (blind_memWrite _ _ _) fun _ =>
    blind_modify fun _ _ => rfl

theorem blind_whileRoom {x : Op Unit} (hx : Blind x) : Blind (whileRoom x) :=
  blind_get (fun _ _ => rfl) fun _ => blind_ite hx (blind_pure _)

theorem blind_pbCommand (c : PbCmd) : Blind (pbCommand c) := by
  cases c with
  | nop => exact blind_modify fun _ _ => rfl
  | run n =>
    exact blind_set (fun _ _ => rfl) <| blind_bind blind_pbdNext fun w =>
      blind_times (blind_whileRoom (blind_pbdEmit w)) _
  | lit n =>
    exact blind_set (fun _ _ => rfl) <|
      blind_times (blind_whileRoom (blind_bind blind_pbdNext blind_pbdEmit)) _

theorem blind_depackLoop : ∀ fuel, Blind (depackLoop fuel)
  | 0 => blind_pure ()
  | fuel + 1 => blind_get (fun _ _ => rfl) fun _ =>
    blind_ite
      (blind_bind (blind_get (fun _ _ => rfl) fun _ => blind_check (blind_pure _)) fun _ =>
        blind_bind (blind_pbCommand _) fun _ => blind_depackLoop fuel)
      (blind_pure _)

theorem blind_pbdDepack (src dst : BufRef) (sp dbase size : Nat) :
    Blind (pbdDepackOp src sp dst dbase size) :=
  blind_clear <| blind_check <| blind_check <| blind_set (fun _ _ => rfl) <|
    blind_bind (blind_endPass (blind_onStop (blind_depackLoop _) fun _ _ => rfl)) fun _ =>
      blind_get (fun _ _ => rfl) fun _ => blind_pure _

/-! ### The strip decoder -/

variable {lay : Config.VdatLayout}

theorem blind_vddStop (st : VddStatus) : Blind (vddStop st) := blind_set (fun _ _ => rfl) (blind_pure _)

theorem blind_vddNextWord : Blind (vddNextWord lay) :=
  blind_get (fun _ _ => rfl) fun _ => blind_ite (blind_pure _) <|
    blind_bind (blind_memRead _ _) fun _ => blind_set (fun _ _ => rfl) (blind_pure _)

theorem blind_vddEmit (w : Byte × Byte) : Blind (vddEmit w) :=
  blind_get (fun _ _ => rfl) fun _ => blind_ite (blind_vddStop _) <|
    blind_bind (blind_memWrite _ _ _) fun _ => blind_set (fun _ _ => rfl) (blind_pure _)

/-- A word fetched, and what goes on with it. -/
theorem blind_word {g : Option (Byte × Byte) → Op β} (hnone : Blind (g none))
    (hsome : ∀ w, Blind (g (some w))) : Blind (vddNextWord lay >>= g) :=
  blind_bind blind_vddNextWord fun w => by
    cases w with
    | none => exact hnone
    | some w => exact hsome w

theorem blind_vddCopyOne : Blind (vddCopyOne lay) :=
  blind_word (blind_get (fun _ _ => rfl) fun _ => blind_vddStop _) blind_vddEmit

theorem blind_vddRepeat {x : Op Bool} (hx : Blind x) : ∀ n, Blind (vddRepeat x n)
  | 0 => blind_pure _
  | n + 1 => blind_bind hx fun _ => blind_ite (blind_pure _) (blind_vddRepeat hx n)

theorem blind_vdCommand (c : VdCmd) : Blind (vdCommand lay c) := by
  cases c with
  | copyx =>
    exact blind_set (fun _ _ => rfl) <| blind_word (blind_vddStop _) fun _ =>
      blind_vddRepeat blind_vddCopyOne _
  | copy n => exact blind_set (fun _ _ => rfl) <| blind_vddRepeat blind_vddCopyOne _
  | runx =>
    exact blind_set (fun _ _ => rfl) <| blind_word (blind_vddStop _) fun _ =>
      blind_word (blind_vddStop _) fun w => blind_vddRepeat (blind_vddEmit w) _
  | run n =>
    exact blind_set (fun _ _ => rfl) <| blind_word (blind_vddStop _) fun w =>
      blind_vddRepeat (blind_vddEmit w) _

theorem blind_vddLoop : ∀ fuel, Blind (vddLoop lay fuel)
  | 0 => blind_pure ()
  | fuel + 1 => blind_get (fun _ _ => rfl) fun _ =>
    blind_ite (blind_map (blind_vddStop _)) <| blind_ite (blind_map (blind_vddStop _)) <|
      blind_bind (blind_memRead _ _) fun _ => blind_bind (blind_vdCommand _) fun _ =>
        blind_ite (blind_pure _) (blind_vddLoop fuel)

theorem blind_vddDecode (src dst : BufRef) (base len dbase bpl h : Nat) :
    Blind (vddDecodeOp lay src base len dst dbase bpl h) :=
  blind_clear <| blind_check <| blind_check <| blind_check <| blind_check <|
    blind_set (fun _ _ => rfl) <| blind_bind (blind_endPass (blind_vddLoop _)) fun _ =>
      blind_get (fun _ _ => rfl) fun _ => blind_pure _

/-! ### The chunk reader -/

theorem blind_ckrEof : Blind ckrEofOp := blind_enter <| blind_get (fun _ _ => rfl) fun _ => blind_pure _

theorem blind_ckrReadchunk : Blind ckrReadchunkOp :=
  blind_enter <| blind_get (fun _ _ => rfl) fun _ => blind_check <| blind_check <|
    blind_set (fun _ _ => rfl) (blind_pure _)

theorem blind_ckrEnter (base len : Nat) : Blind (ckrEnterOp base len) :=
  blind_enter <| blind_get (fun _ _ => rfl) fun _ => blind_check <| blind_check <|
    blind_modify fun _ _ => rfl

theorem blind_ckrLeave : Blind ckrLeaveOp :=
  blind_enter <| blind_get (fun _ _ => rfl) fun _ => blind_check <| blind_modify fun _ _ => rfl

/-! ### The assembly -/

variable {hd : Hdr} {body : BodyDesc} {c w rx : BufRef} {tag : U32}

theorem blind_stripLoop (lb h planes : Nat) : ∀ fuel k, Blind (stripLoop tag c w lb h planes fuel k)
  | 0, _ => blind_pure _
  | fuel + 1, k => blind_bind (blind_seqCall blind_ckrEof) fun _ => blind_ite (blind_pure _) <|
    blind_bind (blind_seqCall blind_ckrReadchunk) fun _ =>
      blind_ite
        (blind_bind (blind_seqCall (blind_vddDecode _ _ _ _ _ _ _)) fun _ =>
          blind_stripLoop lb h planes fuel (k + 1))
        (blind_stripLoop lb h planes fuel k)

theorem blind_assemblePlanes : Blind (assemblePlanes tag c w hd body) :=
  blind_ite (blind_pure _) <| blind_ite (blind_map (blind_seqCall (blind_pbdDepack _ _ _ _ _))) <|
    blind_set (fun _ _ => rfl) <| blind_bind (blind_seqCall (blind_ckrEnter _ _)) fun _ =>
      blind_bind (blind_stripLoop _ _ _ _ _) fun _ =>
        blind_bind (blind_seqCall blind_ckrLeave) fun _ => blind_map blind_seqRaiseIf

theorem blind_activeSlot : Blind activeSlot :=
  blind_get (fun _ _ => rfl) fun _ =>
    blind_ite (blind_map (blind_seqCall (blind_palEhb 1 0))) (blind_pure _)

theorem blind_decodePixel : Blind decodePixel :=
  blind_bind (blind_seqCall blind_bprRead) fun _ => blind_map (blind_seqCall (blind_pxwWrite _))

theorem blind_hamPixelOut : Blind hamPixelOut :=
  blind_bind (blind_seqCall blind_hamRead) fun _ => blind_map (blind_seqCall (blind_pxwWritec _))

theorem blind_paintLines {raster : Bool} {pixel skip : Op Unit} (hpixel : Blind pixel)
    (hskip : Blind skip) (width height : Nat) : Blind (paintLines raster pixel skip width height) :=
  blind_forFrom (fun line => by
    have hline := blind_bind (blind_times hpixel width) fun _ => hskip
    cases raster with
    | false => exact hline
    | true => exact blind_bind (blind_seqCall (blind_rpaSelect line)) fun _ => hline) height 0

theorem blind_assemblePixels : Blind (assemblePixels hd) := by
  have hham (raster : Bool) : Blind (paintLines raster hamPixelOut
      (do let _ ← seqCall .ham (hamAdvOp (padPixels hd.bytesPerLine hd.width.toNat)))
      hd.width.toNat hd.height.toNat) :=
    blind_paintLines blind_hamPixelOut (blind_map (blind_seqCall (blind_hamAdv _))) _ _
  have hplain (raster : Bool) : Blind (paintLines raster decodePixel
      (do let _ ← seqCall .bpr (bprAdvOp (padPixels hd.bytesPerLine hd.width.toNat)))
      hd.width.toNat hd.height.toNat) :=
    blind_paintLines blind_decodePixel (blind_map (blind_seqCall (blind_bprAdv _))) _ _
  refine blind_get (fun _ _ => rfl) fun s => ?_
  dsimp only
  split_ifs
  · exact blind_set (fun _ _ => rfl) (hham _)
  · exact hham _
  · exact blind_set (fun _ _ => rfl) (hplain _)
  · exact hplain _

theorem blind_assembleImage {pg : BufRef × Geometry} : Blind (assembleImage rx pg hd) :=
  blind_bind (blind_seqCall (blind_bprInit _ _)) fun _ => blind_endPass <|
    blind_bind blind_activeSlot fun _ => blind_bind (blind_seqCall (blind_pxwInit _ _)) fun _ =>
      blind_endPass <| blind_get (fun _ _ => rfl) fun s => by
        dsimp only
        split_ifs
        · exact blind_bind (blind_seqCall (blind_hamInit _ _)) fun _ => blind_assemblePixels
        · exact blind_assemblePixels

theorem closeContainer_withReply (y : Reply) (s : State) :
    closeContainer c (withReply y s) = withReply y (closeContainer c s) := by
  rw [closeContainer_eq, closeContainer_eq]
  rfl

theorem assembleSpoil_withReply (y : Reply) (s : State) :
    assembleSpoil w rx hd (withReply y s) = withReply y (assembleSpoil w rx hd s) := by
  unfold assembleSpoil
  split <;> rfl

/-- `SEQ.ASSEMBLE` runs alike whatever the last reply was. -/
theorem blind_seqAssemble (k : Config.Codes) : Blind (seqAssembleOp k c w rx) :=
  blind_enter <| blind_get (fun _ _ => rfl) fun _ => blind_check <|
    blind_bind (blind_onStop blind_seqRaiseIf fun _ _ => rfl) fun _ => blind_check <| blind_check <|
      blind_bind
        (blind_onStop
          (blind_bind blind_assemblePlanes fun _ => blind_bind blind_assembleImage fun _ =>
            blind_set (fun _ _ => rfl) (blind_modify closeContainer_withReply))
          fun y s => by rw [assembleSpoil_withReply, closeContainer_withReply])
        fun _ => blind_pure _

end Sys2Proof.Machine
end

section
/-! What a scan keeps while it runs (R317, R383, R385): the memory, and the chunk reader's binding to the
container, so that nothing in it is outside the spec (R422); `SEQ.DECODEC` is the scan and then the
assembly (R316). -/

namespace Sys2Proof.Machine

variable {α β : Type} {c rw rx : BufRef} {P : Stop → Prop} {x : Op α} {f : α → Op β} {s t : State}
  {u : UnitId} {p : Prop} [Decidable p] {code : FaultCode} {n : Nat} {k : Config.Codes}

/-! ### Operations amid a scan of `c` -/

/-- With the chunk reader bound to `c` the operation keeps the memory and, if it completes, the binding;
it stops in no way but `P`. -/
structure Amid (c : BufRef) (P : Stop → Prop) (x : Op α) : Prop where
  ok : ∀ {s a t}, s.ckr.src = some c → x s = .ok a t → t.mem = s.mem ∧ t.ckr.src = some c
  error : ∀ {s e t}, s.ckr.src = some c → x s = .error e t → P e ∧ t.mem = s.mem

/-- A stop that the spec describes. -/
def Described (e : Stop) : Prop := e = .faulted ∨ e = .refused

/-- A stop with a fault. -/
def Faults (e : Stop) : Prop := e = .faulted

theorem amid_of_cases (h : ∀ s, s.ckr.src = some c →
    (∃ a t, x s = .ok a t ∧ t.mem = s.mem ∧ t.ckr.src = some c) ∨
      ∃ e t, x s = .error e t ∧ P e ∧ t.mem = s.mem) : Amid c P x where
  ok {s a t} hsrc hx := by
    obtain ⟨a', t', hx', hkeeps⟩ | ⟨e, t', hx', -⟩ := h s hsrc
    · cases hx.symm.trans hx'
      exact hkeeps
    · cases hx.symm.trans hx'
  error {s e t} hsrc hx := by
    obtain ⟨a, t', hx', -⟩ | ⟨e', t', hx', hkeeps⟩ := h s hsrc
    · cases hx.symm.trans hx'
    · cases hx.symm.trans hx'
      exact hkeeps

theorem amid_pure (a : α) : Amid c P (pure a : Op α) :=
  ⟨fun hsrc h => by cases h; exact ⟨rfl, hsrc⟩, fun _ h => nomatch h⟩

theorem amid_bind (hx : Amid c P x) (hf : ∀ a, Amid c P (f a)) : Amid c P (x >>= f) where
  ok hsrc h := by
    obtain ⟨a, t, hxt, hft⟩ := ok_of_bind_ok h
    obtain ⟨hmem, hsrc'⟩ := hx.ok hsrc hxt
    obtain ⟨hmem', hsrc''⟩ := (hf a).ok hsrc' hft
    exact ⟨hmem'.trans hmem, hsrc''⟩
  error hsrc h := by
    rcases error_of_bind_error h with h | ⟨a, t, hxt, hft⟩
    · exact hx.error hsrc h
    · obtain ⟨hmem, hsrc'⟩ := hx.ok hsrc hxt
      obtain ⟨he, hmem'⟩ := (hf a).error hsrc' hft
      exact ⟨he, hmem'.trans hmem⟩

theorem amid_map {g : α → β} (hx : Amid c P x) : Amid c P (x >>= fun a => pure (g a)) :=
  amid_bind hx fun a => amid_pure (g a)

theorem amid_get {g : State → Op β} (h : ∀ s, Amid c P (g s)) : Amid c P (get >>= g) :=
  ⟨fun hsrc hg => (h _).ok hsrc hg, fun hsrc hg => (h _).error hsrc hg⟩

theorem amid_modify {g : State → State} (hmem : ∀ s, (g s).mem = s.mem)
    (hsrc : ∀ s, (g s).ckr.src = s.ckr.src) : Amid c P (modify g) :=
  ⟨fun hs h => by cases h; exact ⟨hmem _, (hsrc _).trans hs⟩, fun _ h => nomatch h⟩

theorem amid_set {g : State → State} {k : Unit → Op β} (hmem : ∀ s, (g s).mem = s.mem)
    (hsrc : ∀ s, (g s).ckr.src = s.ckr.src) (hk : Amid c P (k ())) : Amid c P (modify g >>= k) :=
  amid_bind (amid_modify hmem hsrc) fun _ => hk

theorem amid_raiseIf (hP : P .faulted) : Amid c P (raiseIf p u code n) :=
  amid_of_cases fun s hsrc => by
    by_cases hp : p
    · exact .inr ⟨_, _, raiseIf_true hp _ _ _ _, hP, withFault_mem ..⟩
    · exact .inl ⟨_, _, raiseIf_false hp _ _ _ _, rfl, hsrc⟩

theorem amid_check (hP : P .faulted) {k : Unit → Op β} (hk : Amid c P (k ())) :
    Amid c P (raiseIf p u code n >>= k) := amid_bind (amid_raiseIf hP) fun _ => hk

theorem amid_clear {k : Unit → Op β} (hk : Amid c P (k ())) : Amid c P (clearFault u >>= k) :=
  amid_set (fun s => withFault_mem ..) (fun s => by cases u <;> rfl) hk

/-- A unit without a binding, or the chunk reader itself, is entered, refused or faulted. -/
theorem amid_enter (hu : u = .ckr ∨ keepsBinding u = false) {k : Unit → Op β}
    (hk : Amid c Described (k ())) : Amid c Described (enter u >>= k) := by
  have hbound {s : State} (hsrc : s.ckr.src = some c) : bound u s = true := by
    rcases hu with rfl | hkeeps
    · show (!true || s.ckr.src.isSome) = true
      rw [hsrc]
      rfl
    · rw [bound, hkeeps]
      rfl
  refine amid_bind (amid_of_cases fun s hsrc => ?_) fun _ => hk
  cases hv : (faultOf u s).valid with
  | true => exact .inr ⟨_, _, enter_faulted hv, .inr rfl, rfl⟩
  | false =>
    cases hi : initOf u s with
    | false => exact .inr ⟨_, _, enter_unready hv hi, .inl rfl, withFault_mem ..⟩
    | true => exact .inl ⟨_, _, enter_ready ⟨hv, hi, hbound hsrc⟩, rfl, hsrc⟩

theorem amid_seqCall (hx : Amid c Described x) : Amid c Faults (seqCall u x) :=
  amid_of_cases fun s hsrc => by
    cases hxs : x s with
    | ok a t => exact .inl ⟨_, _, seqCall_ok hxs, hx.ok hsrc hxs⟩
    | error e t =>
      obtain ⟨rfl | rfl, hmem⟩ := hx.error hsrc hxs
      · exact .inr ⟨_, _, seqCall_faulted hxs, rfl, hmem⟩
      · exact .inr ⟨_, _, seqCall_refused hxs, rfl, hmem⟩

theorem amid_seqRaiseIf : Amid c Faults (seqRaiseIf p code n) :=
  amid_of_cases fun s hsrc => by
    by_cases hp : p
    · exact .inr ⟨_, _, seqRaiseIf_true hp _ _ _, rfl, rfl⟩
    · exact .inl ⟨_, _, seqRaiseIf_false hp _ _ _, rfl, hsrc⟩

theorem amid_ite {y : Op α} (hx : Amid c P x) (hy : Amid c P y) : Amid c P (if p then x else y) := by
  split
  · exact hx
  · exact hy

theorem amid_forFrom {g : Nat → Op Unit} (hg : ∀ i, Amid c P (g i)) : ∀ n i, Amid c P (forFrom g i n)
  | 0, _ => amid_pure ()
  | n + 1, i => amid_bind (hg i) fun _ => amid_forFrom hg n (i + 1)

/-! ### The operations that a scan issues -/

theorem described_faulted : Described .faulted := .inl rfl

/-- An operation of the chunk reader. -/
theorem amid_ckr {k : Unit → Op β} (hk : Amid c Described (k ())) :
    Amid c Faults (seqCall .ckr (enter .ckr >>= k)) := amid_seqCall (amid_enter (.inl rfl) hk)

theorem amid_ckrEof : Amid c Faults (seqCall .ckr ckrEofOp) := amid_ckr <| amid_get fun _ => amid_pure _

theorem amid_ckrPeek : Amid c Faults (seqCall .ckr ckrPeekOp) :=
  amid_ckr <| amid_get fun _ => amid_ite (amid_pure _) (amid_pure _)

theorem amid_ckrReadchunk : Amid c Faults (seqCall .ckr ckrReadchunkOp) :=
  amid_ckr <| amid_get fun _ => amid_check described_faulted <| amid_check described_faulted <|
    amid_set (fun _ => rfl) (fun _ => rfl) (amid_pure _)

theorem amid_ckrEnter (base len : Nat) : Amid c Faults (seqCall .ckr (ckrEnterOp base len)) :=
  amid_ckr <| amid_get fun _ => amid_check described_faulted <| amid_check described_faulted <|
    amid_modify (fun _ => rfl) fun _ => rfl

theorem amid_ckrLeave : Amid c Faults (seqCall .ckr ckrLeaveOp) :=
  amid_ckr <| amid_get fun _ => amid_check described_faulted <| amid_modify (fun _ => rfl) fun _ => rfl

theorem amid_seqRd (n : Nat) : Amid c Faults (seqRd n) :=
  amid_ckr <| amid_get fun _ => amid_check described_faulted <|
    amid_set (fun _ => rfl) (fun _ => rfl) (amid_pure _)

theorem amid_palCreate (slot count : Nat) (bpc : Option Nat) :
    Amid c Faults (seqCall .pal (palCreateOp slot count bpc)) :=
  amid_seqCall <| amid_clear <| amid_check described_faulted <| amid_check described_faulted <|
    amid_check described_faulted <| amid_set (fun _ => rfl) (fun _ => rfl) (amid_pure _)

theorem amid_palSet (slot i : Nat) (r g b : U32) (a : Option U32) :
    Amid c Faults (seqCall .pal (palSetOp slot i r g b a)) :=
  amid_seqCall <| amid_enter (.inr rfl) <| amid_check described_faulted <|
    amid_bind (amid_get fun _ => amid_raiseIf described_faulted) fun _ =>
      amid_get fun _ => amid_check described_faulted <|
        amid_set (fun _ => rfl) (fun _ => rfl) (amid_pure _)

/-! ### The scan -/

theorem amid_modHdr (g : Hdr → Hdr) : Amid c Faults (modHdr g) := amid_modify (fun _ => rfl) fun _ => rfl

theorem amid_readFields : ∀ ds : List (Nat × (Nat → Hdr → Hdr)), Amid c Faults (readFields ds)
  | [] => amid_pure ()
  | d :: ds => amid_bind (amid_seqRd d.1) fun _ => amid_bind (amid_modHdr _) fun _ => amid_readFields ds

theorem amid_scanHeader (base len : Nat) : Amid c Faults (scanHeader base len) :=
  amid_bind amid_seqRaiseIf fun _ => amid_bind (amid_ckrEnter _ _) fun _ =>
    amid_bind (readHeader_eq ▸ amid_readFields headerFields) fun _ =>
      amid_bind amid_ckrLeave fun _ => amid_bind (amid_modHdr _) fun _ =>
        amid_get fun _ => amid_bind amid_seqRaiseIf fun _ => amid_seqRaiseIf

theorem amid_scanMode (base len : Nat) : Amid c Faults (scanMode base len) :=
  amid_bind amid_seqRaiseIf fun _ => amid_bind (amid_ckrEnter _ _) fun _ =>
    amid_bind (amid_seqRd 4) fun _ => amid_set (fun _ => rfl) (fun _ => rfl) amid_ckrLeave

theorem amid_scanPaletteEntry (i : Nat) : Amid c Faults (scanPaletteEntry i) :=
  amid_bind (amid_seqRd 1) fun _ => amid_bind (amid_seqRd 1) fun _ => amid_bind (amid_seqRd 1) fun _ =>
    amid_map (amid_palSet _ _ _ _ _ _)

theorem amid_scanPalette (base len : Nat) : Amid c Faults (scanPalette base len) :=
  amid_bind amid_seqRaiseIf fun _ => amid_bind (amid_palCreate _ _ _) fun _ =>
    amid_bind (amid_ckrEnter _ _) fun _ =>
      amid_bind (amid_forFrom amid_scanPaletteEntry _ 0) fun _ => amid_bind amid_ckrLeave fun _ =>
        amid_modify (fun _ => rfl) fun _ => rfl

theorem amid_scanChunk (tag : U32) (len base : Nat) : Amid c Faults (scanChunk k tag len base) := by
  unfold scanChunk
  split_ifs
  · exact amid_scanHeader _ _
  · exact amid_scanMode _ _
  · exact amid_scanPalette _ _
  · exact amid_modify (fun _ => rfl) fun _ => rfl
  · exact amid_modify (fun _ => rfl) fun _ => rfl
  · exact amid_modify (fun _ => rfl) fun _ => rfl
  · exact amid_modify (fun _ => rfl) fun _ => rfl
  · exact amid_modify (fun _ => rfl) fun _ => rfl
  · exact amid_pure ()

theorem amid_scanLoop : ∀ fuel, Amid c Faults (scanLoop k fuel)
  | 0 => amid_pure ()
  | fuel + 1 => amid_bind amid_ckrEof fun _ => amid_ite (amid_pure ()) <|
    amid_bind amid_ckrReadchunk fun _ => amid_bind (amid_scanChunk _ _ _) fun _ => amid_scanLoop fuel

theorem amid_scanSide : Amid c Faults (scanSide k) :=
  amid_bind amid_ckrPeek fun _ => amid_modify (fun _ => by dsimp only; split <;> rfl)
    fun _ => by dsimp only; split <;> rfl

theorem amid_scanPass : Amid c Faults (scanPass k c) :=
  amid_bind amid_ckrReadchunk fun _ => amid_bind amid_seqRaiseIf fun _ =>
    amid_bind (amid_ckrEnter _ _) fun _ => amid_bind amid_seqRaiseIf fun _ =>
      amid_bind (amid_seqRd 4) fun _ => amid_bind amid_seqRaiseIf fun _ =>
        amid_bind (amid_scanLoop _) fun _ => amid_bind amid_ckrLeave fun _ =>
          amid_bind amid_scanSide fun _ => amid_get fun _ => amid_bind amid_seqRaiseIf fun _ =>
            amid_bind amid_seqRaiseIf fun _ => amid_bind amid_seqRaiseIf fun _ =>
              amid_modify (fun _ => rfl) fun _ => rfl

/-- A scan completes with the chunk reader bound to the container, or faults; it writes no memory. -/
theorem seqScanOp_cases (k : Config.Codes) (c : BufRef) (s : State) :
    (∃ t, seqScanOp k c s = .ok .unit t ∧ t.mem = s.mem ∧ t.ckr.src = some c) ∨
      ∃ t, seqScanOp k c s = .error .faulted t ∧ t.mem = s.mem := by
  rw [seqScanOp_run]
  cases h : scanPass k c (scanOpened c s) with
  | ok a t => exact .inl ⟨t, bind_ok (onStop_ok h), amid_scanPass.ok (s := scanOpened c s) rfl h⟩
  | error e t =>
    obtain ⟨rfl, hmem⟩ := amid_scanPass.error (s := scanOpened c s) rfl h
    exact .inr ⟨_, bind_error (onStop_error h), hmem⟩

/-! ### The scan and then the assembly (R316) -/

theorem closeContainer_of_ne (h : s.ckr.src ≠ some c) : closeContainer c s = s := if_neg h

/-- An outcome with the next state replaced. -/
def mapNext (g : State → State) (o : Host.Outcome State Fault Refusal) :
    Host.Outcome State Fault Refusal :=
  match o with
  | .next t => .next (g t)
  | .fault f => .fault f
  | .refused r => .refused r

/-- After a completed scan the assembly runs as `SEQ.ASSEMBLE` does, and the container is closed. -/
theorem runOp_decodec {y : Reply} (hscan : seqScanOp k c s = .ok .unit t) :
    runOp (seqDecodecOp k c rw rx) s =
      mapNext (closeContainer c) (runOp (seqAssembleOp k c rw rx) (withReply y t)) := by
  have hrun : seqDecodecOp k c rw rx s = onStop (closeContainer c) (seqAssembleOp k c rw rx) t :=
    bind_ok (onStop_ok hscan)
  have hblind := blind_seqAssemble (c := c) (w := rw) (rx := rx) k y t
  unfold runOp
  rw [hrun, hblind]
  cases h : seqAssembleOp k c rw rx t with
  | ok a v =>
    rw [onStop_ok h]
    exact congrArg Host.Outcome.next (closeContainer_of_ne (s := { v with reply := .done a })
      (seqAssemble_closes k c rw rx a v h)).symm
  | error e v =>
    rw [onStop_error h]
    cases e with
    | faulted =>
      simp only [mapState, mapNext, closeContainer_eq]
      rfl
    | refused =>
      simp only [mapState, mapNext, closeContainer_eq]
      rfl
    | outside r => rfl

/-- After a scan that faults, the pixels are written (log 20). -/
theorem runOp_decodec_faulted (hscan : seqScanOp k c s = .error .faulted t) :
    runOp (seqDecodecOp k c rw rx) s =
      .next { spoil .seq rx 0 rx.len t with reply := .faulted } :=
  runOp_faulted (bind_error (onStop_error hscan))

end Sys2Proof.Machine
end

section
/-! `SEQ.DECODEC` (R316): the host's operation after its scan, and the image of a good and complete raw
container (R329); O59. -/

namespace Sys2Proof.Machine

variable {s t u : State} {c work x i bnd base : Nat} {k : Config.Codes} {p : Slot} {pal : List Byte}
  {q : Seq} {payload : List Byte}

/-! ### The scan's two ends -/

/-- `SEQ.SCAN` completes, and then `SEQ.DECODEC` goes on as `SEQ.ASSEMBLE`, or faults. -/
theorem exec_seqScan_cases (s : State) (c : Nat) :
    (∃ t, exec (.seqScan c) s = .next (withReply (.done .unit) t) ∧
        ∀ work x, exec (.seqDecodec c work x) s = mapNext (closeContainer (wholeBuf s.mem c))
          (exec (.seqAssemble c work x) (withReply (.done .unit) t))) ∨
      ∃ t, exec (.seqScan c) s = .next (withReply .faulted t) ∧ t.mem = s.mem ∧
        ∀ work x, exec (.seqDecodec c work x) s =
          .next (withReply .faulted (spoil .seq (wholeBuf s.mem x) 0 (wholeBuf s.mem x).len t)) := by
  rcases seqScanOp_cases Config.codes (wholeBuf s.mem c) s with ⟨t, hscan, hmem, -⟩ | ⟨t, hscan, hmem⟩
  · refine .inl ⟨t, runOp_ok hscan, fun work x => (runOp_decodec (y := .done .unit) hscan).trans ?_⟩
    rw [← hmem]
    rfl
  · exact .inr ⟨t, runOp_faulted hscan, hmem, fun _ _ => runOp_decodec_faulted hscan⟩

/-- After a completed scan `SEQ.DECODEC` is `SEQ.ASSEMBLE`, and closes the container. -/
theorem seqDecodec_of_scan (hscan : exec (.seqScan c) s = completes .unit t) :
    exec (.seqDecodec c work x) s = mapNext (closeContainer (wholeBuf s.mem c))
      (exec (.seqAssemble c work x) (withReply (.done .unit) t)) := by
  rcases exec_seqScan_cases s c with ⟨t', hscan', hdecodec⟩ | ⟨t', hscan', -⟩
  · have hsame : withReply (.done .unit) t' = withReply (.done .unit) t :=
      Host.Outcome.next.inj (hscan'.symm.trans hscan)
    rw [hdecodec work x, hsame]
  · exact nomatch congrArg State.reply (Host.Outcome.next.inj (hscan'.symm.trans hscan))

/-- A whole buffer is unspecified after a failed pass (R383). -/
theorem spoil_whole (r : BufRef) (t : State) : ∃ draws, spoil .seq r 0 r.len t =
    { overwrite .seq [r] t with
      mem := freeRange t.mem r 0 t.draws (min r.len (r.len - 0)), draws := draws } :=
  ⟨_, by rw [spoil, windowOf_of_le (Nat.zero_add _).le]; rfl⟩

/-- The image of a plain raw container, once it has been scanned. -/
theorem seqDecodec_raw (hscan : exec (.seqScan c) s = completes .unit t) (hmem : t.mem = s.mem)
    (hsrc : t.ckr.src = some (wholeBuf s.mem c)) (hA : Assembling t work x) (hg : GoodHeader t.seq.hdr)
    (hraw : t.seq.hdr.compression = 0) (hehb : modeEhb t.seq.mode = false)
    (hham : modeHam t.seq.mode = false) (hraster : rasterPresent t.rpa = false)
    (hbody : t.seq.body.base + t.seq.body.len ≤ (bufAt t.mem c).len)
    (hlen : hdrBytes t.seq.hdr ≤ t.seq.body.len) (hcx : c ≠ x) (hmade : (slotAt t 0).made = true)
    (hset : Machine.setBelow (slotAt t 0) (2 ^ t.seq.hdr.planes.toNat)) :
    ∃ u, exec (.seqDecodec c work x) s = completes .unit u ∧ u.ckr.src = none ∧
      u.seq = { t.seq with state := .done } ∧
      (∀ xx < t.seq.hdr.width.toNat, ∀ yy < t.seq.hdr.height.toNat,
        pixelAt u.mem (wholeBuf t.mem x) (yy * t.seq.hdr.width.toNat + xx) =
          (lutAt (viewOf (slotAt t 0)) (indexAt t.mem ⟨c, t.seq.body.base, t.seq.body.len⟩
            (hdrGeometry t.seq.body.layout t.seq.hdr) t.seq.hdr.bytesPerLine xx yy
            t.seq.hdr.planes.toNat)).val) ∧
      Writes (inRange (wholeBuf t.mem x) 0 (containerPixelBytes t.seq.hdr)) t.mem u.mem := by
  have hA' : Assembling (withReply (.done .unit) t) work x :=
    ⟨hA.ready, hA.state, hA.code, hA.pixels, hA.work⟩
  obtain ⟨u, hexec, hu, hpix, hwrites⟩ :=
    seqAssemble_raw (c := c) hA' hg hraw hehb hham hraster hbody hlen hcx hmade hset
  have hkept : outlived .pxw .ckr [⟨x, 0, containerPixelBytes t.seq.hdr⟩] t.ckr.src = t.ckr.src :=
    outlived_apart (by rw [hsrc]; exact hcx)
  have hclosed : u.ckr.src = none := by
    rw [hu, closeContainer_eq]
    exact if_pos (hkept.trans (hsrc.trans (by rw [← hmem]; rfl)))
  have hrun := seqDecodec_of_scan (work := work) (x := x) hscan
  rw [hexec] at hrun
  refine ⟨u, hrun.trans (congrArg Host.Outcome.next (closeContainer_of_ne ?_)), hclosed, by rw [hu]; rfl,
    hpix, hwrites⟩
  show u.ckr.src ≠ _
  rw [hclosed]
  exact nofun

/-! ### What good chunks say (R318, R327) -/

theorem toNat_pos_of_ne {n : Nat} {v : BitVec n} (h : v ≠ 0) : 0 < v.toNat :=
  Nat.pos_of_ne_zero fun hz => h (BitVec.eq_of_toNat_eq hz)

theorem goodHeader_of_chunk (h : chunkFault k (k.hdr, payload) = none) : GoodHeader (hdrOf payload) := by
  unfold chunkFault at h
  rw [if_pos rfl] at h
  split_ifs at h with hlen hplanes hsize
  obtain ⟨hp, hmax⟩ := not_or.mp hplanes
  obtain ⟨hw, hh⟩ := not_or.mp hsize
  exact ⟨toNat_pos_of_ne hw, toNat_pos_of_ne hh, toNat_pos_of_ne hp, Nat.not_lt.mp hmax, rfl⟩

/-- A recorded header is good, and a recorded body ends before `bnd`. -/
structure Noted (bnd : Nat) (q : Seq) : Prop where
  hdr : q.hdr.valid = true → GoodHeader q.hdr
  body : q.body.present = true → q.body.base + q.body.len ≤ bnd

theorem Noted.chunk {chunk : U32 × List Byte} (h : Noted bnd q) (hgood : chunkFault k chunk = none)
    (hfit : base + chunk.2.length ≤ bnd) : Noted bnd (noteChunk k base chunk q) := by
  obtain ⟨tag, payload⟩ := chunk
  unfold noteChunk
  split_ifs with hhdr
  · obtain rfl : tag = k.hdr := hhdr
    exact ⟨fun _ => goodHeader_of_chunk hgood, h.body⟩
  · exact ⟨h.hdr, h.body⟩
  · exact ⟨h.hdr, h.body⟩
  · exact ⟨h.hdr, fun _ => hfit⟩
  · exact ⟨h.hdr, fun _ => hfit⟩
  · exact ⟨h.hdr, h.body⟩
  · exact ⟨h.hdr, h.body⟩
  · exact ⟨h.hdr, h.body⟩
  · exact h

theorem Noted.chunks : ∀ {chunks : List (U32 × List Byte)} {pos : Nat} {q q' : Seq}, Noted bnd q →
    noteChunks k pos chunks q = .ok q' → pos + (chunks.flatMap paddedChunk).length ≤ bnd → Noted bnd q'
  | [], _, _, _, h, hq, _ => Except.ok.inj hq ▸ h
  | chunk :: chunks, pos, q, q', h, hq, hfit => by
    rw [List.flatMap_cons, List.length_append, paddedChunk_length] at hfit
    rw [noteChunks] at hq
    cases hfault : chunkFault k chunk with
    | some e => rw [hfault] at hq; cases hq
    | none =>
      rw [hfault] at hq
      exact (h.chunk hfault (base := pos + 8) (by omega)).chunks hq (by omega)

theorem noted_scanStart (bnd : Nat) (q : Seq) : Noted bnd (scanStart q) :=
  ⟨fun h => absurd h Bool.false_ne_true, fun h => absurd h Bool.false_ne_true⟩

/-! ### The palette chunk's colours (R107, R322, R329) -/

theorem rescaleByte_eight (v : Byte) : rescaleByte v 8 8 = v := by
  apply BitVec.eq_of_toNat_eq
  have hv : v.toNat < 256 := v.isLt
  have hmax : chanMax 8 = 255 := rfl
  rw [rescaleByte, BitVec.toNat_ofNat, rescale, hmax]
  omega

/-- A colour of the palette: its three bytes, alpha 255. -/
theorem paletteColour (hp : holdsPalette p pal) (hi : i < pal.length / 3) :
    (lutAt (viewOf p) i).val =
      packPixel (pal.getD (3 * i) 0) (pal.getD (3 * i + 1) 0) (pal.getD (3 * i + 2) 0) 255 := by
  obtain ⟨-, hcount, hbpc, hentries⟩ := hp
  rw [lutAt_viewOf, if_pos (hcount ▸ hi), viewElem, hentries i hi, hbpc]
  simp only [rescaleEntry, if_true, rescaleByte_eight]

theorem holdsPalette.setBelow {n : Nat} (hp : holdsPalette p pal) (hn : n ≤ pal.length / 3) :
    setBelow p n := by
  obtain ⟨-, hcount, -, hentries⟩ := hp
  exact ⟨hcount ▸ hn, fun i hi => by rw [hentries i (hi.trans_le hn)]⟩

/-- A pixel of a colour of the palette, byte by byte. -/
theorem paletteBytes {m : Mem} {n : Nat} (hp : holdsPalette p pal) (hi : i < pal.length / 3)
    (hpixel : pixelAt m (wholeBuf m x) n = (lutAt (viewOf p) i).val) :
    (∀ j < 3, byteAt m x (4 * n + j) = pal.getD (3 * i + j) 0) ∧ byteAt m x (4 * n + 3) = 255 := by
  rw [paletteColour hp hi] at hpixel
  obtain ⟨h0, h1, h2, h3⟩ := packPixel_inj hpixel
  simp only [refByte, wholeBuf, Nat.zero_add] at h0 h1 h2 h3
  refine ⟨fun j hj => ?_, h3⟩
  interval_cases j
  · exact h0
  · exact h1
  · exact h2

end Sys2Proof.Machine

namespace Sys2Proof.Proofs

open Sys2Proof.Machine

/-- Settles O59: the assembly does not look at the reply that the scan leaves; the image is O56's, with
the colours that O55 finds in slot 0. -/
theorem seqDecodecCompletes : Obligations.SeqDecodecCompletes := by
  intro s c work x k closed
  refine ⟨?scan, fun type chunks tail q hgood hshort hbytes hq hdone => ?image⟩
  case scan =>
    rcases exec_seqScan_cases s c with ⟨t, hscan, hdecodec⟩ | ⟨t, hscan, hmem, hdecodec⟩
    · rw [hscan]
      refine (if_pos rfl).mpr ((hdecodec work x).trans ?_)
      cases exec (.seqAssemble c work x) (withReply (.done .unit) t) with
      | next t' => exact congrArg Host.Outcome.next (closeContainer_eq _ _)
      | fault f => rfl
      | refused r => rfl
    · rw [hscan]
      obtain ⟨draws, hspoil⟩ := spoil_whole (wholeBuf s.mem x) t
      refine (if_neg nofun).mpr ⟨rfl, _, draws, (hdecodec work x).trans (by rw [hspoil]; rfl), ?_⟩
      exact fun id a hid => hmem ▸ byteAt_freeRange_outside (.inl hid)
  case image =>
    intro w h p lb pal index hraw hehb hham hraster hlen hcx hx hpal
    obtain ⟨t, hscan, hseq, hslot, -, -, -, hsrc, -, -, ht⟩ :=
      seqScanCompletes s c type chunks tail q hgood hshort hbytes hq hdone
    obtain ⟨slots, ckr, seq, rfl⟩ : ∃ slots ckr seq, t = { s with pal := slots, ckr := ckr, seq := seq } :=
      ⟨_, _, _, ht⟩
    obtain rfl : seq = _ := hseq
    have hnoted : Noted (12 + (chunks.flatMap paddedChunk).length) q :=
      (noted_scanStart _ s.seq).chunks hq le_rfl
    obtain ⟨hbody, -, hvalid⟩ := incomplete_none hdone
    have hend : 12 + (chunks.flatMap paddedChunk).length ≤ (bufAt s.mem c).len := by
      have hsize := congrArg List.length hbytes
      rw [bytesOf_length, List.length_append, containerBytes, chunkBytes_length] at hsize
      simp only [List.length_append, beBytes_length] at hsize
      omega
    obtain ⟨u, hexec, hclosed, hseq, hpix, hwrites⟩ := seqDecodec_raw (work := work) (x := x) hscan rfl
      hsrc ⟨⟨rfl, rfl, rfl⟩, rfl, knownCode_raw hraw, hx, fun hcoded => absurd hraw hcoded⟩
      (hnoted.hdr hvalid) hraw hehb hham hraster ((hnoted.body hbody).trans hend) hlen hcx hslot.1
      (hslot.setBelow hpal)
    have hindex (xx yy : Nat) : index xx yy < pal.length / 3 := by
      have hlt := indexAt_lt s.mem ⟨c, q.body.base, q.body.len⟩
        (containerGeometry q.body.layout lb h p) lb xx yy
      rw [container_planeCount] at hlt
      exact hlt.trans_le hpal
    have hbytes (xx : Nat) (hxx : xx < w) (yy : Nat) (hyy : yy < h) :=
      paletteBytes hslot (hindex xx yy) (hpix xx hxx yy hyy)
    refine ⟨u, hexec, hclosed, hseq, fun xx hxx yy hyy => (hbytes xx hxx yy hyy).1,
      fun xx hxx yy hyy => (hbytes xx hxx yy hyy).2, fun id a hout => hwrites.byteAt_eq ?_⟩
    rintro ⟨hid, -, hlt⟩
    replace hid : id = x := hid
    replace hlt : a < 0 + 4 * w * h := hlt
    omega

end Sys2Proof.Proofs
end

section
/-! Reset (R410): what it leaves meets every invariant (O12), and `SYS.RESET` leaves it in every state
(O13). -/

namespace Sys2Proof.Machine

/-! ### The state after reset -/

theorem reset_palettesOk : palettesOk State.reset := ⟨rfl, nofun⟩

theorem reset_tablesOk : tablesOk State.reset :=
  ⟨lutOk_empty, lutOk_empty, lutOk_empty, Nat.zero_le _, rfl, nofun⟩

theorem reset_cursorsOk : cursorsOk State.reset := ⟨cursorOk_reset, rfl, cursorOk_reset, nofun⟩

theorem reset_bindingsOk : bindingsOk State.reset := by
  simp [bindingsOk_iff, bindings, State.reset, PixUnit.reset, refOk_none]

theorem reset_passesOk : passesOk State.reset := ⟨⟨rfl, rfl, nofun, nofun, nofun⟩, le_rfl, nofun⟩

theorem reset_stacksOk : stacksOk State.reset :=
  ⟨Nat.zero_le _, ⟨nofun, nofun⟩, nofun, Nat.zero_le _⟩

end Sys2Proof.Machine

namespace Sys2Proof.Proofs

open Sys2Proof.Machine

/-- Settles O12: tables, stacks and bindings are empty, and every unit is uninitialised. -/
theorem resetMeetsInvariants : Obligations.ResetMeetsInvariants :=
  ⟨rfl, reset_palettesOk, reset_tablesOk, reset_cursorsOk, reset_bindingsOk, reset_passesOk,
    reset_stacksOk⟩

/-- Settles O13: the operation is one update of the state, which writes the reset values into every
unit; the five facts about them are read off register by register. -/
theorem resetCompletes : Obligations.ResetCompletes := by
  refine fun s => ⟨resetUnits s, runOp_ok rfl, rfl, fun u => ?fault, fun u hu => ?init,
    fun u => (freed_reset u s).bindingOf, fun slot => ⟨rfl, rfl, rfl, rfl, fun i => rfl⟩⟩
  case fault => cases u <;> rfl
  case init =>
    simp only [List.mem_cons, List.not_mem_nil, or_false] at hu
    rcases hu with rfl | rfl | rfl | rfl | rfl | rfl | rfl | rfl <;> rfl

end Sys2Proof.Proofs
end

section
/-! Operations that meet their unit faulted or not initialised (R386, R387; O5). -/

namespace Sys2Proof.Machine

variable {s t : State} {u : UnitId} {i : Instr}

/-- The operation of a guarded instruction begins with `enter` of its unit: where that stops without
leaving what the spec describes, the host gets the stop, in the state it left. -/
theorem exec_stopped (hg : guardOf i = some u) :
    (enter u s = .error .refused t → exec i s = .next { t with reply := .refused }) ∧
      (enter u s = .error .faulted t → exec i s = .next { t with reply := .faulted }) := by
  cases i with
  | palGet _ _ | palPlanes _ | bprRead | bprEof | bpwEof | pxrRead | ckrReadchunk | ckrPeek | ckrEof
  | ckrEnter _ _ | ckrLeave | ckrRd8 | ckrRd16 | ckrRd32 | hamRead | ckwStart _ | ckwEnd | ckwWr8 _
  | ckwWr16 _ | ckwWr32 _ =>
    cases hg
    exact ⟨fun h => runOp_refused (stops_of_enter_map h), fun h => runOp_faulted (stops_of_enter_map h)⟩
  | _ =>
    cases hg <;>
      exact ⟨fun h => runOp_refused (stops_of_enter h), fun h => runOp_faulted (stops_of_enter h)⟩

theorem raisedReg_notInit : raisedReg .notInit 0 = ⟨true, 4, 1, 0⟩ := by decide

end Sys2Proof.Machine

namespace Sys2Proof.Proofs

open Sys2Proof.Machine

/-- Settles O5: `enter` refuses a faulted unit and faults on an uninitialised one, and every guarded
instruction begins with it. -/
theorem unreadyUnitsDoNothing : Obligations.UnreadyUnitsDoNothing := by
  refine ⟨fun i u s hg hf => (exec_stopped hg).1 (enter_faulted hf), fun i u s hg hf hi => ?_⟩
  rw [← raisedReg_notInit]
  exact (exec_stopped hg).2 (enter_unready hf hi)

end Sys2Proof.Proofs
end

section
/-! What an operation leaves alone (R385, R386, R388): `Confined U P` relates two states when the units
outside `U` have kept their faults and bytes have been written at places of `P` only. Rules for every way
operations are composed, once; O7 and O8 are two readings of the one relation. -/

namespace Sys2Proof.Machine

variable {α β : Type} {x : Op α} {f : α → Op β} {s t : State} {v w : UnitId} {U V : List UnitId}
  {P Q : Nat → Nat → Prop}

/-! ### The relation -/

/-- The units outside `U` have kept their faults, and bytes have been written at places of `P` only. -/
def Confined (U : List UnitId) (P : Nat → Nat → Prop) (s t : State) : Prop :=
  (∀ v ∉ U, (faultOf v s).valid = true → faultOf v t = faultOf v s) ∧ Writes P s.mem t.mem

/-- All bytes of a window are places of `P`. -/
def Allowed (P : Nat → Nat → Prop) (r : BufRef) : Prop := ∀ id a, inWindow r id a → P id a

theorem confined_closed (U : List UnitId) (P : Nat → Nat → Prop) : Closed (Confined U P) where
  refl s := ⟨fun _ _ _ => rfl, .refl s.mem⟩
  trans {s t u} hst htu := by
    refine ⟨fun v hv hs => ?_, hst.2.trans htu.2⟩
    have ht := hst.1 v hv hs
    rw [htu.1 v hv (ht ▸ hs), ht]

theorem Confined.mono (h : Confined U P s t) (hU : U ⊆ V) : Confined V P s t :=
  ⟨fun v hv => h.1 v fun hu => hv (hU hu), h.2⟩

/-- A unit that held no fault has none to keep. -/
theorem Confined.drop (h : Confined (w :: U) P s t) (hw : (faultOf w s).valid = false) :
    Confined U P s t := by
  refine ⟨fun v hv hs => h.1 v (fun hvw => ?_) hs, h.2⟩
  rcases List.mem_cons.mp hvw with rfl | hu
  · rw [hw] at hs
    cases hs
  · exact hv hu

/-! ### The updates -/

/-- Every unit's fault register. -/
def faults (s : State) : List FaultReg :=
  [s.pal.fault, s.bpr.fault, s.bpw.fault, s.pxr.fault, s.pxw.fault, s.pbd.fault, s.vdd.fault,
    s.ckr.fault, s.ham.fault, s.rpa.fault, s.seq.fault, s.pbe.fault, s.ckw.fault]

theorem faultOf_of_faults (h : faults t = faults s) (v : UnitId) : faultOf v t = faultOf v s := by
  simp only [faults, List.cons.injEq, and_true] at h
  obtain ⟨h1, h2, h3, h4, h5, h6, h7, h8, h9, h10, h11, h12, h13⟩ := h
  cases v <;> assumption

theorem confined_writes (hf : faults t = faults s) (hm : Writes P s.mem t.mem) : Confined U P s t :=
  ⟨fun v _ _ => faultOf_of_faults hf v, hm⟩

theorem confined_quiet (hf : faults t = faults s) (hm : t.mem = s.mem) : Confined U P s t :=
  confined_writes hf (by rw [hm]; exact .refl _)

theorem confined_withFault (hw : w ∈ U) (g : FaultReg) (s : State) :
    Confined U P s (withFault w g s) := by
  refine ⟨fun v hv _ => faultOf_withFault_ne v w g s fun h => hv (h ▸ hw), ?_⟩
  rw [withFault_mem]
  exact .refl s.mem

theorem confined_unbind (w : UnitId) (s : State) : Confined U P s (unbind w s) :=
  ⟨fun v _ _ => faultOf_unbind w v s, (unbind_mem w s).symm ▸ .refl s.mem⟩

theorem confined_seqFaulted (s : State) : Confined U P s (seqFaulted s) := confined_quiet rfl rfl

theorem confined_closeContainer (c : BufRef) (s : State) : Confined U P s (closeContainer c s) := by
  unfold closeContainer
  split
  · exact confined_unbind _ _
  · exact (confined_closed U P).refl s

theorem inWindow_of_inRange {r : BufRef} {off n id a : Nat} (hn : off + n ≤ r.len)
    (h : inRange r off (off + n) id a) : inWindow (windowOf r off n) id a := by
  obtain ⟨rfl, hlo, hhi⟩ := h
  refine ⟨rfl, ?_, ?_⟩ <;> simp only [windowOf] <;> omega

/-- Bytes inside a window, up to the buffer's end, may be spoiled (log 13). -/
theorem confined_spoil {r : BufRef} {off n : Nat} (hP : Allowed P (windowOf r off n)) (w : UnitId)
    (s : State) : Confined U P s (spoil w r off n s) := by
  refine confined_writes rfl ((writes_freeRange s.mem r off s.draws _).mono fun id a ha => hP id a ?_)
  obtain ⟨rfl, hlo, hhi⟩ := ha
  exact ⟨rfl, hlo, by simp only [windowOf]; omega⟩

theorem confined_clearRange {r : BufRef} {n : Nat} (hn : n ≤ r.len) (hP : Allowed P (windowOf r 0 n))
    (s : State) : Confined U P s (clearRange r n s) :=
  confined_writes rfl ((writes_zeroRange s.mem r 0 n).mono fun id a ha =>
    hP id a (inWindow_of_inRange (by omega) ha))

/-! ### Operations -/

/-- The operation is confined, however it ends. -/
abbrev Confines (U : List UnitId) (P : Nat → Nat → Prop) (x : Op α) (s : State) : Prop :=
  Leads (Confined U P) x s

theorem confines_pure (a : α) : Confines U P (pure a : Op α) s := (confined_closed U P).pure a

theorem confines_bind (hx : Confines U P x s) (hf : ∀ a t, x s = .ok a t → Confines U P (f a) t) :
    Confines U P (x >>= f) s := (confined_closed U P).bind hx fun a t _ => hf a t

theorem confines_map {g : α → β} (hx : Confines U P x s) :
    Confines U P (do let a ← x; pure (g a)) s := confines_bind hx fun _ _ _ => confines_pure _

theorem confines_then {x : Op Unit} (hx : Confines U P x s) (r : Result) :
    Confines U P (do x; pure r : Op Result) s := confines_bind hx fun _ _ _ => confines_pure r

theorem confines_quiet {g : State → State} (hf : faults (g s) = faults s) (hm : (g s).mem = s.mem) :
    Confines U P (modify g) s := leads_modify (confined_quiet hf hm)

theorem confines_set {g : State → State} {k : Unit → Op β} (hf : faults (g s) = faults s)
    (hm : (g s).mem = s.mem) (hk : Confines U P (k ()) (g s)) : Confines U P (modify g >>= k) s :=
  (confined_closed U P).set (confined_quiet hf hm) hk

theorem confines_raise (hw : w ∈ U) {c : FaultCode} {n : Nat} :
    Confines U P (raise w c n : Op α) s := leads_raise (confined_withFault hw _ _)

theorem confines_check (hw : w ∈ U) {p : Prop} [Decidable p] {c : FaultCode} {n : Nat}
    {g : Unit → Op β} (h : ¬ p → Confines U P (g ()) s) : Confines U P (raiseIf p w c n >>= g) s :=
  (confined_closed U P).check (fun _ => confined_withFault hw _ _) h

theorem confines_raiseIf (hw : w ∈ U) {p : Prop} [Decidable p] {c : FaultCode} {n : Nat} :
    Confines U P (raiseIf p w c n) s := by
  unfold raiseIf
  split
  · exact confines_raise hw
  · exact confines_pure _

/-- A unit that is entered held no fault, so it may raise one (R386). -/
theorem confines_enter {g : Unit → Op β} (h : ready w s → Confines (w :: U) P (g ()) s) :
    Confines U P (enter w >>= g) s := by
  cases hf : (faultOf w s).valid with
  | true =>
    unfold Confines Leads endOf
    rw [bind_error (enter_faulted hf)]
    exact (confined_closed U P).refl s
  | false =>
    have hentered : Confines (w :: U) P (enter w >>= g) s :=
      (confined_closed _ P).enter (fun _ _ => confined_withFault List.mem_cons_self _ _) h
    exact hentered.mono fun t ht => ht.drop hf

theorem confines_clear (hw : w ∈ U) {g : Unit → Op β} (h : Confines U P (g ()) (clearedFault w s)) :
    Confines U P (clearFault w >>= g) s := (confined_closed U P).set (confined_withFault hw _ _) h

theorem confines_onStop {g : State → State} (hx : Confines U P x s)
    (hg : ∀ t, Confined U P t (g t)) : Confines U P (onStop g x) s :=
  (confined_closed U P).onStop hx fun t _ => hg t

theorem confines_callFrom (hv : v ∈ U) (hx : Confines U P x s) : Confines U P (callFrom v w x) s :=
  (confined_closed U P).callFrom hx fun _ _ => confined_withFault hv _ _

theorem confines_seqCall (hU : .seq ∈ U) (hx : Confines U P x s) : Confines U P (seqCall w x) s :=
  confines_onStop (confines_callFrom hU hx) confined_seqFaulted

theorem confines_seqRaiseIf (hU : .seq ∈ U) {p : Prop} [Decidable p] {c : FaultCode} {n : Nat} :
    Confines U P (seqRaiseIf p c n) s := confines_onStop (confines_raiseIf hU) confined_seqFaulted

theorem confines_endPass (hx : Confines U P x s) : Confines U P (endPass w x) s :=
  (confined_closed U P).endPass hx fun _ _ => confined_unbind _ _

theorem confines_times {x : Op Unit} (hx : ∀ s, Confines U P x s) (n : Nat) :
    Confines U P (times x n) s :=
  (confined_closed U P).times (I := fun _ => True) (fun s _ => hx s) (fun _ _ _ _ _ => trivial) n s
    trivial

theorem confines_forFrom {g : Nat → Op Unit} (hx : ∀ i s, Confines U P (g i) s) (i n : Nat) :
    Confines U P (forFrom g i n) s :=
  (confined_closed U P).forFrom (I := fun _ => True) (fun i s _ => hx i s)
    (fun _ _ _ _ _ _ => trivial) n i s trivial

/-! ### Parts of windows -/

theorem Allowed.part {r : BufRef} {off n off' n' : Nat} (h : Allowed P (windowOf r off n))
    (hlo : off ≤ off') (hhi : off' + n' ≤ off + n) : Allowed P (windowOf r off' n') := by
  rintro id a ⟨rfl, hfrom, hto⟩
  simp only [windowOf] at hfrom hto
  exact h _ a ⟨rfl, by simp only [windowOf]; omega, by simp only [windowOf]; omega⟩

theorem Allowed.window {r : BufRef} (h : Allowed P r) (off n : Nat) : Allowed P (windowOf r off n) := by
  rintro id a ⟨rfl, hlo, hhi⟩
  simp only [windowOf] at hlo hhi
  exact h _ a ⟨rfl, by omega, by omega⟩

/-! ### Operations that complete -/

theorem ok_of_enter {g : Unit → Op β} {b : β} (h : (enter w >>= g) s = .ok b t) :
    ready w s ∧ g () s = .ok b t := by
  rcases enter_cases w s with ⟨he, hr⟩ | he | he | he
  · rw [bind_ok he] at h
    exact ⟨hr, h⟩
  all_goals
    rw [bind_error he] at h
    cases h

theorem ok_of_check {p : Prop} [Decidable p] {c : FaultCode} {n : Nat} {g : Unit → Op β} {b : β}
    (h : (raiseIf p w c n >>= g) s = .ok b t) : ¬ p ∧ g () s = .ok b t := by
  obtain ⟨a, u, hcheck, hg⟩ := ok_of_bind_ok h
  obtain ⟨hp, rfl⟩ := ok_of_raiseIf_ok hcheck
  exact ⟨hp, hg⟩

theorem ok_of_seqCall {a : α} (h : seqCall w x s = .ok a t) : x s = .ok a t := by
  cases hx : x s with
  | ok b u =>
    rw [seqCall_ok hx] at h
    exact h
  | error e u =>
    cases e with
    | faulted => rw [seqCall_faulted hx] at h; cases h
    | refused => rw [seqCall_refused hx] at h; cases h
    | outside _ => rw [seqCall_outside hx] at h; cases h

/-! ### A relation under a condition -/

/-- The relation holds where a condition does, and the condition is kept. -/
def Under (I : State → Prop) (R : State → State → Prop) (s t : State) : Prop := I s → R s t ∧ I t

theorem under_closed {R : State → State → Prop} (c : Closed R) (I : State → Prop) :
    Closed (Under I R) where
  refl s hs := ⟨c.refl s, hs⟩
  trans hst htu hs := ⟨c.trans (hst hs).1 (htu (hst hs).2).1, (htu (hst hs).2).2⟩

/-- An operation confined under a condition that holds. -/
theorem confines_of_under {I : State → Prop} (h : Leads (Under I (Confined U P)) x s) (hs : I s) :
    Confines U P x s := h.mono fun _ ht => (ht hs).1

/-! ### Operations with a state to count on -/

/-- From a state with `I` the operation is confined, and where it completes the state has `J`. -/
def Brings (U : List UnitId) (P : Nat → Nat → Prop) (I J : State → Prop) (x : Op α) : Prop :=
  ∀ s, I s → Confines U P x s ∧ Ends J x s

variable {I J K : State → Prop}

theorem brings_bind (hx : Brings U P I J x) (hf : ∀ a, Brings U P J K (f a)) :
    Brings U P I K (x >>= f) := fun s hs => by
  obtain ⟨hconf, hends⟩ := hx s hs
  refine ⟨confines_bind hconf fun a t ht => (hf a t (hends a t ht)).1, fun b u hu => ?_⟩
  obtain ⟨a, t, ht, hfu⟩ := ok_of_bind_ok hu
  exact (hf a t (hends a t ht)).2 b u hfu

theorem brings_pure (a : α) : Brings U P I I (pure a : Op α) := fun s hs =>
  ⟨confines_pure a, fun _ _ h => by cases h; exact hs⟩

theorem brings_map {g : α → β} (hx : Brings U P I J x) :
    Brings U P I J (do let a ← x; pure (g a)) := brings_bind hx fun _ => brings_pure _

theorem brings_get {f : State → Op β} (hf : ∀ s, I s → Confines U P (f s) s ∧ Ends J (f s) s) :
    Brings U P I J (get >>= f) := fun s hs => hf s hs

theorem brings_seqCall (hU : .seq ∈ U) (hx : Brings U P I J x) : Brings U P I J (seqCall w x) :=
  fun s hs => ⟨confines_seqCall hU (hx s hs).1, fun a t ht => (hx s hs).2 a t (ok_of_seqCall ht)⟩

/-- `n` rounds, counted. -/
theorem brings_times {x : Op Unit} {I : Nat → State → Prop} {k : Nat} : ∀ {n : Nat},
    (∀ j < n, Brings U P (I (k + j)) (I (k + j + 1)) x) → Brings U P (I k) (I (k + n)) (times x n)
  | 0, _ => brings_pure ()
  | n + 1, hx => by
    have hrest : Brings U P (I (k + 1)) (I (k + 1 + n)) (times x n) := brings_times fun j hj => by
      have hround := hx (j + 1) (by omega)
      rwa [← Nat.add_assoc, Nat.add_right_comm k j 1] at hround
    rw [Nat.add_assoc, Nat.add_comm 1 n] at hrest
    exact brings_bind (hx 0 (Nat.succ_pos n)) fun _ => hrest

theorem brings_forFrom {g : Nat → Op Unit} {I : Nat → State → Prop} {i : Nat} : ∀ {n : Nat},
    (∀ j < n, Brings U P (I (i + j)) (I (i + j + 1)) (g (i + j))) →
      Brings U P (I i) (I (i + n)) (forFrom g i n)
  | 0, _ => brings_pure ()
  | n + 1, hg => by
    have hrest : Brings U P (I (i + 1)) (I (i + 1 + n)) (forFrom g (i + 1) n) :=
      brings_forFrom fun j hj => by
        have hround := hg (j + 1) (by omega)
        rwa [← Nat.add_assoc, Nat.add_right_comm i j 1] at hround
    rw [Nat.add_assoc, Nat.add_comm 1 n] at hrest
    exact brings_bind (hg 0 (Nat.succ_pos n)) fun _ => hrest

end Sys2Proof.Machine
end

section
/-! Each unit's operations, confined (R385, R386, R388): to its own fault, raised only where it held none
or has cleared it, and to the bytes that the operation writes. -/

namespace Sys2Proof.Machine

variable {α β : Type} {s t : State} {v w : UnitId} {U : List UnitId} {P : Nat → Nat → Prop}

/-! ### PAL -/

theorem confines_checkSlot (hw : w ∈ U) {slot : Nat} : Confines U P (checkSlot w slot) s :=
  confines_raiseIf hw

theorem confines_checkMade (hw : w ∈ U) {slot : Nat} : Confines U P (checkMade w slot) s :=
  Closed.get (confines_raiseIf hw)

theorem confines_view8 (hw : w ∈ U) {slot : Nat} : Confines U P (view8 w slot) s :=
  confines_bind (confines_checkSlot hw) fun _ _ _ => confines_bind (confines_checkMade hw) fun _ _ _ =>
    Closed.get (confines_pure _)

theorem confines_raiseUnset (hw : w ∈ U) {p : Slot} {n : Nat} : Confines U P (raiseUnset w p n) s := by
  unfold raiseUnset
  split
  · exact confines_raise hw
  · exact confines_pure _

/-- The entry checks of an operation that reads a slot (R140). -/
theorem confines_readSlot {slot : Nat} {x : Op β} (h : ∀ t, Confines (.pal :: U) P x t) :
    Confines U P (do
      enter .pal
      checkSlot .pal slot
      checkMade .pal slot
      x) s :=
  confines_enter fun _ => confines_bind (confines_checkSlot List.mem_cons_self) fun _ _ _ =>
    confines_bind (confines_checkMade List.mem_cons_self) fun _ t _ => h t

theorem confines_palCreate (hU : .pal ∈ U) (slot count : Nat) (bpc : Option Nat) :
    Confines U P (palCreateOp slot count bpc) s :=
  confines_clear hU <| confines_bind (confines_checkSlot hU) fun _ _ _ => confines_check hU fun _ =>
    confines_check hU fun _ => confines_set rfl rfl (confines_pure _)

theorem confines_palSet (slot i : Nat) (r g b : U32) (a : Option U32) :
    Confines U P (palSetOp slot i r g b a) s :=
  confines_readSlot fun _ => Closed.get <| confines_check List.mem_cons_self fun _ =>
    confines_set rfl rfl (confines_pure _)

theorem confines_palGet (slot i : Nat) : Confines U P (palGetOp slot i) s :=
  confines_readSlot fun _ => Closed.get <| confines_check List.mem_cons_self fun _ =>
    confines_check List.mem_cons_self fun _ => confines_pure _

theorem confines_palResample (sd ss nb : Nat) : Confines U P (palResampleOp sd ss nb) s :=
  confines_enter fun _ => confines_bind (confines_checkSlot List.mem_cons_self) fun _ _ _ =>
    confines_bind (confines_checkSlot List.mem_cons_self) fun _ _ _ =>
      confines_bind (confines_checkMade List.mem_cons_self) fun _ _ _ =>
        confines_check List.mem_cons_self fun _ => Closed.get <| confines_set rfl rfl (confines_pure _)

theorem confines_palToval (slot : Nat) (alpha : Option Bool) :
    Confines U P (palTovalOp slot alpha) s :=
  confines_readSlot fun _ => Closed.get <|
    confines_bind (confines_raiseUnset List.mem_cons_self) fun _ _ _ => confines_pure _

theorem confines_palFromval (slot : Nat) (vs : List U32) (bpc : Option Nat) (alpha : Option Bool) :
    Confines U P (palFromvalOp slot vs bpc alpha) s :=
  confines_enter fun _ => confines_bind (confines_checkSlot List.mem_cons_self) fun _ _ _ =>
    confines_check List.mem_cons_self fun _ => confines_check List.mem_cons_self fun _ =>
      confines_set rfl rfl (confines_pure _)

theorem confines_memRead (hw : w ∈ U) {r : BufRef} {off n : Nat} :
    Confines U P (memRead w r off n) s := confines_check hw fun _ => Closed.get (confines_pure _)

theorem confines_collectColours (hU : .pal ∈ U) (r : BufRef) :
    ∀ (n k : Nat) (found : List U32) (s : State), Confines U P (collectColours r k n found) s
  | 0, _, _, _ => confines_pure _
  | n + 1, k, found, s => confines_bind (confines_memRead hU) fun c t _ => by
    dsimp only
    split
    · exact confines_collectColours hU r n _ _ t
    · exact confines_check hU fun _ => confines_collectColours hU r n _ _ t

theorem confines_palFrompix (slot buf : Nat) : Confines U P (palFrompixOp slot buf) s :=
  confines_enter fun _ => confines_bind (confines_checkSlot List.mem_cons_self) fun _ _ _ =>
    Closed.get <| confines_bind (confines_collectColours List.mem_cons_self _ _ _ _ _) fun _ _ _ =>
      confines_palFromval _ _ _ _

theorem confines_palMono (slot : Nat) : Confines U P (palMonoOp slot) s :=
  confines_enter fun _ => confines_bind (confines_checkSlot List.mem_cons_self) fun _ _ _ =>
    confines_set rfl rfl (confines_pure _)

theorem confines_palEhb (sd ss : Nat) : Confines U P (palEhbOp sd ss) s :=
  confines_enter fun _ => confines_bind (confines_checkSlot List.mem_cons_self) fun _ _ _ =>
    confines_bind (confines_checkSlot List.mem_cons_self) fun _ _ _ =>
      confines_bind (confines_checkMade List.mem_cons_self) fun _ _ _ => Closed.get <|
        confines_check List.mem_cons_self fun _ =>
          confines_bind (confines_raiseUnset List.mem_cons_self) fun _ _ _ =>
            confines_set rfl rfl (confines_pure _)

theorem confines_palPlanes (slot : Nat) : Confines U P (palPlanesOp slot) s :=
  confines_readSlot fun _ => Closed.get (confines_pure _)

/-! ### BPR and BPW -/

theorem confines_bprInit (hU : .bpr ∈ U) (r : BufRef) (g : Geometry) :
    Confines U P (bprInitOp r g) s :=
  confines_clear hU <| confines_check hU fun _ => confines_set rfl rfl (confines_pure _)

theorem confines_bprReadCore (hU : .bpr ∈ U) : Confines U P bprReadCore s := by
  have step (t : State) : Confines U P (do
      let t ← get
      modify fun s => { s with bpr := { s.bpr with cur := stepCursor s.bpr.geom s.bpr.cur } }
      pure (bprCached t) : Op Byte) t := Closed.get <| confines_set rfl rfl (confines_pure _)
  have fetch : Confines U P bprFetch s := by
    refine Closed.get ?_
    dsimp only
    split
    · exact confines_raise hU
    · exact confines_quiet rfl rfl
  refine Closed.get ?_
  dsimp only
  split
  · exact confines_bind fetch fun _ t _ => step t
  · exact confines_bind (confined_closed U P).refuseIf fun _ t _ => step t

theorem confines_bprRead : Confines U P bprReadOp s :=
  confines_enter fun _ => confines_bprReadCore List.mem_cons_self

theorem confines_bprAdv (n : Nat) : Confines U P (bprAdvOp n) s :=
  confines_enter fun _ =>
    confines_bind (confines_times (fun _ => confines_map (confines_bprReadCore List.mem_cons_self)) n)
      fun _ _ _ => confines_pure _

theorem confines_bprEof : Confines U P bprEofOp s :=
  confines_enter fun _ => Closed.get (confines_pure _)

theorem confines_bpwInit (hU : .bpw ∈ U) (r : BufRef) (g : Geometry) :
    Confines U P (bpwInitOp r g) s :=
  confines_clear hU <| confines_check hU fun _ => confines_set rfl rfl (confines_pure _)

/-- The bytes of the planes at the cursor (R183). -/
theorem confines_bpwWrite {r : BufRef} (hr : r = refOf s.bpw.buf)
    (hP : ∀ i < s.bpw.geom.planeCount, planeOffset s.bpw.geom s.bpw.cur i < r.len →
      P r.id (r.base + planeOffset s.bpw.geom s.bpw.cur i)) (index : Nat) :
    Confines U P (bpwWriteOp index) s := by
  subst hr
  refine confines_enter fun _ => Closed.get <| confines_check List.mem_cons_self fun _ => ?_
  dsimp only
  split
  · exact confines_raise List.mem_cons_self
  · rename_i hnone
    refine (confined_closed _ P).set (confined_writes rfl ?_) (confines_pure _)
    refine (writes_orPlanes s.mem _ _ _ index _).mono fun id a ha => ?_
    obtain ⟨rfl, i, hi, -, rfl⟩ := ha
    have hlt := lt_of_firstPlanePastEnd_none hnone i hi
    rw [Nat.zero_add] at hlt
    exact hP i hi hlt

theorem confines_bpwAdv (n : Nat) : Confines U P (bpwAdvOp n) s :=
  confines_enter fun _ => confines_set rfl rfl (confines_pure _)

theorem confines_bpwEof : Confines U P bpwEofOp s :=
  confines_enter fun _ => Closed.get (confines_pure _)

/-! ### PXR and PXW -/

theorem confines_memWrite (hw : w ∈ U) {r : BufRef} {off n k : Nat}
    (hP : Allowed P (windowOf r off n)) : Confines U P (memWrite w r off n k) s :=
  confines_check hw fun h => leads_modify <| confined_writes rfl <|
    (writes_beWrite s.mem r off n k).mono fun id a ha =>
      hP id a (inWindow_of_inRange (Nat.le_of_not_lt h) ha)

theorem confines_pxrInit (hU : .pxr ∈ U) (r : BufRef) (slot : Nat) :
    Confines U P (pxrInitOp r slot) s :=
  confines_clear hU <| confines_bind (confines_view8 hU) fun _ _ _ =>
    confines_set rfl rfl (confines_pure _)

theorem confines_pxrRead : Confines U P pxrReadOp s :=
  confines_enter fun _ => Closed.get <| confines_bind (confines_memRead List.mem_cons_self)
    fun _ _ _ => by
      dsimp only
      split
      · exact confines_raise List.mem_cons_self
      · exact confines_set rfl rfl (confines_pure _)

theorem confines_pxrSetpal (slot : Nat) : Confines U P (pxrSetpalOp slot) s :=
  confines_enter fun _ => confines_bind (confines_view8 List.mem_cons_self) fun _ _ _ =>
    confines_set rfl rfl (confines_pure _)

theorem confines_pxrAdv (n : Nat) : Confines U P (pxrAdvOp n) s :=
  confines_enter fun _ => confines_set rfl rfl (confines_pure _)

theorem confines_pxwInit (hU : .pxw ∈ U) (r : BufRef) (slot : Nat) :
    Confines U P (pxwInitOp r slot) s :=
  confines_clear hU <| confines_bind (confines_view8 hU) fun _ _ _ =>
    confines_set rfl rfl (confines_pure _)

theorem confines_pxwStore (hU : .pxw ∈ U) (hP : Allowed P (windowOf (refOf s.pxw.buf) (4 * s.pxw.pos) 4))
    (colour : U32) : Confines U P (pxwStore colour) s :=
  Closed.get <| confines_bind (confines_memWrite hU hP) fun _ _ _ =>
    confines_set rfl rfl (confines_pure _)

theorem confines_pxwWrite (hP : Allowed P (windowOf (refOf s.pxw.buf) (4 * s.pxw.pos) 4)) (index : Nat) :
    Confines U P (pxwWriteOp index) s :=
  confines_enter fun _ => Closed.get <| confines_check List.mem_cons_self fun _ =>
    confines_check List.mem_cons_self fun _ => confines_pxwStore List.mem_cons_self hP _

theorem confines_pxwWritec (hP : Allowed P (windowOf (refOf s.pxw.buf) (4 * s.pxw.pos) 4))
    (colour : U32) : Confines U P (pxwWritecOp colour) s :=
  confines_enter fun _ => confines_pxwStore List.mem_cons_self hP colour

theorem confines_pxwSetpal (slot : Nat) : Confines U P (pxwSetpalOp slot) s :=
  confines_enter fun _ => confines_bind (confines_view8 List.mem_cons_self) fun _ _ _ =>
    confines_set rfl rfl (confines_pure _)

theorem confines_pxwAdv (n : Nat) : Confines U P (pxwAdvOp n) s :=
  confines_enter fun _ => confines_set rfl rfl (confines_pure _)

/-! ### CKR -/

theorem confines_ckrOpen (hU : .ckr ∈ U) (r : BufRef) : Confines U P (ckrOpenOp r) s :=
  confines_clear hU <| confines_set rfl rfl (confines_pure _)

theorem confines_ckrReadchunk : Confines U P ckrReadchunkOp s :=
  confines_enter fun _ => Closed.get <| confines_check List.mem_cons_self fun _ =>
    confines_check List.mem_cons_self fun _ => confines_set rfl rfl (confines_pure _)

theorem confines_ckrPeek : Confines U P ckrPeekOp s :=
  confines_enter fun _ => Closed.get <| by
    dsimp only
    split <;> exact confines_pure _

theorem confines_ckrEof : Confines U P ckrEofOp s :=
  confines_enter fun _ => Closed.get (confines_pure _)

theorem confines_ckrEnter (base length : Nat) : Confines U P (ckrEnterOp base length) s :=
  confines_enter fun _ => Closed.get <| confines_check List.mem_cons_self fun _ =>
    confines_check List.mem_cons_self fun _ => confines_quiet rfl rfl

theorem confines_ckrLeave : Confines U P ckrLeaveOp s :=
  confines_enter fun _ => Closed.get <| confines_check List.mem_cons_self fun _ =>
    confines_quiet rfl rfl

theorem confines_ckrRead (n : Nat) : Confines U P (ckrReadOp n) s :=
  confines_enter fun _ => Closed.get <| confines_check List.mem_cons_self fun _ =>
    confines_set rfl rfl (confines_pure _)

/-! ### HAM -/

theorem confines_hamPixel (hU : .ham ∈ U) (sel : HamSel) (p data : Nat) :
    Confines U P (hamPixel sel p data) s := by
  cases sel with
  | base =>
    exact Closed.get <| confines_check hU fun _ => confines_check hU fun _ => confines_quiet rfl rfl
  | modb | modr | modg => exact confines_quiet rfl rfl

theorem confines_hamInit (hU : .ham ∈ U) (p slot : Nat) : Confines U P (hamInitOp p slot) s :=
  confines_clear hU <| confines_check hU fun _ => confines_bind (confines_view8 hU) fun _ _ _ =>
    confines_set rfl rfl (confines_pure _)

theorem confines_hamSetpal (slot : Nat) : Confines U P (hamSetpalOp slot) s :=
  confines_enter fun _ => confines_bind (confines_view8 List.mem_cons_self) fun _ _ _ =>
    confines_set rfl rfl (confines_pure _)

theorem confines_hamRead : Confines U P hamReadOp s :=
  confines_enter fun _ => Closed.get <| confines_check List.mem_cons_self fun _ =>
    confines_bind (confines_callFrom List.mem_cons_self confines_bprRead) fun _ _ _ =>
      confines_bind (confines_hamPixel List.mem_cons_self _ _ _) fun _ _ _ =>
        Closed.get (confines_pure _)

theorem confines_hamAdv (n : Nat) : Confines U P (hamAdvOp n) s :=
  confines_enter fun _ => confines_callFrom List.mem_cons_self (confines_bprAdv n)

theorem confines_hamAlone (sel : HamSel) (p data : Nat) : Confines U P (hamAlone sel p data) s :=
  confines_enter fun _ => Closed.get <| confines_check List.mem_cons_self fun _ =>
    confines_bind (confines_hamPixel List.mem_cons_self _ _ _) fun _ _ _ => Closed.get (confines_pure _)

/-! ### RPA -/

theorem confines_rpaConfig (hU : .rpa ∈ U) (height : Nat) (c : Consumer) :
    Confines U P (rpaConfigOp height c) s :=
  confines_clear hU <| confines_set rfl rfl (confines_pure _)

theorem confines_rpaLoad (k slot : Nat) : Confines U P (rpaLoadOp k slot) s :=
  confines_enter fun _ => Closed.get <| confines_check List.mem_cons_self fun _ =>
    confines_bind (confines_view8 List.mem_cons_self) fun _ _ _ =>
      confines_set rfl rfl (confines_pure _)

theorem confined_installLut (c : Consumer) (l : Lut) (s : State) :
    Confined U P s (installLut c l s) := by
  cases c <;> exact confined_quiet rfl rfl

theorem confines_rpaSelect (y : Nat) : Confines U P (rpaSelectOp y) s :=
  confines_enter fun _ => Closed.get <| by
    split
    · exact confines_pure _
    · exact confines_check List.mem_cons_self fun _ =>
        (confined_closed _ P).set (confined_installLut _ _ _) (confines_pure _)

/-! ### PBE -/

theorem confines_pbeEmit (hU : .pbe ∈ U) {dst : BufRef} (hP : Allowed P dst) (pos : Nat)
    (bytes : List Byte) : Confines U P (pbeEmit dst pos bytes) s :=
  confines_check hU fun h => (confined_closed U P).set
    (confined_writes rfl ((writes_writeBytes dst bytes s.mem pos).mono fun id a ha =>
      hP.window _ _ id a (inWindow_of_inRange (Nat.le_of_not_lt h) ha))) (confines_pure _)

theorem confines_pbeFlush (hU : .pbe ∈ U) {dst : BufRef} (hP : Allowed P dst) (pos : Nat)
    (dump : List Byte) : Confines U P (pbeFlush dst pos dump) s := by
  unfold pbeFlush
  split
  · exact confines_pure _
  · exact confines_pbeEmit hU hP _ _

theorem confines_packLine (hU : .pbe ∈ U) {dst : BufRef} (hP : Allowed P dst) (src : BufRef) (e : Nat) :
    ∀ (n i pos : Nat) (dump : List Byte) (s : State), Confines U P (packLine src dst e n i pos dump) s
  | 0, _, _, _, _ => confines_pbeFlush hU hP _ _
  | n + 1, i, pos, dump, s => by
    unfold packLine
    split
    · exact confines_pbeFlush hU hP _ _
    · refine Closed.get ?_
      dsimp only
      split
      · exact confines_bind (confines_pbeFlush hU hP _ _) fun _ _ _ =>
          confines_bind (confines_pbeEmit hU hP _ _) fun _ t _ =>
            confines_packLine hU hP src e n _ _ _ t
      · split
        · exact confines_bind (confines_pbeEmit hU hP _ _) fun _ t _ =>
            confines_packLine hU hP src e n _ _ _ t
        · exact confines_packLine hU hP src e n _ _ _ s

theorem confines_packLines (hU : .pbe ∈ U) {dst : BufRef} (hP : Allowed P dst) (src : BufRef)
    (bpl : Nat) : ∀ (n start pos : Nat) (s : State), Confines U P (packLines src dst bpl n start pos) s
  | 0, _, _, _ => confines_pure _
  | n + 1, _, _, _ => confines_bind (confines_packLine hU hP _ _ _ _ _ _ _) fun _ t _ =>
    confines_packLines hU hP src bpl n _ _ t

theorem confines_pbePack (hU : .pbe ∈ U) {dst : BufRef} (hP : Allowed P dst) (src : BufRef)
    (bpl : Nat) : Confines U P (pbePackOp src bpl dst) s :=
  confines_clear hU <| confines_check hU fun _ => confines_set rfl rfl <|
    confines_onStop (confines_packLines hU hP _ _ _ _ _ _) (confined_spoil (hP.window _ _) .pbe)

/-! ### CKW -/

theorem confines_ckwInit (hU : .ckw ∈ U) (r : BufRef) : Confines U P (ckwInitOp r) s :=
  confines_clear hU <| confines_quiet rfl rfl

theorem confined_ckwStart {rs : List BufRef} {m : Mem} {c : Ckw} (hc : c.fault = s.ckw.fault)
    (hm : Writes P s.mem m) : Confined U P s (overwrite .ckw rs { s with mem := m, ckw := c }) :=
  confined_writes (by simp [faults, hc]) hm

theorem confines_ckwStart (hP : Allowed P (refOf s.ckw.dst)) (tag : U32) :
    Confines U P (ckwStartOp tag) s := by
  refine confines_enter fun _ => Closed.get <| confines_check List.mem_cons_self fun _ =>
    confines_check List.mem_cons_self fun _ => confines_check List.mem_cons_self fun _ =>
      confines_check List.mem_cons_self fun hroom => leads_modify <| confined_ckwStart rfl <|
        (writes_startChunk s.mem _ _ tag).mono fun id a ha => ?_
  obtain ⟨rfl, hlo, hhi⟩ := ha
  exact hP _ a ⟨rfl, by omega, by omega⟩

theorem confines_ckwEnd (hP : Allowed P (refOf s.ckw.dst)) : Confines U P ckwEndOp s :=
  confines_enter fun _ => Closed.get <| confines_check List.mem_cons_self fun _ =>
    confines_bind (confines_memWrite List.mem_cons_self (hP.window _ _)) fun _ _ _ =>
      confines_set rfl rfl (confines_pure _)

theorem confines_ckwWrite (hP : Allowed P (refOf s.ckw.dst)) (n k : Nat) :
    Confines U P (ckwWriteOp n k) s :=
  confines_enter fun _ => Closed.get <|
    confines_bind (confines_memWrite List.mem_cons_self (hP.window _ _)) fun _ _ _ =>
      confines_quiet rfl rfl

end Sys2Proof.Machine
end

section
/-! The two run-length decoders, confined (R226, R238, R243, R385): a pass writes inside the range that its
registers name, under the condition that the bytes of that range may be written. -/

namespace Sys2Proof.Machine

variable {α β : Type} {s t : State} {x : Op α} {v w : UnitId} {U : List UnitId} {P : Nat → Nat → Prop}
  {I : State → Prop}

theorem under_quiet (hf : faults t = faults s) (hm : t.mem = s.mem) (hI : I s → I t) :
    Under I (Confined U P) s t := fun hs => ⟨confined_quiet hf hm, hI hs⟩

theorem under_withFault (hw : w ∈ U) {c : FaultReg} (hI : I s → I (withFault w c s)) :
    Under I (Confined U P) s (withFault w c s) := fun hs => ⟨confined_withFault hw _ _, hI hs⟩

/-! ### PBD -/

/-- The destination range in PBD's registers may be written (R226). -/
def depackAllowed (P : Nat → Nat → Prop) (s : State) : Prop :=
  Allowed P (windowOf (refOf s.pbd.dst) s.pbd.dbase s.pbd.outSize)

/-- What a pass of PBD does in a destination range that may be written. -/
abbrev Depacks (U : List UnitId) (P : Nat → Nat → Prop) (x : Op α) (s : State) : Prop :=
  Leads (Under (depackAllowed P) (Confined U P)) x s

theorem depacks_closed (U : List UnitId) (P : Nat → Nat → Prop) :
    Closed (Under (depackAllowed P) (Confined U P)) := under_closed (confined_closed U P) _

variable (hU : UnitId.pbd ∈ U)
include hU

theorem depacks_raise {c : FaultCode} {n : Nat} :
    Under (depackAllowed P) (Confined U P) s (withFault .pbd (raisedReg c n) s) :=
  under_withFault hU id

theorem depacks_pbdNext : Depacks U P pbdNext s :=
  Closed.get <| (depacks_closed U P).check (fun _ => depacks_raise hU) fun _ =>
    (depacks_closed U P).set (under_quiet rfl rfl id) ((depacks_closed U P).pure _)

theorem depacks_pbdEmit (b : Byte) (hroom : s.pbd.produced < s.pbd.outSize) :
    Depacks U P (pbdEmit b) s := by
  refine fun hP => ?_
  have hconf : Confines U P (memWrite .pbd (refOf s.pbd.dst) (s.pbd.dbase + s.pbd.produced) 1 b.toNat) s :=
    confines_memWrite hU (hP.part (Nat.le_add_right _ _) (by omega))
  unfold endOf pbdEmit
  rw [get_bind]
  rcases memWrite_cases .pbd (refOf s.pbd.dst) (s.pbd.dbase + s.pbd.produced) 1 b.toNat s with
    hfault | ⟨-, hok⟩
  · rw [bind_error hfault]
    exact ⟨confined_withFault hU _ _, hP⟩
  · rw [bind_ok hok]
    exact ⟨(confined_closed U P).trans (hconf.ok hok) (confined_quiet rfl rfl), hP⟩

omit hU in
theorem depacks_whileRoom {x : Op Unit} (h : s.pbd.produced < s.pbd.outSize → Depacks U P x s) :
    Depacks U P (whileRoom x) s := by
  refine Closed.get ?_
  split
  · next hroom => exact h hroom
  · exact (depacks_closed U P).pure _

theorem depacks_pbCommand (c : PbCmd) : Depacks U P (pbCommand c) s := by
  have rounds {x : Op Unit} (hx : ∀ s, Depacks U P x s) (n : Nat) (s : State) :
      Depacks U P (times x n) s :=
    (depacks_closed U P).times (I := fun _ => True) (fun s _ => hx s) (fun _ _ _ _ _ => trivial) n s
      trivial
  cases c with
  | nop => exact leads_modify (under_quiet rfl rfl id)
  | run n =>
    exact (depacks_closed U P).set (under_quiet rfl rfl id) <|
      (depacks_closed U P).bind (depacks_pbdNext hU) fun b t _ _ =>
        rounds (fun _ => depacks_whileRoom (depacks_pbdEmit hU b)) _ t
  | lit n =>
    exact (depacks_closed U P).set (under_quiet rfl rfl id) <|
      rounds (fun _ => depacks_whileRoom fun hroom =>
        (depacks_closed U P).bind (depacks_pbdNext hU) fun b t _ ht =>
          depacks_pbdEmit hU b (by rwa [(pbdNext_pbd ht).1, (pbdNext_pbd ht).2])) _ _

theorem depacks_depackLoop : ∀ (n : Nat) (s : State), Depacks U P (depackLoop n) s
  | 0, _ => (depacks_closed U P).pure _
  | n + 1, s => by
    refine Closed.get ?_
    split
    · exact (depacks_closed U P).bind (Closed.get <|
          (depacks_closed U P).check (fun _ => depacks_raise hU) fun _ => (depacks_closed U P).pure _)
        fun _ _ _ _ => (depacks_closed U P).bind (depacks_pbCommand hU _) fun _ t _ _ =>
          depacks_depackLoop n t
    · exact (depacks_closed U P).pure _

omit hU in
theorem depacks_onStop {x : Op Unit} (hx : Depacks U P x s) : Depacks U P (onStop pbdSpoil x) s :=
  (depacks_closed U P).onStop hx fun t _ ht => ⟨confined_spoil ht .pbd t, ht⟩

theorem confines_pbdDepack {dst : BufRef} {dbase outSize : Nat}
    (hP : Allowed P (windowOf dst dbase outSize)) (src : BufRef) (sp : Nat) :
    Confines U P (pbdDepackOp src sp dst dbase outSize) s :=
  confines_clear hU <| confines_check hU fun _ => confines_check hU fun _ =>
    confines_set rfl rfl <| confines_bind
      (confines_endPass (confines_of_under (depacks_onStop (depacks_depackLoop hU _ _)) hP))
      fun _ _ _ => Closed.get (confines_pure _)

omit hU in
theorem confines_pbAlone {x : Op Unit} (hx : ∀ U s, .pbd ∈ U → Depacks U P x s)
    (hP : depackAllowed P s) : Confines U P (pbAlone x) s :=
  confines_enter fun _ => confines_bind
    (confines_of_under (depacks_onStop (hx _ s List.mem_cons_self)) hP)
    fun _ _ _ => confines_pure _

end Sys2Proof.Machine
end

section
/-! The strip decoder, confined (R238, R243, R385). -/

namespace Sys2Proof.Machine

variable {α β : Type} {s t : State} {x : Op α} {U : List UnitId} {P : Nat → Nat → Prop}
  {lay : Config.VdatLayout}

/-- The bytes that VDD may emit may be written: of its whole destination, or of the plane in its registers
with the cursor inside it (R238, R243). -/
def stripAllowed (P : Nat → Nat → Prop) (v : Vdd) : Prop :=
  Allowed P (refOf v.dst) ∨
    (v.bytesPerLine % 2 = 0 ∧ v.x % 2 = 0 ∧ (v.x < v.bytesPerLine → v.y < v.h) ∧
      Allowed P (windowOf (refOf v.dst) v.dbase (v.bytesPerLine * v.h)))

/-- Either way the plane may. -/
theorem stripAllowed.plane {v : Vdd} (h : stripAllowed P v) :
    Allowed P (windowOf (refOf v.dst) v.dbase (v.bytesPerLine * v.h)) :=
  h.elim (fun hall => hall.window _ _) fun ⟨_, _, _, hplane⟩ => hplane

/-- Where the next value goes (R238). -/
theorem stripAllowed.emit {v : Vdd} (h : stripAllowed P v) (hx : v.x < v.bytesPerLine) :
    Allowed P (windowOf (refOf v.dst) (v.dbase + v.y * v.bytesPerLine + v.x) 2) := by
  rcases h with hall | ⟨heven, hevenX, hin, hplane⟩
  · exact hall.window _ _
  · have hline : (v.y + 1) * v.bytesPerLine ≤ v.h * v.bytesPerLine := Nat.mul_le_mul_right _ (hin hx)
    rw [Nat.succ_mul, Nat.mul_comm v.h] at hline
    exact hplane.part (by omega) (by omega)

/-- The cursor stays inside the plane (R238). -/
theorem stripAllowed.next {v : Vdd} (h : stripAllowed P v) (hx : v.x < v.bytesPerLine) :
    stripAllowed P { v with
      y := if v.y + 1 = v.h then 0 else v.y + 1
      x := if v.y + 1 = v.h then v.x + 2 else v.x } := by
  refine h.imp id fun ⟨heven, hevenX, hin, hplane⟩ => ⟨heven, ?_, fun _ => ?_, hplane⟩ <;>
    have hy := hin hx <;> dsimp only <;> split <;> omega

/-- What a pass of VDD does where the bytes it may emit may be written. -/
abbrev Strips (U : List UnitId) (P : Nat → Nat → Prop) (x : Op α) (s : State) : Prop :=
  Leads (Under (fun s => stripAllowed P s.vdd) (Confined U P)) x s

theorem strips_closed (U : List UnitId) (P : Nat → Nat → Prop) :
    Closed (Under (fun s => stripAllowed P s.vdd) (Confined U P)) := under_closed (confined_closed U P) _

theorem strips_pure (a : α) : Strips U P (pure a : Op α) s := (strips_closed U P).pure a

theorem strips_vddStop (st : VddStatus) : Strips U P (vddStop st) s :=
  (strips_closed U P).set (under_quiet rfl rfl id) (strips_pure _)

theorem strips_vddSkipCmd : Strips U P (vddSkipCmd lay) s := leads_modify (under_quiet rfl rfl id)

variable (hU : UnitId.vdd ∈ U)
include hU

theorem strips_memRead {r : BufRef} {off n : Nat} : Strips U P (memRead .vdd r off n) s :=
  (strips_closed U P).check (fun _ => under_withFault hU id) fun _ => Closed.get (strips_pure _)

theorem strips_vddNextWord : Strips U P (vddNextWord lay) s := by
  refine Closed.get ?_
  dsimp only
  split
  · exact strips_pure _
  · exact (strips_closed U P).bind (strips_memRead hU) fun _ _ _ _ =>
      (strips_closed U P).set (under_quiet rfl rfl id) (strips_pure _)

theorem strips_vddEmit (b : Byte × Byte) : Strips U P (vddEmit b) s := by
  refine Closed.get ?_
  dsimp only
  split
  · exact strips_vddStop _
  · next hx =>
    intro hP
    have hconf : Confines U P (memWrite .vdd (refOf s.vdd.dst)
        (s.vdd.dbase + s.vdd.y * s.vdd.bytesPerLine + s.vdd.x) 2 (be16 b)) s :=
      confines_memWrite hU (hP.emit (Nat.lt_of_not_le hx))
    rcases memWrite_cases .vdd (refOf s.vdd.dst)
        (s.vdd.dbase + s.vdd.y * s.vdd.bytesPerLine + s.vdd.x) 2 (be16 b) s with hfault | ⟨-, hok⟩
    · unfold endOf
      rw [bind_error hfault]
      exact ⟨confined_withFault hU _ _, hP⟩
    · unfold endOf
      rw [bind_ok hok]
      exact ⟨(confined_closed U P).trans (hconf.ok hok) (confined_quiet rfl rfl),
        hP.next (Nat.lt_of_not_le hx)⟩

theorem strips_vddCopyOne : Strips U P (vddCopyOne lay) s :=
  (strips_closed U P).bind (strips_vddNextWord hU) fun b _ _ _ => by
    cases b with
    | none => exact Closed.get (strips_vddStop _)
    | some b => exact strips_vddEmit hU b

omit hU in
theorem strips_vddRepeat {x : Op Bool} (hx : ∀ s, Strips U P x s) : ∀ (n : Nat) (s : State),
    Strips U P (vddRepeat x n) s
  | 0, _ => strips_pure _
  | n + 1, s => (strips_closed U P).bind (hx s) fun _ t _ _ => by
    split
    · exact strips_pure _
    · exact strips_vddRepeat hx n t

/-- A word of the source, or the end of it. -/
theorem strips_vddWord {k : Option (Byte × Byte) → Op Bool} {st : VddStatus}
    (hnone : k none = vddStop st) (hsome : ∀ b s, Strips U P (k (some b)) s) :
    Strips U P (vddNextWord lay >>= k) s :=
  (strips_closed U P).bind (strips_vddNextWord hU) fun b t _ _ => by
    cases b with
    | none =>
      rw [hnone]
      exact strips_vddStop st
    | some b => exact hsome b t

theorem strips_vdCommand (c : VdCmd) : Strips U P (vdCommand lay c) s := by
  have past {k : Unit → Op Bool} (hk : ∀ s, Strips U P (k ()) s) :
      Strips U P (vddSkipCmd lay >>= k) s :=
    (strips_closed U P).bind strips_vddSkipCmd fun _ t _ _ => hk t
  cases c with
  | copyx =>
    exact past fun _ => strips_vddWord hU rfl fun _ _ =>
      strips_vddRepeat (fun _ => strips_vddCopyOne hU) _ _
  | copy n => exact past fun _ => strips_vddRepeat (fun _ => strips_vddCopyOne hU) _ _
  | runx =>
    exact past fun _ => strips_vddWord hU rfl fun _ _ => strips_vddWord hU rfl fun b _ =>
      strips_vddRepeat (fun _ => strips_vddEmit hU b) _ _
  | run n =>
    exact past fun _ => strips_vddWord hU rfl fun b _ =>
      strips_vddRepeat (fun _ => strips_vddEmit hU b) _ _

theorem strips_vddLoop : ∀ (n : Nat) (s : State), Strips U P (vddLoop lay n) s
  | 0, _ => strips_pure _
  | n + 1, s => by
    have stop (st : VddStatus) : Strips U P (do let _ ← vddStop st) s :=
      (strips_closed U P).bind (strips_vddStop st) fun _ _ _ _ => strips_pure _
    refine Closed.get ?_
    split
    · exact stop _
    · split
      · exact stop _
      · exact (strips_closed U P).bind (strips_memRead hU) fun _ _ _ _ =>
          (strips_closed U P).bind (strips_vdCommand hU _) fun _ t _ _ => by
            split
            · exact strips_pure _
            · exact strips_vddLoop n t

theorem confines_vddDecode {dst : BufRef} {dbase bpl h : Nat}
    (hP : Allowed P (windowOf dst dbase (bpl * h))) (src : BufRef) (base len : Nat) :
    Confines U P (vddDecodeOp lay src base len dst dbase bpl h) s :=
  confines_clear hU <| confines_check hU fun hgeom => confines_check hU fun _ =>
    confines_check hU fun _ => confines_check hU fun _ => confines_set rfl rfl <|
      confines_bind (confines_endPass (confines_of_under (strips_vddLoop hU _ _) <| .inr
        ⟨by dsimp only [claim]; omega, rfl, fun _ => by dsimp only [claim]; omega, hP⟩))
        fun _ _ _ => Closed.get (confines_pure _)

omit hU in
theorem confines_vdAlone {x : Op Bool} (hx : ∀ U s, .vdd ∈ U → Strips U P x s)
    (hP : Allowed P (refOf s.vdd.dst)) : Confines U P (vdAlone x) s :=
  confines_enter fun _ => confines_bind
    (confines_of_under ((strips_closed _ P).onStop (hx _ s List.mem_cons_self) fun t _ ht =>
      ⟨confined_spoil ht.plane .vdd t, ht⟩) (.inl hP)) fun _ _ _ => confines_pure _

end Sys2Proof.Machine
end

section
/-! The passes of the sequencer, confined (R311, R313, R321, R385): pixel `n` of an image is written at its
own place, because the writer stands there. -/

namespace Sys2Proof.Machine

variable {α β : Type} {s t : State} {x : Op α} {U : List UnitId} {P : Nat → Nat → Prop} {r : BufRef}
  {I : State → Prop} {g : Geometry} {k : Nat}

/-! ### Where the writers stand -/

/-- The registers that say where the two writers of SEQ's passes stand are as they were. -/
def Parked (s t : State) : Prop :=
  t.pxw.pos = s.pxw.pos ∧ t.bpw.geom = s.bpw.geom ∧ t.bpw.cur = s.bpw.cur

theorem parked_closed : Closed Parked where
  refl _ := ⟨rfl, rfl, rfl⟩
  trans := fun ⟨h1, h2, h3⟩ ⟨h1', h2', h3'⟩ => ⟨h1'.trans h1, h2'.trans h2, h3'.trans h3⟩

theorem parked_withFault (u : UnitId) (c : FaultReg) (s : State) : Parked s (withFault u c s) :=
  ⟨withFault_pxw_pos .., withFault_bpw_geom .., withFault_bpw_cur ..⟩

theorem parks_raiseIf {p : Prop} [Decidable p] {u : UnitId} {c : FaultCode} {n : Nat} :
    Leads Parked (raiseIf p u c n) s := by
  unfold raiseIf
  split
  · exact leads_raise (parked_withFault _ _ _)
  · exact parked_closed.pure _

theorem parks_check {p : Prop} [Decidable p] {u : UnitId} {c : FaultCode} {n : Nat}
    {f : Unit → Op β} (h : Leads Parked (f ()) s) : Leads Parked (raiseIf p u c n >>= f) s :=
  parked_closed.check (fun _ => parked_withFault _ _ _) fun _ => h

theorem parks_enter {u : UnitId} {f : Unit → Op β} (h : Leads Parked (f ()) s) :
    Leads Parked (enter u >>= f) s :=
  parked_closed.enter (fun _ _ => parked_withFault _ _ _) fun _ => h

theorem parks_callFrom {u v : UnitId} (h : Leads Parked x s) : Leads Parked (callFrom u v x) s :=
  parked_closed.callFrom h fun _ _ => parked_withFault _ _ _

theorem parks_bprReadCore : Leads Parked bprReadCore s := by
  have step (t : State) : Leads Parked (do
      let t ← get
      modify fun s => { s with bpr := { s.bpr with cur := stepCursor s.bpr.geom s.bpr.cur } }
      pure (bprCached t) : Op Byte) t :=
    Closed.get <| parked_closed.set ⟨rfl, rfl, rfl⟩ (parked_closed.pure _)
  have fetch : Leads Parked bprFetch s := by
    refine Closed.get ?_
    dsimp only
    split
    · exact leads_raise (parked_withFault _ _ _)
    · exact leads_modify ⟨rfl, rfl, rfl⟩
  refine Closed.get ?_
  dsimp only
  split
  · exact parked_closed.bind fetch fun _ t _ _ => step t
  · exact parked_closed.bind parked_closed.refuseIf fun _ t _ _ => step t

theorem parks_bprRead : Leads Parked bprReadOp s := parks_enter parks_bprReadCore

theorem parks_bprAdv (n : Nat) : Leads Parked (bprAdvOp n) s :=
  parks_enter <| parked_closed.bind
    (parked_closed.times (I := fun _ => True)
      (fun _ _ => parked_closed.bind parks_bprReadCore fun _ _ _ _ => parked_closed.pure _)
      (fun _ _ _ _ _ => trivial) n s trivial)
    fun _ _ _ _ => parked_closed.pure _

theorem parks_pxrRead : Leads Parked pxrReadOp s :=
  parks_enter <| Closed.get <| parked_closed.bind
    (parks_check <| Closed.get <| parked_closed.pure _) fun _ _ _ _ => by
      dsimp only
      split
      · exact leads_raise (parked_withFault _ _ _)
      · exact parked_closed.set ⟨rfl, rfl, rfl⟩ (parked_closed.pure _)

theorem parks_hamPixel (sel : HamSel) (p data : Nat) : Leads Parked (hamPixel sel p data) s := by
  cases sel with
  | base => exact Closed.get <| parks_check <| parks_check <| leads_modify ⟨rfl, rfl, rfl⟩
  | modb | modr | modg => exact leads_modify ⟨rfl, rfl, rfl⟩

theorem parks_hamRead : Leads Parked hamReadOp s :=
  parks_enter <| Closed.get <| parks_check <| parked_closed.bind (parks_callFrom parks_bprRead)
    fun _ _ _ _ => parked_closed.bind (parks_hamPixel _ _ _) fun _ _ _ _ =>
      Closed.get (parked_closed.pure _)

theorem parks_hamAdv (n : Nat) : Leads Parked (hamAdvOp n) s :=
  parks_enter <| parks_callFrom (parks_bprAdv n)

theorem parks_hamInit (p slot : Nat) : Leads Parked (hamInitOp p slot) s :=
  parked_closed.set (parked_withFault _ _ _) <| parks_check <| parked_closed.bind
    (parked_closed.bind parks_raiseIf fun _ _ _ _ => parked_closed.bind (Closed.get parks_raiseIf)
      fun _ _ _ _ => Closed.get (parked_closed.pure _))
    fun _ _ _ _ => parked_closed.set ⟨rfl, rfl, rfl⟩ (parked_closed.pure _)

theorem parked_installLut (c : Consumer) (l : Lut) (s : State) : Parked s (installLut c l s) := by
  cases c <;> exact ⟨rfl, rfl, rfl⟩

theorem parks_rpaSelect (y : Nat) : Leads Parked (rpaSelectOp y) s :=
  parks_enter <| Closed.get <| by
    split
    · exact parked_closed.pure _
    · exact parks_check <| parked_closed.set (parked_installLut _ _ _) (parked_closed.pure _)

/-! ### A writer that stands at a pixel -/

/-- Kept by every operation that moves no writer and binds nothing. -/
def Steady (I : State → Prop) : Prop := ∀ s t, Parked s t → Spared [] [] s t → I s → I t

/-- PXW stands at pixel `k` of `r`, or is unbound by now. -/
def AtPixel (r : BufRef) (k : Nat) (s : State) : Prop :=
  s.pxw.pos = k ∧ (bindingOf .pxw s = some r ∨ bindingOf .pxw s = none)

/-- BPW stands at pixel `k` of planes in `r`, or is unbound by now. -/
def AtPlanes (r : BufRef) (g : Geometry) (k : Nat) (s : State) : Prop :=
  s.bpw.geom = g ∧ s.bpw.cur = stepCursorN g k Cursor.zero ∧
    (bindingOf .bpw s = some r ∨ bindingOf .bpw s = none)

/-- A binding that is as it was, or ended. -/
theorem binding_kept {v : UnitId} {W : List UnitId} (h : Spared [] W s t)
    (hs : bindingOf v s = some r ∨ bindingOf v s = none) :
    bindingOf v t = some r ∨ bindingOf v t = none := by
  rcases h.bindingOf_cases v with hsame | hnone
  · rwa [hsame]
  · exact .inr hnone

theorem steady_atPixel : Steady (AtPixel r k) := fun _ _ hp hs ⟨hpos, hbind⟩ =>
  ⟨hp.1.trans hpos, binding_kept hs hbind⟩

theorem steady_atPlanes : Steady (AtPlanes r g k) := fun _ _ hp hs ⟨hgeom, hcur, hbind⟩ =>
  ⟨hp.2.1.trans hgeom, hp.2.2.trans hcur, binding_kept hs hbind⟩

/-- An operation that moves no writer. -/
theorem brings_steady (hI : Steady I) (hc : ∀ s, Confines U P x s) (hp : ∀ s, Leads Parked x s)
    (hs : ∀ s, Spares [] [] x s) : Brings U P I I x := fun s h =>
  ⟨hc s, fun _ t ht => hI s t ((hp s).ok ht) ((hs s).ok ht) h⟩

/-- The bytes of a bound window, if it is bound. -/
theorem Allowed.bound {b : Option BufRef} {off n : Nat} (h : Allowed P (windowOf r off n))
    (hb : b = some r ∨ b = none) : Allowed P (windowOf (refOf b) off n) := by
  rcases hb with rfl | rfl
  · exact h
  · rintro id a ⟨-, hlo, hhi⟩
    simp only [windowOf, refOf, Option.getD_none] at hlo hhi
    omega

theorem pxwStore_pos {colour : U32} {a : Result} (h : pxwStore colour s = .ok a t) :
    t.pxw.pos = s.pxw.pos + 1 := by
  obtain ⟨_, u, hwrite, hstep⟩ := ok_of_bind_ok ((get_bind _ s).symm.trans h)
  rw [memWrite_state hwrite] at hstep
  cases hstep
  rfl

theorem pxwWrite_pos {index : Nat} {a : Result} (h : pxwWriteOp index s = .ok a t) :
    t.pxw.pos = s.pxw.pos + 1 := by
  obtain ⟨-, h⟩ := ok_of_enter h
  obtain ⟨-, h⟩ := ok_of_check ((get_bind _ s).symm.trans h)
  obtain ⟨-, h⟩ := ok_of_check h
  exact pxwStore_pos h

theorem brings_pxwWrite (hP : Allowed P (windowOf r (4 * k) 4)) (index : Nat) :
    Brings U P (AtPixel r k) (AtPixel r (k + 1)) (pxwWriteOp index) := fun s ⟨hpos, hbind⟩ =>
  ⟨confines_pxwWrite (by rw [hpos]; exact hP.bound hbind) index, fun _ _ ht =>
    ⟨(pxwWrite_pos ht).trans (by rw [hpos]),
      binding_kept ((spares_pxwWrite (E := []) (W := [.pxw]) (.inr (by simp)) index).ok ht) hbind⟩⟩

theorem brings_pxwWritec (hP : Allowed P (windowOf r (4 * k) 4)) (colour : U32) :
    Brings U P (AtPixel r k) (AtPixel r (k + 1)) (pxwWritecOp colour) := fun s ⟨hpos, hbind⟩ =>
  ⟨confines_pxwWritec (by rw [hpos]; exact hP.bound hbind) colour, fun _ _ ht =>
    ⟨(pxwStore_pos (ok_of_enter ht).2).trans (by rw [hpos]),
      binding_kept ((spares_pxwWritec (E := []) (W := [.pxw]) (.inr (by simp)) colour).ok ht) hbind⟩⟩

/-- The planes' bytes of pixel `k` may be written. -/
def planesAllowed (P : Nat → Nat → Prop) (r : BufRef) (g : Geometry) (k : Nat) : Prop :=
  ∀ i < g.planeCount, planeOffset g (stepCursorN g k Cursor.zero) i < r.len →
    P r.id (r.base + planeOffset g (stepCursorN g k Cursor.zero) i)

theorem bpwWrite_cursor {index : Nat} {a : Result} (h : bpwWriteOp index s = .ok a t) :
    t.bpw.geom = s.bpw.geom ∧ t.bpw.cur = stepCursor s.bpw.geom s.bpw.cur := by
  obtain ⟨-, h⟩ := ok_of_enter h
  obtain ⟨-, h⟩ := ok_of_check ((get_bind _ s).symm.trans h)
  cases hpast : firstPlanePastEnd s.bpw.geom s.bpw.cur (refOf s.bpw.buf).len 0 s.bpw.geom.planeCount with
  | some i =>
    simp only [hpast] at h
    cases h
  | none =>
    simp only [hpast] at h
    cases h
    exact ⟨rfl, rfl⟩

theorem brings_bpwWrite (hP : planesAllowed P r g k) (index : Nat) :
    Brings U P (AtPlanes r g k) (AtPlanes r g (k + 1)) (bpwWriteOp index) :=
  fun s ⟨hgeom, hcur, hbind⟩ => by
    refine ⟨confines_bpwWrite rfl (fun i hi hlt => ?_) index, fun _ _ ht => ?_⟩
    · rw [hgeom, hcur] at hlt ⊢
      rw [hgeom] at hi
      rcases hbind with hsome | hnone
      · rw [show refOf s.bpw.buf = r from congrArg refOf hsome] at hlt ⊢
        exact hP i hi hlt
      · rw [show refOf s.bpw.buf = _ from congrArg refOf hnone] at hlt
        exact absurd hlt (Nat.not_lt_zero _)
    · obtain ⟨hgeom', hcur'⟩ := bpwWrite_cursor ht
      refine ⟨hgeom'.trans hgeom, ?_, binding_kept
        ((spares_bpwWrite (E := []) (W := [.bpw]) (.inr (by simp)) index).ok ht) hbind⟩
      rw [hcur', hgeom, hcur, stepCursorN_succ]

/-! ### The generic codec -/

theorem confines_setSeqState (st : SeqState) : Confines U P (setSeqState st) s :=
  confines_quiet rfl rfl

section
variable (hU : UnitId.seq ∈ U)
include hU

theorem brings_decodePixel (hP : Allowed P (windowOf r (4 * k) 4)) :
    Brings U P (AtPixel r k) (AtPixel r (k + 1)) decodePixel :=
  brings_bind (brings_seqCall hU (brings_steady steady_atPixel (fun _ => confines_bprRead)
      (fun _ => parks_bprRead) fun _ => spares_bprRead)) fun _ =>
    brings_map (brings_seqCall hU (brings_pxwWrite hP _))

theorem brings_skipBpr (hI : Steady I) (n : Nat) :
    Brings U P I I (do let _ ← seqCall .bpr (bprAdvOp n)) :=
  brings_map (brings_seqCall hU (brings_steady hI (fun _ => confines_bprAdv n)
    (fun _ => parks_bprAdv n) fun _ => spares_bprAdv n))

omit hU in
/-- Pixel `n` of an image of `m` pixels. -/
theorem Allowed.pixel {n w h : Nat} (hP : Allowed P (windowOf r 0 (4 * w * h))) (hn : n < w * h) :
    Allowed P (windowOf r (4 * n) 4) := hP.part (Nat.zero_le _) (by rw [Nat.mul_assoc]; omega)

omit hU in
/-- A line of `w` pixels, the `y`-th of `h`. -/
theorem brings_line {pixel : Op Unit} {w h y : Nat} (hy : y < h)
    (hpixel : ∀ n < w * h, Brings U P (AtPixel r n) (AtPixel r (n + 1)) pixel) :
    Brings U P (AtPixel r (y * w)) (AtPixel r ((y + 1) * w)) (times pixel w) := by
  rw [Nat.succ_mul]
  refine brings_times fun j hj => hpixel _ ?_
  calc y * w + j < (y + 1) * w := by rw [Nat.succ_mul]; omega
    _ ≤ w * h := by rw [Nat.mul_comm w]; exact Nat.mul_le_mul_right w hy

omit hU in
theorem atPixel_zero {slot : Nat} {a : Result} (h : seqCall .pxw (pxwInitOp r slot) s = .ok a t) :
    AtPixel r 0 t := by
  obtain ⟨_, u, hclear, h⟩ := ok_of_bind_ok (ok_of_seqCall h)
  obtain ⟨_, u, hview, h⟩ := ok_of_bind_ok h
  cases h
  exact ⟨rfl, .inl (by simp [bindingOf, claim])⟩

omit hU in
theorem atPlanes_zero {a : Result} (h : seqCall .bpw (bpwInitOp r g) s = .ok a t) :
    AtPlanes r (registerGeometry g) 0 t := by
  obtain ⟨_, u, hclear, h⟩ := ok_of_bind_ok (ok_of_seqCall h)
  obtain ⟨-, h⟩ := ok_of_check h
  cases h
  exact ⟨rfl, rfl, .inl (by simp [bindingOf, claim])⟩

theorem confines_decodePass {b x : BufRef} {slot w h p : Nat} {f : PlaneFormat}
    (hbpr : .bpr ∈ U) (hpxw : .pxw ∈ U) (hP : Allowed P (windowOf x 0 (4 * w * h))) :
    Confines U P (decodePass b slot w h p f x) s := by
  have lines : Brings U P (AtPixel x (0 * w)) (AtPixel x ((0 + h) * w))
      (times (decodeLine w (padPixels (presetLineBytes f w) w)) h) :=
    brings_times (I := fun y => AtPixel x (y * w)) fun y hy => by
      rw [Nat.zero_add]
      exact brings_bind (brings_line hy fun n hn => brings_decodePixel hU (hP.pixel hn))
        fun _ => brings_skipBpr hU steady_atPixel _
  refine confines_bind (confines_seqCall hU (confines_bprInit hbpr _ _)) fun _ _ _ =>
    confines_endPass <| confines_bind (confines_seqCall hU (confines_pxwInit hpxw _ _)) fun _ t ht =>
      confines_endPass (lines t ?_).1
  rw [Nat.zero_mul]
  exact atPixel_zero ht

theorem confines_seqDecode {b x : BufRef} {slot w h p : Nat} {f : PlaneFormat}
    (hbpr : .bpr ∈ U) (hpxw : .pxw ∈ U) (hP : Allowed P (windowOf x 0 (4 * w * h))) :
    Confines U P (seqDecodeOp b slot w h p f x) s :=
  confines_clear hU <| confines_check hU fun _ => confines_check hU fun _ =>
    confines_bind (confines_onStop (confines_decodePass hU hbpr hpxw hP) (confined_spoil hP .seq))
      fun _ _ _ => confines_map (confines_setSeqState _)

theorem brings_encodePixel (hP : planesAllowed P r g k) :
    Brings U P (AtPlanes r g k) (AtPlanes r g (k + 1)) encodePixel :=
  brings_bind (brings_seqCall hU (brings_steady steady_atPlanes (fun _ => confines_pxrRead)
      (fun _ => parks_pxrRead) fun _ => spares_pxrRead)) fun _ =>
    brings_map (brings_seqCall hU (brings_bpwWrite hP _))

/-- The bytes that an encode of `p` planes writes: all it clears, and every pixel's. -/
structure EncodeAllowed (P : Nat → Nat → Prop) (b : BufRef) (w h p : Nat) (f : PlaneFormat) : Prop where
  planes : Allowed P (windowOf b 0 (encodeSize w h p))
  pixels : ∀ n < w * h, planesAllowed P b (registerGeometry (presetGeometry f w h p)) n

theorem confines_encodePass {x b : BufRef} {slot w h p : Nat} {f : PlaneFormat} (hpxr : .pxr ∈ U)
    (hbpw : .bpw ∈ U) (hroom : encodeSize w h p ≤ b.len) (hP : EncodeAllowed P b w h p f) :
    Confines U P (encodePass x slot w h p f b) s := by
  have pixels : Brings U P (AtPlanes b (registerGeometry (presetGeometry f w h p)) 0)
      (AtPlanes b (registerGeometry (presetGeometry f w h p)) (0 + w * h))
      (times encodePixel (w * h)) :=
    brings_times fun n hn => brings_encodePixel hU (by rw [Nat.zero_add]; exact hP.pixels n hn)
  refine confines_onStop ?_ (confined_spoil hP.planes .seq)
  refine (confined_closed U P).set (confined_clearRange hroom hP.planes s) ?_
  refine confines_bind (confines_seqCall hU (confines_pxrInit hpxr _ _)) fun _ _ _ =>
    confines_bind (confines_endPass ?_) fun _ _ _ => confines_setSeqState _
  exact confines_bind (confines_seqCall hU (confines_bpwInit hbpw _ _)) fun _ t ht =>
    confines_endPass (pixels t (atPlanes_zero ht)).1

theorem confines_encodeChecks (x : BufRef) (slot w h : Nat) (p : Option Nat) (b : BufRef) :
    Confines U P (encodeChecks x slot w h p b) s := by
  rw [encodeChecks_eq]
  refine confines_bind ?_ fun _ _ _ => confines_check hU fun _ => confines_check hU fun _ =>
    confines_check hU fun _ => confines_check hU fun _ => confines_pure _
  cases p with
  | some p => exact confines_pure p
  | none => exact confines_seqCall hU (confines_palPlanes slot)

omit hU in
theorem palPlanes_ok {slot p : Nat} (h : palPlanesOp slot s = .ok p t) :
    p = planesFor (slotAt s slot).count := by
  obtain ⟨_, u, hslot, hrest⟩ := ok_of_bind_ok (ok_of_enter h).2
  obtain ⟨_, t, hmade, hcount⟩ := ok_of_bind_ok hrest
  obtain ⟨-, rfl⟩ := ok_of_raiseIf_ok hslot
  obtain ⟨-, rfl⟩ := ok_of_raiseIf_ok hmade
  cases hcount
  rfl

/-- What the checks of an encode have found where they let it begin (R313). -/
structure EncodeChecked (pal : Slot) (x : BufRef) (w h : Nat) (p? : Option Nat) (b : BufRef)
    (p : Nat) : Prop where
  count : p = p?.getD (planesFor pal.count)
  some_plane : 0 < p
  planes_le : p ≤ Config.planesMax
  whole_words : w % 16 = 0
  room : encodeSize w h p ≤ b.len
  pixels : 4 * w * h ≤ x.len

omit hU in
theorem encodeChecked {x b : BufRef} {slot w h p : Nat} {p? : Option Nat}
    (hok : encodeChecks x slot w h p? b s = .ok p t) :
    EncodeChecked (slotAt s slot) x w h p? b p := by
  rw [encodeChecks_eq] at hok
  obtain ⟨p', u, hcount, hok⟩ := ok_of_bind_ok hok
  obtain ⟨hplanes, hok⟩ := ok_of_check hok
  obtain ⟨hwords, hok⟩ := ok_of_check hok
  obtain ⟨hroom, hok⟩ := ok_of_check hok
  obtain ⟨hpixels, hok⟩ := ok_of_check hok
  cases hok
  refine ⟨?_, by omega, by omega, not_not.mp hwords, Nat.le_of_not_lt hroom, Nat.le_of_not_lt hpixels⟩
  cases p? with
  | some q => cases hcount; rfl
  | none => exact palPlanes_ok (ok_of_seqCall hcount)

theorem confines_seqEncode {x b : BufRef} {slot w h : Nat} {p? : Option Nat} {f : PlaneFormat}
    (hpxr : .pxr ∈ U) (hbpw : .bpw ∈ U)
    (hP : ∀ p, EncodeChecked (slotAt s slot) x w h p? b p → EncodeAllowed P b w h p f) :
    Confines U P (seqEncodeOp x slot w h p? f b) s :=
  confines_clear hU <| confines_bind (confines_encodeChecks hU _ _ _ _ _ _) fun p _ hp => by
    have hchecked := encodeChecked hp
    exact confines_bind (confines_encodePass hU hpxr hbpw hchecked.room (hP p hchecked))
      fun _ _ _ => confines_pure _

end

end Sys2Proof.Machine
end

section
/-! The container operations of the sequencer, confined (R317, R328, R358, R385). -/

namespace Sys2Proof.Machine

variable {α β : Type} {s t : State} {x : Op α} {U : List UnitId} {P : Nat → Nat → Prop}

section
variable (hU : UnitId.seq ∈ U)
include hU

/-! ### The scan of a container -/

theorem confines_seqRd (n : Nat) : Confines U P (seqRd n) s := confines_seqCall hU (confines_ckrRead n)

omit hU in
theorem confines_modHdr (f : Hdr → Hdr) : Confines U P (modHdr f) s := confines_quiet rfl rfl

theorem confines_readHeader : Confines U P readHeader s := by
  unfold readHeader
  iterate 12
    refine confines_bind (confines_seqRd hU _) fun _ _ _ => ?_
    refine confines_bind (confines_modHdr _) fun _ _ _ => ?_
  exact confines_bind (confines_seqRd hU 2) fun _ _ _ => confines_modHdr _

theorem confines_scanHeader (base len : Nat) : Confines U P (scanHeader base len) s :=
  confines_bind (confines_seqRaiseIf hU) fun _ _ _ =>
    confines_bind (confines_seqCall hU (confines_ckrEnter base len)) fun _ _ _ =>
      confines_bind (confines_readHeader hU) fun _ _ _ =>
        confines_bind (confines_seqCall hU confines_ckrLeave) fun _ _ _ =>
          confines_bind (confines_modHdr _) fun _ _ _ => Closed.get <|
            confines_bind (confines_seqRaiseIf hU) fun _ _ _ => confines_seqRaiseIf hU

theorem confines_scanMode (base len : Nat) : Confines U P (scanMode base len) s :=
  confines_bind (confines_seqRaiseIf hU) fun _ _ _ =>
    confines_bind (confines_seqCall hU (confines_ckrEnter base len)) fun _ _ _ =>
      confines_bind (confines_seqRd hU 4) fun _ _ _ =>
        confines_set rfl rfl (confines_seqCall hU confines_ckrLeave)

theorem confines_scanPaletteEntry (i : Nat) : Confines U P (scanPaletteEntry i) s :=
  confines_bind (confines_seqRd hU 1) fun _ _ _ => confines_bind (confines_seqRd hU 1) fun _ _ _ =>
    confines_bind (confines_seqRd hU 1) fun _ _ _ =>
      confines_map (confines_seqCall hU (confines_palSet _ _ _ _ _ _))

theorem confines_scanPalette (hpal : .pal ∈ U) (base len : Nat) :
    Confines U P (scanPalette base len) s :=
  confines_bind (confines_seqRaiseIf hU) fun _ _ _ =>
    confines_bind (confines_seqCall hU (confines_palCreate hpal _ _ _)) fun _ _ _ =>
      confines_bind (confines_seqCall hU (confines_ckrEnter base len)) fun _ _ _ =>
        confines_bind (confines_forFrom (fun i _ => confines_scanPaletteEntry hU i) 0 _) fun _ _ _ =>
          confines_bind (confines_seqCall hU confines_ckrLeave) fun _ _ _ => confines_quiet rfl rfl

theorem confines_scanChunk (hpal : .pal ∈ U) (k : Config.Codes) (tag : U32) (len base : Nat) :
    Confines U P (scanChunk k tag len base) s := by
  unfold scanChunk
  split_ifs
  · exact confines_scanHeader hU base len
  · exact confines_scanMode hU base len
  · exact confines_scanPalette hU hpal base len
  · exact confines_quiet rfl rfl
  · exact confines_quiet rfl rfl
  · exact confines_quiet rfl rfl
  · exact confines_quiet rfl rfl
  · exact confines_quiet rfl rfl
  · exact confines_pure _

theorem confines_scanLoop (hpal : .pal ∈ U) (k : Config.Codes) : ∀ (n : Nat) (s : State),
    Confines U P (scanLoop k n) s
  | 0, _ => confines_pure _
  | n + 1, s => confines_bind (confines_seqCall hU confines_ckrEof) fun e t _ => by
    cases e with
    | false =>
      exact confines_bind (confines_seqCall hU confines_ckrReadchunk) fun _ _ _ =>
        confines_bind (confines_scanChunk hU hpal k _ _ _) fun _ t _ => confines_scanLoop hpal k n t
    | true => exact confines_pure _

theorem confines_scanSide (k : Config.Codes) : Confines U P (scanSide k) s :=
  confines_bind (confines_seqCall hU confines_ckrPeek) fun _ _ _ => leads_modify <| by
    dsimp only
    split <;> exact confined_quiet rfl rfl

theorem confines_scanComplete : Confines U P scanComplete s :=
  Closed.get <| confines_bind (confines_seqRaiseIf hU) fun _ _ _ =>
    confines_bind (confines_seqRaiseIf hU) fun _ _ _ =>
      confines_bind (confines_seqRaiseIf hU) fun _ _ _ => confines_setSeqState _

theorem confines_scanPass (hpal : .pal ∈ U) (k : Config.Codes) (c : BufRef) :
    Confines U P (scanPass k c) s :=
  confines_bind (confines_seqCall hU confines_ckrReadchunk) fun _ _ _ =>
    confines_bind (confines_seqRaiseIf hU) fun _ _ _ =>
      confines_bind (confines_seqCall hU (confines_ckrEnter _ _)) fun _ _ _ =>
        confines_bind (confines_seqRaiseIf hU) fun _ _ _ => confines_bind (confines_seqRd hU 4)
          fun _ _ _ => confines_bind (confines_seqRaiseIf hU) fun _ _ _ =>
            confines_bind (confines_scanLoop hU hpal k _ _) fun _ _ _ =>
              confines_bind (confines_seqCall hU confines_ckrLeave) fun _ _ _ =>
                confines_bind (confines_scanSide hU k) fun _ _ _ => confines_scanComplete hU

theorem confines_seqScan (hckr : .ckr ∈ U) (hpal : .pal ∈ U) (k : Config.Codes) (c : BufRef) :
    Confines U P (seqScanOp k c) s :=
  confines_clear hU <| confines_set rfl rfl <|
    confines_bind (confines_seqCall hU (confines_ckrOpen hckr c)) fun _ _ _ =>
      confines_then (confines_onStop (confines_scanPass hU hpal k c) (confined_unbind .ckr)) _

/-! ### The assembly of a container -/

/-- Plane `k` of `p`, of `n` bytes each, is a part of all planes (R328). -/
theorem confines_stripLoop (hvdd : .vdd ∈ U) (tag : U32) (c : BufRef) {w : BufRef}
    {lineBytes h p : Nat} (hP : Allowed P (windowOf w 0 (lineBytes * p * h))) :
    ∀ (n k : Nat) (s : State), Confines U P (stripLoop tag c w lineBytes h p n k) s
  | 0, _, _ => confines_pure _
  | n + 1, k, s => confines_bind (confines_seqCall hU confines_ckrEof) fun e t _ => by
    split
    · exact confines_pure _
    · next hmore =>
      refine confines_bind (confines_seqCall hU confines_ckrReadchunk) fun ck t _ => ?_
      split
      · have hk : k + 1 ≤ p := by omega
        have hplane : k * lineBytes * h + lineBytes * h ≤ 0 + lineBytes * p * h := by
          calc k * lineBytes * h + lineBytes * h = (k + 1) * (lineBytes * h) := by ring
            _ ≤ p * (lineBytes * h) := Nat.mul_le_mul_right _ hk
            _ = 0 + lineBytes * p * h := by ring
        exact confines_bind (confines_seqCall hU
            (confines_vddDecode hvdd (hP.part (Nat.zero_le _) hplane) _ _ _)) fun _ t _ =>
          confines_stripLoop hvdd tag c hP n _ t
      · exact confines_stripLoop hvdd tag c hP n _ t

theorem confines_assemblePlanes (hpbd : .pbd ∈ U) (hvdd : .vdd ∈ U) {hd : Hdr} {w : BufRef}
    (hroom : hd.compression ≠ 0 → containerPlaneBytes hd ≤ w.len)
    (hP : hd.compression ≠ 0 → Allowed P (windowOf w 0 (containerPlaneBytes hd))) (tag : U32)
    (c : BufRef) (body : BodyDesc) : Confines U P (assemblePlanes tag c w hd body) s := by
  unfold assemblePlanes
  dsimp only
  split_ifs with hraw
  · exact confines_pure _
  · exact confines_map (confines_seqCall hU (confines_pbdDepack hpbd (hP hraw) _ _))
  · refine (confined_closed U P).set (confined_clearRange (hroom hraw) (hP hraw) s) ?_
    exact confines_bind (confines_seqCall hU (confines_ckrEnter _ _)) fun _ _ _ =>
      confines_bind (confines_stripLoop hU hvdd tag _ (hP hraw) _ _ _) fun _ _ _ =>
        confines_bind (confines_seqCall hU confines_ckrLeave) fun _ _ _ =>
          confines_map (confines_seqRaiseIf hU)

theorem confines_activeSlot : Confines U P activeSlot s :=
  Closed.get <| by
    split
    · exact confines_map (confines_seqCall hU (confines_palEhb 1 0))
    · exact confines_pure _

theorem brings_hamPixelOut {r : BufRef} {k : Nat} (hP : Allowed P (windowOf r (4 * k) 4)) :
    Brings U P (AtPixel r k) (AtPixel r (k + 1)) hamPixelOut :=
  brings_bind (brings_seqCall hU (brings_steady steady_atPixel (fun _ => confines_hamRead)
      (fun _ => parks_hamRead) fun _ => spares_hamRead)) fun _ =>
    brings_map (brings_seqCall hU (brings_pxwWritec hP _))

theorem brings_skipHam {I : State → Prop} (hI : Steady I) (n : Nat) :
    Brings U P I I (do let _ ← seqCall .ham (hamAdvOp n)) :=
  brings_map (brings_seqCall hU (brings_steady hI (fun _ => confines_hamAdv n)
    (fun _ => parks_hamAdv n) fun _ => spares_hamAdv n))

/-- The lines of an image, each after the selection of its palette (R321). -/
theorem brings_paintLines {r : BufRef} {pixel skip : Op Unit} {w h : Nat} (raster : Bool)
    (hpixel : ∀ n < w * h, Brings U P (AtPixel r n) (AtPixel r (n + 1)) pixel)
    (hskip : ∀ n, Brings U P (AtPixel r n) (AtPixel r n) skip) :
    Brings U P (AtPixel r 0) (AtPixel r (h * w)) (paintLines raster pixel skip w h) := by
  have lines : Brings U P (AtPixel r (0 * w)) (AtPixel r ((0 + h) * w))
      (paintLines raster pixel skip w h) :=
    brings_forFrom (I := fun y => AtPixel r (y * w)) fun y hy => by
      rw [Nat.zero_add]
      have line : Brings U P (AtPixel r (y * w)) (AtPixel r ((y + 1) * w)) (do
          times pixel w
          skip) := brings_bind (brings_line hy hpixel) fun _ => hskip _
      cases raster with
      | false => exact line
      | true =>
        exact brings_bind (brings_seqCall hU (brings_steady steady_atPixel
          (fun _ => confines_rpaSelect y) (fun _ => parks_rpaSelect y) fun _ => spares_rpaSelect y))
          fun _ => line
  rwa [Nat.zero_mul, Nat.zero_add] at lines

omit hU in
theorem brings_setRaster {r : BufRef} {k : Nat} (c : Consumer) (h : Nat) :
    Brings U P (AtPixel r k) (AtPixel r k) (setRaster c h) :=
  brings_steady steady_atPixel (fun _ => confines_quiet rfl rfl)
    (fun _ => leads_modify ⟨rfl, rfl, rfl⟩) fun _ => spares_setRaster c h

theorem brings_assemblePixels {r : BufRef} {hd : Hdr}
    (hP : Allowed P (windowOf r 0 (4 * hd.width.toNat * hd.height.toNat))) :
    Brings U P (AtPixel r 0) (AtPixel r (hd.height.toNat * hd.width.toNat)) (assemblePixels hd) := by
  have plain (raster : Bool) (n : Nat) := brings_paintLines hU raster (r := r) (h := hd.height.toNat)
    (fun _ hn => brings_decodePixel hU (hP.pixel hn)) fun _ => brings_skipBpr hU steady_atPixel n
  have ham (raster : Bool) (n : Nat) := brings_paintLines hU raster (r := r) (h := hd.height.toNat)
    (fun _ hn => brings_hamPixelOut hU (hP.pixel hn)) fun _ => brings_skipHam hU steady_atPixel n
  unfold assemblePixels
  refine brings_get fun s hs => ?_
  dsimp only
  split_ifs
  · exact brings_bind (brings_setRaster _ _) (fun _ => ham _ _) s hs
  · exact ham _ _ s hs
  · exact brings_bind (brings_setRaster _ _) (fun _ => plain _ _) s hs
  · exact plain _ _ s hs

theorem confines_assembleImage {x : BufRef} {hd : Hdr} (hbpr : .bpr ∈ U) (hpxw : .pxw ∈ U)
    (hham : .ham ∈ U) (hP : Allowed P (windowOf x 0 (4 * hd.width.toNat * hd.height.toNat)))
    (pg : BufRef × Geometry) : Confines U P (assembleImage x pg hd) s := by
  refine confines_bind (confines_seqCall hU (confines_bprInit hbpr _ _)) fun _ _ _ =>
    confines_endPass ?_
  refine confines_bind (confines_activeSlot hU) fun sa _ _ =>
    confines_bind (confines_seqCall hU (confines_pxwInit hpxw _ _)) fun _ t ht => confines_endPass ?_
  have hinit : Brings U P (AtPixel x 0) (AtPixel x 0) (seqCall .ham (hamInitOp hd.planes.toNat sa)) :=
    brings_seqCall hU (brings_steady steady_atPixel (fun _ => confines_hamInit hham _ _)
      (fun _ => parks_hamInit _ _) fun _ => spares_hamInit _ _)
  refine Closed.get ?_
  dsimp only
  split
  · exact (brings_bind hinit (fun _ => brings_assemblePixels hU hP) t (atPixel_zero ht)).1
  · exact (brings_assemblePixels hU hP t (atPixel_zero ht)).1

/-- What an assembly may write: the pixels, and the planes' bytes where the body holds no planes
(R314, R328). -/
structure AssembleAllowed (P : Nat → Nat → Prop) (w x : BufRef) (hd : Hdr) : Prop where
  pixels : Allowed P (windowOf x 0 (4 * hd.width.toNat * hd.height.toNat))
  planes : hd.compression ≠ 0 → Allowed P (windowOf w 0 (containerPlaneBytes hd))

theorem confines_assemblePass {w x : BufRef} {hd : Hdr} (hpbd : .pbd ∈ U) (hvdd : .vdd ∈ U)
    (hbpr : .bpr ∈ U) (hpxw : .pxw ∈ U) (hham : .ham ∈ U)
    (hroom : hd.compression ≠ 0 → containerPlaneBytes hd ≤ w.len) (hP : AssembleAllowed P w x hd)
    (tag : U32) (c : BufRef) (body : BodyDesc) :
    Confines U P (assemblePass tag c w x hd body) s :=
  confines_bind (confines_assemblePlanes hU hpbd hvdd hroom hP.planes _ _ _) fun _ _ _ =>
    confines_bind (confines_assembleImage hU hbpr hpxw hham hP.pixels _) fun _ _ _ =>
      confines_bind (confines_setSeqState _) fun _ _ _ => leads_modify (confined_closeContainer c _)

omit hU in
theorem confined_assembleSpoil {w x : BufRef} {hd : Hdr} (hP : AssembleAllowed P w x hd) (s : State) :
    Confined U P s (assembleSpoil w x hd s) := by
  unfold assembleSpoil
  dsimp only
  split
  · exact confined_spoil hP.pixels .seq s
  · next hraw =>
    exact (confined_closed U P).trans (confined_spoil hP.pixels .seq s)
      (confined_spoil (hP.planes hraw) .seq _)

end

theorem confines_seqAssemble {w x : BufRef} (hpbd : .pbd ∈ U) (hvdd : .vdd ∈ U) (hbpr : .bpr ∈ U)
    (hpxw : .pxw ∈ U) (hham : .ham ∈ U) (hP : AssembleAllowed P w x s.seq.hdr) (k : Config.Codes)
    (c : BufRef) : Confines U P (seqAssembleOp k c w x) s := by
  have hU : UnitId.seq ∈ UnitId.seq :: U := List.mem_cons_self
  have more {v : UnitId} (hv : v ∈ U) : v ∈ UnitId.seq :: U := List.mem_cons_of_mem _ hv
  refine confines_enter fun _ => Closed.get <| confines_check hU fun _ => ?_
  refine confines_bind (confines_onStop (confines_seqRaiseIf hU) (confined_spoil hP.pixels _))
    fun _ _ _ => confines_check hU fun _ => confines_check hU fun hroom => ?_
  refine confines_bind (confines_onStop (confines_assemblePass hU (more hpbd) (more hvdd) (more hbpr)
    (more hpxw) (more hham) ?_ hP _ c _) fun t => (confined_closed _ P).trans
      (confined_assembleSpoil hP t) (confined_closeContainer c _)) fun _ _ _ => confines_pure _
  exact fun hraw => Nat.le_of_not_lt fun hlt => hroom ⟨hraw, hlt⟩

theorem confines_seqDecodec {w x : BufRef} (hU : .seq ∈ U) (hckr : .ckr ∈ U) (hpal : .pal ∈ U)
    (hpbd : .pbd ∈ U) (hvdd : .vdd ∈ U) (hbpr : .bpr ∈ U) (hpxw : .pxw ∈ U) (hham : .ham ∈ U)
    (hw : Allowed P w) (hx : Allowed P x) (k : Config.Codes) (c : BufRef) :
    Confines U P (seqDecodecOp k c w x) s :=
  confines_bind (confines_onStop (confines_seqScan hU hckr hpal k c) (confined_spoil (hx.window _ _) _))
    fun _ _ _ => confines_onStop (confines_seqAssemble hpbd hvdd hbpr hpxw hham
      ⟨hx.window _ _, fun _ => hw.window _ _⟩ k c) (confined_closeContainer c)

end Sys2Proof.Machine
end

section
/-! The container encode, confined (R358, R385), and every instruction: O7 and O8. -/

namespace Sys2Proof.Machine

variable {α β : Type} {s t : State} {x : Op α} {U : List UnitId} {P : Nat → Nat → Prop}

/-! ### The chunk tree -/

/-- The chunk writer's binding, if it is bound, names bytes that may be written. -/
def writerAllowed (P : Nat → Nat → Prop) (s : State) : Prop := Allowed P (refOf s.ckw.dst)

theorem Allowed.empty {r : BufRef} (hr : r.len = 0) : Allowed P r := fun _ a ⟨_, hlo, hhi⟩ =>
  absurd hhi (by omega)

theorem writerAllowed_kept (hs : Spared [] [.ckw] s t) (h : writerAllowed P s) : writerAllowed P t := by
  unfold writerAllowed
  rcases hs.bindingOf_cases .ckw with hsame | hnone
  · rwa [show t.ckw.dst = s.ckw.dst from hsame]
  · rw [show t.ckw.dst = none from hnone]
    exact .empty rfl

/-- Operations that may write through CKW's binding, and leave it or end it. -/
abbrev Files (U : List UnitId) (P : Nat → Nat → Prop) (x : Op α) : Prop :=
  Brings U P (writerAllowed P) (writerAllowed P) x

theorem files_of (hc : ∀ s, writerAllowed P s → Confines U P x s)
    (hs : ∀ s, Spares [] [.ckw] x s) : Files U P x := fun s h =>
  ⟨hc s h, fun _ _ ht => writerAllowed_kept ((hs s).ok ht) h⟩

section
variable (hU : UnitId.seq ∈ U)
include hU

theorem files_seqWr (n k : Nat) : Files U P (seqWr n k) :=
  files_of (fun _ h => confines_seqCall hU (confines_ckwWrite h n k))
    fun _ => spares_seqWr (.inr List.mem_cons_self) n k

theorem files_seqChunk (tag : U32) {body : Op Unit} (h : Files U P body) :
    Files U P (seqChunk tag body) :=
  brings_bind (files_of (fun _ hs => confines_seqCall hU (confines_ckwStart hs tag))
      fun _ => spares_seqCall (spares_ckwStart (.inr List.mem_cons_self) tag)) fun _ =>
    brings_bind h fun _ => brings_map <| files_of
      (fun _ hs => confines_seqCall hU (confines_ckwEnd hs))
      fun _ => spares_seqCall (spares_ckwEnd (.inr List.mem_cons_self))

theorem files_writeHeader (o : EncOptions) (p : Nat) : Files U P (writeHeader o p) := by
  unfold writeHeader
  iterate 12 refine brings_bind (files_seqWr hU _ _) fun _ => ?_
  exact files_seqWr hU _ _

theorem files_writeMode (tag : U32) (flags : Option U32) : Files U P (writeMode tag flags) := by
  cases flags with
  | none => exact brings_pure _
  | some b => exact files_seqChunk hU tag (files_seqWr hU _ _)

theorem files_writePaletteEntry (slot i : Nat) : Files U P (writePaletteEntry slot i) :=
  brings_bind (files_of (fun _ _ => confines_seqCall hU (confines_palGet slot i))
      fun _ => spares_seqCall (spares_palGet slot i)) fun _ =>
    brings_get fun s hs => brings_bind (files_seqWr hU _ _) (fun _ =>
      brings_bind (files_seqWr hU _ _) fun _ => files_seqWr hU _ _) s hs

theorem files_writePalette (tag : U32) (slot : Nat) : Files U P (writePalette tag slot) :=
  brings_get fun s hs => files_seqChunk hU tag
    (brings_forFrom (I := fun _ => writerAllowed P) fun _ _ => files_writePaletteEntry hU slot _) s hs

theorem files_writeBody (k : Config.Codes) (layout : BodyLayout) (body : BufRef) :
    Files U P (writeBody k layout body) :=
  files_seqChunk hU _ <| brings_forFrom (I := fun _ => writerAllowed P) fun _ _ =>
    brings_get fun s hs => files_seqWr hU _ _ s hs

omit hU in
theorem writerAllowed_init {cout : BufRef} (hP : Allowed P cout)
    (h : seqCall .ckw (ckwInitOp cout) s = .ok () t) : writerAllowed P t := by
  obtain ⟨_, u, hclear, h⟩ := ok_of_bind_ok (ok_of_seqCall h)
  cases h
  exact hP

theorem confines_encodecTree {cout : BufRef} (hckw : .ckw ∈ U) (hP : Allowed P cout)
    (k : Config.Codes) (o : EncOptions) (slot p : Nat) (body : BufRef) :
    Confines U P (encodecTree k o slot p body cout) s := by
  refine confines_bind (confines_seqCall hU (confines_ckwInit hckw cout)) fun _ t ht => confines_endPass ?_
  have tree : Files U P (seqChunk k.outer do
      seqWr 4 (typeOf k o.layout).toNat
      seqChunk k.hdr (writeHeader o p)
      writeMode k.mode o.modeFlags
      writePalette k.pal slot
      writeBody k o.layout body) :=
    files_seqChunk hU _ <| brings_bind (files_seqWr hU _ _) fun _ =>
      brings_bind (files_seqChunk hU _ (files_writeHeader hU o p)) fun _ =>
        brings_bind (files_writeMode hU _ _) fun _ =>
          brings_bind (files_writePalette hU _ slot) fun _ => files_writeBody hU _ _ _
  exact (tree t (writerAllowed_init hP ht)).1

theorem confines_encodecBody {o : EncOptions} {pack : BufRef} (hpbe : .pbe ∈ U)
    (hP : o.compress = true → Allowed P pack) (work : BufRef) (size : Nat) :
    Confines U P (encodecBody o work pack size) s := by
  unfold encodecBody
  split
  · next hc => exact confines_map (confines_seqCall hU (confines_pbePack hpbe (hP hc) _ _))
  · exact confines_pure _

/-- What a container encode may write besides its planes (R314, R358). -/
structure EncodecAllowed (P : Nat → Nat → Prop) (o : EncOptions) (pack cout : BufRef) : Prop where
  pack : o.compress = true → Allowed P pack
  container : Allowed P cout

omit hU in
theorem confined_encodecSpoil {o : EncOptions} {work pack cout : BufRef} {size : Nat}
    (hP : EncodecAllowed P o pack cout) (hwork : Allowed P (windowOf work 0 size)) (s : State) :
    Confined U P s (encodecSpoil o work pack cout size s) := by
  have both := (confined_closed U P).trans (confined_spoil (hP.container.window 0 cout.len) .seq s)
    (confined_spoil hwork .seq _)
  unfold encodecSpoil
  dsimp only
  split
  · next hc => exact (confined_closed U P).trans both (confined_spoil ((hP.pack hc).window _ _) .seq _)
  · exact both

theorem confines_seqEncodec {x work pack cout : BufRef} {slot : Nat} {o : EncOptions}
    (hpxr : .pxr ∈ U) (hbpw : .bpw ∈ U) (hpbe : .pbe ∈ U) (hckw : .ckw ∈ U)
    (hP : EncodecAllowed P o pack cout)
    (hwork : ∀ p, EncodeChecked (slotAt s slot) x o.width.toNat o.height.toNat o.planes work p →
      EncodeAllowed P work o.width.toNat o.height.toNat p (formatOf o.layout)) (k : Config.Codes) :
    Confines U P (seqEncodecOp k x slot o work pack cout) s := by
  refine confines_clear hU <| confines_bind (confines_encodeChecks hU _ _ _ _ _ _) fun p _ hp => ?_
  have hchecked := encodeChecked hp
  have hplanes := hwork p hchecked
  refine confines_bind (confines_onStop ?_ (confined_encodecSpoil hP hplanes.planes)) fun _ _ _ =>
    confines_bind (confines_setSeqState _) fun _ _ _ => Closed.get (confines_pure _)
  exact confines_bind (confines_encodePass hU hpxr hbpw hchecked.room hplanes) fun _ _ _ =>
    confines_bind (confines_encodecBody hU hpbe hP.pack _ _) fun _ _ _ =>
      confines_encodecTree hU hckw hP.container _ _ _ _ _

end

/-! ### Every instruction -/

theorem allowed_window {r : BufRef} {off base n : Nat} (h : Allowed P ⟨r.id, base, n⟩)
    (hbase : base = r.base + off) : Allowed P (windowOf r off n) := by
  rintro id a ⟨rfl, hlo, hhi⟩
  simp only [windowOf] at hlo hhi
  exact h _ a ⟨rfl, by simp only; omega, by simp only; omega⟩

/-- In memory in canonical form the checks of an encode keep its pixels inside its planes; where the
registers would not hold the geometry, the whole buffer must be one that may be written. -/
theorem encodeAllowed {pal : Slot} {x b w h p : Nat} {p? : Option Nat} {f : PlaneFormat}
    (hc : EncodeChecked pal (wholeBuf s.mem x) w h p? (wholeBuf s.mem b) p)
    (hP : Allowed P ⟨b, 0, encodeSize w h (p?.getD (planesFor pal.count))⟩)
    (hall : memoryOk s ∨ ∀ a, P b a) : EncodeAllowed P (wholeBuf s.mem b) w h p f := by
  rw [← hc.count] at hP
  refine ⟨allowed_window hP (Nat.add_zero 0), fun n hn i hi _ => ?_⟩
  rcases hall with hmem | hevery
  · have hw : 0 < w := Nat.pos_of_mul_pos_right (Nat.zero_lt_of_lt hn)
    have hh : 0 < h := Nat.pos_of_mul_pos_left (Nat.zero_lt_of_lt hn)
    have hsize : 4 * w * h < Config.bufLimit := hc.pixels.trans_lt (bufAt_len_lt hmem x)
    rw [registerGeometry_of_fits (presetGeometry_fits f hw hh hc.planes_le hsize)] at hi ⊢
    rw [preset_planeCount] at hi
    have hoff := planeOffset_lt_encodeSize (f := f) hw hc.whole_words hh hn hi
    exact hP b _ ⟨rfl, Nat.zero_le _, by simpa [wholeBuf] using hoff⟩
  · exact hevery _

theorem Leads.runOp_confined {x : Op Result} (h : Confines U P x s)
    (ht : Machine.runOp x s = .next t) : Confined U P s t := by
  obtain ⟨u, r, hu, rfl⟩ := h.runOp ht
  exact (confined_closed U P).trans hu (confined_quiet rfl rfl)

theorem confined_resetUnits {V : List UnitId} (hV : ∀ v, v ∈ V) (s : State) :
    Confined V P s (resetUnits s) := ⟨fun v hv => absurd (hV v) hv, .refl s.mem⟩

/-- An instruction leaves the first fault of every unit whose fault it cannot clear, and every byte
outside the ranges it names (R385, R386, R388). -/
theorem exec_confined {i : Instr} (h : exec i s = .next t) (hP : ∀ r ∈ writtenBy i s, Allowed P r)
    (hall : memoryOk s ∨ ∀ r ∈ writtenBy i s, ∀ a, P r.id a) : Confined (clearedBy i) P s t := by
  cases i with
  | pbLit n =>
    exact Leads.runOp_confined (confines_pbAlone (fun _ _ hU => depacks_pbCommand hU (.lit n))
      (allowed_window (hP _ List.mem_cons_self) rfl)) h
  | pbRun n =>
    exact Leads.runOp_confined (confines_pbAlone (fun _ _ hU => depacks_pbCommand hU (.run n))
      (allowed_window (hP _ List.mem_cons_self) rfl)) h
  | pbNop =>
    exact Leads.runOp_confined (confines_pbAlone (fun _ _ hU => depacks_pbCommand hU .nop)
      (allowed_window (hP _ List.mem_cons_self) rfl)) h
  | vdCopyx =>
    exact Leads.runOp_confined (confines_vdAlone (fun _ _ hU => strips_vdCommand hU .copyx)
      (hP _ List.mem_cons_self)) h
  | vdCopy n =>
    exact Leads.runOp_confined (confines_vdAlone (fun _ _ hU => strips_vdCommand hU (.copy n))
      (hP _ List.mem_cons_self)) h
  | vdRunx =>
    exact Leads.runOp_confined (confines_vdAlone (fun _ _ hU => strips_vdCommand hU .runx)
      (hP _ List.mem_cons_self)) h
  | vdRun n =>
    exact Leads.runOp_confined (confines_vdAlone (fun _ _ hU => strips_vdCommand hU (.run n))
      (hP _ List.mem_cons_self)) h
  | hamBase p d => exact Leads.runOp_confined (confines_hamAlone .base p d) h
  | hamModb p d => exact Leads.runOp_confined (confines_hamAlone .modb p d) h
  | hamModr p d => exact Leads.runOp_confined (confines_hamAlone .modr p d) h
  | hamModg p d => exact Leads.runOp_confined (confines_hamAlone .modg p d) h
  | sysReset =>
    refine Leads.runOp_confined (x := sysResetOp) ?_ h
    exact (confined_closed _ P).set (confined_resetUnits (fun v => by cases v <;> simp [clearedBy]) s)
      (confines_pure _)
  | palCreate a b c => exact Leads.runOp_confined (confines_palCreate List.mem_cons_self a b c) h
  | palSet a b c d e f => exact Leads.runOp_confined (confines_palSet a b c d e f) h
  | palGet a b => exact Leads.runOp_confined (confines_map (confines_palGet a b)) h
  | palResample a b c => exact Leads.runOp_confined (confines_palResample a b c) h
  | palToval a b => exact Leads.runOp_confined (confines_palToval a b) h
  | palFromval a b c d => exact Leads.runOp_confined (confines_palFromval a b c d) h
  | palFrompix a b => exact Leads.runOp_confined (confines_palFrompix a b) h
  | palMono a => exact Leads.runOp_confined (confines_palMono a) h
  | palEhb a b => exact Leads.runOp_confined (confines_palEhb a b) h
  | palPlanes a => exact Leads.runOp_confined (confines_map (confines_palPlanes a)) h
  | bprInit b g => exact Leads.runOp_confined (confines_bprInit List.mem_cons_self _ g) h
  | bprRead => exact Leads.runOp_confined (confines_map confines_bprRead) h
  | bprAdv n => exact Leads.runOp_confined (confines_bprAdv n) h
  | bprEof => exact Leads.runOp_confined (confines_map confines_bprEof) h
  | bpwInit b g => exact Leads.runOp_confined (confines_bpwInit List.mem_cons_self _ g) h
  | bpwWrite n =>
    refine Leads.runOp_confined (confines_bpwWrite rfl (fun i _ hlt => ?_) n) h
    exact hP _ List.mem_cons_self _ _ ⟨rfl, Nat.le_add_right _ _, Nat.add_lt_add_left hlt _⟩
  | bpwAdv n => exact Leads.runOp_confined (confines_bpwAdv n) h
  | bpwEof => exact Leads.runOp_confined (confines_map confines_bpwEof) h
  | pxrInit b n => exact Leads.runOp_confined (confines_pxrInit List.mem_cons_self _ n) h
  | pxrRead => exact Leads.runOp_confined (confines_map confines_pxrRead) h
  | pxrSetpal n => exact Leads.runOp_confined (confines_pxrSetpal n) h
  | pxrAdv n => exact Leads.runOp_confined (confines_pxrAdv n) h
  | pxwInit b n => exact Leads.runOp_confined (confines_pxwInit List.mem_cons_self _ n) h
  | pxwWrite n =>
    exact Leads.runOp_confined
      (confines_pxwWrite (allowed_window (hP _ List.mem_cons_self) rfl) n) h
  | pxwSetpal n => exact Leads.runOp_confined (confines_pxwSetpal n) h
  | pxwAdv n => exact Leads.runOp_confined (confines_pxwAdv n) h
  | pxwWritec c =>
    exact Leads.runOp_confined
      (confines_pxwWritec (allowed_window (hP _ List.mem_cons_self) rfl) c) h
  | pbdDepack a b c d e =>
    exact Leads.runOp_confined (confines_pbdDepack List.mem_cons_self
      (allowed_window (hP _ List.mem_cons_self) (Nat.zero_add d).symm) _ b) h
  | vddDecode a b c d e f g =>
    exact Leads.runOp_confined (confines_vddDecode List.mem_cons_self
      (allowed_window (hP _ List.mem_cons_self) (Nat.zero_add e).symm) _ b c) h
  | ckrOpen b => exact Leads.runOp_confined (confines_ckrOpen List.mem_cons_self _) h
  | ckrReadchunk => exact Leads.runOp_confined (confines_map confines_ckrReadchunk) h
  | ckrPeek => exact Leads.runOp_confined (confines_map confines_ckrPeek) h
  | ckrEof => exact Leads.runOp_confined (confines_map confines_ckrEof) h
  | ckrEnter a b => exact Leads.runOp_confined (confines_then (confines_ckrEnter a b) _) h
  | ckrLeave => exact Leads.runOp_confined (confines_then confines_ckrLeave _) h
  | ckrRd8 => exact Leads.runOp_confined (confines_map (confines_ckrRead 1)) h
  | ckrRd16 => exact Leads.runOp_confined (confines_map (confines_ckrRead 2)) h
  | ckrRd32 => exact Leads.runOp_confined (confines_map (confines_ckrRead 4)) h
  | hamInit a b => exact Leads.runOp_confined (confines_hamInit List.mem_cons_self a b) h
  | hamRead => exact Leads.runOp_confined (confines_map confines_hamRead) h
  | hamSetpal n => exact Leads.runOp_confined (confines_hamSetpal n) h
  | hamAdv n => exact Leads.runOp_confined (confines_hamAdv n) h
  | rpaConfig a b => exact Leads.runOp_confined (confines_rpaConfig List.mem_cons_self a b) h
  | rpaLoad a b => exact Leads.runOp_confined (confines_rpaLoad a b) h
  | rpaSelect n => exact Leads.runOp_confined (confines_rpaSelect n) h
  | seqDecode a b c d e f g =>
    exact Leads.runOp_confined (confines_seqDecode (by simp [clearedBy]) (by simp [clearedBy])
      (by simp [clearedBy]) (allowed_window (hP _ List.mem_cons_self) (Nat.add_zero 0))) h
  | seqEncode a b c d e f g =>
    exact Leads.runOp_confined (confines_seqEncode (by simp [clearedBy]) (by simp [clearedBy])
      (by simp [clearedBy]) fun p hp => encodeAllowed hp (hP _ List.mem_cons_self)
        (hall.imp id fun every => every _ List.mem_cons_self)) h
  | seqDecodec a b c =>
    exact Leads.runOp_confined (confines_seqDecodec (by simp [clearedBy]) (by simp [clearedBy])
      (by simp [clearedBy]) (by simp [clearedBy]) (by simp [clearedBy]) (by simp [clearedBy])
      (by simp [clearedBy]) (by simp [clearedBy]) (hP _ List.mem_cons_self)
      (hP _ (List.mem_cons_of_mem _ List.mem_cons_self)) Config.codes _) h
  | seqScan a =>
    exact Leads.runOp_confined (confines_seqScan (by simp [clearedBy]) (by simp [clearedBy])
      (by simp [clearedBy]) Config.codes _) h
  | seqAssemble a b c =>
    have hplanes := hP _ (List.mem_cons_of_mem _ List.mem_cons_self)
    refine Leads.runOp_confined (confines_seqAssemble (by simp [clearedBy]) (by simp [clearedBy])
      (by simp [clearedBy]) (by simp [clearedBy]) (by simp [clearedBy])
      ⟨allowed_window (hP _ List.mem_cons_self) (Nat.add_zero 0), fun hraw => ?_⟩ Config.codes _) h
    rw [if_neg hraw] at hplanes
    exact allowed_window hplanes (Nat.add_zero 0)
  | pbePack a b c =>
    exact Leads.runOp_confined (confines_map
      (confines_pbePack List.mem_cons_self (hP _ List.mem_cons_self) _ b)) h
  | ckwStart g =>
    exact Leads.runOp_confined (confines_then (confines_ckwStart (hP _ List.mem_cons_self) g) _) h
  | ckwEnd => exact Leads.runOp_confined (confines_map (confines_ckwEnd (hP _ List.mem_cons_self))) h
  | seqEncodec a b o c =>
    have hpack := hP _ (List.mem_cons_of_mem _ List.mem_cons_self)
    have hcont := hP _ (List.mem_cons_of_mem _ (List.mem_cons_of_mem _ List.mem_cons_self))
    refine Leads.runOp_confined (confines_seqEncodec (by simp [clearedBy]) (by simp [clearedBy])
      (by simp [clearedBy]) (by simp [clearedBy]) (by simp [clearedBy]) ⟨fun hc => ?_, hcont⟩
      (fun p hp => encodeAllowed hp (hP _ List.mem_cons_self)
        (hall.imp id fun every => every _ List.mem_cons_self)) Config.codes) h
    rw [if_pos hc] at hpack
    exact hpack
  | ckwInit b =>
    exact Leads.runOp_confined (confines_then (confines_ckwInit List.mem_cons_self _) _) h
  | ckwWr8 n =>
    exact Leads.runOp_confined (confines_then (confines_ckwWrite (hP _ List.mem_cons_self) 1 _) _) h
  | ckwWr16 n =>
    exact Leads.runOp_confined (confines_then (confines_ckwWrite (hP _ List.mem_cons_self) 2 _) _) h
  | ckwWr32 n =>
    exact Leads.runOp_confined (confines_then (confines_ckwWrite (hP _ List.mem_cons_self) 4 _) _) h

end Sys2Proof.Machine

namespace Sys2Proof.Proofs

open Sys2Proof.Machine

/-- Settles O7: read of `Confined` that it keeps faults. -/
theorem firstFaultStays : Obligations.FirstFaultStays := by
  intro i u s t hfault hkept h
  exact (exec_confined (P := fun _ _ => True) h (fun _ _ _ _ _ => trivial)
    (.inr fun _ _ _ => trivial)).1 u hkept hfault

/-- Settles O8: read of `Confined` that it writes at its places only. -/
theorem writesStayInRange : Obligations.WritesStayInRange := by
  constructor
  · intro i s t id a hmem hout h
    refine (exec_confined (P := fun id a => ∃ r ∈ writtenBy i s, inWindow r id a) h
      (fun r hr id a hin => ⟨r, hr, hin⟩) (.inl hmem)).2.byteAt_eq ?_
    rintro ⟨r, hr, hin⟩
    exact hout r hr hin
  · intro i s t id hout h
    refine (exec_confined (P := fun id _ => ∃ r ∈ writtenBy i s, r.id = id) h
      (fun r hr id a hin => ⟨r, hr, hin.1.symm⟩) (.inr fun r hr _ => ⟨r, hr, rfl⟩)).2.bufAt_eq ?_
    rintro a ⟨r, hr, hid⟩
    exact hout r hr hid

end Sys2Proof.Proofs
end

section
/-! The chunk writer (R355 to R357): what each operation appends, as a list of bytes; O48 and O49. -/

namespace Sys2Proof.Machine

variable {s : State} {m : Mem} {r : BufRef} {off n v : Nat} {out out' vs : List Byte} {tag : U32}

/-! ### Numbers as bytes -/

theorem beWrite_eq_writeBytes : ∀ n v, beWrite m r off n v = writeBytes m r off (beBytes n v)
  | 0, _ => rfl
  | n + 1, v => by
    rw [beWrite, beWrite_eq_writeBytes n, beBytes, writeBytes_append, beBytes_length]
    rfl

theorem beBytes_u8 (v : Byte) : beBytes 1 v.toNat = [v] := by simp [beBytes]

theorem ofNat_div (v : BitVec n) (k : Nat) :
    BitVec.ofNat 8 (v.toNat / 2 ^ k) = v.extractLsb' k 8 := by
  rw [BitVec.extractLsb', Nat.shiftRight_eq_div_pow]

theorem beBytes_u16 (v : U16) :
    beBytes 2 v.toNat = [v.extractLsb' 8 8, v.extractLsb' 0 8] := by
  simp [beBytes, ← ofNat_div]

theorem beBytes_u32 (v : U32) : beBytes 4 v.toNat =
    [v.extractLsb' 24 8, v.extractLsb' 16 8, v.extractLsb' 8 8, v.extractLsb' 0 8] := by
  simp [beBytes, ← ofNat_div, Nat.div_div_eq_div_mul]

theorem bytesAt_writeBytes (hr : refOk m r) (h : off + vs.length ≤ r.len) :
    bytesAt (writeBytes m r off vs) r off vs := bytesOf_writeBytes hr h

/-! ### Bytes appended -/

/-- The state after CKW has appended the bytes `out`; other units' bindings to them have ended
(R357, R422). -/
def ckwAfter (out : List Byte) (s : State) : State :=
  { overwrite .ckw [⟨(refOf s.ckw.dst).id, (refOf s.ckw.dst).base + s.ckw.pos, out.length⟩] s with
    mem := writeBytes s.mem (refOf s.ckw.dst) s.ckw.pos out
    ckw := { s.ckw with pos := s.ckw.pos + out.length } }

theorem ckwWriteOp_ok (hr : ready .ckw s) (hroom : s.ckw.pos + n ≤ (refOf s.ckw.dst).len) (v : Nat) :
    ckwWriteOp n v s = .ok () (ckwAfter (beBytes n v) s) := by
  rw [ckwWriteOp, enter_bind hr, get_bind, bind_ok (memWrite_ok hroom v s), windowOf_of_le hroom,
    ckwAfter, beBytes_length, ← beWrite_eq_writeBytes]
  rfl

theorem ckwWriteOp_past (hr : ready .ckw s) (hpast : (refOf s.ckw.dst).len < s.ckw.pos + n) (v : Nat) :
    ckwWriteOp n v s = .error .faulted (withFault .ckw (raisedReg .pastEnd s.ckw.pos) s) := by
  rw [ckwWriteOp, enter_bind hr, get_bind, bind_error (memWrite_past hpast v s)]

/-- What `CKW.START` appends: the pad byte of an odd position, the tag, a length of 0 (R355). -/
def chunkHead (pos : Nat) (tag : U32) : List Byte :=
  List.replicate (pos % 2) 0 ++ (beBytes 4 tag.toNat ++ beBytes 4 0)

theorem chunkHead_length (pos : Nat) (tag : U32) : (chunkHead pos tag).length = evenUp pos + 8 - pos := by
  simp only [chunkHead, List.length_append, List.length_replicate, beBytes_length, evenUp]
  omega

theorem pos_add_chunkHead (pos : Nat) (tag : U32) : pos + (chunkHead pos tag).length = evenUp pos + 8 := by
  rw [chunkHead_length, evenUp]
  omega

theorem startChunkMem_eq (m : Mem) (r : BufRef) (pos : Nat) (tag : U32) :
    startChunkMem m r pos tag = writeBytes m r pos (chunkHead pos tag) := by
  have hpad : (if pos % 2 = 1 then beWrite m r pos 1 0 else m) =
      writeBytes m r pos (List.replicate (pos % 2) 0) := by
    rcases Nat.mod_two_eq_zero_or_one pos with h | h <;> rw [h] <;> rfl
  rw [startChunkMem, hpad, beWrite_eq_writeBytes, beWrite_eq_writeBytes, chunkHead,
    writeBytes_append, writeBytes_append, beBytes_length, List.length_replicate]
  rfl

/-- The state after `CKW.START` (R355). -/
def ckwStarted (tag : U32) (s : State) : State :=
  { ckwAfter (chunkHead s.ckw.pos tag) s with
    ckw := { s.ckw with
      start := sput 0 s.ckw.start s.ckw.sd (evenUp s.ckw.pos)
      sd := s.ckw.sd + 1
      pos := evenUp s.ckw.pos + 8 } }

theorem ckwStartOp_ok (hr : ready .ckw s) (hsd : s.ckw.sd ≠ Config.ckDepth)
    (hroom : evenUp s.ckw.pos + 8 ≤ (refOf s.ckw.dst).len) (tag : U32) :
    ckwStartOp tag s = .ok () (ckwStarted tag s) := by
  have hpos : s.ckw.pos ≤ evenUp s.ckw.pos := Nat.le_add_right _ _
  have hwindow : windowOf (refOf s.ckw.dst) s.ckw.pos (evenUp s.ckw.pos + 8 - s.ckw.pos) =
      ⟨(refOf s.ckw.dst).id, (refOf s.ckw.dst).base + s.ckw.pos, (chunkHead s.ckw.pos tag).length⟩ := by
    rw [chunkHead_length]
    exact windowOf_of_le (by omega)
  rw [ckwStartOp, enter_bind hr, get_bind, raiseIf_bind_false hsd,
    raiseIf_bind_false (by unfold evenUp at hroom; omega), raiseIf_bind_false (by omega),
    raiseIf_bind_false (Nat.not_lt_of_le hroom), modify_run, hwindow, startChunkMem_eq]
  rfl

/-- The state after `CKW.END` of a chunk that starts at `st` (R356). -/
def ckwEnded (st : Nat) (s : State) : State :=
  { overwrite .ckw [⟨(refOf s.ckw.dst).id, (refOf s.ckw.dst).base + (st + 4), 4⟩] s with
    mem := writeBytes s.mem (refOf s.ckw.dst) (st + 4) (beBytes 4 (s.ckw.pos - st - 8))
    ckw := { s.ckw with sd := s.ckw.sd - 1 } }

theorem ckwEnded_mem (st : Nat) (s : State) : (ckwEnded st s).mem =
    writeBytes s.mem (refOf s.ckw.dst) (st + 4) (beBytes 4 (s.ckw.pos - st - 8)) := by
  rw [ckwEnded]

theorem ckwEndOp_ok {st : Nat} (hr : ready .ckw s) (hsd : 0 < s.ckw.sd)
    (hst : sget 0 s.ckw.start (s.ckw.sd - 1) = st) (hroom : st + 8 ≤ (refOf s.ckw.dst).len) :
    ckwEndOp s = .ok (s.ckw.pos - st) (ckwEnded st s) := by
  have hin : st + 4 + 4 ≤ (refOf s.ckw.dst).len := hroom
  rw [ckwEndOp, enter_bind hr, get_bind, raiseIf_bind_false hsd.ne', hst,
    bind_ok (memWrite_ok hin _ s), windowOf_of_le hin, beWrite_eq_writeBytes, ckwEnded]
  generalize beBytes 4 (s.ckw.pos - st - 8) = bytes
  rfl

/-! ### The instructions -/

theorem ckwInit_completes (buf : Nat) : exec (.ckwInit buf) s = completes .unit
    (claim .ckw ⟨buf, 0, (bufAt s.mem buf).len⟩
      { s with ckw := { s.ckw with init := true, dst := some ⟨buf, 0, (bufAt s.mem buf).len⟩,
                                   pos := 0, sd := 0,
                                   fault := { s.ckw.fault with valid := false } } }) := rfl

/-- A write appends its bytes, or faults and writes nothing (R357). -/
theorem ckwWrite_stores {i : Instr} {r : BufRef} {n v : Nat} {bytes : List Byte} (hr : ready .ckw s)
    (href : r = refOf s.ckw.dst) (hbound : refOk s.mem r)
    (hi : exec i s = runOp (do ckwWriteOp n v; pure .unit) s) (hb : beBytes n v = bytes) :
    (r.len < s.ckw.pos + bytes.length → exec i s = raises .ckw .pastEnd s.ckw.pos s) ∧
      (s.ckw.pos + bytes.length ≤ r.len → ∃ mem, exec i s = completes .unit
          { overwrite .ckw [⟨r.id, r.base + s.ckw.pos, bytes.length⟩] s with
            mem := mem, ckw := { s.ckw with pos := s.ckw.pos + bytes.length } } ∧
        bytesOf mem r s.ckw.pos bytes.length = bytes ∧
        ∀ id a, (id ≠ r.id ∨ a < r.base + s.ckw.pos ∨ r.base + s.ckw.pos + bytes.length ≤ a) →
          byteAt mem id a = byteAt s.mem id a) := by
  subst href hb
  rw [hi]
  refine ⟨fun hpast => ?_, fun hroom => ?_⟩
  · rw [beBytes_length] at hpast
    exact runOp_raises (bind_error (ckwWriteOp_past hr hpast v))
  · refine ⟨_, ?_, bytesOf_writeBytes hbound hroom, fun id a => byteAt_writeBytes_outside⟩
    rw [beBytes_length] at hroom
    exact runOp_ok (bind_ok (ckwWriteOp_ok hr hroom v))

/-- Where the first of `CKW.START`'s writes that does not fit lies (R355). -/
theorem ckwStart_past (hr : ready .ckw s) (hsd : s.ckw.sd ≠ Config.ckDepth)
    (hpast : (refOf s.ckw.dst).len < evenUp s.ckw.pos + 8) :
    exec (.ckwStart tag) s = raises .ckw .pastEnd
      (if (refOf s.ckw.dst).len < evenUp s.ckw.pos then s.ckw.pos
        else if (refOf s.ckw.dst).len < evenUp s.ckw.pos + 4 then evenUp s.ckw.pos
        else evenUp s.ckw.pos + 4) s := by
  refine runOp_raises (bind_error ?_)
  rw [ckwStartOp, enter_bind hr, get_bind, raiseIf_bind_false hsd]
  by_cases hpad : s.ckw.pos % 2 = 1 ∧ (refOf s.ckw.dst).len < s.ckw.pos + 1
  · rw [raiseIf_bind_true hpad, if_pos (by unfold evenUp; omega)]
  · rw [raiseIf_bind_false hpad]
    by_cases htag : (refOf s.ckw.dst).len < evenUp s.ckw.pos + 4
    · rw [raiseIf_bind_true htag, if_pos htag]
      split
      · next hshort =>
        have heven : evenUp s.ckw.pos = s.ckw.pos := by unfold evenUp at *; omega
        rw [heven]
      · rfl
    · rw [raiseIf_bind_false htag, raiseIf_bind_true hpast, if_neg (by omega), if_neg htag]

theorem ckwStart_completes (hr : ready .ckw s) (hbound : refOk s.mem (refOf s.ckw.dst))
    (hsd : s.ckw.sd ≠ Config.ckDepth) (hroom : evenUp s.ckw.pos + 8 ≤ (refOf s.ckw.dst).len) :
    exec (.ckwStart tag) s = completes .unit (ckwStarted tag s) ∧
      bytesAt (ckwStarted tag s).mem (refOf s.ckw.dst) s.ckw.pos (chunkHead s.ckw.pos tag) ∧
      ∀ id a, (id ≠ (refOf s.ckw.dst).id ∨ a < (refOf s.ckw.dst).base + s.ckw.pos ∨
          (refOf s.ckw.dst).base + evenUp s.ckw.pos + 8 ≤ a) →
        byteAt (ckwStarted tag s).mem id a = byteAt s.mem id a := by
  have hlength := pos_add_chunkHead s.ckw.pos tag
  exact ⟨runOp_ok (bind_ok (ckwStartOp_ok hr hsd hroom tag)),
    bytesAt_writeBytes hbound (hlength ▸ hroom),
    fun id a h => byteAt_writeBytes_outside (by omega)⟩

theorem ckwEnd_past (hr : ready .ckw s) (hsd : 0 < s.ckw.sd)
    (hpast : (refOf s.ckw.dst).len < sget 0 s.ckw.start (s.ckw.sd - 1) + 8) :
    exec .ckwEnd s = raises .ckw .pastEnd (sget 0 s.ckw.start (s.ckw.sd - 1) + 4) s := by
  have hout : (refOf s.ckw.dst).len < sget 0 s.ckw.start (s.ckw.sd - 1) + 4 + 4 := hpast
  refine runOp_raises (bind_error ?_)
  rw [ckwEndOp, enter_bind hr, get_bind, raiseIf_bind_false hsd.ne',
    bind_error (memWrite_past hout _ s)]

theorem ckwEnd_completes {st : Nat} (hr : ready .ckw s) (hbound : refOk s.mem (refOf s.ckw.dst))
    (hsd : 0 < s.ckw.sd) (hst : sget 0 s.ckw.start (s.ckw.sd - 1) = st)
    (hroom : st + 8 ≤ (refOf s.ckw.dst).len) (hlt : s.ckw.pos - st - 8 < 2 ^ 32) :
    exec .ckwEnd s = completes (.nat (s.ckw.pos - st)) (ckwEnded st s) ∧
      beRead (ckwEnded st s).mem (refOf s.ckw.dst) (st + 4) 4 = s.ckw.pos - st - 8 ∧
      ∀ id a, (id ≠ (refOf s.ckw.dst).id ∨ a < (refOf s.ckw.dst).base + st + 4 ∨
          (refOf s.ckw.dst).base + st + 8 ≤ a) →
        byteAt (ckwEnded st s).mem id a = byteAt s.mem id a := by
  rw [ckwEnded_mem]
  refine ⟨runOp_ok (bind_ok (ckwEndOp_ok hr hsd hst hroom)),
    beRead_of_bytesAt (bytesAt_writeBytes hbound (by rw [beBytes_length]; omega)) hlt,
    fun id a h => byteAt_writeBytes_outside ?_⟩
  rw [beBytes_length]
  omega

/-- The bytes of `CKW.START` as R355 lists them. -/
theorem bytesAt_chunkHead {pos : Nat} (h : bytesAt m r pos (chunkHead pos tag)) :
    (pos % 2 = 1 → refByte m r pos = 0) ∧
      bytesOf m r (evenUp pos) 8 = [tag.extractLsb' 24 8, tag.extractLsb' 16 8, tag.extractLsb' 8 8,
        tag.extractLsb' 0 8, 0, 0, 0, 0] := by
  obtain ⟨hpad, hrest⟩ := bytesAt_append.mp h
  refine ⟨fun hodd => ?_, ?_⟩
  · rw [hodd] at hpad
    exact refByte_of_bytesAt (n := 0) hpad Nat.one_pos
  · rw [List.length_replicate, beBytes_u32] at hrest
    exact hrest

end Sys2Proof.Machine

namespace Sys2Proof.Proofs

open Sys2Proof.Machine

/-- Settles O48: a write appends its bytes. -/
theorem ckwWrites : Obligations.CkwWrites := by
  intro s buf v8 v16 v32 hbound
  obtain ⟨-, -, -, -, -, -, -, -, -, hckw⟩ := hbound
  refine ⟨ckwInit_completes buf, fun hr => ⟨?_, ?_, ?_⟩⟩
  · exact ckwWrite_stores hr rfl hckw rfl (beBytes_u8 v8)
  · exact ckwWrite_stores hr rfl hckw rfl (beBytes_u16 v16)
  · exact ckwWrite_stores hr rfl hckw rfl (beBytes_u32 v32)

/-- Settles O49: START appends a chunk's head, END writes over its length. -/
theorem ckwChunks : Obligations.CkwChunks := by
  intro s tag hr hbound
  obtain ⟨-, -, -, -, -, -, -, -, -, hckw⟩ := hbound
  refine ⟨fun hfull => ?_, fun hsd hpast => ckwStart_past hr hsd hpast, fun hsd hroom => ?_,
    fun hempty => ?_, fun hsd => ⟨ckwEnd_past hr hsd, fun hroom _ hlt => ?_⟩⟩
  · exact runOp_raises (bind_error ((enter_bind hr).trans (raiseIf_bind_true hfull)))
  · obtain ⟨hexec, hbytes, hframe⟩ := ckwStart_completes (tag := tag) hr hckw hsd hroom
    obtain ⟨hpad, hhead⟩ := bytesAt_chunkHead hbytes
    refine ⟨_, _, ?_, sget_sput 0 s.ckw.start s.ckw.sd _, hpad, hhead, hframe⟩
    rw [hexec, ckwStarted, ckwAfter, chunkHead_length]
    rfl
  · exact runOp_raises (bind_error ((enter_bind hr).trans (raiseIf_bind_true hempty)))
  · have hends := ckwEnd_completes hr hckw hsd rfl hroom hlt
    rw [ckwEnded_mem, ckwEnded] at hends
    exact ⟨_, hends⟩

end Sys2Proof.Proofs
end

section
/-! The commands of the Packbits compressor, on lists (R350 to R352): their size, and what they expand
to (R354). -/

namespace Sys2Proof.Machine

variable {fuel fuel' bpl r : Nat} {v : Byte} {bs ds dump out : List Byte} {cmds cmds' : List (List Byte)}

/-! ### A run at the head of a list -/

/-- The run at the head, as `packLineList` counts it. -/
def headRun (v : Byte) (bs : List Byte) : Nat := min 128 ((v :: bs).takeWhile (· == v)).length

theorem take_run (h : r ≤ (bs.takeWhile (· == v)).length) : bs.take r = List.replicate r v := by
  induction bs generalizing r with
  | nil => simpa using h
  | cons b bs ih =>
    cases r with
    | zero => rfl
    | succ r =>
      by_cases hb : b = v
      · rw [hb, List.takeWhile_cons_of_pos (by simp), List.length_cons] at h
        rw [List.take_succ_cons, ih (Nat.le_of_succ_le_succ h), hb, List.replicate_succ]
      · rw [List.takeWhile_cons_of_neg (by simpa using hb)] at h
        exact absurd h (Nat.not_succ_le_zero r)

theorem headRun_le : headRun v bs ≤ 128 ∧ headRun v bs ≤ bs.length + 1 :=
  ⟨Nat.min_le_left _ _, (Nat.min_le_right _ _).trans (List.takeWhile_sublist _).length_le⟩

theorem take_headRun : (v :: bs).take (headRun v bs) = List.replicate (headRun v bs) v :=
  take_run (Nat.min_le_right _ _)

/-- The run and what is left. -/
theorem run_append_drop : List.replicate (headRun v bs) v ++ (v :: bs).drop (headRun v bs) = v :: bs := by
  rw [← take_headRun, List.take_append_drop]

/-! ### One round of the line loop -/

theorem packLineList_nil (fuel : Nat) : packLineList fuel [] dump = dumpCommand dump := by
  cases fuel <;> rfl

theorem packLineList_run (h : 3 ≤ headRun v bs) : packLineList (fuel + 1) (v :: bs) dump =
    dumpCommand dump ++ [BitVec.ofNat 8 (257 - headRun v bs), v] ::
      packLineList fuel ((v :: bs).drop (headRun v bs)) [] := if_pos h

theorem packLineList_full (h : ¬ 3 ≤ headRun v bs) (hd : dump.length = 127) :
    packLineList (fuel + 1) (v :: bs) dump = (127 :: (dump ++ [v])) :: packLineList fuel bs [] :=
  (if_neg h).trans (if_pos hd)

theorem packLineList_dump (h : ¬ 3 ≤ headRun v bs) (hd : dump.length ≠ 127) :
    packLineList (fuel + 1) (v :: bs) dump = packLineList fuel bs (dump ++ [v]) :=
  (if_neg h).trans (if_neg hd)

/-- The line loop needs no more fuel than the line has bytes. -/
theorem packLineList_fuel : ∀ {fuel fuel' : Nat} {bs dump : List Byte}, bs.length ≤ fuel →
    bs.length ≤ fuel' → packLineList fuel bs dump = packLineList fuel' bs dump
  | _, _, [], _, _, _ => by rw [packLineList_nil, packLineList_nil]
  | fuel + 1, fuel' + 1, v :: bs, dump, h, h' => by
    rw [List.length_cons] at h h'
    by_cases hrun : 3 ≤ headRun v bs
    · rw [packLineList_run hrun, packLineList_run hrun, packLineList_fuel (fuel := fuel)
        (fuel' := fuel') (by rw [List.length_drop, List.length_cons]; omega)
        (by rw [List.length_drop, List.length_cons]; omega)]
    · by_cases hdump : dump.length = 127
      · rw [packLineList_full hrun hdump, packLineList_full hrun hdump,
          packLineList_fuel (fuel := fuel) (fuel' := fuel') (by omega) (by omega)]
      · rw [packLineList_dump hrun hdump, packLineList_dump hrun hdump,
          packLineList_fuel (fuel := fuel) (fuel' := fuel') (by omega) (by omega)]

/-! ### The lines -/

theorem packList_nil (fuel : Nat) : packList bpl fuel [] = [] := by
  cases fuel <;> rfl

theorem packList_cons (h : bs ≠ []) : packList bpl (fuel + 1) bs =
    packLineList bpl (bs.take bpl) [] ++ packList bpl fuel (bs.drop bpl) := if_neg h

/-- The loop over the lines needs no more fuel than there are lines. -/
theorem packList_fuel : ∀ {fuel fuel' : Nat} {bs : List Byte}, bs.length ≤ fuel * bpl →
    bs.length ≤ fuel' * bpl → packList bpl fuel bs = packList bpl fuel' bs
  | _, _, [], _, _ => by rw [packList_nil, packList_nil]
  | 0, _, b :: bs, h, _ => absurd h (by simp)
  | _, 0, b :: bs, _, h => absurd h (by simp)
  | fuel + 1, fuel' + 1, b :: bs, h, h' => by
    rw [packList_cons (List.cons_ne_nil b bs), packList_cons (List.cons_ne_nil b bs),
      packList_fuel (fuel := fuel) (fuel' := fuel')]
    · rw [List.length_drop]
      rw [Nat.succ_mul] at h
      omega
    · rw [List.length_drop]
      rw [Nat.succ_mul] at h'
      omega

/-! ### The worst case (R352) -/

theorem length_dumpCommand : (dumpCommand dump).flatten.length ≤ dump.length + 1 ∧
    (dump = [] → (dumpCommand dump).flatten.length = 0) := by
  unfold dumpCommand
  split
  · next h => simp
  · next h => exact ⟨by simp, fun hd => absurd hd h⟩

theorem length_packLineList : ∀ {fuel : Nat} {bs dump : List Byte}, dump.length ≤ 127 →
    (packLineList fuel bs dump).flatten.length ≤
      dump.length + bs.length + (dump.length + bs.length + 127) / 128
  | fuel, [], dump, hd => by
    rw [packLineList_nil]
    obtain ⟨hle, hnone⟩ := length_dumpCommand (dump := dump)
    cases dump with
    | nil => simp [hnone rfl]
    | cons d ds => simp only [List.length_cons, List.length_nil] at *; omega
  | 0, v :: bs, dump, hd => by
    obtain ⟨hle, hnone⟩ := length_dumpCommand (dump := dump)
    rw [packLineList, List.length_cons]
    omega
  | fuel + 1, v :: bs, dump, hd => by
    have hrange := headRun_le (v := v) (bs := bs)
    by_cases hrun : 3 ≤ headRun v bs
    · have hrest := length_packLineList (fuel := fuel) (bs := (v :: bs).drop (headRun v bs))
        (dump := []) (by simp)
      obtain ⟨hle, -⟩ := length_dumpCommand (dump := dump)
      rw [packLineList_run hrun]
      simp only [List.flatten_append, List.flatten_cons, List.length_append, List.length_cons,
        List.length_nil, List.length_drop] at *
      omega
    · by_cases hdump : dump.length = 127
      · have hrest := length_packLineList (fuel := fuel) (bs := bs) (dump := []) (by simp)
        rw [packLineList_full hrun hdump]
        simp only [List.flatten_cons, List.length_append, List.length_cons, List.length_nil] at *
        omega
      · have hrest := length_packLineList (fuel := fuel) (bs := bs) (dump := dump ++ [v])
          (by simp; omega)
        rw [packLineList_dump hrun hdump]
        simp only [List.length_append, List.length_cons, List.length_nil] at *
        omega

/-- The worst case of a source of `n` bytes in lines of `bpl` (R352). -/
def packBound (bpl n : Nat) : Nat :=
  n / bpl * (bpl + (bpl + 127) / 128) + (n % bpl + (n % bpl + 127) / 128)

theorem packBound_line (hbpl : 0 < bpl) (n : Nat) :
    packBound bpl (n + bpl) = bpl + (bpl + 127) / 128 + packBound bpl n := by
  rw [packBound, Nat.add_div_right n hbpl, Nat.add_mod_right, Nat.succ_mul, packBound]
  omega

theorem packBound_short {n : Nat} (h : n < bpl) : packBound bpl n = n + (n + 127) / 128 := by
  rw [packBound, Nat.div_eq_of_lt h, Nat.mod_eq_of_lt h, Nat.zero_mul, Nat.zero_add]

/-- No more than a command byte for each byte. -/
theorem packBound_le (hbpl : 0 < bpl) (n : Nat) : packBound bpl n ≤ 2 * n := by
  have hlines : n / bpl * (bpl + (bpl + 127) / 128) ≤ n / bpl * (2 * bpl) :=
    Nat.mul_le_mul_left _ (by omega)
  have hsplit : n / bpl * (2 * bpl) = 2 * (bpl * (n / bpl)) := by ring
  have hdiv := Nat.div_add_mod n bpl
  rw [packBound]
  omega

theorem length_packList (hbpl : 0 < bpl) : ∀ {fuel : Nat} {bs : List Byte},
    (packList bpl fuel bs).flatten.length ≤ packBound bpl bs.length
  | _, [] => by simp [packList_nil]
  | 0, _ :: _ => Nat.zero_le _
  | fuel + 1, b :: bs => by
    have hline := length_packLineList (fuel := bpl) (bs := (b :: bs).take bpl) (dump := [])
      (Nat.zero_le _)
    have hrest := length_packList hbpl (fuel := fuel) (bs := (b :: bs).drop bpl)
    rw [packList_cons (List.cons_ne_nil b bs), List.flatten_append, List.length_append]
    generalize b :: bs = all at *
    simp only [List.length_take, List.length_drop, List.length_nil, Nat.zero_add] at hline hrest
    by_cases hlong : bpl ≤ all.length
    · rw [Nat.min_eq_left hlong] at hline
      rw [show all.length = all.length - bpl + bpl by omega, packBound_line hbpl]
      omega
    · rw [Nat.min_eq_right (by omega)] at hline
      rw [show all.length - bpl = 0 by omega, packBound_short hbpl] at hrest
      rw [packBound_short (by omega)]
      omega

/-! ### What the commands expand to (R354) -/

/-- Commands that expand to these bytes (R221, R222). -/
inductive Packs : List (List Byte) → List Byte → Prop
  | nil : Packs [] []
  | lit {ds bs : List Byte} {cmds : List (List Byte)} : ds ≠ [] → ds.length ≤ 128 → Packs cmds bs →
      Packs ((BitVec.ofNat 8 (ds.length - 1) :: ds) :: cmds) (ds ++ bs)
  | run {r : Nat} {v : Byte} {bs : List Byte} {cmds : List (List Byte)} : 2 ≤ r → r ≤ 128 →
      Packs cmds bs →
      Packs ([BitVec.ofNat 8 (257 - r), v] :: cmds) (List.replicate r v ++ bs)

theorem Packs.append (h : Packs cmds bs) (h' : Packs cmds' ds) : Packs (cmds ++ cmds') (bs ++ ds) := by
  induction h with
  | nil => exact h'
  | lit hne hle _ ih => rw [List.append_assoc]; exact .lit hne hle ih
  | run hlo hhi _ ih => rw [List.append_assoc]; exact .run hlo hhi ih

theorem packs_dumpCommand (h : dump.length ≤ 128) : Packs (dumpCommand dump) dump := by
  unfold dumpCommand
  split
  · next hnil => exact hnil ▸ .nil
  · next hne =>
    have hlit := Packs.lit hne h .nil
    rwa [List.append_nil] at hlit

theorem packs_packLineList : ∀ {fuel : Nat} {bs dump : List Byte}, bs.length ≤ fuel →
    dump.length ≤ 127 → Packs (packLineList fuel bs dump) (dump ++ bs)
  | fuel, [], dump, _, hd => by
    rw [packLineList_nil, List.append_nil]
    exact packs_dumpCommand (by omega)
  | fuel + 1, v :: bs, dump, h, hd => by
    rw [List.length_cons] at h
    by_cases hrun : 3 ≤ headRun v bs
    · have hrest := packs_packLineList (fuel := fuel) (bs := (v :: bs).drop (headRun v bs)) (dump := [])
        (by rw [List.length_drop, List.length_cons]; omega) (by simp)
      have hrunning := Packs.run (v := v) (Nat.le_of_succ_le hrun) headRun_le.1 hrest
      rw [List.nil_append, run_append_drop] at hrunning
      rw [packLineList_run hrun]
      exact (packs_dumpCommand (by omega)).append hrunning
    · by_cases hdump : dump.length = 127
      · have hrest := packs_packLineList (fuel := fuel) (bs := bs) (dump := []) (by omega) (by simp)
        have hlit := Packs.lit (ds := dump ++ [v]) (by simp) (by simp [hdump]) hrest
        rw [packLineList_full hrun hdump]
        simpa [hdump] using hlit
      · have hrest := packs_packLineList (fuel := fuel) (bs := bs) (dump := dump ++ [v]) (by omega)
          (by simp; omega)
        rw [packLineList_dump hrun hdump]
        simpa using hrest

theorem packs_packList (hbpl : 0 < bpl) : ∀ {fuel : Nat} {bs : List Byte}, bs.length ≤ fuel * bpl →
    Packs (packList bpl fuel bs) bs
  | fuel, [], _ => by
    rw [packList_nil]
    exact .nil
  | 0, _ :: _, h => absurd h (by simp)
  | fuel + 1, b :: bs, h => by
    have hline : Packs (packLineList bpl ((b :: bs).take bpl) []) ((b :: bs).take bpl) :=
      packs_packLineList (by rw [List.length_take]; omega) (Nat.zero_le _)
    have hrest := packs_packList hbpl (fuel := fuel) (bs := (b :: bs).drop bpl) (by
      rw [List.length_drop]
      rw [Nat.succ_mul] at h
      omega)
    rw [packList_cons (List.cons_ne_nil b bs)]
    have hboth := hline.append hrest
    rwa [List.take_append_drop] at hboth

theorem decodePb_lit {k : Nat} (h : k < 128) :
    decodePb (BitVec.ofNat 8 k) = .lit (BitVec.ofNat 7 k) := by
  have hlow : BitVec.ofNat 8 k = byteLow (BitVec.ofNat 7 k) :=
    BitVec.eq_of_toNat_eq (by rw [toNat_byteLow, BitVec.toNat_ofNat, BitVec.toNat_ofNat]; omega)
  rw [hlow, decodePb_byteLow]

theorem decodePb_run (hlo : 2 ≤ r) (hhi : r ≤ 128) :
    decodePb (BitVec.ofNat 8 (257 - r)) = .run (BitVec.ofNat 7 (129 - r)) := by
  have hvalue : (BitVec.ofNat 7 (129 - r)).toNat = 129 - r := by
    rw [BitVec.toNat_ofNat, Nat.mod_eq_of_lt (by omega)]
  have hhigh : BitVec.ofNat 8 (257 - r) = byteHigh (BitVec.ofNat 7 (129 - r)) :=
    BitVec.eq_of_toNat_eq (by rw [toNat_byteHigh, hvalue, BitVec.toNat_ofNat]; omega)
  have hne : BitVec.ofNat 7 (129 - r) ≠ 0 := fun h => by
    have hzero : 0 = 129 - r := (congrArg BitVec.toNat h).symm.trans hvalue
    omega
  rw [hhigh, decodePb_byteHigh hne]

/-- The stream of the commands expands, by R220 to R223, to the bytes (R354). -/
theorem Packs.unpackList (h : Packs cmds bs) (hfuel : cmds.length ≤ fuel) :
    unpackList fuel cmds.flatten bs.length = some (bs, []) := by
  induction h generalizing fuel with
  | nil => exact unpackList_full fuel []
  | @lit ds bs cmds hne hle _ ih =>
    obtain ⟨fuel, rfl⟩ := Nat.exists_eq_add_one.mpr (Nat.zero_lt_of_lt hfuel)
    have hpos := List.length_pos_of_ne_nil hne
    have hcount : min (1 + (BitVec.ofNat 7 (ds.length - 1)).toNat) (ds ++ bs).length = ds.length := by
      rw [BitVec.toNat_ofNat, Nat.mod_eq_of_lt (by omega), List.length_append]
      omega
    rw [List.flatten_cons, List.cons_append, unpackList_lit (decodePb_lit (by omega))
      (by rw [List.length_append]; omega), hcount, if_neg (by rw [List.length_append]; omega),
      List.drop_left, List.take_left, List.length_append, Nat.add_sub_cancel_left,
      ih (Nat.le_of_succ_le_succ hfuel)]
    rfl
  | @run r v bs cmds hlo hhi _ ih =>
    obtain ⟨fuel, rfl⟩ := Nat.exists_eq_add_one.mpr (Nat.zero_lt_of_lt hfuel)
    have hcount : min (129 - (BitVec.ofNat 7 (129 - r)).toNat) (List.replicate r v ++ bs).length = r := by
      rw [BitVec.toNat_ofNat, Nat.mod_eq_of_lt (by omega), List.length_append, List.length_replicate]
      omega
    rw [List.flatten_cons, List.cons_append, List.cons_append, List.nil_append,
      unpackList_run (decodePb_run hlo hhi)
        (by rw [List.length_append, List.length_replicate]; omega), hcount, List.length_append,
      List.length_replicate, Nat.add_sub_cancel_left, ih (Nat.le_of_succ_le_succ hfuel)]
    rfl

/-- No command is empty. -/
theorem Packs.length_le (h : Packs cmds bs) : cmds.length ≤ cmds.flatten.length := by
  induction h with
  | nil => exact le_rfl
  | lit _ _ _ ih | run _ _ _ ih =>
    simp only [List.flatten_cons, List.length_append, List.length_cons]
    omega

end Sys2Proof.Machine
end

section
/-! `PBE.PACK` (R351, R352): it emits the commands of its lists one after the other; O46 and O47. -/

namespace Sys2Proof.Machine

variable {s t : State} {src dst : BufRef} {pos bpl e i fuel info n : Nat} {v : Byte}
  {c out out' dump : List Byte} {cmds cmds' : List (List Byte)}

/-! ### Commands emitted one after the other -/

/-- The state after PBE has written `out` at `pos` of `dst`; other units' bindings to it have ended
(R351, R422). -/
def pbeAfter (dst : BufRef) (pos : Nat) (out : List Byte) (s : State) : State :=
  overwrite .pbe [⟨dst.id, dst.base + pos, out.length⟩] { s with mem := writeBytes s.mem dst pos out }

theorem pbeAfter_mem : (pbeAfter dst pos out s).mem = writeBytes s.mem dst pos out := rfl

theorem pbeAfter_nil : pbeAfter dst pos [] s = s := overwrite_empty

theorem pbeAfter_after : pbeAfter dst (pos + out.length) out' (pbeAfter dst pos out s) =
    pbeAfter dst pos (out ++ out') s := by
  have hboth : pbeAfter dst (pos + out.length) out' (pbeAfter dst pos out s) =
      overwrite .pbe [⟨dst.id, dst.base + pos + out.length, out'.length⟩]
        (overwrite .pbe [⟨dst.id, dst.base + pos, out.length⟩]
          { s with mem := writeBytes s.mem dst pos (out ++ out') }) := by
    rw [pbeAfter, pbeAfter_mem, ← writeBytes_append, ← Nat.add_assoc]
    rfl
  rw [hboth, overwrite_adjacent, ← List.length_append, pbeAfter]

theorem pbeEmit_ok (h : pos + c.length ≤ dst.len) :
    pbeEmit dst pos c s = .ok (pos + c.length) (pbeAfter dst pos c s) := by
  rw [pbeEmit, raiseIf_bind_false (Nat.not_lt_of_le h), windowOf_of_le h]
  rfl

theorem pbeEmit_past (h : dst.len < pos + c.length) : pbeEmit dst pos c s =
    .error .faulted (withFault .pbe (raisedReg .dstSmall (pos + c.length)) s) := by
  rw [pbeEmit, raiseIf_bind_true h]

/-- `emit`, command by command. -/
def emitAll (dst : BufRef) : Nat → List (List Byte) → Op Nat
  | pos, [] => pure pos
  | pos, c :: cmds => do
    let pos ← pbeEmit dst pos c
    emitAll dst pos cmds

theorem emitAll_ok : ∀ {cmds : List (List Byte)} {pos : Nat} {s : State},
    pos + cmds.flatten.length ≤ dst.len → emitAll dst pos cmds s =
      .ok (pos + cmds.flatten.length) (pbeAfter dst pos cmds.flatten s)
  | [], pos, s, _ => congrArg (EStateM.Result.ok pos) pbeAfter_nil.symm
  | c :: cmds, pos, s, h => by
    rw [List.flatten_cons, List.length_append, ← Nat.add_assoc] at h ⊢
    rw [emitAll, bind_ok (pbeEmit_ok (by omega)), emitAll_ok h, pbeAfter_after]

/-- The first command that does not fit raises (R351). -/
theorem emitAll_past {j : Nat} (hj : j < cmds.length) (hfit : pos + (cmds.take j).flatten.length ≤ dst.len)
    (hpast : dst.len < pos + (cmds.take (j + 1)).flatten.length) : emitAll dst pos cmds s =
      .error .faulted (withFault .pbe
        (raisedReg .dstSmall (pos + (cmds.take (j + 1)).flatten.length))
        (pbeAfter dst pos (cmds.take j).flatten s)) := by
  induction cmds generalizing pos j s with
  | nil => exact absurd hj (Nat.not_lt_zero j)
  | cons c cmds ih =>
    cases j with
    | zero =>
      simp only [Nat.zero_add, List.take_succ_cons, List.take_zero, List.flatten_cons,
        List.flatten_nil, List.append_nil] at hpast ⊢
      rw [emitAll, bind_error (pbeEmit_past hpast), pbeAfter_nil]
    | succ j =>
      simp only [List.take_succ_cons, List.flatten_cons, List.length_append, ← Nat.add_assoc]
        at hfit hpast ⊢
      rw [emitAll, bind_ok (pbeEmit_ok (by omega)), ih (Nat.lt_of_succ_lt_succ hj) hfit hpast,
        pbeAfter_after]

/-- Where not all commands fit there is a first that does not. -/
theorem exists_past : ∀ {cmds : List (List Byte)} {pos : Nat}, pos ≤ dst.len →
    dst.len < pos + cmds.flatten.length → ∃ j < cmds.length,
      pos + (cmds.take j).flatten.length ≤ dst.len ∧
        dst.len < pos + (cmds.take (j + 1)).flatten.length
  | [], _, hpos, h => absurd h (Nat.not_lt_of_le hpos)
  | c :: cmds, pos, hpos, h => by
    by_cases hfit : pos + c.length ≤ dst.len
    · rw [List.flatten_cons, List.length_append, ← Nat.add_assoc] at h
      obtain ⟨j, hj, hlo, hhi⟩ := exists_past hfit h
      exact ⟨j + 1, Nat.succ_lt_succ hj, by simpa [Nat.add_assoc] using hlo,
        by simpa [Nat.add_assoc] using hhi⟩
    · exact ⟨0, Nat.succ_pos _, by simpa using hpos, by simpa using hfit⟩

/-- An operation that emits one command and goes on as the list of the others does. -/
theorem emit_bind {f : Nat → Op Nat}
    (h : f (pos + c.length) (pbeAfter dst pos c s) =
      emitAll dst (pos + c.length) cmds (pbeAfter dst pos c s)) :
    (pbeEmit dst pos c >>= f) s = emitAll dst pos (c :: cmds) s := by
  rw [emitAll]
  by_cases hfit : pos + c.length ≤ dst.len
  · rw [bind_ok (pbeEmit_ok hfit), bind_ok (pbeEmit_ok hfit), h]
  · rw [bind_error (pbeEmit_past (Nat.lt_of_not_le hfit)),
      bind_error (pbeEmit_past (Nat.lt_of_not_le hfit))]

/-- The same after any number of commands. -/
theorem emitAll_bind {f : Nat → Op Nat}
    (h : f (pos + cmds.flatten.length) (pbeAfter dst pos cmds.flatten s) =
      emitAll dst (pos + cmds.flatten.length) cmds' (pbeAfter dst pos cmds.flatten s)) :
    (emitAll dst pos cmds >>= f) s = emitAll dst pos (cmds ++ cmds') s := by
  induction cmds generalizing pos s with
  | nil =>
    rw [List.flatten_nil, pbeAfter_nil] at h
    exact h
  | cons c cmds ih =>
    rw [List.flatten_cons, List.length_append, ← Nat.add_assoc, ← pbeAfter_after] at h
    rw [emitAll, bind_assoc]
    exact emit_bind (ih h)

theorem pbeFlush_eq : pbeFlush dst pos dump = emitAll dst pos (dumpCommand dump) := by
  unfold pbeFlush dumpCommand
  split
  · rfl
  · exact (bind_pure _).symm

/-! ### The source read -/

theorem runLength_eq (m : Mem) (v : Byte) : ∀ (off n k : Nat), runLength m src v off (min k n) =
    min k ((bytesOf m src off n).takeWhile (· == v)).length
  | _, 0, _ => by simp [runLength, bytesOf]
  | _, _ + 1, 0 => by simp [runLength]
  | off, n + 1, k + 1 => by
    rw [Nat.add_min_add_right, runLength, bytesOf_cons]
    split
    · next hv =>
      rw [List.takeWhile_cons_of_pos (by simpa using hv), List.length_cons, runLength_eq,
        Nat.add_min_add_right]
    · next hv =>
      rw [List.takeWhile_cons_of_neg (by simpa using hv), List.length_nil, Nat.min_zero]

theorem bytesOf_pbeAfter (hne : src.id ≠ dst.id) (off n : Nat) :
    bytesOf (pbeAfter dst pos out s).mem src off n = bytesOf s.mem src off n :=
  bytesOf_congr fun _ _ => byteAt_writeBytes_outside (.inl hne)

/-! ### The loops -/

/-- What the line loop emits: commands, and of a source that it does not write those of its bytes. -/
theorem packLine_emits : ∀ (fuel i pos : Nat) (dump : List Byte) (s : State),
    ∃ cmds, packLine src dst e fuel i pos dump s = emitAll dst pos cmds s ∧
      (src.id ≠ dst.id → cmds = packLineList fuel (bytesOf s.mem src i (e - i)) dump)
  | 0, i, pos, dump, s => ⟨_, congrFun pbeFlush_eq s, fun _ => rfl⟩
  | fuel + 1, i, pos, dump, s => by
    unfold packLine
    split
    · next hend =>
      refine ⟨_, congrFun pbeFlush_eq s, fun _ => ?_⟩
      rw [Nat.sub_eq_zero_of_le hend]
      rfl
    · next hmore =>
      obtain ⟨n, hn⟩ : ∃ n, e - i = n + 1 := ⟨e - i - 1, by omega⟩
      rw [get_bind, runLength_eq, hn, bytesOf_cons]
      generalize hv : refByte s.mem src i = v
      rw [show min 128 ((v :: bytesOf s.mem src (i + 1) n).takeWhile (· == v)).length =
        headRun v (bytesOf s.mem src (i + 1) n) from rfl]
      split
      · next hrun =>
        generalize hr : headRun v (bytesOf s.mem src (i + 1) n) = r at hrun
        obtain ⟨cmds, hcmds, hsrc⟩ := packLine_emits fuel (i + r)
          (pos + (dumpCommand dump).flatten.length + 2) []
          (pbeAfter dst (pos + (dumpCommand dump).flatten.length) [BitVec.ofNat 8 (257 - r), v]
            (pbeAfter dst pos (dumpCommand dump).flatten s))
        rw [pbeFlush_eq]
        refine ⟨_, emitAll_bind (emit_bind hcmds), fun hne => ?_⟩
        rw [packLineList_run (hr ▸ hrun), hr, hsrc hne, bytesOf_pbeAfter hne, bytesOf_pbeAfter hne, ← hv,
          ← bytesOf_cons, drop_bytesOf, ← hn, Nat.sub_sub]
      · next hshort =>
        split
        · next hfull =>
          obtain ⟨cmds, hcmds, hsrc⟩ := packLine_emits fuel (i + 1) (pos + (127 :: (dump ++ [v])).length)
            [] (pbeAfter dst pos (127 :: (dump ++ [v])) s)
          refine ⟨_, emit_bind hcmds, fun hne => ?_⟩
          rw [packLineList_full hshort (Nat.succ.inj hfull), hsrc hne, bytesOf_pbeAfter hne,
            show e - (i + 1) = n by omega]
        · next hroom =>
          obtain ⟨cmds, hcmds, hsrc⟩ := packLine_emits fuel (i + 1) pos (dump ++ [v]) s
          refine ⟨_, hcmds, fun hne => ?_⟩
          rw [packLineList_dump hshort (fun h => hroom (by rw [h])), hsrc hne,
            show e - (i + 1) = n by omega]

theorem bind_congr_at {α β : Type} {x y : Op α} {f : α → Op β} (h : x s = y s) :
    (x >>= f) s = (y >>= f) s := by rw [bind_run, bind_run, h]

/-- What the loop over the lines emits. -/
theorem packLines_emits : ∀ (n start pos : Nat) (s : State),
    ∃ cmds, packLines src dst bpl n start pos s = emitAll dst pos cmds s ∧
      (src.id ≠ dst.id → cmds = packList bpl n (bytesOf s.mem src start (src.len - start)))
  | 0, start, pos, s => ⟨[], rfl, fun _ => rfl⟩
  | n + 1, start, pos, s => by
    obtain ⟨line, hline, hlineSrc⟩ := packLine_emits (src := src) (dst := dst)
      (e := min (start + bpl) src.len) (min (start + bpl) src.len - start) start pos [] s
    obtain ⟨more, hmore, hmoreSrc⟩ := packLines_emits n (start + bpl) (pos + line.flatten.length)
      (pbeAfter dst pos line.flatten s)
    refine ⟨line ++ more, (bind_congr_at hline).trans (emitAll_bind hmore), fun hne => ?_⟩
    rw [hlineSrc hne, hmoreSrc hne, bytesOf_pbeAfter hne]
    by_cases hend : src.len ≤ start
    · rw [show min (start + bpl) src.len - start = 0 by omega, Nat.sub_eq_zero_of_le hend,
        show src.len - (start + bpl) = 0 by omega]
      exact packList_nil n
    · have hnonempty : bytesOf s.mem src start (src.len - start) ≠ [] := fun h => by
        have hlength := congrArg List.length h
        rw [bytesOf_length, List.length_nil] at hlength
        omega
      have htake : (bytesOf s.mem src start (src.len - start)).take bpl =
          bytesOf s.mem src start (min (start + bpl) src.len - start) := by
        rw [show min (start + bpl) src.len - start = min bpl (src.len - start) by omega,
          List.take_eq_take_min, bytesOf_length, take_bytesOf (Nat.min_le_right _ _)]
      rw [packList_cons hnonempty, htake, drop_bytesOf, Nat.sub_sub,
        packLineList_fuel (fuel' := bpl) (by rw [bytesOf_length])
          (by rw [bytesOf_length]; omega)]

/-! ### The operation -/

/-- The state in which `PBE.PACK` begins to emit (R351, R422). -/
def packStart (dst : BufRef) (s : State) : State := claim .pbe dst (clearedFault .pbe s)

theorem pbePackOp_run (hbpl : bpl ≠ 0) : pbePackOp src bpl dst s =
    onStop (spoil .pbe dst 0 dst.len) (packLines src dst bpl (ceilDiv src.len bpl) 0 0)
      (packStart dst s) := by
  rw [pbePackOp, bind_ok (clearFault_run .pbe s), raiseIf_bind_false hbpl, bind_ok (modify_run _ _)]
  rfl

/-- The commands of `PBE.PACK` (R352). -/
def packCommands (m : Mem) (src : BufRef) (bpl : Nat) : List (List Byte) :=
  packList bpl src.len (bytesOf m src 0 src.len)

theorem pbePackOp_emits (hbpl : 0 < bpl) : ∃ cmds, pbePackOp src bpl dst s =
      onStop (spoil .pbe dst 0 dst.len) (emitAll dst 0 cmds) (packStart dst s) ∧
    (src.id ≠ dst.id → cmds = packCommands s.mem src bpl) := by
  obtain ⟨cmds, hcmds, hsrc⟩ := packLines_emits (src := src) (dst := dst) (bpl := bpl)
    (ceilDiv src.len bpl) 0 0 (packStart dst s)
  refine ⟨cmds, ?_, fun hne => ?_⟩
  · rw [pbePackOp_run hbpl.ne']
    unfold onStop
    rw [hcmds]
  · have hlines : src.len ≤ ceilDiv src.len bpl * bpl := by
      rw [Nat.mul_comm]
      exact ceilDiv_mul_ge hbpl src.len
    rw [hsrc hne, packCommands, packList_fuel (fuel' := src.len)
      (by rw [bytesOf_length]; exact hlines)
      (by rw [bytesOf_length]; exact Nat.le_mul_of_pos_right _ hbpl)]
    rfl

/-- Commands that fit: PBE has written them (R351). -/
theorem packs_ok (hfit : cmds.flatten.length ≤ dst.len)
    (hrun : pbePackOp src bpl dst s =
      onStop (spoil .pbe dst 0 dst.len) (emitAll dst 0 cmds) (packStart dst s)) :
    pbePackOp src bpl dst s =
      .ok cmds.flatten.length (pbeAfter dst 0 cmds.flatten (packStart dst s)) := by
  have hall := emitAll_ok (pos := 0) (cmds := cmds) (s := packStart dst s)
    ((Nat.zero_add _).trans_le hfit)
  rw [Nat.zero_add] at hall
  rw [hrun, onStop_ok hall]

/-- What a pack whose commands do not fit leaves (R351, R385; log 13). -/
theorem spoiled_pack (hfit : out.length ≤ dst.len) (info : Nat) : ∃ mem draws,
    spoil .pbe dst 0 dst.len (withFault .pbe (raisedReg .dstSmall info)
        (pbeAfter dst 0 out (packStart dst s))) =
      { overwrite .pbe [dst] s with
        mem := mem, draws := draws, pbe := ⟨raisedReg .dstSmall info⟩ } ∧
      ∀ id a, id ≠ dst.id → byteAt mem id a = byteAt s.mem id a := by
  refine ⟨freeRange (writeBytes s.mem dst 0 out) dst 0 s.draws (min dst.len (dst.len - 0)),
    s.draws + min dst.len (dst.len - 0), ?_, fun id a h => ?_⟩
  · have hpass : spoil .pbe dst 0 dst.len (withFault .pbe (raisedReg .dstSmall info)
          (pbeAfter dst 0 out (packStart dst s))) =
        overwrite .pbe [windowOf dst 0 dst.len]
          (overwrite .pbe [⟨dst.id, dst.base + 0, out.length⟩] (claim .pbe dst { s with
            mem := freeRange (writeBytes s.mem dst 0 out) dst 0 s.draws (min dst.len (dst.len - 0))
            draws := s.draws + min dst.len (dst.len - 0)
            pbe := ⟨raisedReg .dstSmall info⟩ })) := rfl
    have hrange (id a : Nat) : covered
        ([⟨dst.id, dst.base + 0, out.length⟩] ++ [windowOf dst 0 dst.len]) id a ↔
          inWindow dst id a := by
      rw [windowOf_of_le (Nat.zero_add _).le]
      simp only [covered_append, covered_cons, covered_nil, inWindow, or_false]
      omega
    rw [hpass, overwrite_overwrite, overwrite_claimed hrange]
    rfl
  · rw [(writes_freeRange _ dst 0 _ _).byteAt_eq fun hin => h hin.1]
    exact byteAt_writeBytes_outside (.inl h)

/-- The instruction on buffers whose commands fit. -/
theorem pbePack_completes {src dst : Nat} (hfit : cmds.flatten.length ≤ (bufAt s.mem dst).len)
    (hrun : pbePackOp (wholeBuf s.mem src) bpl (wholeBuf s.mem dst) s =
      onStop (spoil .pbe (wholeBuf s.mem dst) 0 (wholeBuf s.mem dst).len)
        (emitAll (wholeBuf s.mem dst) 0 cmds) (packStart (wholeBuf s.mem dst) s)) :
    ∃ mem, exec (.pbePack src bpl dst) s = completes (.nat cmds.flatten.length)
        { overwrite .pbe [⟨dst, 0, cmds.flatten.length⟩] (claim .pbe (wholeBuf s.mem dst) s) with
          mem := mem, pbe := ⟨{ s.pbe.fault with valid := false }⟩ } ∧
      bytesAt mem (wholeBuf s.mem dst) 0 cmds.flatten ∧
      ∀ id a, (id ≠ dst ∨ cmds.flatten.length ≤ a) → byteAt mem id a = byteAt s.mem id a := by
  have hroom : 0 + cmds.flatten.length ≤ (wholeBuf s.mem dst).len := (Nat.zero_add _).trans_le hfit
  refine ⟨_, runOp_ok (bind_ok (packs_ok hfit hrun)),
    bytesAt_writeBytes (refOk_wholeBuf s.mem dst) hroom,
    fun id a h => byteAt_writeBytes_outside (h.imp (fun h => h) fun hhi => .inr ?_)⟩
  simpa [wholeBuf] using hhi

/-- The instruction on buffers whose commands do not fit. -/
theorem pbePack_small {src dst j : Nat} (hj : j < cmds.length)
    (hfit : (cmds.take j).flatten.length ≤ (bufAt s.mem dst).len)
    (hpast : (bufAt s.mem dst).len < (cmds.take (j + 1)).flatten.length)
    (hrun : pbePackOp (wholeBuf s.mem src) bpl (wholeBuf s.mem dst) s =
      onStop (spoil .pbe (wholeBuf s.mem dst) 0 (wholeBuf s.mem dst).len)
        (emitAll (wholeBuf s.mem dst) 0 cmds) (packStart (wholeBuf s.mem dst) s)) :
    ∃ mem draws, exec (.pbePack src bpl dst) s =
        .next { overwrite .pbe [wholeBuf s.mem dst] s with
                mem := mem, draws := draws, reply := .faulted,
                pbe := ⟨raisedReg .dstSmall (cmds.take (j + 1)).flatten.length⟩ } ∧
      ∀ id a, id ≠ dst → byteAt mem id a = byteAt s.mem id a := by
  have hall := emitAll_past (s := packStart (wholeBuf s.mem dst) s) (dst := wholeBuf s.mem dst)
    (pos := 0) hj ((Nat.zero_add _).trans_le hfit) (hpast.trans_eq (Nat.zero_add _).symm)
  rw [Nat.zero_add] at hall
  obtain ⟨mem, draws, hspoil, hframe⟩ := spoiled_pack (s := s) (dst := wholeBuf s.mem dst)
    (out := (cmds.take j).flatten) hfit (cmds.take (j + 1)).flatten.length
  refine ⟨mem, draws, ?_, hframe⟩
  have hop : pbePackOp (wholeBuf s.mem src) bpl (wholeBuf s.mem dst) s = .error .faulted _ :=
    hrun.trans ((onStop_error hall).trans (congrArg _ hspoil))
  exact runOp_faulted (bind_error hop)

end Sys2Proof.Machine

namespace Sys2Proof.Proofs

open Sys2Proof.Machine

/-- Settles O46: `PBE.PACK` emits the commands of its source's lines, or of whatever it has made of its
source where it packs a buffer into itself. -/
theorem pbePackCompletes : Obligations.PbePackCompletes := by
  intro s src bpl dst n room cmds out small packs
  refine ⟨fun hzero => ?_, fun hbpl hne => ?_, fun hbpl hsame => ?_⟩
  · exact runOp_raises (bind_error (clearFault_bind_raise (raiseIf_bind_true hzero)))
  · obtain ⟨cmds', hrun, hcmds⟩ := pbePackOp_emits (src := wholeBuf s.mem src)
      (dst := wholeBuf s.mem dst) (s := s) hbpl
    obtain rfl : cmds' = cmds := hcmds hne
    refine ⟨?_, fun hfit => ?_, fun j hj hfit hpast => pbePack_small hj hfit hpast hrun⟩
    · have hbound := length_packList hbpl (fuel := n) (bs := bytesOf s.mem (wholeBuf s.mem src) 0 n)
      rwa [bytesOf_length] at hbound
    · exact pbePack_completes hfit hrun
  · obtain ⟨cmds', hrun, -⟩ := pbePackOp_emits (src := wholeBuf s.mem src)
      (dst := wholeBuf s.mem dst) (s := s) hbpl
    by_cases hfit : cmds'.flatten.length ≤ room
    · obtain ⟨mem, hexec, -, hframe⟩ := pbePack_completes hfit hrun
      exact .inl ⟨_, hfit, mem, hexec, trivial, hframe⟩
    · obtain ⟨j, hj, hlo, hhi⟩ := exists_past (dst := wholeBuf s.mem dst) (pos := 0) (cmds := cmds')
        (Nat.zero_le _) (by rw [Nat.zero_add]; exact Nat.lt_of_not_le hfit)
      rw [Nat.zero_add] at hlo hhi
      exact .inr ⟨_, hhi, pbePack_small hj hlo hhi hrun⟩

/-- Settles O47: the commands written expand to the source's lines. -/
theorem packThenUnpack : Obligations.PackThenUnpack := by
  intro s src bpl dst hne hbpl hroom sr
  obtain ⟨cmds, hrun, hcmds⟩ := pbePackOp_emits (src := sr) (dst := wholeBuf s.mem dst) (s := s) hbpl
  have hpacks : Packs cmds (bytesOf s.mem sr 0 sr.len) := by
    rw [hcmds hne]
    exact packs_packList hbpl (by rw [bytesOf_length]; exact Nat.le_mul_of_pos_right _ hbpl)
  have hfit : cmds.flatten.length ≤ (bufAt s.mem dst).len := by
    rw [hcmds hne]
    refine (length_packList hbpl).trans ((packBound_le hbpl _).trans ?_)
    rwa [bytesOf_length]
  obtain ⟨mem, hexec, hbytes, -⟩ := pbePack_completes hfit hrun
  refine ⟨_, _, hexec, ?_⟩
  have hunpack := hpacks.unpackList hpacks.length_le
  rw [bytesOf_length] at hunpack
  rw [show bytesOf mem (wholeBuf s.mem dst) 0 cmds.flatten.length = cmds.flatten from hbytes]
  exact hunpack

end Sys2Proof.Proofs
end

section
/-! The chunk tree of `SEQ.ENCODEC` (R355, R356, R358): what SEQ files with CKW, as one growing list of
bytes from the container's start. -/

namespace Sys2Proof.Machine

variable {α : Type} {s t u : State} {b body : BufRef} {starts : List Nat} {out payload payload' : List Byte}
  {n e e' k slot i st : Nat} {tag : U32} {x y : Op Unit} {m : Mem} {c : Ckw}

/-! ### What a container encode leaves alone -/

/-- The state without memory, bindings, and the registers of the three units that a container encode
ends its passes with. -/
def bare (t : State) : State :=
  { t with
    mem := [], pxr := State.reset.pxr, bpw := State.reset.bpw, ckw := State.reset.ckw
    bpr := { t.bpr with buf := none }, pxw := { t.pxw with buf := none }
    ckr := { t.ckr with src := none } }

theorem pal_of_bare (h : bare t = bare s) : t.pal = s.pal := (congrArg State.pal h :)

theorem ready_pal_of_bare (h : bare t = bare s) (hs : ready .pal s) : ready .pal t := by
  have hpal := pal_of_bare h
  obtain ⟨hfault, hinit, hbound⟩ := hs
  refine ⟨?_, hinit, hbound⟩
  rw [faultOf, hpal]
  exact hfault

theorem slotAt_of_bare (h : bare t = bare s) (slot : Nat) : slotAt t slot = slotAt s slot := by
  rw [slotAt, slotAt, pal_of_bare h]

/-- What is left alone, as the statements say it. -/
theorem eq_of_bare (h : bare t = bare s) :
    t = { withBindings t s with mem := t.mem, pxr := t.pxr, bpw := t.bpw, ckw := t.ckw } := by
  obtain ⟨pal, bpr, bpw, pxr, pxw, pbd, vdd, ckr, ham, rpa, seq, pbe, ckw, mem, pending, reply, draws⟩ := t
  obtain ⟨pal', ⟨⟩, bpw', pxr', ⟨⟩, pbd', vdd', ⟨⟩, ham', rpa', seq', pbe', ckw', mem', pending', reply',
    draws'⟩ := s
  obtain ⟨⟩ := bpr
  obtain ⟨⟩ := pxw
  obtain ⟨⟩ := ckr
  simp only [bare, State.mk.injEq, Bpr.mk.injEq, PixUnit.mk.injEq, Ckr.mk.injEq] at h
  simp only [withBindings, State.mk.injEq, Bpr.mk.injEq, PixUnit.mk.injEq, Ckr.mk.injEq]
  tauto

/-! ### A list of bytes filed -/

/-- In `t` CKW has filed the bytes `out` since it was bound to `b`, with open chunks at `starts`. -/
structure Filed (s : State) (b : BufRef) (starts : List Nat) (out : List Byte) (t : State) : Prop where
  bare : bare t = bare s
  writes : Writes (inRange b 0 out.length) s.mem t.mem
  bytes : bytesAt t.mem b 0 out
  dst : t.ckw.dst = some b
  pos : t.ckw.pos = out.length
  init : t.ckw.init = true
  fault : t.ckw.fault.valid = false
  sd : t.ckw.sd = starts.length
  stack : ∀ i (h : i < starts.length), sget 0 t.ckw.start i = starts[i]

namespace Filed

variable (hF : Filed s b starts out t)
include hF

theorem ready : ready .ckw t := ⟨hF.fault, hF.init, by simp [bound, keepsBinding, bindingOf, hF.dst]⟩

theorem refOf_dst : refOf t.ckw.dst = b := by rw [hF.dst]; rfl

theorem refOk (hb : refOk s.mem b) : Machine.refOk t.mem b := (refOk_of_len (hF.writes.len_eq b.id)).mpr hb

/-- Bytes appended by CKW. -/
theorem append (hb : Machine.refOk s.mem b) (hroom : out.length + payload.length ≤ b.len) :
    Filed s b starts (out ++ payload) (ckwAfter payload t) := by
  have hat : (ckwAfter payload t).mem = writeBytes t.mem b out.length payload := by
    rw [ckwAfter, hF.refOf_dst, hF.pos]
  refine ⟨hF.bare, ?_, ?_, hF.dst, ?_, hF.init, hF.fault, hF.sd, hF.stack⟩
  · rw [hat, List.length_append]
    exact (hF.writes.mono fun _ _ => inRange_mono le_rfl (by omega)).trans
      ((writes_writeBytes b payload t.mem out.length).mono fun _ _ => inRange_mono (by omega) le_rfl)
  · rw [hat, bytesAt_append]
    refine ⟨?_, ?_⟩
    · refine (bytesOf_congr fun i hi => ?_).trans hF.bytes
      exact byteAt_writeBytes_outside (.inr (.inl (by omega)))
    · rw [Nat.zero_add]
      exact bytesAt_writeBytes (hF.refOk hb) hroom
  · rw [List.length_append, ← hF.pos]
    rfl

/-- `CKW.START` in front of the next chunk. -/
theorem started (hb : Machine.refOk s.mem b) (hdepth : starts.length < Config.ckDepth)
    (hroom : evenUp out.length + 8 ≤ b.len) (tag : U32) :
    ckwStartOp tag t = .ok () (ckwStarted tag t) ∧
      Filed s b (starts ++ [evenUp out.length]) (out ++ chunkHead out.length tag) (ckwStarted tag t) := by
  have hlength := pos_add_chunkHead out.length tag
  have hfiled := hF.append (payload := chunkHead out.length tag) hb (by omega)
  rw [← hF.pos] at hfiled hlength hroom ⊢
  refine ⟨ckwStartOp_ok hF.ready (by rw [hF.sd]; omega) (by rw [hF.refOf_dst]; exact hroom) tag,
    hfiled.bare, hfiled.writes, hfiled.bytes, hF.dst, ?_, hF.init, hF.fault, ?_, fun i hi => ?_⟩
  · rw [List.length_append, ← hF.pos, hlength]
    rfl
  · rw [List.length_append, ← hF.sd]
    rfl
  · show sget 0 (sput 0 t.ckw.start t.ckw.sd (evenUp t.ckw.pos)) i = _
    rw [sget_sput, hF.sd]
    split
    · next h => simp [h]
    · next h =>
      rw [List.length_append, List.length_singleton] at hi
      rw [hF.stack i (by omega), List.getElem_append_left]

end Filed

/-- Bytes written over others of the same number. -/
theorem bytesAt_patch {off : Nat} {pre mid mid' post : List Byte} (hb : refOk m b)
    (h : bytesAt m b off (pre ++ (mid ++ post))) (hsame : mid'.length = mid.length)
    (hroom : off + (pre ++ (mid ++ post)).length ≤ b.len) :
    bytesAt (writeBytes m b (off + pre.length) mid') b off (pre ++ (mid' ++ post)) := by
  simp only [List.length_append] at hroom
  rw [bytesAt_append, bytesAt_append] at h ⊢
  obtain ⟨hpre, -, hpost⟩ := h
  refine ⟨?_, bytesAt_writeBytes hb (by omega), ?_⟩
  · refine (bytesOf_congr fun i hi => ?_).trans hpre
    exact byteAt_writeBytes_outside (.inr (.inl (by omega)))
  · rw [hsame]
    refine (bytesOf_congr fun i hi => ?_).trans hpost
    exact byteAt_writeBytes_outside (.inr (.inr (by omega)))

/-- `CKW.END`: the length behind the tag (R356). -/
theorem Filed.ended {pre : List Byte} (hb : Machine.refOk s.mem b)
    (hF : Filed s b (starts ++ [pre.length])
      (pre ++ (beBytes 4 tag.toNat ++ beBytes 4 0 ++ payload)) t)
    (hroom : pre.length + 8 + payload.length ≤ b.len) :
    ckwEndOp t = .ok (t.ckw.pos - pre.length) (ckwEnded pre.length t) ∧
      Filed s b starts (pre ++ chunkBytes tag payload) (ckwEnded pre.length t) := by
  have hsd : t.ckw.sd = starts.length + 1 := hF.sd.trans (by rw [List.length_append]; rfl)
  have hpos : t.ckw.pos - pre.length - 8 = payload.length := by
    rw [hF.pos]
    simp only [List.length_append, beBytes_length]
    omega
  have hmem : (ckwEnded pre.length t).mem =
      writeBytes t.mem b (pre.length + 4) (beBytes 4 payload.length) := by
    rw [ckwEnded_mem, hF.refOf_dst, hpos]
  have hsize : (pre ++ chunkBytes tag payload).length =
      (pre ++ (beBytes 4 tag.toNat ++ beBytes 4 0 ++ payload)).length := by
    simp only [chunkBytes, List.length_append, beBytes_length]
  have hstack := hF.stack starts.length (by rw [List.length_append]; exact Nat.lt_succ_self _)
  rw [List.getElem_append_right le_rfl] at hstack
  refine ⟨ckwEndOp_ok hF.ready (by omega) (by rw [hsd]; simpa using hstack)
    (by rw [hF.refOf_dst]; omega), ?_⟩
  refine ⟨hF.bare, ?_, ?_, hF.dst, ?_, hF.init, hF.fault, ?_, fun i hi => ?_⟩
  · rw [hmem, hsize]
    refine hF.writes.trans ((writes_writeBytes b _ t.mem _).mono fun _ _ => inRange_mono
      (Nat.zero_le _) ?_)
    simp only [List.length_append, beBytes_length]
    omega
  · have hpatch := bytesAt_patch (off := 0) (pre := pre ++ beBytes 4 tag.toNat) (mid := beBytes 4 0)
      (mid' := beBytes 4 payload.length) (post := payload) (hF.refOk hb)
      (by simpa only [List.append_assoc] using hF.bytes) (by rw [beBytes_length, beBytes_length])
      (by simp only [List.length_append, beBytes_length]; omega)
    rw [hmem]
    rw [List.length_append, beBytes_length, Nat.zero_add] at hpatch
    simpa only [chunkBytes, List.append_assoc] using hpatch
  · rw [hsize, ← hF.pos]
    rfl
  · show t.ckw.sd - 1 = _
    rw [hsd, Nat.add_sub_cancel]
  · refine (hF.stack i (by rw [List.length_append]; omega)).trans ?_
    rw [List.getElem_append_left]

/-! ### Operations that file bytes -/

/-- Wherever CKW stands at an offset of parity `e` and `n` more chunks may be opened, the operation
files the bytes `payload`. -/
def Appends (s : State) (b : BufRef) (n e : Nat) (x : Op Unit) (payload : List Byte) : Prop :=
  ∀ (starts : List Nat) (out : List Byte) (t : State), Filed s b starts out t →
    starts.length + n ≤ Config.ckDepth → out.length % 2 = e →
    out.length + payload.length ≤ b.len →
    ∃ u, x t = .ok () u ∧ Filed s b starts (out ++ payload) u

section
variable (hb : refOk s.mem b)

theorem appends_nil : Appends s b n e (pure ()) [] := fun starts out t hF _ _ _ =>
  ⟨t, rfl, by rwa [List.append_nil]⟩

theorem appends_bind (hx : Appends s b n e x payload) (he : (e + payload.length) % 2 = e')
    (hy : Appends s b n e' y payload') :
    Appends s b n e (do x; y) (payload ++ payload') := by
  intro starts out t hF hdepth heven hroom
  rw [List.length_append] at hroom
  obtain ⟨u, hu, hFu⟩ := hx starts out t hF hdepth heven (by omega)
  obtain ⟨v, hv, hFv⟩ := hy starts _ u hFu hdepth
    (by rw [List.length_append]; omega)
    (by rw [List.length_append]; omega)
  exact ⟨v, (bind_ok hu).trans hv, by rwa [← List.append_assoc]⟩

include hb

/-- `CKW.WR8`, `CKW.WR16`, `CKW.WR32`. -/
theorem appends_seqWr (k v : Nat) : Appends s b n e (seqWr k v) (beBytes k v) := by
  intro starts out t hF _ _ hroom
  rw [beBytes_length] at hroom
  refine ⟨_, seqCall_ok (ckwWriteOp_ok hF.ready (by rw [hF.pos, hF.refOf_dst]; exact hroom) v),
    hF.append hb (by rwa [beBytes_length])⟩

/-- A chunk, after the pad byte of an odd offset (R355, R356). -/
theorem appends_seqChunk (tag : U32) (hx : Appends s b n 0 x payload) :
    Appends s b (n + 1) e (seqChunk tag x) (List.replicate e 0 ++ chunkBytes tag payload) := by
  intro starts out t hF hdepth heven hroom
  simp only [chunkBytes, List.length_append, List.length_replicate, beBytes_length] at hroom
  have hpre : (out ++ List.replicate e 0).length = evenUp out.length := by
    rw [List.length_append, List.length_replicate, evenUp, heven]
  have hodd : e < 2 := heven ▸ Nat.mod_lt _ Nat.two_pos
  obtain ⟨hstart, hFs⟩ := hF.started hb (by omega) (by rw [evenUp, heven]; omega) tag
  obtain ⟨u, hu, hFu⟩ := hx _ _ _ hFs (by rw [List.length_append]; exact (by simp; omega))
    (by rw [List.length_append, pos_add_chunkHead, evenUp]; omega)
    (by rw [List.length_append, pos_add_chunkHead, evenUp, heven]; omega)
  rw [← hpre, chunkHead, heven, List.append_assoc, List.append_assoc, ← List.append_assoc out] at hFu
  obtain ⟨hend, hFe⟩ := hFu.ended hb (by rw [hpre, evenUp, heven]; omega)
  refine ⟨_, (bind_ok (seqCall_ok hstart)).trans ((bind_ok hu).trans (bind_ok (seqCall_ok hend))), ?_⟩
  rwa [← List.append_assoc]

omit hb in
/-- A loop whose round `i` files the bytes of `g i`. -/
theorem appends_forFrom {f : Nat → Op Unit} {g : Nat → List Byte} : ∀ {i k : Nat} {e : Nat},
    (∀ j < k, ∀ e, Appends s b n e (f (i + j)) (g (i + j))) →
      Appends s b n e (forFrom f i k) ((List.range' i k).flatMap g)
  | i, 0, e, _ => appends_nil
  | i, k + 1, e, h => by
    rw [List.range'_succ, List.flatMap_cons, forFrom_succ]
    refine appends_bind (h 0 (Nat.succ_pos k) e) rfl (appends_forFrom fun j hj e => ?_)
    have hround := h (j + 1) (Nat.succ_lt_succ hj) e
    rwa [← Nat.add_assoc, Nat.add_right_comm i j 1] at hround

/-! ### The chunks of an encoded image -/

theorem appends_byte (v : Byte) : Appends s b n e (seqWr 1 v.toNat) [v] := by
  have hwrite := appends_seqWr (n := n) (e := e) hb 1 v.toNat
  rwa [beBytes_u8] at hwrite

theorem appends_writeHeader (o : EncOptions) (p : Nat) :
    Appends s b n e (writeHeader o p) (encodedHeader o p) := by
  have hbytes : encodedHeader o p = beBytes 2 o.width.toNat ++ (beBytes 2 o.height.toNat ++
      (beBytes 2 o.xOrigin.toNat ++ (beBytes 2 o.yOrigin.toNat ++ (beBytes 1 p ++
      (beBytes 1 o.mask.toNat ++ (beBytes 1 (if o.compress then 1 else 0) ++ (beBytes 1 o.pad.toNat ++
      (beBytes 2 o.transparentColor.toNat ++ (beBytes 1 o.xAspect.toNat ++ (beBytes 1 o.yAspect.toNat ++
      (beBytes 2 o.pageWidth.toNat ++ beBytes 2 o.pageHeight.toNat))))))))))) := by
    cases hc : o.compress <;> simp [encodedHeader, beBytes, hc]
  rw [hbytes, writeHeader]
  iterate 12 refine appends_bind (appends_seqWr hb _ _) rfl ?_
  exact appends_seqWr hb _ _

/-- The mode chunk, where mode flags are given (R358). -/
def modeChunk (tag : U32) (flags : Option U32) : List (U32 × List Byte) :=
  match flags with
  | none => []
  | some v => [(tag, beBytes 4 v.toNat)]

theorem appends_writeMode (tag : U32) (flags : Option U32) :
    Appends s b (n + 1) 0 (writeMode tag flags) ((modeChunk tag flags).flatMap paddedChunk) := by
  cases flags with
  | none => exact appends_nil
  | some v =>
    have hchunk := appends_seqChunk (n := n) (e := 0) hb tag (appends_seqWr hb 4 v.toNat)
    have hbytes : (modeChunk tag (some v)).flatMap paddedChunk =
        List.replicate 0 0 ++ chunkBytes tag (beBytes 4 v.toNat) := by
      simp [modeChunk, paddedChunk]
    rwa [hbytes]

/-- The three bytes of an entry at 8 bits (R358). -/
def entryBytes (p : Slot) (i : Nat) : List Byte :=
  [rescaleByte (entryAt p i).r p.bpc 8, rescaleByte (entryAt p i).g p.bpc 8,
    rescaleByte (entryAt p i).b p.bpc 8]

omit hb in
theorem encodedPalette_eq (p : Slot) :
    encodedPalette p = (List.range' 0 p.count).flatMap (entryBytes p) := by
  rw [← List.range_eq_range']
  rfl

omit hb in
theorem encodedPalette_length (p : Slot) : (encodedPalette p).length = 3 * p.count := by
  have hthree (i : Nat) : (entryBytes p i).length = 3 := rfl
  rw [encodedPalette_eq, List.length_flatMap]
  simp [hthree, Nat.mul_comm]

/-- The palette that the container encode writes: readable, and set throughout (R358). -/
structure PaletteSet (s : State) (slot : Nat) : Prop where
  ready : ready .pal s
  readable : readableSlot s slot
  set : ∀ i < (slotAt s slot).count, (entryAt (slotAt s slot) i).set = true

theorem appends_writePaletteEntry (hpal : PaletteSet s slot) (hi : i < (slotAt s slot).count) :
    Appends s b n e (writePaletteEntry slot i) (entryBytes (slotAt s slot) i) := by
  intro starts out t hF
  have hsame := slotAt_of_bare hF.bare slot
  have hmade : readableSlot t slot := ⟨hpal.readable.1, by rw [hsame]; exact hpal.readable.2⟩
  have hentry := hpal.set i hi
  have hget : seqCall .pal (palGetOp slot i) t = .ok (entryAt (slotAt s slot) i) t := by
    refine seqCall_ok ((palGetOp_run (ready_pal_of_bare hF.bare hpal.ready) hmade).trans ?_)
    rw [hsame, raiseIf_bind_false (Nat.not_le_of_lt hi), raiseIf_bind_false (by simp [hentry])]
    rfl
  rw [writePaletteEntry, bind_ok hget, get_bind, hsame, rescaleEntry, if_pos hentry]
  exact appends_bind (appends_byte hb _) rfl (appends_bind (appends_byte hb _) rfl
    (appends_byte hb _)) starts out t hF

theorem appends_writePalette (hpal : PaletteSet s slot) (tag : U32) :
    Appends s b (n + 1) 0 (writePalette tag slot)
      (chunkBytes tag (encodedPalette (slotAt s slot))) := by
  intro starts out t hF
  have hloop : Appends s b n 0 (forFrom (writePaletteEntry slot) 0 (slotAt s slot).count)
      (encodedPalette (slotAt s slot)) := by
    rw [encodedPalette_eq]
    refine appends_forFrom fun j hj e => ?_
    rw [Nat.zero_add]
    exact appends_writePaletteEntry hb hpal hj
  rw [writePalette, get_bind, slotAt_of_bare hF.bare]
  exact appends_seqChunk (e := 0) hb tag hloop starts out t hF

omit hb in
theorem bytesOf_eq_flatMap (m : Mem) (r : BufRef) (n : Nat) :
    bytesOf m r 0 n = (List.range' 0 n).flatMap fun i => [refByte m r i] := by
  rw [← List.range_eq_range', ← List.map_eq_flatMap, bytesOf]
  simp only [Nat.zero_add]

theorem appends_writeBodyByte (hne : body.id ≠ b.id) (i : Nat) :
    Appends s b n e (writeBodyByte body i) [refByte s.mem body i] := by
  intro starts out t hF
  have hsame : refByte t.mem body i = refByte s.mem body i :=
    hF.writes.byteAt_eq fun hin => hne hin.1
  rw [writeBodyByte, get_bind, hsame]
  exact appends_byte hb _ starts out t hF

theorem appends_writeBody (hne : body.id ≠ b.id) (k : Config.Codes) (layout : BodyLayout) :
    Appends s b (n + 1) e (writeBody k layout body)
      (List.replicate e 0 ++ chunkBytes (bodyTagOf k layout) (bytesOf s.mem body 0 body.len)) := by
  rw [bytesOf_eq_flatMap]
  refine appends_seqChunk hb _ (appends_forFrom fun j hj e => ?_)
  rw [Nat.zero_add]
  exact appends_writeBodyByte hb hne j

omit hb in
theorem encodedHeader_length (o : EncOptions) (p : Nat) : (encodedHeader o p).length = 20 := by
  simp only [encodedHeader, List.length_append, beBytes_length, List.length_cons, List.length_nil]

omit hb in
theorem modeChunk_length (tag : U32) (flags : Option U32) :
    ((modeChunk tag flags).flatMap paddedChunk).length = if flags.isSome then 12 else 0 := by
  cases flags with
  | none => rfl
  | some v => simp [modeChunk, paddedChunk, chunkBytes]

omit hb in
/-- The container, chunk by chunk as it is filed. -/
theorem encodedContainer_eq (k : Config.Codes) (o : EncOptions) (p : Nat) (pal : Slot) (bs : List Byte) :
    encodedContainer k o p pal bs =
      List.replicate 0 0 ++ chunkBytes k.outer (beBytes 4 (typeOf k o.layout).toNat ++
        ((List.replicate 0 0 ++ chunkBytes k.hdr (encodedHeader o p)) ++
        ((modeChunk k.mode o.modeFlags).flatMap paddedChunk ++
        (chunkBytes k.pal (encodedPalette pal) ++
        (List.replicate ((encodedPalette pal).length % 2) 0 ++
          chunkBytes (bodyTagOf k o.layout) bs))))) := by
  have hheader : paddedChunk (k.hdr, encodedHeader o p) = chunkBytes k.hdr (encodedHeader o p) := by
    rw [paddedChunk, encodedHeader_length]
    exact List.append_nil _
  have hmode : encodedContainer k o p pal bs = containerBytes k (typeOf k o.layout)
      ([(k.hdr, encodedHeader o p)] ++ modeChunk k.mode o.modeFlags ++ [(k.pal, encodedPalette pal)])
      (chunkBytes (bodyTagOf k o.layout) bs) := rfl
  rw [hmode, containerBytes]
  simp only [List.flatMap_append, List.flatMap_cons, List.flatMap_nil, List.append_nil, hheader,
    List.append_assoc, List.replicate_zero, List.nil_append]
  simp only [paddedChunk, List.append_assoc]

omit hb in
theorem encodedContainer_length (k : Config.Codes) (o : EncOptions) (p : Nat) (pal : Slot)
    (bs : List Byte) : (encodedContainer k o p pal bs).length =
      56 + (if o.modeFlags.isSome then 12 else 0) + 3 * pal.count + 3 * pal.count % 2 + bs.length := by
  simp only [encodedContainer_eq, List.replicate_zero, List.nil_append, chunkBytes_length,
    List.length_append, beBytes_length, encodedHeader_length, modeChunk_length, encodedPalette_length,
    List.length_replicate]
  omega

/-- The chunk tree files the container (R358). -/
theorem appends_tree (hpal : PaletteSet s slot) (hne : body.id ≠ b.id) (k : Config.Codes)
    (o : EncOptions) (p : Nat) :
    Appends s b 2 0 (seqChunk k.outer do
        seqWr 4 (typeOf k o.layout).toNat
        seqChunk k.hdr (writeHeader o p)
        writeMode k.mode o.modeFlags
        writePalette k.pal slot
        writeBody k o.layout body)
      (encodedContainer k o p (slotAt s slot) (bytesOf s.mem body 0 body.len)) := by
  rw [encodedContainer_eq]
  refine appends_seqChunk hb _ ?_
  refine appends_bind (appends_seqWr hb _ _) (e' := 0) (by rw [beBytes_length]) ?_
  refine appends_bind (appends_seqChunk hb _ (appends_writeHeader hb o p)) (e' := 0) ?_ ?_
  · rw [List.replicate_zero, List.nil_append, chunkBytes_length, encodedHeader_length]
  refine appends_bind (appends_writeMode hb _ _) (e' := 0) ?_ ?_
  · rw [modeChunk_length]
    split <;> rfl
  refine appends_bind (appends_writePalette hb hpal _) ?_ (appends_writeBody hb hne k o.layout)
  rw [chunkBytes_length]
  omega

end

end Sys2Proof.Machine
end

section
/-! `SEQ.ENCODEC` as a whole (R358): the encode, the body, the chunk tree; O60. -/

namespace Sys2Proof.Machine

variable {s t u : State} {cout body work pack : BufRef} {slot p w h x b size : Nat} {f : PlaneFormat}
  {o : EncOptions} {index : Nat → Nat} {k : Config.Codes} {p? : Option Nat}

/-! ### The chunk tree -/

/-- After `CKW.INIT` (R357). -/
def chunksStart (r : BufRef) (s : State) : State :=
  claim .ckw r { s with ckw := { s.ckw with init := true, dst := some r, pos := 0, sd := 0,
                                            fault := { s.ckw.fault with valid := false } } }

theorem ckwInitOp_ok (r : BufRef) (s : State) : ckwInitOp r s = .ok () (chunksStart r s) := rfl

theorem filed_start (r : BufRef) (s : State) : Filed s r [] [] (chunksStart r s) :=
  ⟨rfl, .refl _, rfl, rfl, rfl, rfl, rfl, rfl, fun _ hi => absurd hi (Nat.not_lt_zero _)⟩

theorem encodecTree_run (hpal : PaletteSet s slot) (hb : refOk s.mem cout) (hne : body.id ≠ cout.id)
    {total : List Byte}
    (htotal : total = encodedContainer k o p (slotAt s slot) (bytesOf s.mem body 0 body.len))
    (hroom : total.length ≤ cout.len) :
    ∃ u, encodecTree k o slot p body cout s = .ok () u ∧ bare u = bare s ∧
      Writes (inRange cout 0 total.length) s.mem u.mem ∧ bytesAt u.mem cout 0 total ∧
      u.ckw.pos = total.length := by
  subst htotal
  obtain ⟨u, hu, hF⟩ := appends_tree hb hpal hne k o p [] [] _ (filed_start cout s) (by decide) rfl
    (by rwa [List.length_nil, Nat.zero_add])
  exact ⟨unbind .ckw u, (bind_ok (seqCall_ok (ckwInitOp_ok cout s))).trans (endPass_ok hu), hF.bare,
    hF.writes, hF.bytes, hF.pos⟩

/-! ### The body -/

/-- The bytes of the body: the planes', or their commands line by line (R358). -/
def encodedBody (o : EncOptions) (size : Nat) (planes : List Byte) : List Byte :=
  if o.compress then (packList (o.width.toNat / 8) size planes).flatten else planes

/-- PBE's register after a container encode. -/
def packedPbe (o : EncOptions) (e : Pbe) : Pbe :=
  if o.compress then ⟨{ e.fault with valid := false }⟩ else e

theorem bare_pbeAfter_packStart (dst : BufRef) (pos : Nat) (out : List Byte) (s : State) :
    bare (pbeAfter dst pos out (packStart dst s)) =
      bare { s with pbe := ⟨{ s.pbe.fault with valid := false }⟩ } := rfl

/-- Where the bytes of the body lie, and what making them has changed. -/
structure BodyMade (s : State) (o : EncOptions) (work pack : BufRef) (size packMax : Nat)
    (body : BufRef) (u : State) : Prop where
  place : body.id = if o.compress then pack.id else work.id
  bytes : bytesOf u.mem body 0 body.len = encodedBody o size (bytesOf s.mem work 0 size)
  bare : bare u = bare { s with pbe := packedPbe o s.pbe }
  writes : Writes (fun id a => o.compress = true ∧ inRange pack 0 packMax id a) s.mem u.mem

theorem encodecBody_run {packMax : Nat} (hsize : size ≤ work.len) (hw : 0 < o.width.toNat / 8)
    (hpack : o.compress = true → pack.id ≠ work.id ∧ packBound (o.width.toNat / 8) size ≤ packMax ∧
      packMax ≤ pack.len ∧ refOk s.mem pack) :
    ∃ body u, encodecBody o work pack size s = .ok body u ∧ BodyMade s o work pack size packMax body u := by
  have hwindow := windowOf_of_le ((Nat.zero_add size).trans_le hsize)
  unfold encodecBody
  rw [hwindow, Nat.add_zero]
  cases hc : o.compress with
  | false =>
    refine ⟨_, s, rfl, ?_, ?_, ?_, .refl _⟩
    · rw [hc]
      rfl
    · rw [encodedBody, hc]
      rfl
    · rw [packedPbe, hc]
      rfl
  | true =>
    obtain ⟨hne, hbound, hfits, hrefOk⟩ := hpack hc
    obtain ⟨cmds, hrun, hcmds⟩ := pbePackOp_emits (s := s) (src := ⟨work.id, work.base, size⟩)
      (dst := pack) hw
    have hbody : cmds.flatten = encodedBody o size (bytesOf s.mem work 0 size) := by
      rw [hcmds hne.symm, encodedBody, hc]
      rfl
    have hlength : cmds.flatten.length ≤ packMax := by
      rw [hcmds hne.symm]
      refine (length_packList hw).trans ?_
      rwa [bytesOf_length]
    have hroom : 0 + cmds.flatten.length ≤ pack.len := by omega
    refine ⟨_, _, (bind_ok (seqCall_ok (packs_ok (by omega) hrun))), ?_, ?_, ?_, ?_⟩
    · rw [hc]
      rfl
    · rw [windowOf_of_le hroom, ← hbody]
      exact bytesAt_writeBytes hrefOk hroom
    · rw [packedPbe, hc]
      exact bare_pbeAfter_packStart _ _ _ _
    · refine (writes_writeBytes pack cmds.flatten s.mem 0).mono fun id a hin => ⟨hc, ?_⟩
      exact inRange_mono le_rfl (by omega) hin

/-! ### The encode of the planes -/

section
variable (hmem : memoryOk s) (hw : 0 < w) (hw16 : w % 16 = 0) (hh : 0 < h) (hp : 0 < p)
  (h8 : p ≤ Config.planesMax) (hslot : readableSlot s slot) (hq : PlaneCount s slot p? p)
  (hbx : b ≠ x) (hb : encodeSize w h p ≤ (bufAt s.mem b).len) (hx : 4 * w * h ≤ (bufAt s.mem x).len)
  (hI : Indexed s x slot p (w * h) index)
include hmem hw hw16 hh hp h8 hslot hq hbx hb hx hI

/-- The pass of `SEQ.ENCODE`, inside SEQ's own operation, and what the operation of its own leaves. -/
theorem encodePass_run : ∃ u,
    encodePass (wholeBuf s.mem x) slot w h p f (wholeBuf s.mem b) (clearedFault .seq s) = .ok () u ∧
      exec (.seqEncode x slot w h p? f b) s = completes .unit u ∧
      bare u = bare { s with
        seq := { s.seq with state := .done, fault := { s.seq.fault with valid := false } } } ∧
      Writes (inRange (wholeBuf s.mem b) 0 (encodeSize w h p)) s.mem u.mem := by
  obtain ⟨u, hu, hE⟩ := times_ok (x := encodePixel) (Encoding s x slot w h p f b index) (w * h)
    (fun k hk v hv => hv.pixel hw hw16 hh hbx hb hx hk (hI k hk).2 (hI k hk).1) _ (.start hb index)
  refine ⟨_, onStop_ok ((bind_ok (pixelsInit_run hslot)).trans (bind_ok (endPass_ok
      ((bind_ok (planesInit_run hmem hw hh hp h8 hb hx)).trans (endPass_ok hu))))),
    seqEncode_of_loop hmem hw hw16 hh hp h8 hslot hq hb hx hu, ?_, hE.writes⟩
  rw [hE.shape]
  rfl

end

/-! ### The whole -/

theorem PaletteSet.of_bare {r : Pbe} {q : Seq} (h : bare t = bare { s with pbe := r, seq := q })
    (hs : PaletteSet s slot) : PaletteSet t slot := by
  have hsame : slotAt t slot = slotAt s slot := slotAt_of_bare h slot
  refine ⟨ready_pal_of_bare h hs.ready, ⟨hs.readable.1, ?_⟩, ?_⟩
  · rw [hsame]
    exact hs.readable.2
  · rw [hsame]
    exact hs.set

theorem packBound_planes (hw : 0 < w / 8) :
    packBound (w / 8) (w / 8 * h * p) = h * p * (w / 8 + (w / 8 + 127) / 128) := by
  rw [Nat.mul_assoc, packBound, Nat.mul_div_cancel_left _ hw, Nat.mul_mod_right,
    Nat.zero_add, Nat.div_eq_of_lt (Nat.lt_succ_self 127), Nat.add_zero]

theorem encodedBody_length {packMax : Nat} {planes : List Byte} (hw : 0 < o.width.toNat / 8)
    (hplanes : planes.length = size) (hbound : packBound (o.width.toNat / 8) size ≤ packMax) :
    (encodedBody o size planes).length ≤ if o.compress then packMax else size := by
  unfold encodedBody
  split
  · refine (length_packList hw).trans ?_
    rwa [hplanes]
  · exact hplanes.le

/-- The operation, its parts being run. -/
theorem seqEncodec_of_parts {pix container : Nat} {u1 u2 u3 : State}
    (hchecks : encodeChecks (wholeBuf s.mem pix) slot o.width.toNat o.height.toNat o.planes
      (wholeBuf s.mem o.workBuf) (clearedFault .seq s) = .ok p (clearedFault .seq s))
    (hpass : encodePass (wholeBuf s.mem pix) slot o.width.toNat o.height.toNat p (formatOf o.layout)
      (wholeBuf s.mem o.workBuf) (clearedFault .seq s) = .ok () u1)
    (hbody : encodecBody o (wholeBuf s.mem o.workBuf) (wholeBuf s.mem o.packBuf)
      (encodeSize o.width.toNat o.height.toNat p) u1 = .ok body u2)
    (htree : encodecTree Config.codes o slot p body (wholeBuf s.mem container) u2 = .ok () u3) :
    exec (.seqEncodec pix slot o container) s =
      completes (.nat u3.ckw.pos) { u3 with seq := { u3.seq with state := .done } } :=
  runOp_ok ((bind_ok (clearFault_run .seq s)).trans ((bind_ok hchecks).trans
    (bind_ok (onStop_ok ((bind_ok hpass).trans ((bind_ok hbody).trans htree))))))

end Sys2Proof.Machine

namespace Sys2Proof.Proofs

open Sys2Proof.Machine

/-- Settles O60: the planes as `SEQ.ENCODE` makes them, the body as `PBE.PACK` does, then the chunks of
the container, filed one after the other. -/
theorem seqEncodecCompletes : Obligations.SeqEncodecCompletes := by
  intro s x slot c o p w h size pal packMax lut hmem _ hready hw hw16 hh hp h8 hworkX hworkC hslot hmade
    hset hplanes hsize hpixels hpack hroom hindex
  have hread : readableSlot s slot := ⟨hslot, hmade⟩
  have hq : PlaneCount s slot o.planes p := hplanes.imp_right fun ⟨hnone, hp⟩ => ⟨hnone, hready, hread, hp⟩
  have hline : 0 < w / 8 := by omega
  have hbound : packBound (w / 8) size = packMax := packBound_planes hline
  obtain ⟨u1, hpass, hexec, hbare1, hwrites1⟩ := encodePass_run (f := formatOf o.layout) hmem hw hw16 hh
    hp h8 hread hq hworkX hsize hpixels (indexed_of_holds hindex)
  have hlen1 (id : Nat) := hwrites1.len_eq id
  obtain ⟨body, u2, hbody, hmade2⟩ := encodecBody_run (s := u1) (o := o)
    (work := wholeBuf s.mem o.workBuf) (pack := wholeBuf s.mem o.packBuf) (size := size)
    (packMax := packMax) hsize hline fun hc => by
      obtain ⟨hne, -, hfits⟩ := hpack hc
      exact ⟨hne, hbound.le, hfits, (refOk_of_len (hlen1 _)).mpr (refOk_wholeBuf s.mem _)⟩
  have hpbe1 : u1.pbe = s.pbe := (congrArg State.pbe hbare1 :)
  have hbare2 : bare u2 = bare { s with
      pbe := packedPbe o s.pbe
      seq := { s.seq with state := .done, fault := { s.seq.fault with valid := false } } } := by
    rw [hmade2.bare, hpbe1]
    exact congrArg (fun t => { t with pbe := packedPbe o s.pbe }) hbare1
  have hpal2 : PaletteSet u2 slot := .of_bare hbare2 ⟨hready, hread, hset.2⟩
  have hlen2 (id : Nat) := (hmade2.writes.len_eq id).trans (hlen1 id)
  have hcontainer : body.id ≠ c := by
    rw [hmade2.place]
    split
    · next hc => exact (hpack hc).2.1
    · exact hworkC
  have htotal : encodedContainer Config.codes o p pal
      (encodedBody o size (bytesOf u1.mem (wholeBuf s.mem o.workBuf) 0 size)) =
      encodedContainer Config.codes o p (slotAt u2 slot) (bytesOf u2.mem body 0 body.len) := by
    rw [hmade2.bytes, show slotAt u2 slot = pal from slotAt_of_bare hbare2 slot]
  generalize hbytes : encodedContainer Config.codes o p pal
    (encodedBody o size (bytesOf u1.mem (wholeBuf s.mem o.workBuf) 0 size)) = total at htotal
  have hfits : total.length ≤ (bufAt s.mem c).len := by
    have hlength := encodedBody_length (planes := bytesOf u1.mem (wholeBuf s.mem o.workBuf) 0 size)
      hline (bytesOf_length ..) hbound.le
    rw [← hbytes, encodedContainer_length]
    omega
  obtain ⟨u3, htree, hbare3, hwrites3, hbytes3, hpos3⟩ := encodecTree_run
    (cout := wholeBuf s.mem c) hpal2 ((refOk_of_len (hlen2 c)).mpr (refOk_wholeBuf s.mem c))
    hcontainer htotal hfits
  have hrun := seqEncodec_of_parts (encodeChecks_ok hw16 hp h8 hq hsize hpixels) hpass hbody htree
  rw [hpos3] at hrun
  have hbare : bare { u3 with seq := { u3.seq with state := .done } } = bare { s with
      pbe := packedPbe o s.pbe
      seq := { s.seq with state := .done, fault := { s.seq.fault with valid := false } } } :=
    congrArg (fun t => { t with seq := { t.seq with state := .done } }) (hbare3.trans hbare2)
  refine ⟨u1, _, _, total, hexec, rfl, hbytes.symm, hrun, hbytes3, eq_of_bare hbare, ?_, ?_⟩
  · have hkept := exec_bindingOf hrun .pxw
    simpa [makes, bindingOf] using hkept
  · intro id a hwork hcont hpackBuf
    have h3 : byteAt u3.mem id a = byteAt u2.mem id a := hwrites3.byteAt_eq fun ⟨hid, _, hlt⟩ =>
      hcont.elim (fun hne => hne hid) fun hle => by simp only [wholeBuf] at hlt; omega
    have h2 : byteAt u2.mem id a = byteAt u1.mem id a :=
      hmade2.writes.byteAt_eq fun ⟨hc, hid, _, hlt⟩ => by
        rcases hpackBuf with hraw | hne | hle
        · rw [hc] at hraw
          cases hraw
        · exact hne hid
        · simp only [wholeBuf] at hlt
          omega
    have h1 : byteAt u1.mem id a = byteAt s.mem id a := hwrites1.byteAt_eq fun ⟨hid, _, hlt⟩ =>
      hwork.elim (fun hne => hne hid) fun hle => by
        simp only [wholeBuf] at hlt
        exact absurd hlt (by rw [Nat.zero_add]; exact Nat.not_lt_of_le hle)
    exact h3.trans (h2.trans h1)

end Sys2Proof.Proofs
end
